-- ==== Sys2Proof/Word.lean ====
section
/-! DEFINITION. The words of the Nogra 640: bytes, 16-bit counts, 32-bit stamps, tags and register values. Addresses of memory are plain numbers (00_scope.md, section 6). -/

namespace Sys2Proof

/-- One byte of memory or of the download link. -/
abbrev Byte := BitVec 8

/-- A 16-bit count. -/
abbrev Half := BitVec 16

/-- A 32-bit register value, stamp, tag or check sum. -/
abbrev Word := BitVec 32

end Sys2Proof
end

