-- ==== Sys2Proof/Syntax.lean ====
section
/-! DEFINITION. The commands the 640 takes: one constructor per row of spec/opcode_table.json, in the table's order. -/

namespace Sys2Proof

/-- The three request chains (section 1.3). -/
inductive Chain where
  | page
  | control
  | fetch
deriving DecidableEq, Repr

/-- The two pulse generators of the front light (section 7.6). -/
inductive Generator where
  | warm
  | cool
deriving DecidableEq, Repr

/-- The commands. A command either comes from outside (a register write, an interconnect answer, a pin, a timer
running out) or is the moment at which a unit of the part takes its next step. -/
inductive Instr where
  /-- START written to CTRL (R1). -/
  | start
  /-- SOFT RESET written to CTRL (R19). -/
  | softReset
  /-- Power-on reset (R184). -/
  | powerOnReset
  /-- A write of `value` to BASE (R3). -/
  | baseWrite (value : Word)
  /-- A write of `value` to WALK: bits 2:0 are the chain mask (R4). -/
  | walk (value : Word)
  /-- A write of `value` to ACK: count in bits 15:0, cause in bits 19:16 (R5). -/
  | ack (value : Word)
  /-- The burst in flight is answered OKAY (R21). `data` are the bytes others have put at the burst's addresses, from its
  first byte on; where the list ends, main memory stands as the part last saw it. A write burst does not use it. -/
  | burstOkay (data : List Byte)
  /-- The burst in flight is answered RETRY (R31). `left` are the bytes an abandoned write left, from its first byte on. -/
  | burstRetry (left : List Byte)
  /-- The burst in flight is answered ERROR (R32). `left` are the bytes a failed write left, from its first byte on. -/
  | burstError (left : List Byte)
  /-- A chain that left HELD or has a walk remembered begins a walk (R9). -/
  | chainWalkBegin (chain : Chain)
  /-- The UPDATE record the PAGE walk has read is taken (R57). -/
  | update
  /-- The STAGE record the PAGE walk has read is taken (R116). -/
  | stage
  /-- The UNSTAGE record the PAGE walk has read is taken (R117). -/
  | unstage
  /-- The WAVEFORM record the PAGE walk has read is taken (R35). -/
  | waveform
  /-- The LIGHT record the CONTROL walk has read is taken (R130). -/
  | light
  /-- The REST record the CONTROL walk has read is taken (R187). -/
  | rest
  /-- The SETTINGS record the CONTROL walk has read is taken (R17). -/
  | settings
  /-- The TURNS SEEN record the CONTROL walk has read is taken (R127). -/
  | turnsSeen
  /-- The OPEN record the FETCH walk has read is taken (R156). -/
  | openFile
  /-- The CLOSE record the FETCH walk has read is taken (R159). -/
  | closeFile
  /-- The eligible entry is admitted (R68). -/
  | admission
  /-- Waiting entries make their store lookups again (R66). -/
  | storeLookupRetry
  /-- The first waiting retire pass begins (R73). -/
  | retirePassBegin
  /-- A frame starts (R87). -/
  | frameStart
  /-- The line time being driven ends (R88). -/
  | lineTimeEnd
  /-- stretch-limit passes with a line held (R94). -/
  | stretchLimitExpiry
  /-- The RAIL_GOOD pin becomes asserted (R98). -/
  | railGoodAsserted
  /-- The RAIL_GOOD pin becomes deasserted (R100). -/
  | railGoodDeasserted
  /-- The rise timer expires (R98). -/
  | riseTimeout
  /-- The idle-hold timer expires (R99). -/
  | idleHoldExpiry
  /-- The fall timer expires (R101). -/
  | fallTimerExpiry
  /-- The fault-hold timer expires (R102). -/
  | faultHoldExpiry
  /-- The pin of key line `line` takes the level `high` (R108). -/
  | keyLineChange (line : Fin 4) (high : Bool)
  /-- The debounce timer of key line `line` expires (R108). -/
  | debounceExpiry (line : Fin 4)
  /-- A turn in WAIT_PLACE appends its update again (R121). -/
  | turnAppendRetry
  /-- The 8 ms ramp tick of the front light (R135). -/
  | rampTick
  /-- A period boundary of the pulse generators (R140). -/
  | periodBoundary
  /-- The high count of generator `gen` runs out (R139). -/
  | highPhaseEnd (gen : Generator)
  /-- Bytes clocked in on the download link with LSEL active, in order (R151, R152). -/
  | chunkFrame (bytes : List Byte)
  /-- LSEL goes inactive (R153). -/
  | lselInactive
  /-- The dispatcher begins with the oldest stored chunk (R160). -/
  | dispatchBegin
  /-- The stall timer of file slot `slot` expires (R165). -/
  | stallTimerExpiry (slot : Fin 4)
  /-- The verify pass begins for the head of the verify queue (R166). -/
  | verifyPassBegin
  /-- The download stop comes to its end (R169). -/
  | downloadsStopped
  /-- The ADC conversion in progress ends with `code` (R178). -/
  | adcConversionEnd (code : BitVec 12)
  /-- The battery timer expires (R176). -/
  | batteryTimerExpiry
  /-- The periodic temperature timer expires (R177). -/
  | temperatureTimerExpiry
  /-- The temperature sample's age exceeds temp-max-age (R179). -/
  | temperatureAgedOut
  /-- A rest image in WAIT_PLACE is appended again (R188). -/
  | restImageAppendRetry
  /-- The quiesce timer expires (R191). -/
  | quiesceLimit
  /-- The drain conditions hold and the rest context is written (R190). -/
  | drainComplete
  /-- With the context written and the port idle, the part enters REST (R190). -/
  | enterRest
  /-- The SLEEP_ACK pin becomes asserted (R193). -/
  | sleepAckAsserted
  /-- The SLEEP_ACK pin becomes deasserted (R193). -/
  | sleepAckDeasserted
  /-- The memory timer expires (R193). -/
  | memoryTimerExpiry
  /-- The rest timer expires (R195). -/
  | restTimerExpiry
  /-- After a rest turn the part returns to REST (R196). -/
  | restTurnSleep
deriving DecidableEq, Repr

end Sys2Proof
end

