-- ==== Sys2Proof/Config.lean ====
section
/-! DEFINITION. The free values: constants without a body, so that no proof can see what they are (entries 11, 12, 13, 22, 30 and 41). -/

namespace Sys2Proof

/-- Bytes the part writes whose value the manual does not state, one per use: the generation and band count in the result
of a WAVEFORM that is not accepted (section 3.2, R39); the slot state in the result of a CLOSE naming a slot above 3 (R159);
the fields of the rest context that concern what has not been (section 11.7); the ramp's fields of the light status
without a ramp (section 11.3). The argument is the model's counter `State.fresh`. DESIGN CHOICE: the manual states no value
(entries 11, 12, 22 and 30). -/
opaque Config.freeByte : Nat → Byte

/-- The ten result bits of a SETTINGS request finalized DONE or BUSY (R17, section 11.5), one per use. DESIGN CHOICE: the
manual states no value (entry 12). -/
opaque Config.freeOffset : Nat → BitVec 10

/-- The lane-number bits of a pixel record whose mark has been cleared, as a function of the record before (R78, section
11.6). DESIGN CHOICE: the manual states no value (entry 13). -/
opaque Config.unmarkedLane : BitVec 16 → BitVec 5

/-- Whether the end of a restore ramp finalizes a LIGHT in progress whose ramp the restore replaced. R136 finalizes the LIGHT in
progress at the end of a ramp and gives a replaced ramp's end to the ramp that replaces it; R131 finalizes it at the end of the
ramp it is attached to, and R145 attaches no LIGHT to a restore ramp. DESIGN CHOICE: the manual says both (entry 41). -/
opaque Config.restoreEndsLight : Bool

end Sys2Proof
end

