-- ==== Sys2Proof/Machine/State.lean ====
section
/-! DEFINITION. The state of the Nogra 640 as plain data, block by block, and the state after power-on reset. -/

namespace Sys2Proof.Machine

/-! ### Why a step could stop -/

/-- What stops the part: nothing. Every failed access is reported to the client that made it and every rule says what
follows (R21, R32), so there is no fault to name. -/
inductive Fault where
deriving DecidableEq, Repr

/-- Why a command has no meaning. -/
inductive Refusal where
  /-- Raised only by an arm of `exec` that has no meaning yet; it is safe, and no arm raises it. -/
  | notModelled (mnemonic : String)
deriving DecidableEq, Repr

/-! ### Time -/

/-- A running timer: the part time at its start and the length it started with (in the unit its owner states). -/
structure Running where
  start : Word
  len   : Nat
deriving DecidableEq, Repr

/-- A timer, stopped or running. -/
abbrev Timer := Option Running

/-! ### Codes shared by the blocks -/

/-- Status codes (R11), and MEMORY_UNAVAILABLE, which only the Turn Log carries (R124). -/
inductive Code where
  | done | noChange | collided | refusedFormat | refusedRange | window | full | busy | duplicate
  | cancelled | aborted | panelFault | interrupted | corrupt | memoryError | memoryUnavailable
deriving DecidableEq, Repr

/-- The twelve event causes (section 1.5). -/
inductive Cause where
  | pageDone | controlDone | fetchDone | key | turn | wake | file | supply | window | panel | temperature | link
deriving DecidableEq, Repr

/-- Update modes (section 4.2). -/
inductive Mode where
  | clear | gray | quick
deriving DecidableEq, Repr

/-- WAIT or OVERLAP (section 4.2). -/
inductive Policy where
  | wait | overlap
deriving DecidableEq, Repr

/-- A rectangle of pixels (section 4.2). -/
structure Rect where
  x : Nat
  y : Nat
  w : Nat
  h : Nat
deriving DecidableEq, Repr

/-- A page: tag, image address and stride (section 6.3, R82). -/
structure Page where
  tag    : Word
  addr   : Nat
  stride : Nat
deriving DecidableEq, Repr

/-- Page directions (section 6.2). -/
inductive Dir where
  | forward | back
deriving DecidableEq, Repr

/-! ### Settings (section 11.4) -/

/-- An address window (section 2.3). -/
structure Window where
  base  : Nat
  limit : Nat
deriving DecidableEq, Repr

/-- Key roles (section 6.1). -/
inductive Role where
  | none | forward | back | light | wake
deriving DecidableEq, Repr

/-- The settings of one key line; `polarity` and `role` as the codes of section 11.4. -/
structure KeySetting where
  role     : Nat := 0
  polarity : Nat := 0
  debounce : Nat := 0
deriving DecidableEq, Repr

/-- The settings area, every field as its code or number. -/
structure Settings where
  mask             : Nat := 0
  windows          : List Window := []
  width            : Nat := 0
  height           : Nat := 0
  buffer           : Nat := 0
  cadence          : Nat := 0
  verticalBlank    : Nat := 0
  linePeriod       : Nat := 0
  stretchLimit     : Nat := 0
  idleHold         : Nat := 0
  vscale           : Nat := 0
  tslope           : Nat := 0
  toffset          : Int := 0
  tempMaxAge       : Nat := 0
  batteryInterval  : Nat := 0
  restBatteryInterval : Nat := 0
  lowThreshold     : Nat := 0
  criticalThreshold : Nat := 0
  hysteresis       : Nat := 0
  keys             : List KeySetting := []
  quickTurn        : Nat := 0
  lowCeiling       : Nat := 0
  ceilingFade      : Nat := 0
  keyFade          : Nat := 0
  keyDefaultLevel  : Nat := 0
  gamma            : List Nat := []
  marker0          : Byte := 0
  marker1          : Byte := 0
  stallLimit       : Nat := 0
  restFade         : Nat := 0
  quiesceLimit     : Nat := 0
  memoryTimeout    : Nat := 0
deriving DecidableEq, Repr

/-! ### Memory Port (chapter 2) -/

/-- The six clients (section 2.1). -/
inductive Client where
  | scan | pixel | waveform | station | download | verify
deriving DecidableEq, Repr

/-- The three reports a completed burst makes to its client (R21). -/
inductive Answer where
  | okay | error | window
deriving DecidableEq, Repr

/-- The status writers among the STATION users (R22): one for mirror and retired counts, and one per block. -/
inductive StatusUser where
  | counts | measure | capture | panel | light | download | keys | rest
deriving DecidableEq, Repr

/-- Who made a burst, inside its client (R22, R43). -/
inductive User where
  | scan | pixel | download | verify
  | header
  | load (entry : Nat)
  | walk (chain : Chain)
  | settings
  | resume
  | finalizer
  | status (user : StatusUser)
deriving DecidableEq, Repr

/-- What becomes of a burst's answer: it goes to the user; or the user has given the burst up and the answer is ignored
(R95, R100, R164, R167); or a soft reset has dropped it and it is not issued again (R33). -/
inductive Fate where
  | live | ignored | dropped
deriving DecidableEq, Repr

/-- A burst: one access of at most 64 bytes within one 64-byte-aligned block (section 2.1). -/
structure Burst where
  client  : Client
  user    : User
  write   : Bool
  addr    : Nat
  len     : Nat
  data    : List Byte
  retries : Nat := 0
  fate    : Fate := .live
deriving DecidableEq, Repr

/-- The window capture (R28). -/
structure Capture where
  full    : Bool := false
  addr    : Nat := 0
  len     : Nat := 0
  client  : Client := .scan
  write   : Bool := false
  stamp   : Word := 0
  further : Half := 0
deriving DecidableEq, Repr

structure Mpt where
  inflight     : Option Burst := none
  scanWait     : Option Burst := none
  pixelWait    : Option Burst := none
  downWait     : Option Burst := none
  verifyWait   : Option Burst := none
  waveQueue    : List Burst := []
  stationQueue : List Burst := []
  last         : Client := .verify
  capture      : Capture := {}
deriving DecidableEq, Repr

/-! ### Station Interface (chapter 1) -/

/-- Where a walk stands (R7, R8): no walk; the link read; the header read at `record`; the body read; the record read in
full and waiting to be taken by its owner; the write of TAKEN. -/
inductive WalkPhase where
  | idle
  | link
  | header (record : Nat)
  | body (record : Nat) (left : List (Nat × Nat)) (got : List Byte)
  | ready (record : Nat) (bytes : List Byte)
  | taking
deriving DecidableEq, Repr

/-- Why an owner declined the next record (R9). -/
inductive Decline where
  | listFull | turnBegun
deriving DecidableEq, Repr

structure ChainCtl where
  cursor     : Nat := 0
  walk       : WalkPhase := .idle
  remembered : Bool := false
  declined   : Option Decline := none
  retired    : Word := 0
deriving DecidableEq, Repr

/-- The chain states software speaks of (R6). -/
inductive ChainState where
  | idle | walking | held
deriving DecidableEq, Repr

/-- Who asked for a settings load: START, or the SETTINGS record at an address (R16). -/
inductive LoadBy where
  | start
  | request (record : Nat)
deriving DecidableEq, Repr

structure SettingsLoad where
  source : LoadBy
  left   : List (Nat × Nat)
  got    : List Byte
deriving DecidableEq, Repr

/-- Phases of the rest context (section 11.7). -/
inductive Phase where
  | entered | woken | cancelled
deriving DecidableEq, Repr

/-- The areas of the station block the part writes (section 1.2). A rest context carries its bytes, as they were when
the write was asked for (R198). -/
inductive Area where
  | mirror | retired | measure | capture | panel | light | link
  | progress (slot : Nat)
  | keyReport | turnLog
  | context (phase : Phase) (bytes : List Byte)
deriving DecidableEq, Repr

/-- A status writer: the area it is writing, whether the first burst of that write has been granted, the bursts of the
write still to be made, and the areas asked for meanwhile (R22, R83, R126, R201). -/
structure Writer where
  cur     : Option Area := none
  granted : Bool := false
  left    : List (Nat × List Byte) := []
  queued  : List Area := []
deriving DecidableEq, Repr

/-- A finalization whose status write has not joined the STATION queue: its chain, whether its count and post have been made
already, the writes before the status that are still to join, and the status write (R10, R146). -/
structure Final where
  chain   : Chain
  counted : Bool
  writes  : List (Nat × List Byte)
  status  : Nat × List Byte
deriving DecidableEq, Repr

/-- How far the three writes of a wake have come: the mirror waits for the Turn Log to join, the rest context for the
mirror (R197). -/
inductive WakeOrder where
  | none | log | mirror
deriving DecidableEq, Repr

structure Sif where
  base      : Word := 0
  live      : Bool := false
  err       : Bool := false
  errOffset : BitVec 10 := 0
  page      : ChainCtl := {}
  control   : ChainCtl := {}
  fetch     : ChainCtl := {}
  posted    : List Half := List.replicate 12 0
  acked     : List Half := List.replicate 12 0
  mask      : BitVec 12 := 0
  int       : Bool := false
  load      : Option SettingsLoad := none
  loadQueue : List Nat := []
  finals    : List Final := []
  finalBusy : Bool := false
  writers   : List Writer := List.replicate 8 {}
  wakeOrder : WakeOrder := .none
deriving DecidableEq, Repr

/-! ### Measurement Unit (chapter 9) -/

inductive AdcInput where
  | battery | temperature
deriving DecidableEq, Repr

inductive Supply where
  | normal | low | critical
deriving DecidableEq, Repr

structure BatterySample where
  mv    : Nat
  stamp : Word
deriving DecidableEq, Repr

structure TempSample where
  value : Int
  stamp : Word
  aged  : Bool
deriving DecidableEq, Repr

structure Meu where
  adc          : Option AdcInput := none
  batteryPlace : Bool := false
  tempPlace    : Bool := false
  requester    : Bool := false
  batteryTimer : Timer := none
  tempTimer    : Timer := none
  battery      : Option BatterySample := none
  temperature  : Option TempSample := none
  supply       : Supply := .normal
  down         : Nat := 0
  deep         : Bool := false
  up           : Nat := 0
  high         : Bool := false
  supplyStamp  : Word := 0
  askTime      : Word := 0
deriving DecidableEq, Repr

/-! ### Waveform Store (chapter 3) -/

structure StoreKey where
  gen  : Byte
  mode : Mode
  band : Nat
deriving DecidableEq, Repr

/-- The active image: address, lower bounds, upper limit, and the directory's (offset, frame count) by entry number. -/
structure Image where
  addr  : Nat
  bands : List Int
  upper : Int
  dir   : List (Nat × Nat)
deriving DecidableEq, Repr

inductive EntryState where
  | empty | loading | ready
deriving DecidableEq, Repr

structure StoreEntry where
  state    : EntryState := .empty
  key      : Option StoreKey := none
  stale    : Bool := false
  frames   : Nat := 0
  refs     : Nat := 0
  holder   : Option Nat := none
  stamp    : Word := 0
  table    : List (List Byte) := []
  loadAddr : Nat := 0
  loadLeft : Nat := 0
deriving DecidableEq, Repr

/-- The WAVEFORM under check (R35): its record, the image address, header bursts left and header bytes so far. -/
structure HeaderCheck where
  record  : Nat
  addr : Nat
  left : List (Nat × Nat)
  got  : List Byte
deriving DecidableEq, Repr

structure Wfs where
  active     : Option Image := none
  generation : Byte := 0
  history    : Option Nat := none
  check      : Option HeaderCheck := none
  entries    : List StoreEntry := List.replicate 4 {}
deriving DecidableEq, Repr

/-! ### Update Engine (chapter 4) -/

/-- Who asked for an update (section 4.3). -/
inductive Origin where
  | record (addr : Nat)
  | turn
  | rest
deriving DecidableEq, Repr

inductive StoreSt where
  | none | sampling | loading | noRoom | keyed
deriving DecidableEq, Repr

/-- An entry of the Pending Update List (section 4.3). `id` names the entry as a holder; `again` marks a waiting entry
whose lookup is to be made again (R66). -/
structure Entry where
  id     : Nat
  origin : Origin
  rect   : Rect
  source : Nat
  stride : Nat
  mode   : Mode
  policy : Policy
  tag    : Option Word
  st     : StoreSt := .none
  key    : Option StoreKey := none
  note   : Bool := false
  again  : Bool := false
deriving DecidableEq, Repr

inductive LaneState where
  | free | arming | driving | retiring
deriving DecidableEq, Repr

inductive LaneError where
  | memory | window
deriving DecidableEq, Repr

inductive AbortCause where
  | fault | limit
deriving DecidableEq, Repr

/-- A lane (section 4.6). `mode` is the mode after promotion; source and stride serve its admission pass. -/
structure Lane where
  state    : LaneState := .free
  finished : Bool := false
  id       : Nat := 0
  rect     : Rect := ⟨0, 0, 0, 0⟩
  origin   : Origin := .turn
  policy   : Policy := .wait
  source   : Nat := 0
  stride   : Nat := 0
  mode     : Mode := .clear
  store    : Nat := 0
  band     : Nat := 0
  frames   : Nat := 0
  index    : Nat := 0
  marked   : Nat := 0
  collided : Nat := 0
  error    : Option LaneError := none
  abort    : Option AbortCause := none
  note     : Bool := false
deriving DecidableEq, Repr

/-- A geometry: width, height and working buffer address. -/
structure Geometry where
  w    : Nat
  h    : Nat
  addr : Nat
deriving DecidableEq, Repr

inductive PassKind where
  | admission (lane : Nat)
  | retire (lane : Nat)
  | sweep (initializing : Bool) (ofStart : Bool)
deriving DecidableEq, Repr

inductive PassPhase where
  | source | segment | writeBack
deriving DecidableEq, Repr

/-- The pass the Pixel Pass Unit runs (section 4.7): its row, the reads and writes of that row still to be made, the bytes
read, the source row, how many pixels of the row were decided marked, and the geometry it runs over. -/
structure Pass where
  kind   : PassKind
  geom   : Geometry
  row    : Nat
  phase  : PassPhase
  left   : List (Nat × Nat) := []
  out    : List (Nat × List Byte) := []
  got    : List Byte := []
  src    : List Byte := []
  marked : Nat := 0
deriving DecidableEq, Repr

/-- The Update Engine's own state (chapter 4). `rescan` marks a report of R66 that a lookup of a running scan made: the scan that
the report lets run is still to come (R67, entry 8). -/
structure Upe where
  list         : List Entry := []
  nextId       : Nat := 0
  reservations : Nat := 0
  lanes        : List Lane := List.replicate 32 {}
  pass         : Option Pass := none
  retireQueue  : List Nat := []
  sweepWaiting : Bool := false
  cadence      : Nat := 0
  uncertain    : Bool := true
  current      : Option Page := none
  lastSweep    : Option Geometry := none
  demand       : Bool := false
  rescan       : Bool := false
deriving DecidableEq, Repr

/-! ### Frame Scanner and Panel Supply Sequencer (chapter 5) -/

inductive FrameState where
  | still | blank | scan
deriving DecidableEq, Repr

/-- Drive codes (R34). -/
inductive Drive where
  | hold | darken | lighten
deriving DecidableEq, Repr

/-- A line FIFO slot in use (section 5.3): row, first column and number of records of the span, bursts left, records so
far; FILLED when `filled`, given up when `givenUp`, FETCHING otherwise. -/
structure LineSlot where
  row     : Nat
  x0      : Nat
  count   : Nat
  left    : List (Nat × Nat)
  got     : List Byte
  filled  : Bool := false
  givenUp : Bool := false
deriving DecidableEq, Repr

structure Fsc where
  frame      : FrameState := .still
  line       : Nat := 0
  inLine     : Bool := false
  held       : Timer := none
  laneSet    : List Nat := []
  blank      : Nat := 0
  period     : Nat := 0
  width      : Nat := 0
  height     : Nat := 0
  fetchRow   : Nat := 0
  slots      : List LineSlot := []
  stretched  : Half := 0
  scanErrors : Half := 0
  drive      : Option (Nat × List Drive) := none
deriving DecidableEq, Repr

inductive Rail where
  | off | rising | on | falling | fault | locked
deriving DecidableEq, Repr

structure Pss where
  rail      : Rail := .off
  riseTimer : Timer := none
  idleTimer : Timer := none
  fallTimer : Timer := none
  holdTimer : Timer := none
  history   : List Word := []
  railGood  : Bool := false
deriving DecidableEq, Repr

/-! ### Key and Turn Unit (chapter 6) -/

inductive KeyState where
  | idle | bouncing | pressed
deriving DecidableEq, Repr

/-- A key line: the level of its pin, its debouncer and timer (R108). -/
structure KeyLine where
  level : Bool := true
  state : KeyState := .idle
  timer : Timer := none
deriving DecidableEq, Repr

structure Press where
  role  : Role
  stamp : Word
deriving DecidableEq, Repr

inductive TurnState where
  | idle | waitMemory | waitPlace | listed | admitted
deriving DecidableEq, Repr

structure TurnRec where
  dir     : Dir
  page    : Page
  ofRest  : Bool
  dropped : Option Word := none
deriving DecidableEq, Repr

/-- A Turn Log entry (section 6.5). -/
structure LogEntry where
  dir     : Dir
  tag     : Word
  stamp   : Word
  result  : Code
  dropped : Option Word
  ofRest  : Bool
deriving DecidableEq, Repr

structure Ktu where
  lines     : List KeyLine := List.replicate 4 {}
  queue     : List Press := []
  counts    : List Half := List.replicate 4 0
  dropped   : Half := 0
  reported  : Half := 0
  lastRole  : Role := .none
  lastStamp : Word := 0
  forward   : List Page := []
  backward  : List Page := []
  turn      : TurnState := .idle
  turnRec   : Option TurnRec := none
  log       : List LogEntry := []
  logDirty  : Bool := false
deriving DecidableEq, Repr

/-! ### Light Unit (chapter 7) -/

inductive RampCause where
  | light | ceiling | key | restFade | restore
deriving DecidableEq, Repr

structure Ramp where
  v0    : Nat
  m0    : Nat
  t     : Nat
  tm    : Nat
  n     : Nat
  k     : Nat
  cause : RampCause
deriving DecidableEq, Repr

/-- A pulse generator: duty, output level, whether it is in its high phase, and the value its down-counter was last
loaded with (R139). -/
structure Gen where
  duty : Nat := 0
  out  : Bool := false
  load : Nat := 4095
deriving DecidableEq, Repr

/-- The Light Unit. `detached`: a restore has replaced the ramp of the LIGHT in progress (R136, R145, entry 41). -/
structure Ltu where
  lr         : Nat := 0
  mr         : Nat := 0
  level      : Nat := 0
  warmth     : Nat := 0
  ceiling    : Nat := 1000
  keyOff     : Bool := false
  remembered : Nat := 0
  restDark   : Bool := false
  ramp       : Option Ramp := none
  light      : Option Nat := none
  detached   : Bool := false
  pair       : Option (Nat × Nat) := none
  warm       : Gen := {}
  cool       : Gen := {}
  gammaDirty : Bool := false
deriving DecidableEq, Repr

/-! ### Download Channel (chapter 8) -/

/-- The chunk header as the receiver takes it (section 11.6). -/
structure ChunkHeader where
  file   : Half
  offset : Nat
  len    : Nat
deriving DecidableEq, Repr

/-- The receiver's states (section 8.2), with the running CRC register where the state needs it. -/
inductive Recv where
  | hunt (progress : Nat)
  | header (crc : Word) (got : List Byte)
  | payload (crc : Word) (hdr : ChunkHeader) (got : List Byte)
  | trailer (crc : Word) (hdr : ChunkHeader) (payload : List Byte) (got : List Byte)
  | discard (left : Nat)
deriving DecidableEq, Repr

/-- A stored chunk (section 8.3). -/
structure Chunk where
  hdr     : ChunkHeader
  payload : List Byte
deriving DecidableEq, Repr

/-- The seven link error counters (section 8.4). -/
inductive LinkCounter where
  | framing | crc | overflow | unknown | range | fragment | duplicate
deriving DecidableEq, Repr

inductive SlotState where
  | free | opened | stalled | verifying | verified | corrupt
deriving DecidableEq, Repr

/-- The fields of an OPEN record (R156). -/
structure OpenReq where
  record    : Nat
  file   : Half
  dest   : Nat
  len    : Nat
  crc    : Word
deriving DecidableEq, Repr

/-- A claim: the OPEN whose progress record is being read, and whether a CLOSE has cancelled it (R157, R159). -/
structure Claim where
  req       : OpenReq
  cancelled : Bool := false
deriving DecidableEq, Repr

/-- A file slot (section 8.5). `interrupted`: the slot was made FREE by the download stop, and its progress record shows
INTERRUPTED (R168). -/
structure FileSlot where
  state       : SlotState := .free
  claim       : Option Claim := none
  file        : Half := 0
  dest        : Nat := 0
  len         : Nat := 0
  crc         : Word := 0
  extents     : List (Nat × Nat) := []
  received    : Nat := 0
  stamp       : Word := 0
  computed    : Word := 0
  record         : Nat := 0
  timer       : Timer := none
  interrupted : Bool := false
deriving DecidableEq, Repr

/-- A resume read (R157): slot, bursts left, bytes so far. -/
structure Resume where
  slot : Nat
  left : List (Nat × Nat)
  got  : List Byte
deriving DecidableEq, Repr

/-- A dispatch that is writing (R162): slot, chunk, payload writes still to be made, uncovered bytes. -/
structure Dispatch where
  slot  : Nat
  chunk : Chunk
  out   : List (Nat × List Byte)
  fresh : Nat
deriving DecidableEq, Repr

/-- The verify pass (R166): slot, bytes asked for so far, running CRC register. -/
structure Verify where
  slot : Nat
  pos  : Nat
  crc  : Word
deriving DecidableEq, Repr

inductive StopState where
  | none | stopping | stopped
deriving DecidableEq, Repr

structure Dlc where
  recv        : Recv := .hunt 0
  markers     : Byte × Byte := (0, 0)
  fifo        : List Chunk := []
  counters    : List Half := List.replicate 7 0
  slots       : List FileSlot := List.replicate 4 {}
  resumes     : List Resume := []
  dispatch    : Option Dispatch := none
  verifyQueue : List Nat := []
  verify      : Option Verify := none
  stop        : StopState := .none
deriving DecidableEq, Repr

/-! ### Rest Controller (chapter 10) -/

inductive PartState where
  | stopped | starting | run | quiesce | rest | restTurn | waking
deriving DecidableEq, Repr

inductive Handshake where
  | awake | entering | asleep | leaving
deriving DecidableEq, Repr

inductive WakeCause where
  | none | key | alarm | supply | panel
deriving DecidableEq, Repr

inductive ImageState where
  | none | waitPlace | listed
  | ended (code : Code)
deriving DecidableEq, Repr

inductive Drain where
  | waiting | writing | written
deriving DecidableEq, Repr

/-- The Rest Controller. `fade` and `timeout` are the rest-fade and memory-timeout of the rest under way: those in force at its
entry to QUIESCE (R185, entry 42). -/
structure Rsc where
  part          : PartState := .stopped
  forced        : Bool := false
  forcedStart   : Bool := false
  limit         : Bool := false
  keepLight     : Bool := false
  turnsEnabled  : Bool := false
  image         : Option (Nat × Nat) := none
  wakeAfter     : Nat := 0
  record        : Option Nat := none
  imageState    : ImageState := .none
  imageId       : Option Nat := none
  quiesceTimer  : Timer := none
  restTimer     : Timer := none
  memTimer      : Timer := none
  handshake     : Handshake := .awake
  sleepAck      : Bool := false
  pendingWake   : Option WakeCause := none
  wake          : WakeCause := .none
  turns         : Byte := 0
  sleepFailures : Byte := 0
  leaveRetries  : Byte := 0
  fadePending   : Bool := false
  fade          : Nat := 0
  timeout       : Nat := 0
  drain         : Drain := .waiting
  turnOver      : Bool := false
  entryTime     : Word := 0
  wakeTime      : Word := 0
  entrySupply   : Supply := .normal
  wakeSupply    : Supply := .normal
  entryBattery  : Nat := 0
  wakeBattery   : Nat := 0
deriving DecidableEq, Repr

/-! ### The part -/

/-- Main memory as the part has seen it: (address, byte) cells, addresses strictly rising, no listed byte 0. -/
abbrev Memory := List Host.Cell

/-- The state of the part, with the queue of waiting commands. -/
structure State where
  pending  : List Instr := []
  mem      : Memory := []
  partTime : Word := 0
  settings : Option Settings := none
  fresh    : Nat := 0
  sif      : Sif := {}
  mpt      : Mpt := {}
  meu      : Meu := {}
  wfs      : Wfs := {}
  upe      : Upe := {}
  fsc      : Fsc := {}
  pss      : Pss := {}
  ktu      : Ktu := {}
  ltu      : Ltu := {}
  dlc      : Dlc := {}
  rsc      : Rsc := {}
deriving DecidableEq, Repr

/-- The part after power-on reset: every field at the value its block's chapter gives (R15, R33, R51, R86, R105, R106,
R128, R148, R172, R183, R184), and at the value INVENTORY.md and entries 1, 11, 15, 16 and 22 name where none is given. -/
def State.reset : State := {}

end Sys2Proof.Machine
end

