-- ==== Sys2Proof/Machine/Operands.lean ====
section
/-! DEFINITION. The byte forms of chapter 11: fields of registers, settings, records, pixel records, headers and chunks, the check sum of R150, and the small arithmetic the rules share. -/

namespace Sys2Proof.Machine

/-! ### Fields of byte strings (little-endian, 00_scope.md section 6) -/

/-- The unsigned byte at offset `i`. -/
def u8 (l : List Byte) (i : Nat) : Nat := (l.getD i 0).toNat

/-- The unsigned 16-bit field at offset `i`. -/
def u16 (l : List Byte) (i : Nat) : Nat := u8 l i + 256 * u8 l (i + 1)

/-- The unsigned 32-bit field at offset `i`. -/
def u32 (l : List Byte) (i : Nat) : Nat := u16 l i + 65536 * u16 l (i + 2)

/-- The signed 16-bit field at offset `i`. -/
def s16 (l : List Byte) (i : Nat) : Int := if u16 l i < 32768 then u16 l i else (u16 l i : Int) - 65536

/-- One byte. -/
def le8 (n : Nat) : List Byte := [BitVec.ofNat 8 n]

/-- A 16-bit field, least significant byte first. -/
def le16 (n : Nat) : List Byte := [BitVec.ofNat 8 n, BitVec.ofNat 8 (n / 256)]

/-- A 32-bit field, least significant byte first. -/
def le32 (n : Nat) : List Byte := le16 n ++ le16 (n / 65536)

/-- A signed 16-bit field in two's complement. -/
def les16 (z : Int) : List Byte := le16 (z % 65536).toNat

/-- `n` bytes marked zero (R199). -/
def zeros (n : Nat) : List Byte := List.replicate n 0

/-- A bit as a number. -/
def bit (b : Bool) : Nat := if b then 1 else 0

/-! ### Bursts (section 2.1) -/

/-- An access of `len` bytes at `addr` cut into bursts that stay within 64-byte-aligned blocks, in address order. The
first argument bounds the number of bursts. -/
def blocksFrom : Nat → Nat → Nat → List (Nat × Nat)
  | 0, _, _ => []
  | n + 1, a, l =>
    if l = 0 then [] else (a, min (64 - a % 64) l) :: blocksFrom n (a + min (64 - a % 64) l) (l - min (64 - a % 64) l)

/-- The bursts of an access of `len` bytes at `addr`. -/
def blocks (addr len : Nat) : List (Nat × Nat) := blocksFrom len addr len

/-- The write bursts that put `bytes` at `addr`. -/
def writeBlocks (addr : Nat) (bytes : List Byte) : List (Nat × List Byte) :=
  (blocks addr bytes.length).map fun p => (p.1, (bytes.drop (p.1 - addr)).take p.2)

/-! ### Counters -/

/-- A 16-bit count that saturates at 65535. -/
def satInc (n : Half) : Half := if n = 65535 then n else n + 1

/-- An 8-bit count that saturates at 255. -/
def satInc8 (n : Byte) : Byte := if n = 255 then n else n + 1

/-! ### Codes -/

/-- Status codes of R11, and 54 of R124. -/
def Code.num : Code → Nat
  | .done => 16 | .noChange => 17 | .collided => 18 | .refusedFormat => 32 | .refusedRange => 33 | .window => 34
  | .full => 35 | .busy => 36 | .duplicate => 37 | .cancelled => 48 | .aborted => 49 | .panelFault => 50
  | .interrupted => 51 | .corrupt => 52 | .memoryError => 53 | .memoryUnavailable => 54

/-- Cause numbers (section 1.5). -/
def Cause.num : Cause → Nat
  | .pageDone => 0 | .controlDone => 1 | .fetchDone => 2 | .key => 3 | .turn => 4 | .wake => 5 | .file => 6 | .supply => 7
  | .window => 8 | .panel => 9 | .temperature => 10 | .link => 11

/-- Mode codes (section 11.5). -/
def Mode.num : Mode → Nat
  | .clear => 0 | .gray => 1 | .quick => 2

/-- The mode a code names. -/
def Mode.ofNum : Nat → Option Mode
  | 0 => some .clear | 1 => some .gray | 2 => some .quick | _ => none

/-- Client codes (section 11.3). -/
def Client.num : Client → Nat
  | .scan => 0 | .pixel => 1 | .waveform => 2 | .station => 3 | .download => 4 | .verify => 5

/-- Part state codes (section 11.2). -/
def PartState.num : PartState → Nat
  | .stopped => 0 | .starting => 1 | .run => 2 | .quiesce => 3 | .rest => 4 | .restTurn => 5 | .waking => 6

/-- Rail state codes (section 11.3). -/
def Rail.num : Rail → Nat
  | .off => 0 | .rising => 1 | .on => 2 | .falling => 3 | .fault => 4 | .locked => 5

/-- Supply state codes (section 11.3). -/
def Supply.num : Supply → Nat
  | .normal => 0 | .low => 1 | .critical => 2

/-- Role codes (section 11.3). -/
def Role.num : Role → Nat
  | .none => 0 | .forward => 1 | .back => 2 | .light => 3 | .wake => 4

/-- The role a code names; a code above 4 is refused at the load (R107). -/
def Role.ofNum : Nat → Role
  | 1 => .forward | 2 => .back | 3 => .light | 4 => .wake | _ => .none

/-- Wake cause codes (section 11.5). -/
def WakeCause.num : WakeCause → Nat
  | .none => 0 | .key => 1 | .alarm => 2 | .supply => 3 | .panel => 4

/-- Ramp cause codes (section 11.3). -/
def RampCause.num : RampCause → Nat
  | .light => 0 | .ceiling => 1 | .key => 2 | .restFade => 3 | .restore => 4

/-- Direction codes (section 11.7). -/
def Dir.num : Dir → Nat
  | .forward => 0 | .back => 1

/-- Phase codes (section 11.7). -/
def Phase.num : Phase → Nat
  | .entered => 1 | .woken => 2 | .cancelled => 3

/-- Rest image state codes (section 11.7). -/
def ImageState.num : ImageState → Nat
  | .none => 0 | .waitPlace => 1 | .listed => 2 | .ended _ => 3

/-- Progress state codes of the slot states (section 11.7). -/
def SlotState.num : SlotState → Nat
  | .free => 0 | .opened => 1 | .stalled => 2 | .verifying => 3 | .verified => 4 | .corrupt => 5

/-- The link counters' places in their area (section 11.3). -/
def LinkCounter.num : LinkCounter → Nat
  | .framing => 0 | .crc => 1 | .overflow => 2 | .unknown => 3 | .range => 4 | .fragment => 5 | .duplicate => 6

/-- The status writers' places in `Sif.writers`. -/
def StatusUser.num : StatusUser → Nat
  | .counts => 0 | .measure => 1 | .capture => 2 | .panel => 3 | .light => 4 | .download => 5 | .keys => 6 | .rest => 7

/-! ### Request records (section 11.5) -/

/-- The request kinds. -/
inductive Kind where
  | update | stage | unstage | waveform | light | rest | settings | turnsSeen | openFile | closeFile
deriving DecidableEq, Repr

/-- The kind a code names. -/
def Kind.ofNum : Nat → Option Kind
  | 1 => some .update | 2 => some .stage | 3 => some .unstage | 4 => some .waveform
  | 16 => some .light | 17 => some .rest | 18 => some .settings | 19 => some .turnsSeen
  | 32 => some .openFile | 33 => some .closeFile | _ => none

/-- The chain a kind belongs to (section 1.3). -/
def Kind.chain : Kind → Chain
  | .update | .stage | .unstage | .waveform => .page
  | .light | .rest | .settings | .turnsSeen => .control
  | .openFile | .closeFile => .fetch

/-- The record size of a kind, header included (section 1.3). -/
def Kind.size : Kind → Nat
  | .update => 48
  | .stage | .waveform | .light | .rest | .openFile => 32
  | .unstage | .settings | .turnsSeen | .closeFile => 16

/-- The kind of a record, from its header. -/
def kindOf (bytes : List Byte) : Option Kind := Kind.ofNum (u8 bytes 4)

/-- The flags field of a record. -/
def flagsOf (bytes : List Byte) : Nat := u16 bytes 6

/-! ### Settings (section 11.4) -/

/-- The settings area as read. -/
def parseSettings (l : List Byte) : Settings where
  mask := u16 l 0x000
  windows := (List.range 4).map fun w => ⟨u32 l (0x010 + 8 * w), u32 l (0x014 + 8 * w)⟩
  width := u16 l 0x030
  height := u16 l 0x032
  buffer := u32 l 0x034
  cadence := u8 l 0x038
  verticalBlank := u8 l 0x039
  linePeriod := u16 l 0x03A
  stretchLimit := u16 l 0x03C
  idleHold := u16 l 0x03E
  vscale := u16 l 0x040
  tslope := u16 l 0x042
  toffset := s16 l 0x044
  tempMaxAge := u16 l 0x046
  batteryInterval := u16 l 0x048
  restBatteryInterval := u16 l 0x04A
  lowThreshold := u16 l 0x04C
  criticalThreshold := u16 l 0x04E
  hysteresis := u16 l 0x050
  keys := (List.range 4).map fun k => ⟨u8 l (0x060 + 4 * k), u8 l (0x061 + 4 * k), u8 l (0x062 + 4 * k)⟩
  quickTurn := u8 l 0x070
  lowCeiling := u16 l 0x080
  ceilingFade := u16 l 0x082
  keyFade := u16 l 0x084
  keyDefaultLevel := u16 l 0x086
  gamma := (List.range 33).map fun i => u16 l (0x088 + 2 * i)
  marker0 := l.getD 0x0D0 0
  marker1 := l.getD 0x0D1 0
  stallLimit := u16 l 0x0D2
  restFade := u16 l 0x0E0
  quiesceLimit := u8 l 0x0E2
  memoryTimeout := u8 l 0x0E3

/-- A window that covers something (section 2.3). -/
def Window.used (w : Window) : Bool := decide (w.base < w.limit)

/-- Every byte of the range lies inside one used window (R27). A limit is below 2^32, so a range whose end would pass 2^32
fails. -/
def rangeIn (ws : List Window) (addr len : Nat) : Bool :=
  ws.any fun w => w.used && decide (w.base ≤ addr) && decide (addr + len ≤ w.limit)

/-- `n` lies in the range `lo` to `hi`. -/
def inRange (lo n hi : Nat) : Bool := decide (lo ≤ n) && decide (n ≤ hi)

/-- Panel width and height in range (R54). -/
def sizeOk (s : Settings) : Bool := inRange 256 s.width 2048 && s.width % 8 == 0 && inRange 256 s.height 1536

/-- The window checks of R25 and the SIF's own check of R16, by field offset. -/
def windowChecks (s : Settings) (base : Nat) : List (Nat × Bool) :=
  (List.range 4).flatMap fun i =>
    let w := s.windows.getD i ⟨0, 0⟩
    [(0x010 + 8 * i, w.base % 64 == 0 && (i != 0 || (s.windows.any Window.used && rangeIn s.windows base 4096))),
     (0x014 + 8 * i, w.limit % 64 == 0 && decide (w.base ≤ w.limit))]

/-- The checks of the key settings (R107), by field offset. -/
def keyChecks (s : Settings) : List (Nat × Bool) :=
  (List.range 4).flatMap fun k =>
    let x := s.keys.getD k {}
    [(0x060 + 4 * k, decide (x.role ≤ 4)), (0x061 + 4 * k, decide (x.polarity ≤ 1)), (0x062 + 4 * k, inRange 5 x.debounce 100)]

/-- The checks of the gamma table (R129), by field offset. -/
def gammaChecks (s : Settings) : List (Nat × Bool) :=
  (List.range 33).map fun i =>
    (0x088 + 2 * i, decide (s.gamma.getD i 0 ≤ 4095) &&
      (if i = 0 then s.gamma.getD 0 0 == 0 else decide (s.gamma.getD (i - 1) 0 ≤ s.gamma.getD i 0)))

/-- Every owner's checks in the order of the offsets they report (R16, R25, R54, R89, R105, R107, R129, R171, R174, R185).
`base` is BASE. -/
def settingsChecks (s : Settings) (base : Nat) : List (Nat × Bool) :=
  windowChecks s base ++
  [(0x030, inRange 256 s.width 2048 && s.width % 8 == 0),
   (0x032, inRange 256 s.height 1536),
   (0x034, s.buffer % 64 == 0 && (!sizeOk s || rangeIn s.windows s.buffer (2 * s.width * s.height))),
   (0x038, decide (s.cadence ≤ 30)),
   (0x039, decide (s.verticalBlank ≤ 64)),
   (0x03A, inRange 50 s.linePeriod 2000),
   (0x03C, inRange 10 s.stretchLimit 1000),
   (0x03E, inRange 10 s.idleHold 5000),
   (0x040, inRange 1000 s.vscale 10000),
   (0x042, inRange 16 s.tslope 1024),
   (0x044, decide (-400 ≤ s.toffset) && decide (s.toffset ≤ 400)),
   (0x046, inRange 5 s.tempMaxAge 300),
   (0x048, inRange 100 s.batteryInterval 60000),
   (0x04A, inRange 100 s.restBatteryInterval 60000),
   (0x04C, inRange 1000 s.lowThreshold 9000),
   (0x04E, inRange 1000 s.criticalThreshold 9000 &&
      (!inRange 1000 s.lowThreshold 9000 || decide (s.criticalThreshold < s.lowThreshold))),
   (0x050, decide (s.hysteresis ≤ 1000))] ++
  keyChecks s ++
  [(0x070, decide (s.quickTurn ≤ 1)),
   (0x080, decide (s.lowCeiling ≤ 1000)),
   (0x082, decide (s.ceilingFade ≤ 10000)),
   (0x084, decide (s.keyFade ≤ 10000)),
   (0x086, inRange 1 s.keyDefaultLevel 1000)] ++
  gammaChecks s ++
  [(0x0D2, inRange 1 s.stallLimit 600),
   (0x0E0, decide (s.restFade ≤ 10000)),
   (0x0E2, inRange 1 s.quiesceLimit 60),
   (0x0E3, inRange 1 s.memoryTimeout 100)]

/-- The lowest failing offset, if any check fails (R16). -/
def settingsFailure (s : Settings) (base : Nat) : Option Nat :=
  ((settingsChecks s base).find? fun c => !c.2).map Prod.fst

/-! ### Updates (sections 4.2 and 11.5) -/

/-- The host's fields of an UPDATE record. -/
structure UpdateReq where
  rect   : Rect
  source : Nat
  stride : Nat
  mode   : Nat
  policy : Nat
  tagged : Bool
  tag    : Word
deriving DecidableEq, Repr

/-- The fields of an UPDATE record. -/
def parseUpdate (l : List Byte) : UpdateReq where
  rect := ⟨u16 l 0x10, u16 l 0x12, u16 l 0x14, u16 l 0x16⟩
  source := u32 l 0x18
  stride := u32 l 0x1C
  mode := u8 l 0x20 % 4
  policy := u8 l 0x20 / 16 % 2
  tagged := flagsOf l % 2 == 1
  tag := BitVec.ofNat 32 (u32 l 0x24)

/-- Two rectangles share at least one pixel (section 4.2). -/
def Rect.intersects (a b : Rect) : Bool :=
  decide (a.x < b.x + b.w) && decide (b.x < a.x + a.w) && decide (a.y < b.y + b.h) && decide (b.y < a.y + a.h)

/-- The rectangle covers the whole panel (section 4.2). -/
def Rect.isFull (r : Rect) (w h : Nat) : Bool := r == ⟨0, 0, w, h⟩

/-- Bytes from a full-screen image's first byte to its last (R116, R187). -/
def imageExtent (w h stride : Nat) : Nat := (h - 1) * stride + w / 2

/-- The stride check of R57, R116 and R187. -/
def strideOk (stride w : Nat) : Bool := stride % 4 == 0 && decide (w / 2 ≤ stride)

/-! ### Pixel records (section 11.6) -/

def pixCurrent (r : BitVec 16) : BitVec 4 := r.extractLsb' 0 4
def pixTarget (r : BitVec 16) : BitVec 4 := r.extractLsb' 4 4
def pixLane (r : BitVec 16) : BitVec 5 := r.extractLsb' 8 5
def pixMarked (r : BitVec 16) : Bool := r.getLsbD 13

/-- A pixel record from its fields; the two bits without a name are 0 (R199). -/
def mkPixel (current target : BitVec 4) (lane : BitVec 5) (mark : Bool) : BitVec 16 :=
  (0#2 ++ BitVec.ofBool mark) ++ (lane ++ (target ++ current))

/-- A record with its mark cleared, levels kept (R78, R80). -/
def clearMark (r : BitVec 16) : BitVec 16 := mkPixel (pixCurrent r) (pixTarget r) (Config.unmarkedLane r) false

/-- Pixel record `i` of a byte string. -/
def pixAt (l : List Byte) (i : Nat) : BitVec 16 := BitVec.ofNat 16 (u16 l (2 * i))

/-- Pixel records as bytes. -/
def pixBytes (l : List (BitVec 16)) : List Byte := l.flatMap fun r => le16 r.toNat

/-- The source nibble of column `i` of a source row: low nibble when `i` is even (section 4.2). -/
def nibbleAt (l : List Byte) (i : Nat) : BitVec 4 :=
  if i % 2 = 0 then (l.getD (i / 2) 0).extractLsb' 0 4 else (l.getD (i / 2) 0).extractLsb' 4 4

/-! ### Waveform images (section 3.1, section 11.6) -/

/-- Size of the header. -/
def headerSize : Nat := 352

/-- Band bound place `p`. -/
def boundAt (l : List Byte) (p : Nat) : Int := s16 l (0x008 + 2 * p)

/-- Directory entry `e`: table offset and frame count. -/
def dirAt (l : List Byte) (e : Nat) : Nat × Nat := (u32 l (0x030 + 8 * e), u8 l (0x034 + 8 * e))

/-- The used directory entries for `b` bands, in entry-number order. -/
def usedEntries (b : Nat) : List Nat := (List.range 36).filter fun e => decide (e % 12 < b)

/-- The bounds rise up to the upper limit (R37 check 4). -/
def boundsRise (l : List Byte) (b : Nat) : Bool := (List.range b).all fun p => decide (boundAt l p < boundAt l (p + 1))

/-- The checks of R37, in order: the reason code and index of the first that fails. -/
def headerFailure (l : List Byte) : Option (Nat × Nat) :=
  if u32 l 0 ≠ 0x57460601 then some (2, 0)
  else if u8 l 4 ≠ 3 then some (3, 0)
  else if !inRange 1 (u8 l 5) 12 then some (4, 0)
  else if !boundsRise l (u8 l 5) then some (5, 0)
  else match (usedEntries (u8 l 5)).find? fun e => (dirAt l e).2 == 0 with
    | some e => some (6, e)
    | none =>
      match (usedEntries (u8 l 5)).find? fun e => (dirAt l e).1 % 64 != 0 || decide ((dirAt l e).1 < 384) with
      | some e => some (7, e)
      | none => none

/-- The first used entry whose table lies outside the windows (R38). -/
def tableFailure (l : List Byte) (ws : List Window) (image : Nat) : Option Nat :=
  (usedEntries (u8 l 5)).find? fun e => !rangeIn ws (image + (dirAt l e).1) ((dirAt l e).2 * 64)

/-- The image a header describes. -/
def parseImage (l : List Byte) (addr : Nat) : Image where
  addr := addr
  bands := (List.range (u8 l 5)).map (boundAt l)
  upper := boundAt l (u8 l 5)
  dir := (List.range 36).map (dirAt l)

/-- The code a table of `F` frames holds for a drive query (R34, section 3.1). -/
def driveQuery (e : StoreEntry) (frame s d : Nat) : Drive :=
  if e.frames ≤ frame then .hold
  else
    match u8 (e.table.getD frame []) ((s * 16 + d) / 4) / 4 ^ ((s * 16 + d) % 4) % 4 with
    | 1 => .darken
    | 2 => .lighten
    | _ => .hold

/-! ### Check sums (R150) -/

/-- One shift of the register. -/
def crcShift (r : Word) : Word := if r.getLsbD 0 then (r >>> 1) ^^^ 0xEDB88320 else r >>> 1

/-- `n` shifts of the register. -/
def crcShifts : Nat → Word → Word
  | 0, r => r
  | n + 1, r => crcShifts n (crcShift r)

/-- One byte combined into the register. -/
def crcByte (r : Word) (b : Byte) : Word := crcShifts 8 (r ^^^ b.setWidth 32)

/-- Bytes combined into the register. -/
def crcBytes (r : Word) (l : List Byte) : Word := l.foldl crcByte r

/-- The register at the start. -/
def crcInit : Word := 0xFFFFFFFF

/-- The CRC-32 of a byte string. -/
def crc32 (l : List Byte) : Word := ~~~ crcBytes crcInit l

/-! ### Chunks and progress records -/

/-- The chunk header of eight bytes (section 11.6). -/
def parseChunkHeader (l : List Byte) : ChunkHeader := ⟨BitVec.ofNat 16 (u16 l 0), u32 l 2, u16 l 6⟩

/-- Bytes a stored chunk occupies (section 8.3). -/
def ChunkHeader.space (h : ChunkHeader) : Nat := 8 + h.len

/-- The sum of the extents' lengths. -/
def extentSum (l : List (Nat × Nat)) : Nat := (l.map fun e => e.2 - e.1).sum

/-- Extents ascend, are disjoint and not adjacent, and lie in [0, len) (R157 check 5, R162). -/
def extentsOk (len : Nat) : List (Nat × Nat) → Bool
  | [] => true
  | [e] => decide (e.1 < e.2) && decide (e.2 ≤ len)
  | e :: f :: l => decide (e.1 < e.2) && decide (e.2 ≤ len) && decide (e.2 < f.1) && extentsOk len (f :: l)

/-- The extents a progress record lists (section 11.7). -/
def progressExtents (l : List Byte) : List (Nat × Nat) :=
  (List.range (u8 l 1)).map fun x => (u32 l (0x20 + 8 * x), u32 l (0x24 + 8 * x))

/-- The checks of R157 on a progress record: the reason code of the first that fails. -/
def progressFailure (l : List Byte) (r : OpenReq) : Option Nat :=
  if 7 ≤ u8 l 0 then some 1
  else if BitVec.ofNat 16 (u16 l 2) ≠ r.file then some 2
  else if u32 l 4 ≠ r.len then some 3
  else if 16 < u8 l 1 then some 4
  else if !extentsOk r.len (progressExtents l) then some 5
  else if u32 l 0x10 ≠ extentSum (progressExtents l) then some 6
  else none

/-- The fields of an OPEN record at `rec` (section 11.5). -/
def parseOpen (l : List Byte) (record : Nat) : OpenReq :=
  ⟨record, BitVec.ofNat 16 (u16 l 0x12), u32 l 0x14, u32 l 0x18, BitVec.ofNat 32 (u32 l 0x1C)⟩

/-! ### Extent maps (R161, R162) -/

/-- The uncovered parts of [a, b), in ascending order, against an ascending extent list. -/
def uncovered : List (Nat × Nat) → Nat → Nat → List (Nat × Nat)
  | [], a, b => if a < b then [(a, b)] else []
  | e :: l, a, b =>
    (if a < min e.1 b then [(a, min e.1 b)] else []) ++ uncovered l (max a e.2) b

/-- An extent touches [a, b): they overlap, or one ends where the other begins. -/
def touches (a b : Nat) (e : Nat × Nat) : Bool := decide (e.1 ≤ b) && decide (a ≤ e.2)

/-- The map after merging [a, b): the touched extents and the range become one extent. -/
def mergeExtent (l : List (Nat × Nat)) (a b : Nat) : List (Nat × Nat) :=
  let t := l.filter (touches a b)
  l.filter (fun e => decide (e.2 < a)) ++
    [((t.map Prod.fst).foldl min a, (t.map Prod.snd).foldl max b)] ++
    l.filter (fun e => decide (b < e.1))

/-! ### Light (chapter 7) -/

/-- `d · k / n` to the nearest integer, a half away from zero (R135). -/
def roundDiv (d : Int) (k n : Nat) : Int :=
  if 0 ≤ d * k then (2 * (d * k) + n) / (2 * n) else -((2 * (-(d * k)) + n) / (2 * n))

/-- The value of a ramp at step `k` of `n` (R135). -/
def rampValue (from0 to0 k n : Nat) : Nat := ((from0 : Int) + roundDiv ((to0 : Int) - from0) k n).toNat

/-- Step count of a fade of `d` ms (R134). -/
def rampSteps (d : Nat) : Nat := max 1 ((d + 7) / 8)

/-- The luminance code of a level (R137). -/
def luminance (g : List Nat) (v : Nat) : Nat :=
  let x := v * 32
  let i := x / 1000
  let f := x % 1000
  if i = 32 then g.getD 32 0
  else g.getD i 0 + ((g.getD (i + 1) 0 - g.getD i 0) * f + 500) / 1000

/-- The warm and cool duties of a luminance code at a warmth (R138). -/
def dutySplit (y m : Nat) : Nat × Nat := ((y * m + 50) / 100, y - (y * m + 50) / 100)

/-! ### Bands (R48, R49) -/

/-- The plain lookup: the band of `t` (R48). -/
def plainBand (bands : List Int) (upper t : Int) : Nat :=
  if upper ≤ t then bands.length - 1
  else ((List.range bands.length).filter fun i => decide (bands.getD i 0 ≤ t)).foldl max 0

/-- Whether `t` has moved clearly out of band `j` (R49). -/
def leavesBand (bands : List Int) (t : Int) (j : Nat) : Bool :=
  decide (t < bands.getD j 0 - 2) || (decide (j + 1 < bands.length) && decide (bands.getD (j + 1) 0 + 2 ≤ t))

/-- The band chosen for `t` with a history (R48, R49). -/
def chooseBand (im : Image) (history : Option Nat) (t : Int) : Nat :=
  match history with
  | none => plainBand im.bands im.upper t
  | some j => if leavesBand im.bands t j then plainBand im.bands im.upper t else j

/-- `t` lies outside the band table (R50). -/
def outsideBands (im : Image) (t : Int) : Bool := decide (t < im.bands.getD 0 0) || decide (im.upper ≤ t)

end Sys2Proof.Machine
end

