-- ==== Sys2Proof/Machine/Flags.lean ====
section
/-! DEFINITION. What is read off the state: the settings in force, the computed output pins, the registers' read values, and the conditions several blocks judge. -/

namespace Sys2Proof.Machine

/-- The settings held; before any load succeeds, all zero (nothing uses them then, R16). -/
def State.cfg (s : State) : Settings := s.settings.getD {}

/-- The window table in force: none until a START load has succeeded since the last reset (R25, R33). -/
def State.windows (s : State) : List Window := if s.sif.live then s.cfg.windows else []

/-- The range check of R27, against the table in force. -/
def State.rangeOk (s : State) (addr len : Nat) : Bool := rangeIn s.windows addr len

/-- BASE as an address. -/
def State.baseAddr (s : State) : Nat := s.sif.base.toNat

/-- One chain's control. -/
def State.chain (s : State) : Chain → ChainCtl
  | .page => s.sif.page
  | .control => s.sif.control
  | .fetch => s.sif.fetch

/-- The address of a chain's anchor (R6). -/
def State.anchor (s : State) : Chain → Nat
  | .page => s.baseAddr + 0x200
  | .control => s.baseAddr + 0x210
  | .fetch => s.baseAddr + 0x220

/-- A lane by number; a number past the table reads as FREE. -/
def State.lane (s : State) (i : Nat) : Lane := s.upe.lanes.getD i {}

/-- A store entry by number. -/
def State.store (s : State) (i : Nat) : StoreEntry := s.wfs.entries.getD i {}

/-- A file slot by number. -/
def State.slot (s : State) (i : Nat) : FileSlot := s.dlc.slots.getD i {}

/-- A key line by number. -/
def State.line (s : State) (i : Nat) : KeyLine := s.ktu.lines.getD i {}

/-! ### Output pins -/

/-- INT: some enabled cause has its posted count different from its acknowledged count (R14). -/
def intOf (mask : BitVec 12) (posted acked : List Half) : Bool :=
  (List.range 12).any fun i => mask.getLsbD i && posted.getD i 0 != acked.getD i 0

/-- RAIL_EN (section 5.4). -/
def railEn (s : State) : Bool :=
  match s.pss.rail with
  | .rising | .on => true
  | .off | .falling | .fault | .locked => false

/-- SLEEP_REQ (R193): asserted on entry to ENTERING, kept in ASLEEP, released on entry to LEAVING or AWAKE. -/
def sleepReq (s : State) : Bool :=
  match s.rsc.handshake with
  | .entering | .asleep => true
  | .awake | .leaving => false

/-- The receiver runs: watched, and the part state is RUN (R149). -/
def receiverRuns (s : State) : Bool := s.sif.live && s.rsc.part == .run

/-- The space of the frame being taken (R154). -/
def reservation (s : State) : Nat :=
  match s.dlc.recv with
  | .payload _ h _ => h.space
  | .trailer _ h _ _ => h.space
  | .hunt _ | .header _ _ | .discard _ => 0

/-- The free space of the Chunk FIFO (section 8.3). -/
def freeSpace (s : State) : Nat := 4096 - ((s.dlc.fifo.map fun c => c.hdr.space).sum + reservation s)

/-- READY (R154). -/
def readyPin (s : State) : Bool := receiverRuns s && decide (1032 ≤ freeSpace s)

/-! ### Register reads (R2, R3, R4, R5, section 11.2) -/

/-- CTRL as read: identity 0x0640, revision 1, settings-error offset, settings-error flag, part state (R2). -/
def readCtrl (s : State) : Word :=
  0x0640#16 ++ (1#2 ++ (s.sif.errOffset ++ (BitVec.ofBool s.sif.err ++ BitVec.ofNat 3 s.rsc.part.num)))

/-- BASE as read (R3). -/
def readBase (s : State) : Word := s.sif.base

/-- WALK as read (R4). -/
def readWalk (_s : State) : Word := 0

/-- ACK as read (R5). -/
def readAck (_s : State) : Word := 0

/-- The command a write of `value` at offset `off` of the register window is; `none` for a CTRL value that is neither
code, which is ignored (R1). -/
def busWrite (off : Nat) (value : Word) : Option Instr :=
  match off with
  | 0x0 => if value = 0x00000001 then some .start else if value = 0x000000A5 then some .softReset else none
  | 0x4 => some (.baseWrite value)
  | 0x8 => some (.walk value)
  | 0xC => some (.ack value)
  | _ => none

/-! ### Conditions -/

/-- The Memory Port is open (R24). -/
def portOpen (s : State) : Bool := s.rsc.handshake == .awake

/-- The event mirror is writable (R13). -/
def mirrorWritable (s : State) : Bool :=
  match s.rsc.part with
  | .starting => s.sif.live
  | .run | .quiesce => true
  | .waking => portOpen s
  | .stopped | .rest | .restTurn => false

/-- A lane is FREE. -/
def Lane.isFree (l : Lane) : Bool := l.state == .free

/-- Every lane is FREE. -/
def allLanesFree (s : State) : Bool := s.upe.lanes.all Lane.isFree

/-- Some lane is ARMING. -/
def someArming (s : State) : Bool := s.upe.lanes.any fun l => l.state == .arming

/-- List entries plus reservations (R58). -/
def listCount (s : State) : Nat := s.upe.list.length + s.upe.reservations

/-- The turn has begun and its update's admission has not (R118). -/
def turnHolds (s : State) : Bool :=
  match s.ktu.turn with
  | .waitMemory | .waitPlace | .listed => true
  | .idle | .admitted => false

/-- The owner's condition of R9 for a declined record stands. -/
def declineStands (s : State) : Decline → Bool
  | .listFull => decide (16 ≤ listCount s)
  | .turnBegun => turnHolds s

/-- The part-state condition of R9. -/
def partHolds (s : State) : Bool :=
  match s.rsc.part with
  | .quiesce | .rest | .restTurn | .waking => true
  | .stopped | .starting | .run => false

/-- Some holding condition of R9 stands for the chain. -/
def chainHeld (s : State) (c : Chain) : Bool :=
  partHolds s ||
    match (s.chain c).declined with
    | some d => declineStands s d
    | none => false

/-- The chain state of R6. -/
def chainState (s : State) (c : Chain) : ChainState :=
  if (s.chain c).walk ≠ .idle then .walking else if chainHeld s c then .held else .idle

/-- The age of a stamp: part time now minus the stamp, modulo 2^32 (R173). -/
def State.age (s : State) (stamp : Word) : Nat := (s.partTime - stamp).toNat

/-- The temperature is fresh (R63, R179). -/
def tempFresh (s : State) : Bool :=
  match s.meu.temperature with
  | some t => !t.aged && decide (s.age t.stamp ≤ s.cfg.tempMaxAge * 1000)
  | none => false

/-- The geometry in force. -/
def State.geom (s : State) : Geometry := ⟨s.cfg.width, s.cfg.height, s.cfg.buffer⟩

/-- The address of the record of pixel (x, y) (section 4.1). -/
def Geometry.pixelAddr (g : Geometry) (x y : Nat) : Nat := g.addr + 2 * (y * g.w + x)

/-- The level of a key line is active under its polarity: 0 ACTIVE_LOW, 1 ACTIVE_HIGH (section 6.1). -/
def keyActive (polarity : Nat) (level : Bool) : Bool := if polarity = 0 then !level else level

end Sys2Proof.Machine
end

