-- ==== Sys2Proof/Machine/Ops.lean ====
section
/-! DEFINITION. The operations every block shares: main memory, timers, the STATION client's users, posts and INT, finalization, the window capture, panel-image-uncertain. -/

namespace Sys2Proof.Machine

/-! ### Main memory -/

/-- The byte at `a`: the listed one, or 0 (entry 1). -/
def memRead : Memory → Nat → Byte
  | [], _ => 0
  | c :: l, a => if c.1 = a then c.2 else memRead l a

/-- The cells that hold bytes from `a` on: a byte 0 takes no cell. -/
def cellsOf : Nat → List Byte → Memory
  | _, [] => []
  | a, b :: l => if b = 0 then cellsOf (a + 1) l else (a, b) :: cellsOf (a + 1) l

/-- Memory with bytes set from `a` on; the canonical form is kept. -/
def memWriteBytes (m : Memory) (a : Nat) (bytes : List Byte) : Memory :=
  m.filter (fun c => decide (c.1 < a)) ++ cellsOf a bytes ++ m.filter (fun c => decide (a + bytes.length ≤ c.1))

/-- `n` bytes from `a` on. -/
def memReadBytes (m : Memory) (a n : Nat) : List Byte :=
  let cells := m.filter fun c => decide (a ≤ c.1) && decide (c.1 < a + n)
  (List.range n).map fun i => memRead cells (a + i)

/-- The canonical form: addresses strictly rising, no listed byte 0. -/
def Memory.wf (m : Memory) : Bool := m.all (fun c => c.2 != 0) && decide (m.Pairwise fun c d => c.1 < d.1)

/-! ### Timers and free values -/

/-- A timer started now at `len`. -/
def State.timer (s : State) (len : Nat) : Timer := some ⟨s.partTime, len⟩

/-- A free byte and the state whose counter has moved on. -/
def takeFreeByte (s : State) : Byte × State := (Config.freeByte s.fresh, { s with fresh := s.fresh + 1 })

/-- Ten free bits and the state whose counter has moved on. -/
def takeFreeOffset (s : State) : BitVec 10 × State := (Config.freeOffset s.fresh, { s with fresh := s.fresh + 1 })

/-! ### Setting parts of the state -/

/-- One chain's control replaced. -/
def State.setChain (s : State) (c : Chain) (x : ChainCtl) : State :=
  match c with
  | .page => { s with sif.page := x }
  | .control => { s with sif.control := x }
  | .fetch => { s with sif.fetch := x }

/-- One lane replaced. -/
def State.setLane (s : State) (i : Nat) (l : Lane) : State := { s with upe.lanes := s.upe.lanes.set i l }

/-- One store entry replaced. -/
def State.setStore (s : State) (i : Nat) (e : StoreEntry) : State := { s with wfs.entries := s.wfs.entries.set i e }

/-- One file slot replaced. -/
def State.setSlot (s : State) (i : Nat) (f : FileSlot) : State := { s with dlc.slots := s.dlc.slots.set i f }

/-- One key line replaced. -/
def State.setLine (s : State) (i : Nat) (k : KeyLine) : State := { s with ktu.lines := s.ktu.lines.set i k }

/-! ### The STATION client's users (R22) -/

/-- A burst of the STATION client. -/
def stationBurst (u : User) (write : Bool) (addr len : Nat) (data : List Byte) : Burst :=
  { client := .station, user := u, write := write, addr := addr, len := len, data := data }

/-- A user's burst joins the STATION queue at its tail. -/
def joinStation (b : Burst) (s : State) : State := { s with mpt.stationQueue := s.mpt.stationQueue ++ [b] }

/-- The writer of an area (R22). -/
def Area.user : Area → StatusUser
  | .mirror | .retired => .counts
  | .measure => .measure
  | .capture => .capture
  | .panel => .panel
  | .light => .light
  | .link | .progress _ => .download
  | .keyReport | .turnLog => .keys
  | .context _ _ => .rest

/-- The station block offset of an area (section 11.3). -/
def Area.offset : Area → Nat
  | .mirror => 0x240
  | .retired => 0x260
  | .measure => 0x270
  | .capture => 0x280
  | .panel => 0x290
  | .light => 0x2A0
  | .link => 0x2B0
  | .keyReport => 0x2E0
  | .turnLog => 0x300
  | .context _ _ => 0x440
  | .progress i => 0x500 + 160 * i

/-- A status writer. -/
def State.writer (s : State) (u : StatusUser) : Writer := s.sif.writers.getD u.num {}

/-- A status writer replaced. -/
def State.setWriter (s : State) (u : StatusUser) (w : Writer) : State :=
  { s with sif.writers := s.sif.writers.set u.num w }

/-- The writer begins a write of an area: its first burst joins the STATION queue, its bytes to be filled in at the grant. -/
def beginArea (a : Area) (w : Writer) (s : State) : State :=
  joinStation (stationBurst (.status a.user) true (s.baseAddr + a.offset) 0 [])
    (s.setWriter a.user { w with cur := some a, granted := false, left := [] })

/-- A writer begins no write while one of the wake's writes before its own has still to join the STATION queue (R197). -/
def writerHeld (u : StatusUser) (s : State) : Bool :=
  match s.sif.wakeOrder, u with
  | .log, .counts | .log, .rest | .mirror, .rest => true
  | _, _ => false

/-- A write of an area is asked for. One already waiting and not yet granted serves; otherwise the write begins, or waits
behind the write its writer has under way or while its writer is held (R22, R29, R83, R114, R126, R147, R155, R168, R182,
R197). A mirror or Turn Log write asked for in QUIESCE is made before REST is entered (the model's choice, entry 60). -/
def ask (a : Area) (s : State) : State :=
  let w := s.writer a.user
  if (w.cur = some a ∧ w.granted = false) ∨ a ∈ w.queued then s
  else if w.cur = none ∧ writerHeld a.user s = false then beginArea a w s
  else s.setWriter a.user { w with queued := w.queued ++ [a] }

/-- A writer with no write under way begins the next one asked for, unless it is held. -/
def writerBegin (u : StatusUser) (s : State) : State :=
  let w := s.writer u
  match w.queued with
  | a :: q => if w.cur = none ∧ writerHeld u s = false then beginArea a { w with queued := q } s else s
  | [] => s

/-- The last burst of every Turn Log write asked for has joined the STATION queue. -/
def logJoined (s : State) : Bool :=
  let w := s.writer .keys
  !w.queued.contains .turnLog && (w.cur != some .turnLog || (w.granted && w.left.isEmpty))

/-- The mirror of a wake begins once the Turn Log has joined the queue, and the rest context once the mirror has (R197). -/
def wakeWritesOn (s : State) : State :=
  let s1 := if s.sif.wakeOrder = .log ∧ logJoined s then writerBegin .counts { s with sif.wakeOrder := .mirror } else s
  if s1.sif.wakeOrder = .mirror ∧ Area.mirror ∉ (s1.writer .counts).queued then
    writerBegin .rest { s1 with sif.wakeOrder := .none }
  else s1

/-- A writer whose burst has completed goes on: to the next burst of its write if the burst was answered OKAY, then to the next
area asked for. After ERROR or WINDOW the bursts still left of a write are not made: R201 says so of a continued area; for
the Turn Log and the progress records, whose rules say that the write is not repeated (R126, R168), it is the model's choice
(entry 44). -/
def writerNext (u : StatusUser) (ok : Bool) (s : State) : State :=
  let w := s.writer u
  wakeWritesOn (match ok, w.left with
    | true, b :: l => joinStation (stationBurst (.status u) true b.1 b.2.length b.2) (s.setWriter u { w with left := l })
    | _, _ => writerBegin u (s.setWriter u { w with cur := none, granted := false, left := [] }))

/-! ### Events and INT (R13, R14) -/

/-- INT is evaluated again (R14). -/
def evalInt (s : State) : State := { s with sif.int := intOf s.sif.mask s.sif.posted s.sif.acked }

/-- A cause is posted: its count advances modulo 65536, the mirror is written when it is writable, INT is evaluated (R13). -/
def post (c : Cause) (s : State) : State :=
  let s1 := { s with sif.posted := s.sif.posted.modify c.num (· + 1) }
  evalInt (if mirrorWritable s1 then ask .mirror s1 else s1)

/-- The cause has nothing outstanding: its counts are equal (R155). -/
def nothingOutstanding (c : Cause) (s : State) : Bool := s.sif.posted.getD c.num 0 == s.sif.acked.getD c.num 0

/-! ### Finalization (R10) -/

/-- The DONE cause of a chain. -/
def doneCause : Chain → Cause
  | .page => .pageDone
  | .control => .controlDone
  | .fetch => .fetchDone

/-- A chain's retired count advances by one (R12). -/
def countRetired (c : Chain) (s : State) : State := s.setChain c { s.chain c with retired := (s.chain c).retired + 1 }

/-- A finalization is counted: its chain's retired count advances, the retired counts are written, the DONE cause is posted
(R10, R12). -/
def countFinal (c : Chain) (s : State) : State := post (doneCause c) (ask .retired (countRetired c s))

/-- Every write of a finalization has joined the STATION queue: it is counted, unless that has been done already (R10, R20,
R146). -/
def finalJoined (f : Final) (s : State) : State := if f.counted then s else countFinal f.chain s

/-- A write of the finalizer joins the STATION queue. -/
def joinFinal (b : Nat × List Byte) (s : State) : State := joinStation (stationBurst .finalizer true b.1 b.2.length b.2) s

/-- The finalizer presents its next write when it has none waiting; with its status write a record's last one has joined (R10,
R22). -/
def kickFinalizer (s : State) : State :=
  match s.sif.finalBusy, s.sif.finals with
  | false, f :: l =>
    match f.writes with
    | b :: w => joinFinal b { s with sif.finals := { f with writes := w } :: l, sif.finalBusy := true }
    | [] => finalJoined f (joinFinal f.status { s with sif.finals := l, sif.finalBusy := true })
  | _, _ => s

/-- A write of the finalizer has completed, whatever its answer: it is not repeated, and the next one joins (R10, R22). -/
def finalizerNext (s : State) : State := kickFinalizer { s with sif.finalBusy := false }

/-- A record is finalized: results (offset in the record and bytes), stamp and status are written in this order, each joining the
STATION queue when the one before has completed (R10, R22). Count and post follow when the status has joined; while the port
is closed they are made at once, and the retired-count write waits at the port (R20, R146, entry 40). -/
def finalize (c : Chain) (record : Nat) (results : List (Nat × List Byte)) (code : Code) (s : State) : State :=
  let f : Final :=
    { chain := c, counted := !portOpen s
      writes := results.map (fun r => (record + r.1, r.2)) ++ [(record + 0xC, le32 s.partTime.toNat)]
      status := (record + 5, le8 code.num) }
  let s1 := { s with sif.finals := s.sif.finals ++ [f] }
  let s2 := if s.sif.finals.isEmpty then kickFinalizer s1 else s1
  if portOpen s then s2 else countFinal c s2

/-! ### The window capture (R28, R29, R30) -/

/-- The capture area is written, but not before a START load has succeeded (R29). -/
def askCapture (s : State) : State := if s.sif.live then ask .capture s else s

/-- A window failure is reported to the capture (R28). -/
def reportWindow (c : Client) (write : Bool) (addr len : Nat) (s : State) : State :=
  if s.mpt.capture.full then
    if s.mpt.capture.further = 65535 then s
    else askCapture { s with mpt.capture.further := s.mpt.capture.further + 1 }
  else
    askCapture (post .window
      { s with mpt.capture := { full := true, addr := addr, len := len, client := c, write := write, stamp := s.partTime, further := 0 } })

/-- The capture re-arms (R30). -/
def rearm (s : State) : State := askCapture { s with mpt.capture.full := false, mpt.capture.further := 0 }

/-! ### Panel-image-uncertain (R81) -/

/-- Panel-image-uncertain is set, and the note of every lane that is not FREE is cleared (R81); the panel status is written
when the flag changes (R83). -/
def setUncertain (s : State) : State :=
  let s1 := { s with
    upe.uncertain := true
    upe.lanes := s.upe.lanes.map fun l => if l.isFree then l else { l with note := false } }
  if s.upe.uncertain then s1 else ask .panel s1

/-! ### Bursts given up (R95, R100, R164, R167) -/

/-- A burst whose answer will be ignored. -/
def Burst.ignore (b : Burst) : Burst := if b.fate = .live then { b with fate := .ignored } else b

/-- The burst a client has in flight or waiting for a repeat is given up: it still completes, and its answer is ignored. -/
def giveUpBurst (c : Client) (s : State) : State :=
  let s1 := { s with mpt.inflight := s.mpt.inflight.map fun b => if b.client = c then b.ignore else b }
  match c with
  | .scan => { s1 with mpt.scanWait := s1.mpt.scanWait.map Burst.ignore }
  | .pixel => { s1 with mpt.pixelWait := s1.mpt.pixelWait.map Burst.ignore }
  | .download => { s1 with mpt.downWait := s1.mpt.downWait.map Burst.ignore }
  | .verify => { s1 with mpt.verifyWait := s1.mpt.verifyWait.map Burst.ignore }
  | .waveform | .station => s1

end Sys2Proof.Machine
end

