-- ==== Sys2Proof/Machine/Download.lean ====
section
/-! DEFINITION. The Download Channel: receiver, Chunk FIFO, File Table, dispatch, verify and stop (chapter 8). -/

namespace Sys2Proof.Machine

/-! ### Link error counters (R155) -/

/-- A link error counter is increased: its area is written, and LINK posted when nothing is outstanding (R155). -/
def countLink (c : LinkCounter) (s : State) : State :=
  if s.dlc.counters.getD c.num 0 = 65535 then s
  else
    let s1 := ask .link { s with dlc.counters := s.dlc.counters.modify c.num (· + 1) }
    if nothingOutstanding .link s1 then post .link s1 else s1

/-! ### The receiver (R151 to R153) -/

/-- The receiver enters HUNT with no progress, under the marker in force (R171). -/
def enterHunt (s : State) : State := { s with dlc.recv := .hunt 0, dlc.markers := (s.cfg.marker0, s.cfg.marker1) }

/-- The length judged at the eighth header byte (R151). -/
def judgeHeader (crc : Word) (h : ChunkHeader) (s : State) : State :=
  if h.len = 0 ∨ 1024 < h.len then countLink .framing (enterHunt s)
  else if h.space ≤ freeSpace s then { s with dlc.recv := .payload crc h [] }
  else countLink .overflow { s with dlc.recv := .discard (h.len + 4) }

/-- The check at the fourth CRC byte (R152). -/
def judgeFrame (crc : Word) (h : ChunkHeader) (payload field : List Byte) (s : State) : State :=
  if BitVec.ofNat 32 (u32 field 0) = ~~~ crc then
    enterHunt { s with dlc.fifo := s.dlc.fifo ++ [⟨h, payload⟩] }
  else countLink .crc (enterHunt s)

/-- One byte at the running receiver (R151, R152, R153). -/
def recvByte (s : State) (b : Byte) : State :=
  match s.dlc.recv with
  | .hunt 0 => if b = s.dlc.markers.1 then { s with dlc.recv := .hunt 1 } else s
  | .hunt (_ + 1) =>
    if b = s.dlc.markers.2 then { s with dlc.recv := .header crcInit [] }
    else if b = s.dlc.markers.1 then { s with dlc.recv := .hunt 1 }
    else { s with dlc.recv := .hunt 0 }
  | .header crc got =>
    if got.length + 1 < 8 then { s with dlc.recv := .header (crcByte crc b) (got ++ [b]) }
    else judgeHeader (crcByte crc b) (parseChunkHeader (got ++ [b])) { s with dlc.recv := .hunt 0 }
  | .payload crc h got =>
    if got.length + 1 < h.len then { s with dlc.recv := .payload (crcByte crc b) h (got ++ [b]) }
    else { s with dlc.recv := .trailer (crcByte crc b) h (got ++ [b]) [] }
  | .trailer crc h payload got =>
    if got.length + 1 < 4 then { s with dlc.recv := .trailer crc h payload (got ++ [b]) }
    else judgeFrame crc h payload (got ++ [b]) s
  | .discard left => if left ≤ 1 then enterHunt s else { s with dlc.recv := .discard (left - 1) }

/-- Bytes at the receiver, in order; a receiver that does not run takes no notice (R149). -/
def recvBytes (bytes : List Byte) (s : State) : State := if receiverRuns s then bytes.foldl recvByte s else s

/-- LSEL goes inactive (R153). -/
def lselOff (s : State) : State :=
  if receiverRuns s then
    match s.dlc.recv with
    | .header _ _ | .payload _ _ _ | .trailer _ _ _ _ => countLink .framing (enterHunt s)
    | .discard _ => enterHunt s
    | .hunt _ => { s with dlc.recv := .hunt 0 }
  else s

/-! ### Slots (R158, R162, R163, R165, R168) -/

/-- A slot's progress record is written (R168). -/
def askProgress (i : Nat) (s : State) : State := ask (.progress i) s

/-- The stall timer of R165, started now. -/
def State.stallTimer (s : State) : Timer := s.timer (s.cfg.stallLimit * 1000)

/-- The result of an OPEN: the reason code in flags bits 15:8 (section 11.5). -/
def openResult (reason : Nat) : List (Nat × List Byte) := [(7, le8 reason)]

/-- A slot becomes CORRUPT: timer stopped, OPEN finalized, FILE posted, progress written (R163, R167). -/
def corruptSlot (i : Nat) (computed : Word) (code : Code) (s : State) : State :=
  let f := s.slot i
  askProgress i (post .file (finalize .fetch f.record (openResult 0) code
    (s.setSlot i { f with state := .corrupt, timer := none, computed := computed })))

/-- A download stop that has ended is opened again (entry 27). -/
def reopenStop (s : State) : State := { s with dlc.stop := if s.dlc.stop = .stopped then .stopping else s.dlc.stop }

/-- An OPEN is accepted into its slot (R158, entry 27). -/
def acceptOpen (i : Nat) (r : OpenReq) (extents : List (Nat × Nat)) (s : State) : State :=
  let full : Bool := extents == [(0, r.len)]
  let f : FileSlot :=
    { state := if full then .verifying else .opened
      file := r.file, dest := r.dest, len := r.len, crc := r.crc, extents := extents, received := extentSum extents
      stamp := s.partTime, computed := 0, record := r.record, timer := if full then none else s.stallTimer }
  let s1 := s.setSlot i f
  askProgress i (reopenStop { s1 with dlc.verifyQueue := if full then s.dlc.verifyQueue ++ [i] else s.dlc.verifyQueue })

/-- The first burst of the resume read at the head of the list joins the STATION queue (R157). -/
def kickResume (s : State) : State :=
  match s.dlc.resumes with
  | r :: l =>
    match r.left with
    | b :: rest => joinStation (stationBurst .resume false b.1 b.2 []) { s with dlc.resumes := { r with left := rest } :: l }
    | [] => s
  | [] => s

/-- A resume read is asked for; it begins at once when none is under way, else when those asked for before it have ended: they
share one STATION user (R22), and R157 gives no order (the model's choice, entry 58). -/
def askResume (i : Nat) (s : State) : State :=
  let r : Resume := ⟨i, blocks (s.baseAddr + 0x500 + 160 * i) 160, []⟩
  if s.dlc.resumes.isEmpty then kickResume { s with dlc.resumes := [r] }
  else { s with dlc.resumes := s.dlc.resumes ++ [r] }

/-- Another slot holds the file id, in use or by a claim (R156 check 4). -/
def fileTaken (i : Nat) (file : Half) (s : State) : Bool :=
  (List.range 4).any fun j => j != i &&
    (((s.slot j).state != .free && (s.slot j).file == file) ||
      match (s.slot j).claim with
      | some c => c.req.file == file
      | none => false)

/-- The checks of R156, in order: the code of the first that fails. -/
def openFailure (slot : Nat) (r : OpenReq) (s : State) : Option Code :=
  if 3 < slot then some .refusedRange
  else if !inRange 1 r.len 268435456 then some .refusedRange
  else if (s.slot slot).state ≠ .free ∨ (s.slot slot).claim ≠ none then some .busy
  else if fileTaken slot r.file s then some .duplicate
  else if !s.rangeOk r.dest r.len then some .window
  else none

/-- An OPEN record is handed over (R156, R157, R158). -/
def takeOpen (record : Nat) (bytes : List Byte) (s : State) : State :=
  let i := u8 bytes 0x10
  let r := parseOpen bytes record
  match openFailure i r s with
  | some code => finalize .fetch record (openResult 0) code s
  | none =>
    if flagsOf bytes % 2 = 1 then askResume i (reopenStop (s.setSlot i { s.slot i with claim := some { req := r } }))
    else acceptOpen i r [] s

/-- The claim of slot `i` is cleared and its OPEN finalized (R157). -/
def endClaim (i : Nat) (reason : Nat) (code : Code) (s : State) : State :=
  match (s.slot i).claim with
  | some c => finalize .fetch c.req.record (openResult reason) code (s.setSlot i { s.slot i with claim := none })
  | none => s

/-- A resume read has ended: with an error, or with the record's bytes (R157). A claim that a CLOSE has cancelled and whose read
also fails ends MEMORY_ERROR, as the first case of R157 says, where R159 says CANCELLED (the model's choice, entry 48). -/
def resumeEnd (i : Nat) (ok : Bool) (bytes : List Byte) (s : State) : State :=
  match (s.slot i).claim with
  | none => s
  | some c =>
    if !ok then endClaim i 0 .memoryError s
    else if c.cancelled then endClaim i 0 .cancelled s
    else
      match progressFailure bytes c.req with
      | some reason => endClaim i reason .refusedFormat s
      | none => acceptOpen i c.req (progressExtents bytes) s

/-- The resume read's burst has completed (R157). After a failure the bursts still left of the read are not made; R157 does not
say (the model's choice, entry 59). -/
def resumeNext (ok : Bool) (data : List Byte) (s : State) : State :=
  match s.dlc.resumes with
  | [] => s
  | r :: l =>
    if !ok || r.left.isEmpty then kickResume (resumeEnd r.slot ok (r.got ++ data) { s with dlc.resumes := l })
    else kickResume { s with dlc.resumes := { r with got := r.got ++ data } :: l }

/-! ### CLOSE (R159, R164, R167) -/

/-- The dispatch in progress, if it is for slot `i`, is dropped: its chunk leaves the FIFO uncounted (R164). -/
def dropDispatch (i : Nat) (s : State) : State :=
  match s.dlc.dispatch with
  | some d =>
    if d.slot = i then giveUpBurst .download { s with dlc.dispatch := none, dlc.fifo := s.dlc.fifo.tail } else s
  | none => s

/-- The verify pass, if it runs for slot `i`, is abandoned; the slot leaves the verify queue (R167). -/
def dropVerify (i : Nat) (s : State) : State :=
  let s1 := { s with dlc.verifyQueue := s.dlc.verifyQueue.filter (· != i) }
  match s.dlc.verify with
  | some v => if v.slot = i then giveUpBurst .verify { s1 with dlc.verify := none } else s1
  | none => s1

/-- A slot is made FREE; its map and counts stand (R159). -/
def freeSlot (i : Nat) (interrupted : Bool) (s : State) : State :=
  askProgress i (s.setSlot i { s.slot i with state := .free, timer := none, interrupted := interrupted })

/-- What a CLOSE does to slot `i`, by its state (R159). -/
def closeSlot (i : Nat) (s : State) : State :=
  let f := s.slot i
  match f.state with
  | .free =>
    match f.claim with
    | some c => s.setSlot i { f with claim := some { c with cancelled := true } }
    | none => s
  | .opened | .stalled => freeSlot i false (finalize .fetch f.record (openResult 0) .cancelled (dropDispatch i s))
  | .verifying => freeSlot i false (finalize .fetch f.record (openResult 0) .cancelled (dropVerify i s))
  | .verified | .corrupt => freeSlot i false s

/-- A CLOSE record is handed over; its result is the slot's state before it (R159). For a slot number above 3 there is no such
state: the result is a free one of the state codes (R199, entry 12). -/
def takeClose (record : Nat) (bytes : List Byte) (s : State) : State :=
  let i := flagsOf bytes % 4
  if flagsOf bytes / 4 % 2 = 1 then
    let r := takeFreeByte s
    finalize .fetch record [(7, le8 (r.1.toNat % 7))] .refusedRange r.2
  else finalize .fetch record [(7, le8 (s.slot i).state.num)] .done (closeSlot i s)

/-! ### Dispatch (R160 to R162) -/

/-- The oldest chunk leaves the FIFO. -/
def dropChunk (s : State) : State := { s with dlc.fifo := s.dlc.fifo.tail }

/-- The slot in use that holds a file id. -/
def slotOf (file : Half) (s : State) : Option Nat :=
  (List.range 4).find? fun i => (s.slot i).state != .free && (s.slot i).file == file

/-- A claimed slot's OPEN carries the file id (R160 step 1). -/
def claimedFile (file : Half) (s : State) : Bool :=
  (List.range 4).any fun i =>
    match (s.slot i).claim with
    | some c => c.req.file == file
    | none => false

/-- Steps 3 and 4 of an accepted chunk (R162). -/
def acceptChunk (i : Nat) (s : State) : State :=
  askProgress i (s.setSlot i { s.slot i with state := .opened, stamp := s.partTime, timer := s.stallTimer })

/-- A chunk judged against the map (R161). -/
def judgeMap (i : Nat) (c : Chunk) (s : State) : State :=
  let f := s.slot i
  let a := c.hdr.offset
  let b := a + c.hdr.len
  let t := (f.extents.filter (touches a b)).length
  let parts := uncovered f.extents a b
  if f.extents.length + 1 - t = 17 then dropChunk (countLink .fragment s)
  else if parts.isEmpty then dropChunk (acceptChunk i (countLink .duplicate s))
  else { s with dlc.dispatch := some ⟨i, c,
      parts.flatMap fun p => writeBlocks (f.dest + p.1) ((c.payload.drop (p.1 - a)).take (p.2 - p.1)), extentSum parts⟩ }

/-- The dispatch of the oldest stored chunk begins (R160). -/
def dispatchBegin (s : State) : State :=
  match s.dlc.dispatch, s.dlc.fifo with
  | none, c :: _ =>
    match slotOf c.hdr.file s with
    | none => if claimedFile c.hdr.file s then s else dropChunk (countLink .unknown s)
    | some i =>
      let f := s.slot i
      if f.len < c.hdr.offset + c.hdr.len then dropChunk (countLink .range s)
      else
        match f.state with
        | .opened | .stalled => judgeMap i c s
        | .verifying | .verified | .corrupt | .free => dropChunk (countLink .duplicate s)
  | _, _ => s

/-- Every payload write of a dispatch has completed OKAY: the chunk is accepted (R162). -/
def placeChunk (d : Dispatch) (s : State) : State :=
  let f := s.slot d.slot
  let a := d.chunk.hdr.offset
  let map := mergeExtent f.extents a (a + d.chunk.hdr.len)
  let s1 := dropChunk { s with dlc.dispatch := none }
  let s2 := acceptChunk d.slot (s1.setSlot d.slot { f with extents := map, received := f.received + d.fresh })
  if map = [(0, f.len)] then
    let s3 := s2.setSlot d.slot { s2.slot d.slot with state := .verifying, timer := none }
    { s3 with dlc.verifyQueue := s3.dlc.verifyQueue ++ [d.slot] }
  else s2

/-- A payload write has completed OKAY (R162). -/
def dispatchNext (s : State) : State :=
  match s.dlc.dispatch with
  | some d => if d.out.isEmpty then placeChunk d s else s
  | none => s

/-- A payload write has failed: the dispatch ends and the slot becomes CORRUPT (R163). -/
def dispatchFail (code : Code) (s : State) : State :=
  match s.dlc.dispatch with
  | some d => corruptSlot d.slot (s.slot d.slot).computed code (dropChunk { s with dlc.dispatch := none })
  | none => s

/-! ### Stall and verify (R165 to R167) -/

/-- A slot's stall timer expires (R165). -/
def stallExpiry (i : Nat) (s : State) : State :=
  let f := s.slot i
  if f.state = .opened ∧ f.timer ≠ none then
    askProgress i (post .file (s.setSlot i { f with state := .stalled, timer := none }))
  else s

/-- The verify pass begins for the head of the queue (R166). -/
def verifyBegin (s : State) : State :=
  match s.dlc.verify, s.dlc.verifyQueue with
  | none, i :: _ => { s with dlc.verify := some ⟨i, 0, crcInit⟩ }
  | _, _ => s

/-- A verify read has completed OKAY; after the last one the file's CRC-32 is compared (R167). -/
def verifyNext (data : List Byte) (s : State) : State :=
  match s.dlc.verify with
  | none => s
  | some v =>
    let f := s.slot v.slot
    let crc := crcBytes v.crc data
    if v.pos < f.len then { s with dlc.verify := some { v with crc := crc } }
    else
      let s1 := { s with dlc.verify := none, dlc.verifyQueue := s.dlc.verifyQueue.filter (· != v.slot) }
      if ~~~ crc = f.crc then
        askProgress v.slot (post .file (finalize .fetch f.record (openResult 0) .done
          (s1.setSlot v.slot { f with state := .verified, computed := ~~~ crc })))
      else corruptSlot v.slot (~~~ crc) .corrupt s1

/-- A verify read has failed (R167). -/
def verifyFail (code : Code) (s : State) : State :=
  match s.dlc.verify with
  | none => s
  | some v =>
    corruptSlot v.slot 0 code
      { s with dlc.verify := none, dlc.verifyQueue := s.dlc.verifyQueue.filter (· != v.slot) }

/-! ### The stop of downloads (R169) -/

/-- Entry to QUIESCE: the receiver stops, dropping a frame in progress uncounted (R169 step 1). -/
def stopDownloads (s : State) : State := enterHunt { s with dlc.stop := .stopping }

/-- Slot `i`, if OPEN or STALLED, is interrupted and made FREE (R169 step 4). -/
def interruptSlot (s : State) (i : Nat) : State :=
  let f := s.slot i
  if f.state = .opened ∨ f.state = .stalled then
    freeSlot i true (finalize .fetch f.record (openResult 0) .interrupted s)
  else s

/-- The drain of downloads has come to its end (R169 step 4). -/
def downloadsDrained (s : State) : Bool :=
  s.dlc.fifo.isEmpty && s.dlc.dispatch.isNone && s.dlc.verifyQueue.isEmpty && s.dlc.slots.all fun f => f.claim.isNone

/-- OPEN and STALLED slots are interrupted, from slot 0 to slot 3 (the model's choice, R169 gives no order, entry 49), and the
Rest Controller is told (R169 steps 4 and 5). -/
def downloadsStop (s : State) : State :=
  if s.dlc.stop = .stopping ∧ downloadsDrained s then
    { (List.range 4).foldl interruptSlot s with dlc.stop := .stopped }
  else s

end Sys2Proof.Machine
end

