-- ==== Sys2Proof/Machine/Measure.lean ====
section
/-! DEFINITION. The Measurement Unit: the ADC sequencer, samples, and the supply debounce (chapter 9). -/

namespace Sys2Proof.Machine

/-- A measurement area write is asked for; its time is kept when it makes a new write (R182, entry 23). -/
def askMeasure (s : State) : State :=
  let w := s.writer .measure
  if (w.cur = some .measure ∧ w.granted = false) ∨ .measure ∈ w.queued then s
  else ask .measure { s with meu.askTime := s.partTime }

/-- With the ADC IDLE, a filled place's conversion begins, temperature first (R175). -/
def adcKick (s : State) : State :=
  if s.meu.requester = false ∨ s.meu.adc ≠ none then s
  else if s.meu.tempPlace then { s with meu.adc := some .temperature, meu.tempPlace := false }
  else if s.meu.batteryPlace then { s with meu.adc := some .battery, meu.batteryPlace := false }
  else s

/-- A temperature request: it fills its place, or is merged (R175, R177). -/
def requestTemp (s : State) : State :=
  if s.meu.requester = false ∨ s.meu.tempPlace ∨ s.meu.adc = some .temperature then s
  else adcKick { s with meu.tempPlace := true }

/-- A battery request: it fills its place, or is merged (R175, R176). -/
def requestBattery (s : State) : State :=
  if s.meu.requester = false ∨ s.meu.batteryPlace ∨ s.meu.adc = some .battery then s
  else adcKick { s with meu.batteryPlace := true }

/-- The Update Engine asks for a sample unless one it asked for has not yet completed (R63). -/
def demandSample (s : State) : State := if s.upe.demand then s else requestTemp { s with upe.demand := true }

/-- Whether a part state has the rest row of the battery timer (R176). -/
def PartState.restRow : PartState → Bool
  | .rest | .restTurn => true
  | .stopped | .starting | .run | .quiesce | .waking => false

/-- The battery timer's period in the present part state (R176). -/
def batteryPeriod (s : State) : Nat := if s.rsc.part.restRow then s.cfg.restBatteryInterval else s.cfg.batteryInterval

/-- The battery requester begins at the application of a START load (R176). -/
def startRequester (s : State) : State :=
  requestBattery { s with meu.requester := true, meu.batteryTimer := s.timer (batteryPeriod s) }

/-- The value of a battery code (R178). -/
def batteryMv (cfg : Settings) (code : Nat) : Nat := code * cfg.vscale / 4096

/-- The value of a temperature code (R178). -/
def temperatureOf (cfg : Settings) (code : Nat) : Int := (code * cfg.tslope / 4096 : Nat) + cfg.toffset

/-- The fall test of the present state (R180). -/
def fallTest (cfg : Settings) (supply : Supply) (mv : Nat) : Bool :=
  match supply with
  | .normal => decide (mv < cfg.lowThreshold)
  | .low => decide (mv < cfg.criticalThreshold)
  | .critical => false

/-- The rise test of the present state (R181). -/
def riseTest (cfg : Settings) (supply : Supply) (mv : Nat) : Bool :=
  match supply with
  | .normal => false
  | .low => decide (cfg.lowThreshold + cfg.hysteresis ≤ mv)
  | .critical => decide (cfg.criticalThreshold + cfg.hysteresis ≤ mv)

/-- The counts and notes after a sample, before any change of state (R180, R181). -/
def countSample (cfg : Settings) (mv : Nat) (m : Meu) : Meu :=
  { m with
    down := if fallTest cfg m.supply mv then m.down + 1 else 0
    deep := fallTest cfg m.supply mv && decide (mv < cfg.criticalThreshold) && (m.down == 0 || m.deep)
    up := if riseTest cfg m.supply mv then m.up + 1 else 0
    high := riseTest cfg m.supply mv && decide (cfg.lowThreshold + cfg.hysteresis ≤ mv) && (m.up == 0 || m.high) }

/-- The supply state the counts call for (R180, R181). -/
def supplyAfter (m : Meu) : Supply :=
  match m.supply with
  | .normal => if 3 ≤ m.down then (if m.deep then .critical else .low) else .normal
  | .low => if 3 ≤ m.down then .critical else if 3 ≤ m.up then .normal else .low
  | .critical => if 3 ≤ m.up then (if m.high then .normal else .low) else .critical

/-- A battery sample judged: at a change of state both counts and notes clear (R181). -/
def judgeSample (cfg : Settings) (mv : Nat) (m : Meu) : Meu :=
  let m1 := countSample cfg mv m
  if supplyAfter m1 = m.supply then m1
  else { m1 with supply := supplyAfter m1, down := 0, deep := false, up := 0, high := false }

/-- The temperature sample older than temp-max-age is marked aged-out (R179); in STOPPED after a soft reset too, by the
temp-max-age that is held (the model's choice, R183 speaks of no setting there, entry 51). -/
def markAged (s : State) : State :=
  match s.meu.temperature with
  | some t =>
    if s.cfg.tempMaxAge * 1000 < s.age t.stamp then { s with meu.temperature := some { t with aged := true } } else s
  | none => s

end Sys2Proof.Machine
end

