-- ==== Sys2Proof/Machine/Supply.lean ====
section
/-! DEFINITION. The Panel Supply Sequencer's own moves: rising, ON, the idle hold, OFF, and the early end of a frame (sections 5.1 and 5.4). -/

namespace Sys2Proof.Machine

/-- The idle-hold timer runs in ON exactly while every lane is FREE and the list is empty (R99). -/
def idleCheck (s : State) : State :=
  if s.pss.rail = .on then
    if allLanesFree s && s.upe.list.isEmpty then
      (if s.pss.idleTimer = none then { s with pss.idleTimer := s.timer s.cfg.idleHold } else s)
    else { s with pss.idleTimer := none }
  else s

/-- The rails are ON (R98). -/
def railsOn (s : State) : State := idleCheck (ask .panel { s with pss.rail := .on, pss.riseTimer := none })

/-- Entry to RISING: RAIL_EN is asserted and the rise timer starts at 20 ms; RAIL_GOOD already asserted makes the rails ON
(R97, R98). -/
def enterRising (s : State) : State :=
  let s1 := ask .panel { s with pss.rail := .rising, pss.riseTimer := s.timer 20 }
  if s1.pss.railGood then railsOn s1 else s1

/-- The sequencer leaves OFF for RISING while a lane is ARMING (R97). -/
def railsRise (s : State) : State := if s.pss.rail = .off ∧ someArming s then enterRising s else s

/-- Entry to OFF, and RISING at once if a lane is ARMING (R97, R101, R104). -/
def enterOff (s : State) : State := railsRise (ask .panel { s with pss.rail := .off })

/-- A running frame ends at once, without a frame end: the Frame Scanner becomes STILL, its lane set and slots are emptied,
and bursts made for them are given up (R99, R100). -/
def stopFrame (s : State) : State :=
  if s.fsc.frame = .still then s
  else giveUpBurst .scan { s with
    fsc.frame := .still, fsc.line := 0, fsc.inLine := false, fsc.held := none, fsc.laneSet := []
    fsc.slots := [], fsc.drive := none }

end Sys2Proof.Machine
end

