-- ==== Sys2Proof/Machine/Waveforms.lean ====
section
/-! DEFINITION. The Waveform Store: band selection, lookups, loads, binding, release and acceptance (chapter 3). -/

namespace Sys2Proof.Machine

/-- The answers of a lookup (R41). -/
inductive LookupAnswer where
  | noImage
  | found (entry : Nat)
  | loading
  | noRoom
deriving DecidableEq, Repr

/-! ### Reports to the Update Engine (R66) -/

/-- An entry has become EMPTY, or READY with reference count 0 and no holder: every NO_ROOM entry is to look again. -/
def reportFree (s : State) : State :=
  { s with upe.list := s.upe.list.map fun e => if e.st = .noRoom then { e with again := true } else e }

/-- A load of `key` has ended: every LOADING entry whose key it concerned goes to NO_ROOM and is to look again. -/
def reportLoadEnd (key : Option StoreKey) (s : State) : State :=
  { s with upe.list := s.upe.list.map fun e =>
      if e.st = .loading ∧ e.key = key then { e with st := .noRoom, again := true } else e }

/-! ### Holders (R47) -/

/-- Whether clearing the holder `id` frees this entry, unless its key is the one looked up. -/
def holderFrees (id : Nat) (keep : Option StoreKey) (e : StoreEntry) : Bool :=
  e.holder == some id && (keep == none || e.key != keep) && e.state == .ready && e.refs == 0

/-- The holder `id` is cleared from every entry with another key than `keep`; a READY entry so freed is reported (R47). -/
def clearHolder (id : Nat) (keep : Option StoreKey) (s : State) : State :=
  let s1 := { s with wfs.entries := s.wfs.entries.map fun e =>
    if e.holder = some id ∧ (keep = none ∨ e.key ≠ keep) then { e with holder := none } else e }
  if s.wfs.entries.any (holderFrees id keep) then reportFree s1 else s1

/-- List entry `id` asks for the key `k`: its hold of an entry with another key is cleared, and a report so made lets the scan run
once more, since a lookup may be one of a scan that has met older entries already (R47, R67, entry 8). -/
def dropOtherHold (id : Nat) (k : StoreKey) (s : State) : State :=
  let s1 := clearHolder id (some k) s
  if s.wfs.entries.any (holderFrees id (some k)) then { s1 with upe.rescan := true } else s1

/-! ### Band selection (R48 to R50) -/

/-- A band is selected for temperature `t`: it becomes the history, and TEMPERATURE is posted for a temperature outside the
table (R48, R49, R50). -/
def selectBand (im : Image) (t : Int) (s : State) : Nat × State :=
  let b := chooseBand im s.wfs.history t
  let s1 := { s with wfs.history := some b }
  (b, if outsideBands im t then post .temperature s1 else s1)

/-! ### Lookup and load (R41 to R43) -/

/-- A burst joins the WAVEFORM client's queue (R43). -/
def joinWave (b : Burst) (s : State) : State := { s with mpt.waveQueue := s.mpt.waveQueue ++ [b] }

/-- The number of the entry that matches a test, lowest first. -/
def findEntry (p : StoreEntry → Bool) (s : State) : Option Nat :=
  (List.range 4).find? fun i => p (s.store i)

/-- A store entry that may be replaced: READY, not stale, unused and unheld (R42). -/
def StoreEntry.candidate (e : StoreEntry) : Bool :=
  e.state == .ready && !e.stale && e.refs == 0 && e.holder == none

/-- The better of a choice so far and entry `i`: the older last-use stamp, the lower number among equals (R42). -/
def olderEntry (s : State) (best : Option Nat) (i : Nat) : Option Nat :=
  if (s.store i).candidate then
    match best with
    | none => some i
    | some j => if s.age (s.store j).stamp < s.age (s.store i).stamp then some i else some j
  else best

/-- The entry a lookup may load (R42). -/
def chooseEntry (s : State) : Option Nat :=
  match findEntry (fun e => e.state == .empty) s with
  | some i => some i
  | none => (List.range 4).foldl (olderEntry s) none

/-- A READY or LOADING entry, not stale, that holds a key. -/
def StoreEntry.holds (st : EntryState) (k : StoreKey) (e : StoreEntry) : Bool :=
  e.state == st && !e.stale && e.key == some k

/-- The load's next burst (R43). -/
def loadBurst (i : Nat) (addr : Nat) : Burst :=
  { client := .waveform, user := .load i, write := false, addr := addr, len := 64, data := [] }

/-- Entry `i` becomes LOADING with the key; its holder is the asking list entry, and its table's first burst is made (R41
case 4, R43). -/
def beginLoad (im : Image) (i : Nat) (k : StoreKey) (id : Nat) (s : State) : State :=
  let d := im.dir.getD (k.mode.num * 12 + k.band) (0, 0)
  joinWave (loadBurst i (im.addr + d.1)) (s.setStore i
    { state := .loading, key := some k, frames := d.2, holder := some id, stamp := (s.store i).stamp
      loadAddr := im.addr + d.1 + 64, loadLeft := d.2 - 1 })

/-- A lookup by list entry `id` for a mode and band (R41). An entry that `id` held under another key is freed first, so that the
choice of R42 in this same lookup may take it; R47 gives no order (the model's choice, entry 50). -/
def lookup (id : Nat) (mode : Mode) (band : Nat) (s : State) : LookupAnswer × State :=
  match s.wfs.active with
  | none => (.noImage, s)
  | some im =>
    let k : StoreKey := ⟨s.wfs.generation, mode, band⟩
    let s1 := dropOtherHold id k s
    match findEntry (StoreEntry.holds .ready k) s1 with
    | some i => (.found i, s1)
    | none =>
      match findEntry (StoreEntry.holds .loading k) s1 with
      | some _ => (.loading, s1)
      | none =>
        match chooseEntry s1 with
        | some i => (.loading, beginLoad im i k id s1)
        | none => (.noRoom, s1)

/-! ### Binding and release (R46) -/

/-- A lane is bound to entry `i` at the admission of list entry `id`. -/
def bindEntry (i id : Nat) (s : State) : State :=
  let e := s.store i
  s.setStore i { e with refs := e.refs + 1, stamp := s.partTime, holder := if e.holder = some id then none else e.holder }

/-- A lane's binding to entry `i` is released. -/
def releaseEntry (i : Nat) (s : State) : State :=
  let e := s.store i
  if e.refs ≤ 1 then
    if e.stale then reportFree (s.setStore i { stamp := e.stamp })
    else if e.holder = none then reportFree (s.setStore i { e with refs := 0 })
    else s.setStore i { e with refs := 0 }
  else s.setStore i { e with refs := e.refs - 1 }

/-! ### Acceptance (R39, R40) -/

/-- What acceptance of a later image makes of an entry (R40). -/
def StoreEntry.retire (e : StoreEntry) : StoreEntry :=
  match e.state with
  | .empty => e
  | .ready => if e.refs = 0 then { stamp := e.stamp } else { e with stale := true, holder := none }
  | .loading => { e with stale := true, holder := none }

/-- An image is accepted: it becomes active, the generation advances, the history is cleared, the store goes stale, and every
list entry loses its key (R39, R66). -/
def acceptImage (im : Image) (s : State) : State :=
  { s with
    wfs.active := some im
    wfs.generation := s.wfs.generation + 1
    wfs.history := none
    wfs.entries := s.wfs.entries.map StoreEntry.retire
    upe.list := s.upe.list.map fun e => { e with key := none, st := .none, note := false, again := false } }

end Sys2Proof.Machine
end

