-- ==== Sys2Proof/Machine/Lanes.lean ====
section
/-! DEFINITION. The Update Engine's list: promotion, key choice, the admission scan, appends and cancellation (sections 4.3 to 4.5). -/

namespace Sys2Proof.Machine

/-- A list entry replaced, by its number. -/
def setEntry (id : Nat) (f : Entry → Entry) (s : State) : State :=
  { s with upe.list := s.upe.list.map fun e => if e.id = id then f e else e }

/-- The entry with a number, if it is in the list. -/
def findListed (id : Nat) (s : State) : Option Entry := s.upe.list.find? fun e => e.id == id

/-- The entry is blocked: some older entry's rectangle intersects its own (R62). -/
def isBlocked (list : List Entry) (e : Entry) : Bool :=
  (list.takeWhile fun o => o.id != e.id).any fun o => o.rect.intersects e.rect

/-- The promotion decision: the mode, and whether it found panel-image-uncertain set (R64). -/
def decideMode (e : Entry) (s : State) : Mode × Bool :=
  if e.rect.isFull s.cfg.width s.cfg.height then
    if s.upe.uncertain then (.clear, true)
    else if e.mode = .gray ∧ 0 < s.cfg.cadence ∧ s.cfg.cadence - 1 ≤ s.upe.cadence then (.clear, false)
    else (e.mode, false)
  else (e.mode, false)

/-- The store state an answer gives a waiting entry (R65); without an image the entry keeps NONE. -/
def LookupAnswer.st : LookupAnswer → StoreSt
  | .found _ => .keyed
  | .loading => .loading
  | .noRoom => .noRoom
  | .noImage => .none

/-- The entry looks its key up and takes the state of the answer (R41, R65, R66, R67). -/
def lookupFor (id : Nat) (mode : Mode) (band : Nat) (note : Bool) (s : State) : LookupAnswer × State :=
  let r := lookup id mode band s
  (r.1, setEntry id (fun e => { e with
    st := r.1.st, key := some ⟨s.wfs.generation, mode, band⟩, note := note, again := false }) r.2)

/-- An unblocked entry in state NONE, with the temperature fresh, chooses its key (R65). -/
def chooseKey (e : Entry) (s : State) : State :=
  match s.wfs.active, s.meu.temperature with
  | some im, some t =>
    let m := decideMode e s
    let b := selectBand im t.value s
    (lookupFor e.id m.1 b.1 m.2 b.2).2
  | _, _ => s

/-- An unblocked entry in state NONE chooses its key, or goes to SAMPLING with a sample demanded (R63, R65). -/
def keyOrSample (e : Entry) (s : State) : State :=
  if tempFresh s then chooseKey e s
  else demandSample (setEntry e.id (fun x => { x with st := .sampling }) s)

/-- The conditions of R67 that no lookup changes: the part state, the supply, a FREE lane, an idle Pixel Pass Unit with no
retire pass and no sweep waiting. -/
def mayAdmit (s : State) : Bool :=
  (s.rsc.part == .run || s.rsc.part == .quiesce || s.rsc.part == .restTurn) && s.pss.rail != .locked &&
  s.upe.lanes.any Lane.isFree && s.upe.pass.isNone && s.upe.retireQueue.isEmpty && !s.upe.sweepWaiting

/-- The WAIT condition of R67. -/
def waitOk (e : Entry) (s : State) : Bool :=
  e.policy == .overlap || !(s.upe.lanes.any fun l => !l.isFree && l.rect.intersects e.rect)

/-- Whether an unblocked entry that is not SAMPLING or LOADING is eligible, with the lookup the test makes (R67). -/
def eligible (e : Entry) (s : State) : Bool × State :=
  match e.key with
  | none => (false, s)
  | some k =>
    if mayAdmit s then
      let m := decideMode e s
      match lookupFor e.id m.1 k.band m.2 s with
      | (.found _, s1) => (waitOk e s1, s1)
      | (_, s1) => (false, s1)
    else (false, s)

/-- The scan meets one entry: it chooses its key or is tested (R67). -/
def scanEntry (id : Nat) (s : State) : Bool × State :=
  match findListed id s with
  | none => (false, s)
  | some e =>
    if isBlocked s.upe.list e then (false, s)
    else
      let s1 := if e.st = .none then keyOrSample e s else s
      match findListed id s1 with
      | some e1 =>
        match e1.st with
        | .noRoom | .keyed => eligible e1 s1
        | .none | .sampling | .loading => (false, s1)
      | none => (false, s1)

/-- The scan from a list of entries on: the first eligible one, and the state the scan leaves (R67). -/
def scanList : List Nat → State → Option Nat × State
  | [], s => (none, s)
  | id :: l, s =>
    match scanEntry id s with
    | (true, s1) => (some id, s1)
    | (false, s1) => scanList l s1

/-- The admission scan: entries choose keys or go to SAMPLING, up to the first eligible entry (R67, entry 8). -/
def scanFor (s : State) : Option Nat × State := scanList (s.upe.list.map Entry.id) s

/-- The admission scan, for an event that lets it run; it serves the reports of R66 that earlier lookups made (R67). -/
def scan (s : State) : State := (scanFor { s with upe.rescan := false }).2

/-! ### Joining and leaving the list (R60, R61) -/

/-- An entry joins the list at its tail; the scan runs (R60, R67). -/
def joinList (e : Entry) (s : State) : State :=
  scan (idleCheck (ask .panel { s with
    upe.list := s.upe.list ++ [{ e with id := s.upe.nextId, st := .none, key := none, note := false, again := false }]
    upe.nextId := s.upe.nextId + 1 }))

/-- An entry leaves the list; a holder it was is cleared (R47, R60). -/
def leaveList (id : Nat) (s : State) : State :=
  idleCheck (ask .panel (clearHolder id none { s with upe.list := s.upe.list.filter fun e => e.id != id }))

/-- The answers of an append (R61). -/
inductive AppendAnswer where
  | joined (id : Nat)
  | full
  | noImage
  | panelFault
deriving DecidableEq, Repr

/-- A turn or a rest image appends its full-screen WAIT update (R61). -/
def append (origin : Origin) (mode : Mode) (addr stride : Nat) (tag : Option Word) (s : State) : AppendAnswer × State :=
  if s.wfs.active.isNone then (.noImage, s)
  else if s.pss.rail = .locked then (.panelFault, s)
  else if 16 ≤ listCount s then (.full, s)
  else (.joined s.upe.nextId, joinList
    { id := 0, origin := origin, rect := ⟨0, 0, s.cfg.width, s.cfg.height⟩, source := addr, stride := stride, mode := mode
      policy := .wait, tag := tag } s)

/-! ### UPDATE records (R57, R59) -/

/-- The result fields of an UPDATE record: mode used, band used and lane number, then pixels marked and collided count. -/
def updateResults (mode band lane marked collided : Nat) : List (Nat × List Byte) :=
  [(0x21, le8 mode ++ le8 band ++ le8 lane), (0x28, le32 marked ++ le32 collided)]

/-- The results of an update that ended without a lane (R59, R200). -/
def noLaneResults (mode : Nat) : List (Nat × List Byte) := updateResults mode 0xFF 0xFF 0 0

/-- The checks of R57, in order: the code of the first that fails. -/
def updateFailure (r : UpdateReq) (s : State) : Option Code :=
  let w := s.cfg.width
  let h := s.cfg.height
  if (Mode.ofNum r.mode).isNone then some .refusedFormat
  else if !(r.rect.x % 8 == 0 && r.rect.w % 8 == 0 && decide (8 ≤ r.rect.w) && decide (1 ≤ r.rect.h) &&
      decide (r.rect.x + r.rect.w ≤ w) && decide (r.rect.y + r.rect.h ≤ h)) then some .refusedRange
  else if !(r.stride % 4 == 0 && decide (r.rect.w / 2 ≤ r.stride)) then some .refusedRange
  else if r.tagged && !r.rect.isFull w h then some .refusedFormat
  else if s.wfs.active.isNone then some .refusedFormat
  else if !s.rangeOk r.source ((r.rect.h - 1) * r.stride + r.rect.w / 2) then some .window
  else if !s.rangeOk (s.geom.pixelAddr r.rect.x r.rect.y) (2 * ((r.rect.h - 1) * w + r.rect.w)) then some .window
  else if s.pss.rail = .locked then some .panelFault
  else none

/-- The UPDATE record at `record` is handed over: its reservation is released, and it is refused or joins the list (R57, R58). One
refused for mode 3 shows 3 as its mode used, the requested mode of R59, though 3 is no code of the table (R199; the model's
choice, entry 55). -/
def takeUpdate (record : Nat) (bytes : List Byte) (s : State) : State :=
  let r := parseUpdate bytes
  let s1 := { s with upe.reservations := s.upe.reservations - 1 }
  match updateFailure r s1 with
  | some code => finalize .page record (noLaneResults r.mode) code s1
  | none => joinList
      { id := 0, origin := .record record, rect := r.rect, source := r.source, stride := r.stride
        mode := (Mode.ofNum r.mode).getD .clear, policy := if r.policy = 0 then .wait else .overlap
        tag := if r.tagged then some r.tag else none } s1

/-! ### Store reports (R66) -/

/-- The entries marked to look again make their lookups, oldest first, each seeing the store as the one before left it. -/
def relookList : List Nat → State → State
  | [], s => s
  | id :: l, s =>
    match findListed id s with
    | some e =>
      match e.again, e.key with
      | true, some k => relookList l (lookupFor id k.mode k.band e.note s).2
      | _, _ => relookList l s
    | none => relookList l s

/-- A report of R66 has arrived: the scan runs. Where entries are marked to look again, it follows their lookups, and both are left
to `storeRetry`, so that no younger entry's lookup comes before theirs (R66, R67, entry 8). -/
def reported (s : State) : State := if s.upe.list.any Entry.again then s else scan s

/-- Waiting lookups are made again, and the scan runs: for a report that marked an entry, or that a lookup of a scan made (R66,
R67, entry 8). -/
def storeRetry (s : State) : State :=
  if s.upe.list.any Entry.again || s.upe.rescan then scan (relookList (s.upe.list.map Entry.id) s) else s

/-! ### Completed samples (R63) -/

/-- A temperature sample has completed: every SAMPLING entry goes back to NONE and the scan runs. -/
def sampleDone (s : State) : State :=
  scan { s with
    upe.demand := false
    upe.list := s.upe.list.map fun e => if e.st = .sampling then { e with st := .none } else e }

end Sys2Proof.Machine
end

