-- ==== Sys2Proof/Machine/Light.lean ====
section
/-! DEFINITION. The Light Unit: ramps, the ceiling, toggles, rest fade and restore, duty pairs and generators (chapter 7). -/

namespace Sys2Proof.Machine

/-- The ceiling of a supply state (R132). -/
def ceilingOf (cfg : Settings) : Supply → Nat
  | .normal => 1000
  | .low => cfg.lowCeiling
  | .critical => 0

/-- A ramp is started; it replaces any ramp in progress, and the light status is written (R134). -/
def startRamp (d target warmth : Nat) (cause : RampCause) (s : State) : State :=
  ask .light { s with
    ltu.ramp := some { v0 := s.ltu.level, m0 := s.ltu.warmth, t := target, tm := warmth, n := rampSteps d, k := 0, cause := cause } }

/-- The four result fields of a LIGHT record, as they stand (section 7.2). -/
def lightResults (s : State) : List (Nat × List Byte) :=
  [(0x18, le16 s.ltu.lr ++ le16 s.ltu.mr ++ le16 s.ltu.level ++ le16 s.ltu.ceiling)]

/-- The LIGHT in progress, if any, is finalized and becomes absent (R131). -/
def finalizeLight (code : Code) (s : State) : State :=
  match s.ltu.light with
  | some r => finalize .control r (lightResults s) code { s with ltu.light := none, ltu.detached := false }
  | none => s

/-- The level a ramp returns the light to: min(Lr, C). -/
def litLevel (s : State) : Nat := min s.ltu.lr s.ltu.ceiling

/-- The ceiling is set again; a change of value starts the ceiling ramp unless rest-dark is set, and a LIGHT in progress is
attached to that ramp (R132, R133). -/
def setCeiling (s : State) : State :=
  let c := ceilingOf s.cfg s.meu.supply
  if c = s.ltu.ceiling then s
  else
    let s1 := ask .light { s with ltu.ceiling := c }
    if s1.ltu.restDark then s1
    else startRamp s.cfg.ceilingFade (if s1.ltu.keyOff then 0 else litLevel s1) s1.ltu.mr .ceiling { s1 with ltu.detached := false }

/-- A LIGHT record's fields are clamped and its ramp started (R130). -/
def takeLight (record : Nat) (bytes : List Byte) (s : State) : State :=
  let s1 := finalizeLight .cancelled s
  let s2 := { s1 with ltu.lr := min (u16 bytes 0x10) 1000, ltu.mr := min (u16 bytes 0x12) 100, ltu.keyOff := false }
  startRamp (min (u16 bytes 0x14) 10000) (litLevel s2) s2.ltu.mr .light { s2 with ltu.light := some record, ltu.detached := false }

/-- A toggle of the light key (R142, R143). With Lr = 0 the LIGHT in progress is finalized before Lr takes key-default-level,
so its result shows Lr = 0; R143 gives no order (the model's choice, entry 47). -/
def toggle (s : State) : State :=
  if s.ltu.restDark then s
  else if s.ltu.keyOff then
    let s1 := finalizeLight .cancelled s
    startRamp s.cfg.keyFade (min s1.ltu.remembered s1.ltu.ceiling) s1.ltu.mr .key { s1 with ltu.keyOff := false }
  else if s.ltu.lr = 0 then
    let s1 := finalizeLight .cancelled s
    let s2 := { s1 with ltu.lr := s.cfg.keyDefaultLevel }
    startRamp s.cfg.keyFade (litLevel s2) s2.ltu.mr .key s2
  else if 0 < litLevel s then
    let s1 := finalizeLight .cancelled s
    startRamp s.cfg.keyFade 0 s1.ltu.mr .key { s1 with ltu.keyOff := true, ltu.remembered := s1.ltu.lr }
  else s

/-- A rest fade with the rest-fade of this rest (R144, R185); the Rest Controller waits for its ramp end (R190). -/
def restFade (s : State) : State :=
  let s1 := finalizeLight .cancelled { s with ltu.restDark := true, rsc.fadePending := true }
  startRamp s.rsc.fade 0 s1.ltu.mr .restFade s1

/-- A restore (R145). A LIGHT still in progress after a rest that kept the light is attached to no ramp from here on; whether the
end of the restore ramp finalizes it all the same is a free value (R136, R145, entry 41). -/
def restore (s : State) : State :=
  let s1 := { s with ltu.restDark := false, rsc.fadePending := false }
  if s.ltu.keyOff then (if s.ltu.restDark then ask .light s1 else s1)
  else startRamp s.rsc.fade (litLevel s1) s1.ltu.mr .restore { s1 with ltu.detached := s.ltu.light.isSome }

/-- The duty pair of the applied values under the gamma table in force (R137, R138). -/
def dutyPair (s : State) : Nat × Nat := dutySplit (luminance s.cfg.gamma s.ltu.level) s.ltu.warmth

/-- The duty pair of the applied values is placed in the pending pair (R135, R140). -/
def placePair (s : State) : State := { s with ltu.pair := some (dutyPair s), ltu.gammaDirty := false }

/-- A ramp's last step has been taken: the ramp becomes absent, the LIGHT in progress is finalized DONE, the Rest Controller is
told, the light status is written (R131, R136). Of a LIGHT whose ramp a restore has replaced R136 says that the replacing ramp's
end finalizes it, R131 with R145 that no restore ramp does: which of the two the part does is a free value (entry 41). -/
def endRamp (s : State) : State :=
  let s0 := { s with ltu.ramp := none }
  let s1 := if s.ltu.detached && !Config.restoreEndsLight then s0 else finalizeLight .done s0
  ask .light { s1 with rsc.fadePending := false }

/-- A ramp with its next step taken (R135). -/
def Ramp.next (r : Ramp) : Ramp := { r with k := r.k + 1 }

/-- The next step of a ramp is taken (R135, R141). -/
def stepRamp (r : Ramp) (s : State) : State :=
  let s1 := placePair { s with
    ltu.ramp := some r.next
    ltu.level := rampValue r.v0 r.t r.next.k r.n
    ltu.warmth := rampValue r.m0 r.tm r.next.k r.n }
  let s2 := if s.ltu.gammaDirty then ask .light s1 else s1
  if r.n ≤ r.next.k then endRamp s2 else s2

/-- The ramp tick (R135, R141). Before a settings load has been applied nothing is computed (R129). -/
def rampTick (s : State) : State :=
  if s.sif.live = false then s
  else
    match s.ltu.ramp with
    | some r => stepRamp r s
    | none => if s.ltu.gammaDirty then ask .light (placePair s) else s

/-- A generator at a period boundary with duty `d`: high phase, or the low phase at once for duty 0 (R139). -/
def Gen.begin (d : Nat) : Gen := { duty := d, out := decide (0 < d), load := if d = 0 then 4095 else d - 1 }

/-- A generator whose high count has run out (R139). -/
def Gen.fall (g : Gen) : Gen := if g.out then { g with out := false, load := 4096 - g.duty - 1 } else g

/-- A period boundary: both generators take the pending pair together, or go on with the pair they have (R140). -/
def periodBoundary (s : State) : State :=
  let p := s.ltu.pair.getD (s.ltu.warm.duty, s.ltu.cool.duty)
  { s with ltu.pair := none, ltu.warm := Gen.begin p.1, ltu.cool := Gen.begin p.2 }

/-- The high count of a generator runs out (R139). -/
def highPhaseEnd (g : Generator) (s : State) : State :=
  match g with
  | .warm => { s with ltu.warm := s.ltu.warm.fall }
  | .cool => { s with ltu.cool := s.ltu.cool.fall }

end Sys2Proof.Machine
end

