-- ==== Sys2Proof/Machine/Keys.lean ====
section
/-! DEFINITION. The Key and Turn Unit: debouncers, the Key Queue, reports, the turn unit and the Turn Log (chapter 6). -/

namespace Sys2Proof.Machine

/-! ### Key lines (R108 to R110) -/

/-- The settings of key line `i`. -/
def State.keySetting (s : State) (i : Nat) : KeySetting := s.cfg.keys.getD i {}

/-- A line in IDLE whose level is active enters BOUNCING with its timer started (R108, R109). -/
def lineBounce (i : Nat) (s : State) : State :=
  let k := s.line i
  if k.state = .idle ∧ keyActive (s.keySetting i).polarity k.level then
    s.setLine i { k with state := .bouncing, timer := s.timer (s.keySetting i).debounce }
  else s

/-- A watched line's level has changed (R108). -/
def lineChanged (i : Nat) (s : State) : State :=
  let k := s.line i
  let active := keyActive (s.keySetting i).polarity k.level
  match k.state with
  | .idle => lineBounce i s
  | .bouncing => if active then s else s.setLine i { k with state := .idle, timer := none }
  | .pressed =>
    if active then s.setLine i { k with timer := none }
    else s.setLine i { k with timer := s.timer (s.keySetting i).debounce }

/-- A polarity change returns the line to IDLE and looks at its level afresh (R107). -/
def linePolarity (i : Nat) (s : State) : State :=
  lineBounce i (s.setLine i { s.line i with state := .idle, timer := none })

/-- A confirmed press joins the Key Queue, is dropped, or is discarded (R110). -/
def confirmPress (role : Role) (s : State) : State :=
  if role = .none then s
  else if s.ktu.queue.length < 4 then
    ask .keyReport { s with
      ktu.queue := s.ktu.queue ++ [⟨role, s.partTime⟩]
      ktu.counts := s.ktu.counts.modify (role.num - 1) (· + 1) }
  else if s.ktu.dropped = 65535 then s
  else ask .keyReport { s with ktu.dropped := s.ktu.dropped + 1 }

/-- A press is reported (R113). -/
def reportPress (p : Press) (s : State) : State :=
  ask .keyReport (post .key { s with
    ktu.lastRole := p.role, ktu.lastStamp := p.stamp, ktu.reported := s.ktu.reported + 1 })

/-! ### The Turn Log (R125, R126) -/

/-- The Turn Log is written. -/
def writeLog (s : State) : State := ask .turnLog { s with ktu.logDirty := false }

/-- A turn ends with a result: one log entry, the turn unit IDLE; in RUN the log is written and TURN posted (R123, R125,
R126). Outside RUN no write is made, even while an earlier one is under way: R126 says that such an entry is written by the
next of its cases, and also that a change during a write makes a further one (the model's choice, entry 57). The report to
the Rest Controller is `turnEnd`. -/
def turnEndLog (code : Code) (s : State) : State :=
  match s.ktu.turnRec with
  | none => s
  | some r =>
    let s1 := { s with
      ktu.turn := .idle
      ktu.turnRec := none
      ktu.log := s.ktu.log ++ [⟨r.dir, r.page.tag, s.partTime, code, r.dropped, r.ofRest⟩]
      ktu.logDirty := true }
    if s.rsc.part = .run then post .turn (writeLog s1) else s1

/-! ### Turns (R112, R120, R121) -/

/-- The list of a direction. -/
def State.pages (s : State) : Dir → List Page
  | .forward => s.ktu.forward
  | .back => s.ktu.backward

/-- The list, supply and log conditions of R112 and R194 for a turn. -/
def turnAllowed (d : Dir) (s : State) : Bool :=
  !(s.pages d).isEmpty && s.meu.supply != .critical && s.ktu.turn == .idle && decide (s.ktu.log.length < 16)

/-- The turn's update is appended; `none` means the turn goes on, a code that it has ended (R121). -/
def appendTurn (s : State) : Option Code × State :=
  match s.ktu.turnRec with
  | none => (none, s)
  | some r =>
    match append .turn .gray r.page.addr r.page.stride (some r.page.tag) s with
    | (.joined _, s1) => (none, { s1 with ktu.turn := .listed })
    | (.full, s1) => (none, { s1 with ktu.turn := .waitPlace })
    | (.noImage, s1) => (some .refusedFormat, s1)
    | (.panelFault, s1) => (some .panelFault, s1)

/-- A turn begins: its record is filled from the nearest staged page, the turn waiting (R120). -/
def fillTurn (d : Dir) (ofRest : Bool) (s : State) : State :=
  match s.pages d with
  | p :: _ => { s with
      ktu.turn := if ofRest then .waitMemory else .waitPlace
      ktu.turnRec := some { dir := d, page := p, ofRest := ofRest } }
  | [] => s

/-- A turn begun in RUN appends at once (R120). -/
def beginRunTurn (d : Dir) (s : State) : State :=
  match appendTurn (fillTurn d false s) with
  | (some code, s1) => turnEndLog code s1
  | (none, s1) => s1

/-- The direction of a page role. -/
def pressDir : Role → Option Dir
  | .forward => some .forward
  | .back => some .back
  | .none | .light | .wake => none

/-- A press handled in RUN (R112, R113). -/
def pressRun (p : Press) (s : State) : State :=
  match p.role with
  | .none => s
  | .light => toggle s
  | .wake => reportPress p s
  | .forward => if s.cfg.quickTurn = 1 ∧ turnAllowed .forward s then beginRunTurn .forward s else reportPress p s
  | .back => if s.cfg.quickTurn = 1 ∧ turnAllowed .back s then beginRunTurn .back s else reportPress p s

/-- The Key Queue handled oldest first as in RUN (R111). The number bounds how many presses are taken. -/
def runQueue : Nat → State → State
  | 0, s => s
  | n + 1, s =>
    match s.ktu.queue with
    | p :: q => runQueue n (pressRun p { s with ktu.queue := q })
    | [] => s

/-- A page put at the near end of a list of at most `cap`, and the tag of the page dropped from its far end (R122). -/
def pushPage (cap : Nat) (p : Page) (l : List Page) : List Page × Option Word :=
  if cap ≤ l.length then (p :: l.take (cap - 1), (l.getLast?).map Page.tag) else (p :: l, none)

/-- The lists move at the turn's admission, with the current-page record as it stood (R122). -/
def turnAdmitted (old : Option Page) (s : State) : State :=
  match s.ktu.turnRec with
  | none => s
  | some r =>
    let s1 := { s with ktu.turn := .admitted }
    match r.dir, old with
    | .forward, none => { s1 with ktu.forward := s.ktu.forward.tail }
    | .back, none => { s1 with ktu.backward := s.ktu.backward.tail }
    | .forward, some p =>
      let b := pushPage 4 p s.ktu.backward
      { s1 with ktu.forward := s.ktu.forward.tail, ktu.backward := b.1, ktu.turnRec := some { r with dropped := b.2 } }
    | .back, some p =>
      let f := pushPage 8 p s.ktu.forward
      { s1 with ktu.backward := s.ktu.backward.tail, ktu.forward := f.1, ktu.turnRec := some { r with dropped := f.2 } }

/-! ### STAGE, UNSTAGE, TURNS SEEN (R116, R117, R127) -/

/-- The capacity of a direction's list (section 6.3). -/
def Dir.capacity : Dir → Nat
  | .forward => 8
  | .back => 4

/-- A direction's list replaced. -/
def State.setPages (s : State) (d : Dir) (l : List Page) : State :=
  match d with
  | .forward => { s with ktu.forward := l }
  | .back => { s with ktu.backward := l }

/-- A STAGE record is handed over (R116). -/
def takeStage (record : Nat) (bytes : List Byte) (s : State) : State :=
  let fin (n : Nat) (code : Code) (s : State) : State := finalize .page record [(0x1C, le8 n)] code s
  let page : Page := ⟨BitVec.ofNat 32 (u32 bytes 0x18), u32 bytes 0x10, u32 bytes 0x14⟩
  let put (d : Dir) : State :=
    let n := (s.pages d).length
    if !strideOk page.stride s.cfg.width then fin n .refusedRange s
    else if !s.rangeOk page.addr (imageExtent s.cfg.width s.cfg.height page.stride) then fin n .window s
    else if d.capacity ≤ n then fin n .full s
    else fin (n + 1) .done (s.setPages d (s.pages d ++ [page]))
  match flagsOf bytes % 4 with
  | 0 => put .forward
  | 1 => put .back
  | _ => fin 0 .refusedFormat s

/-- An UNSTAGE record is handed over (R117). -/
def takeUnstage (record : Nat) (bytes : List Byte) (s : State) : State :=
  let fin (n : Nat) (code : Code) (s : State) : State := finalize .page record [(7, le8 n)] code s
  let f := s.ktu.forward.length
  let b := s.ktu.backward.length
  match flagsOf bytes % 4 with
  | 0 => fin f .done { s with ktu.forward := [] }
  | 1 => fin b .done { s with ktu.backward := [] }
  | 2 => fin (f + b) .done { s with ktu.forward := [], ktu.backward := [] }
  | _ => fin 0 .refusedFormat s

/-- A TURNS SEEN record is handed over (R127). -/
def takeTurnsSeen (record : Nat) (bytes : List Byte) (s : State) : State :=
  let n := min (u8 bytes 6) s.ktu.log.length
  finalize .control record [(7, le8 n)] .done (writeLog { s with ktu.log := s.ktu.log.drop n })

end Sys2Proof.Machine
end

