-- ==== Sys2Proof/Machine/Rest.lean ====
section
/-! DEFINITION. The Rest Controller: part states, quiesce, the memory handshake, rest turns and the way back (chapter 10). -/

namespace Sys2Proof.Machine

/-! ### Part states -/

/-- The part state becomes `p`. The battery timer starts again with the new period when the row of R176 changes; the
periodic temperature timer starts at each entry to RUN and stops outside RUN (R177). -/
def setPart (p : PartState) (s : State) : State :=
  let s1 := { s with rsc.part := p }
  let s2 :=
    if s.rsc.part.restRow = p.restRow ∨ s.meu.requester = false then s1
    else { s1 with meu.batteryTimer := s1.timer (batteryPeriod s1) }
  { s2 with meu.tempTimer := if p = .run then s2.timer (s2.cfg.tempMaxAge * 1000) else none }

/-! ### The rest context and the REST result (R198) -/

/-- The battery sample in mV, 0 while absent (R200). -/
def batteryNow (s : State) : Nat :=
  match s.meu.battery with
  | some b => b.mv
  | none => 0

/-- `n` result bytes the manual does not state, from place `i` on of those taken at this moment (entry 22). -/
def freeBytes (s : State) (i n : Nat) : List Byte := (List.range n).map fun k => Config.freeByte (s.fresh + i + k)

/-- Image address and stride in the context; free without a rest image (section 11.7, entry 22). -/
def contextImage (s : State) : List Byte :=
  match s.rsc.image with
  | some im => le32 im.1 ++ le32 im.2
  | none => freeBytes s 0 8

/-- The status codes of R11. -/
def statusCodes : List Nat := [0, 1, 16, 17, 18, 32, 33, 34, 35, 36, 37, 48, 49, 50, 51, 52, 53]

/-- A free code of a table with `n` codes numbered from 0, of those taken at this moment (R199, entry 22). -/
def freeCode (s : State) (i n : Nat) : Nat := (Config.freeByte (s.fresh + i)).toNat % n

/-- The rest image ending code in the context; a free one of R11 while the rest image has no ending code (section 11.7, R199,
entry 22). -/
def contextCode (s : State) : List Byte :=
  match s.rsc.imageState with
  | .ended c => le8 c.num
  | .none | .waitPlace | .listed => le8 (statusCodes.getD (freeCode s 14 17) 0)

/-- Entry and wake times in the context (section 11.7). Every CANCELLED one carries 0 for both, also after an earlier rest has
entered REST (entry 63). -/
def contextTimes (phase : Phase) (s : State) : List Byte :=
  match phase with
  | .entered => le32 s.rsc.entryTime.toNat ++ le32 0
  | .woken => le32 s.rsc.entryTime.toNat ++ le32 s.rsc.wakeTime.toNat
  | .cancelled => le32 0 ++ le32 0

/-- The supply states at entry and wake and the battery at entry and wake; those of an event that has not been are free, a
supply state one of the three codes (section 11.7, R199, entry 22). -/
def contextSupply (phase : Phase) (s : State) : List Byte × List Byte :=
  let r := s.rsc
  match phase with
  | .entered => (le8 r.entrySupply.num ++ le8 (freeCode s 8 3), le16 r.entryBattery ++ freeBytes s 10 2)
  | .woken => (le8 r.entrySupply.num ++ le8 r.wakeSupply.num, le16 r.entryBattery ++ le16 r.wakeBattery)
  | .cancelled => (le8 (freeCode s 8 3) ++ le8 (freeCode s 9 3), freeBytes s 10 4)

/-- The 64 bytes of the rest context (section 11.7). -/
def contextBytes (phase : Phase) (s : State) : List Byte :=
  let r := s.rsc
  le8 phase.num ++
  le8 (bit r.forced + 2 * bit r.limit + 4 * bit r.keepLight + 8 * bit r.turnsEnabled + 16 * bit r.image.isSome) ++
  le8 r.imageState.num ++ contextCode s ++
  le32 (r.record.getD 0) ++ contextImage s ++ le32 r.wakeAfter ++ contextTimes phase s ++
  le8 r.wake.num ++ [r.turns, r.sleepFailures, r.leaveRetries] ++
  (contextSupply phase s).1 ++ zeros 2 ++ (contextSupply phase s).2 ++ zeros 24

/-- The rest context is written with a phase (R198). -/
def askContext (phase : Phase) (s : State) : State :=
  ask (.context phase (contextBytes phase s)) { s with fresh := s.fresh + 15 }

/-- The entry fields of the context take their values of this moment (entry 22). -/
def noteEntry (s : State) : State :=
  { s with rsc.entryTime := s.partTime, rsc.entrySupply := s.meu.supply, rsc.entryBattery := batteryNow s }

/-- The wake fields of the context take their values of this moment (entry 22). -/
def noteWake (s : State) : State :=
  { s with rsc.wakeTime := s.partTime, rsc.wakeSupply := s.meu.supply, rsc.wakeBattery := batteryNow s }

/-- The REST record, if any, is finalized with a wake cause and the rest turn count (R198). -/
def finalizeRest (cause : WakeCause) (code : Code) (s : State) : State :=
  match s.rsc.record with
  | some r => finalize .control r [(0x1C, le8 cause.num ++ [s.rsc.turns])] code { s with rsc.record := none }
  | none => s

/-! ### Quiesce (R188, R189) -/

/-- The rest image is appended; the answer sets its state (R188 step 5). -/
def appendImage (s : State) : State :=
  match s.rsc.image with
  | none => s
  | some im =>
    match append .rest .clear im.1 im.2 none s with
    | (.joined id, s1) => { s1 with rsc.imageState := .listed, rsc.imageId := some id }
    | (.full, s1) => { s1 with rsc.imageState := .waitPlace }
    | (.noImage, s1) => { s1 with rsc.imageState := .ended .refusedFormat }
    | (.panelFault, s1) => { s1 with rsc.imageState := .ended .panelFault }

/-- What entry to QUIESCE clears (R188 step 2), and the settings this rest goes by (R185, entry 42). -/
def clearRest (forced : Bool) (s : State) : State :=
  { s with
    rsc.forced := forced, rsc.forcedStart := forced, rsc.limit := false, rsc.turns := 0, rsc.sleepFailures := 0
    rsc.leaveRetries := 0, rsc.wake := .none, rsc.pendingWake := none, rsc.imageState := .none, rsc.imageId := none
    rsc.drain := .waiting, rsc.turnOver := false, rsc.fadePending := false
    rsc.fade := s.cfg.restFade, rsc.timeout := s.cfg.memoryTimeout }

/-- Entry to QUIESCE, the options and the REST record being in place (R188). A rest forced from the start appends no image
(R189, entry 21). -/
def quiesceEntry (forced : Bool) (s : State) : State :=
  let s1 := stopDownloads (setPart .quiesce (clearRest forced s))
  let s2 := if s1.rsc.keepLight && !forced then s1 else restFade s1
  let s3 := if forced then s2 else appendImage s2
  { s3 with rsc.quiesceTimer := s3.timer (s3.cfg.quiesceLimit * 1000) }

/-- A forced rest begins: in RUN, with the supply CRITICAL (R189). Begun without a request it has no rest image and no record;
KEEP_LIGHT, TURNS_ENABLED and WAKE_AFTER, of which R189 does not speak, are clear in its rest context (the model's choice, entry
65). -/
def forcedRest (s : State) : State :=
  if s.rsc.part = .run ∧ s.meu.supply = .critical then
    quiesceEntry true { s with
      rsc.keepLight := false, rsc.turnsEnabled := false, rsc.image := none, rsc.wakeAfter := 0, rsc.record := none }
  else s

/-! ### Walks and entry to RUN (R9, R186) -/

/-- A walk of a chain begins with the read of its cursor's link (R7). -/
def beginWalk (c : Chain) (s : State) : State :=
  let x := s.chain c
  joinStation (stationBurst (.walk c) false x.cursor 4 [])
    (s.setChain c { x with walk := .link, remembered := false, declined := none })

/-- A walk of a chain is asked for: it begins, or is remembered while one is in progress (R4, R9). -/
def walkChain (s : State) (c : Chain) : State :=
  let x := s.chain c
  if x.walk = .idle then beginWalk c s else s.setChain c { x with remembered := true }

/-- The three chains walk (R186). -/
def walkAll (s : State) : State := [Chain.page, Chain.control, Chain.fetch].foldl walkChain s

/-- The Turn Log is written, and TURN posted, if entries have been added since the last write was begun (R126). -/
def writeLogAtRun (s : State) : State := if s.ktu.logDirty then post .turn (writeLog s) else s

/-- Entry to RUN (R186); a quiesce abandoned under lockout is followed by no forced rest. -/
def enterRun (abandoned : Bool) (s : State) : State :=
  let s1 := walkAll (setPart .run { s with rsc.quiesceTimer := none, rsc.restTimer := none })
  let s2 := { enterHunt s1 with dlc.stop := .none }
  let s3 := writeLogAtRun (runQueue s2.ktu.queue.length s2)
  if abandoned then s3 else forcedRest s3

/-- Entry to RUN from STARTING: cursors at their anchors, retired counts and mirror written whole (R18 step 5). -/
def enterRunFromStart (s : State) : State :=
  let s1 := { s with
    sif.page.cursor := s.anchor .page, sif.control.cursor := s.anchor .control, sif.fetch.cursor := s.anchor .fetch }
  enterRun false (ask .mirror (ask .retired s1))

/-! ### The memory handshake (R193) -/

/-- The memory timer of R193, started now with the memory-timeout of this rest (R185, entry 42). -/
def State.memoryTimer (s : State) : Timer := s.timer s.rsc.timeout

/-- The RSC asks for memory: whether it is available at once, and the state after. -/
def requestMemory (s : State) : Bool × State :=
  match s.rsc.handshake with
  | .awake => (true, s)
  | .leaving => (false, s)
  | .entering | .asleep =>
    if s.rsc.sleepAck then (false, { s with rsc.handshake := .leaving, rsc.memTimer := s.memoryTimer })
    else (true, { s with rsc.handshake := .awake, rsc.memTimer := none })

/-- The RSC asks for sleep. -/
def askSleep (s : State) : State :=
  if s.rsc.handshake = .awake then
    (if s.rsc.sleepAck then { s with rsc.handshake := .asleep, rsc.memTimer := none }
     else { s with rsc.handshake := .entering, rsc.memTimer := s.memoryTimer })
  else s

/-! ### WAKING (R197) -/

/-- Turn Log, mirror and rest context of a wake are asked for; each joins the STATION queue after the one before (R197 step 1,
entry 17). -/
def wakeWrites (s : State) : State :=
  let s1 := writeLog s
  askContext .woken (ask .mirror { s1 with sif.wakeOrder := .log })

/-- Memory is available in WAKING: the steps of R197, in order. -/
def wakeComplete (s : State) : State :=
  let s1 := wakeWrites s
  enterRun false (restore (post .wake (finalizeRest s1.rsc.wake .done s1)))

/-- The part enters WAKING with a wake cause (R197). -/
def toWaking (cause : WakeCause) (s : State) : State :=
  let r := requestMemory (noteWake (setPart .waking { s with
    rsc.wake := cause, rsc.pendingWake := none, rsc.restTimer := none, rsc.turnOver := false }))
  if r.1 then wakeComplete r.2 else r.2

/-! ### Rest turns (R194, R196) -/

/-- The end of a turn is reported to the Rest Controller (R196). -/
def restTurnEnded (s : State) : State :=
  if s.rsc.part = .restTurn then
    match s.rsc.pendingWake with
    | some c => toWaking c s
    | none => { s with rsc.turnOver := true }
  else s

/-- A turn ends with a result (R123, R124). -/
def turnEnd (code : Code) (s : State) : State := restTurnEnded (turnEndLog code s)

/-- The turn appends, or appends again, and ends if it is refused for good (R121). -/
def turnAppend (s : State) : State :=
  match appendTurn s with
  | (some code, s1) => turnEnd code s1
  | (none, s1) => s1

/-- Main memory is reported to the turn waiting for it (R124). -/
def restTurnMemory (available : Bool) (s : State) : State :=
  if s.ktu.turn = .waitMemory then (if available then turnAppend s else turnEnd .memoryUnavailable s) else s

/-- A rest turn begins (R196). -/
def restTurnBegin (d : Dir) (s : State) : State :=
  let r := requestMemory (fillTurn d true (setPart .restTurn { s with rsc.turns := s.rsc.turns + 1 }))
  if r.1 then restTurnMemory true r.2 else r.2

/-- A wake cause arising in REST_TURN: acted on at once while the RSC waits after the turn, else pending (R195, R196). -/
def pendWake (c : WakeCause) (s : State) : State :=
  if s.rsc.turnOver then toWaking c s
  else if s.rsc.pendingWake = none then { s with rsc.pendingWake := some c }
  else s

/-- A wake cause arising in REST or REST_TURN (R195). -/
def wakeCause (c : WakeCause) (s : State) : State :=
  match s.rsc.part with
  | .rest => toWaking c s
  | .restTurn => pendWake c s
  | .stopped | .starting | .run | .quiesce | .waking => s

/-! ### Presses outside RUN (R192, R194) -/

/-- A press in REST begins a turn in its direction, or is reported and wakes the part (R194). -/
def restPage (d : Dir) (p : Press) (s : State) : State :=
  if s.rsc.turnsEnabled && !s.rsc.forced && turnAllowed d s then restTurnBegin d s else toWaking .key (reportPress p s)

/-- A press handled in REST (R194). -/
def restPress (p : Press) (s : State) : State :=
  match p.role with
  | .forward => restPage .forward p s
  | .back => restPage .back p s
  | .wake => toWaking .key (reportPress p s)
  | .light => if s.rsc.keepLight && !s.rsc.forced && s.meu.supply != .critical then toggle s else s
  | .none => s

/-- A quiesce ends without rest: the context is written with phase CANCELLED and the light restored (R191, R192). The end report of
a rest image still under way is ignored: R192 says so of a cancelled quiesce, and for an abandoned one it is the model's choice
(entry 68). -/
def leaveQuiesce (abandoned : Bool) (s : State) : State :=
  enterRun abandoned (restore { askContext .cancelled s with rsc.imageId := none })

/-- A press cancels the rest (R192). -/
def cancelQuiesce (s : State) : State := leaveQuiesce false (finalizeRest .key .cancelled s)

/-- A press handled in an unforced QUIESCE (R192). -/
def quiescePress (p : Press) (s : State) : State :=
  match p.role with
  | .forward | .back | .wake => cancelQuiesce s
  | .light => if s.rsc.keepLight then toggle s else s
  | .none => s

/-- The Key Queue handled as the part state gives, oldest first, until it is empty or its presses are held (R111, R192,
R194). The number bounds how many presses are taken. -/
def handleQueue : Nat → State → State
  | 0, s => s
  | n + 1, s =>
    match s.ktu.queue with
    | [] => s
    | p :: q =>
      let s1 := { s with ktu.queue := q }
      match s.rsc.part with
      | .run => handleQueue n (pressRun p s1)
      | .quiesce => if s.rsc.forced then s else handleQueue n (quiescePress p s1)
      | .rest => handleQueue n (restPress p s1)
      | .stopped | .starting | .restTurn | .waking => s

/-- The Key Queue handled. -/
def handlePresses (s : State) : State := handleQueue s.ktu.queue.length s

/-! ### The supply and the panel in quiesce (R189, R191, R195, R196) -/

/-- A CRITICAL report in a quiesce not yet forced (R189). -/
def forceQuiesce (s : State) : State :=
  if s.meu.supply = .critical ∧ s.rsc.forced = false then
    let s1 := { s with rsc.forced := true }
    if s.rsc.keepLight then restFade s1 else s1
  else s

/-- A change of supply state is reported to the Light Unit and the Rest Controller (R182). -/
def supplyReport (s : State) : State :=
  let s1 := setCeiling s
  match s.rsc.part with
  | .run => forcedRest s1
  | .quiesce => forceQuiesce s1
  | .rest | .restTurn => wakeCause .supply s1
  | .stopped | .starting | .waking => s1

/-- The quiesce is abandoned when, after the limit, the supply is LOCKED while a lane is ARMING (R191). -/
def abandonTest (s : State) : State :=
  if s.rsc.part = .quiesce ∧ s.rsc.limit ∧ s.pss.rail = .locked ∧ someArming s then
    leaveQuiesce true (finalizeRest .none .panelFault s)
  else s

/-- A lockout in REST_TURN while a lane is ARMING wakes the part (R196). -/
def lockoutWake (s : State) : State :=
  if s.rsc.part = .restTurn ∧ s.pss.rail = .locked ∧ someArming s then toWaking .panel s else s

/-! ### The drain and REST (R190) -/

/-- The panel's part of the conditions of R190 and R196. Neither names the reservations of R58; `mayRest` keeps them out of REST
(R86, entry 60). -/
def panelQuiet (s : State) : Bool :=
  s.upe.list.isEmpty && allLanesFree s && s.upe.pass.isNone && !s.upe.sweepWaiting &&
  (s.pss.rail == .off || s.pss.rail == .locked)

/-- The rest image is NONE or ENDED (R190). -/
def imageOver (s : State) : Bool :=
  match s.rsc.imageState with
  | .none | .ended _ => true
  | .waitPlace | .listed => false

/-- The conditions of R190. -/
def drained (s : State) : Bool :=
  panelQuiet s && s.ktu.turn == .idle && imageOver s && s.dlc.stop == .stopped && !s.rsc.fadePending

/-- The conditions first hold: the rest context is written with phase ENTERED (R190). -/
def drainBegin (s : State) : State :=
  if s.rsc.part = .quiesce ∧ s.rsc.drain = .waiting ∧ drained s then
    askContext .entered { noteEntry s with rsc.drain := .writing }
  else s

/-- A rest context write has completed, whatever its answer (R190). -/
def contextDone (phase : Phase) (s : State) : State :=
  if phase = .entered ∧ s.rsc.drain = .writing ∧ (s.writer .rest).queued = [] then { s with rsc.drain := .written } else s

/-- A LOCKED supply becomes OFF at the entry to REST (R104). -/
def unlockAtRest (s : State) : State := if s.pss.rail = .locked then enterOff s else s

/-- The part enters REST at once (R190). -/
def beginRest (s : State) : State :=
  let s1 := unlockAtRest (askSleep (setPart .rest (noteEntry { s with rsc.quiesceTimer := none, rsc.drain := .waiting })))
  let s2 :=
    if 0 < s1.rsc.wakeAfter ∧ s1.rsc.forcedStart = false then
      { s1 with rsc.restTimer := s1.timer (s1.rsc.wakeAfter * 1000) }
    else s1
  handlePresses s2

/-- The areas that are not written at the closed port or in REST and REST_TURN: the progress records of a download stop, the event
mirror and the Turn Log (R13, R20, R126, R169, R196, entry 60). -/
def Area.beforeRest : Area → Bool
  | .progress _ | .mirror | .turnLog => true
  | .retired | .measure | .capture | .panel | .light | .link | .keyReport | .context _ _ => false

/-- The areas a status writer is writing or has still to write. -/
def Writer.areas (w : Writer) : List Area := w.cur.toList ++ w.queued

/-- A write of such an area is waiting or under way. -/
def writesWait (s : State) : Bool := s.sif.writers.any fun w => w.areas.any Area.beforeRest

/-- A reservation stands, or the PAGE walk has a header before it that may make one (R58). -/
def reservationOpen (s : State) : Bool :=
  s.upe.reservations != 0 ||
    match s.sif.page.walk with
    | .link | .header _ => true
    | _ => false

/-- The Rest Controller waits with the rest context written. The moment at which it acts is one at which no write of a progress
record, of the event mirror or of the Turn Log waits: the port has to be open for the records of a download stop (R169), and mirror
and Turn Log, asked for in QUIESCE, are not written in REST or REST_TURN, nor between the three writes of the wake (R13, R20, R193,
R196, R197). No reservation stands then or may be made, none being held in REST (R58, R86). R190 lists none of these (the model's
choice, entry 60). -/
def mayRest (s : State) : Bool :=
  s.rsc.part == .quiesce && s.rsc.drain == .written && !writesWait s && !reservationOpen s

/-- With the context written and no burst in flight, the conditions are judged again (R190). -/
def enterRest (s : State) : State :=
  if mayRest s ∧ s.mpt.inflight = none then (if drained s then beginRest s else { s with rsc.drain := .waiting }) else s

/-- After a rest turn the part returns to REST (R196 step 2). The entry time, supply and battery of the rest context stay those of
the rest's first entry to REST (R198 does not say which entry; the model's choice, entry 64). -/
def restTurnSleep (s : State) : State :=
  if s.rsc.part = .restTurn ∧ s.rsc.turnOver ∧ panelQuiet s ∧ s.mpt.inflight = none then
    handlePresses (unlockAtRest (askSleep (setPart .rest { s with rsc.turnOver := false })))
  else s

/-- The Rest Controller waits for a moment without a burst in flight: with the rest context written (R190), or after a rest
turn with the panel quiet (R196). -/
def awaitsIdle (s : State) : Bool :=
  mayRest s || (s.rsc.part == .restTurn && s.rsc.turnOver && panelQuiet s)

/-- The port reports to a waiting Rest Controller that no burst is in flight (R24, R190, R196). -/
def portIdle (s : State) : State := if s.rsc.part = .quiesce then enterRest s else restTurnSleep s

/-! ### REST records (R187) -/

/-- The code of the first check of R187 that fails. -/
def restFailure (image : Option (Nat × Nat)) (s : State) : Option Code :=
  match image with
  | none => none
  | some im =>
    if !strideOk im.2 s.cfg.width then some .refusedRange
    else if !s.rangeOk im.1 (imageExtent s.cfg.width s.cfg.height im.2) then some .window
    else none

/-- A REST record is handed over (R187). -/
def takeRest (record : Nat) (bytes : List Byte) (s : State) : State :=
  let f := flagsOf bytes
  let image := if f / 4 % 2 = 1 then some (u32 bytes 0x10, u32 bytes 0x14) else none
  match restFailure image s with
  | some code => finalize .control record [(0x1C, le8 0 ++ le8 0)] code s
  | none => quiesceEntry (s.meu.supply == .critical) { s with
      rsc.keepLight := f % 2 == 1, rsc.turnsEnabled := f / 2 % 2 == 1, rsc.image := image
      rsc.wakeAfter := min (u32 bytes 0x18) 86400, rsc.record := some record }

/-! ### Pins and timers of the handshake (R193) -/

/-- Memory has become available. -/
def memoryAvailable (s : State) : State :=
  match s.rsc.part with
  | .restTurn => restTurnMemory true s
  | .waking => wakeComplete s
  | .stopped | .starting | .run | .quiesce | .rest => s

/-- SLEEP_ACK becomes asserted. -/
def ackAsserted (s : State) : State :=
  let s1 := { s with rsc.sleepAck := true }
  if s.rsc.handshake = .entering then { s1 with rsc.handshake := .asleep, rsc.memTimer := none } else s1

/-- SLEEP_ACK becomes deasserted. -/
def ackDeasserted (s : State) : State :=
  let s1 := { s with rsc.sleepAck := false }
  if s.rsc.handshake = .leaving then memoryAvailable { s1 with rsc.handshake := .awake, rsc.memTimer := none } else s1

/-- The memory timer expires. -/
def memoryExpiry (s : State) : State :=
  if s.rsc.memTimer = none then s
  else
    match s.rsc.handshake with
    | .entering => { s with rsc.handshake := .awake, rsc.memTimer := none, rsc.sleepFailures := satInc8 s.rsc.sleepFailures }
    | .leaving =>
      if s.rsc.part = .restTurn then restTurnMemory false { s with rsc.handshake := .asleep, rsc.memTimer := none }
      else { s with rsc.leaveRetries := satInc8 s.rsc.leaveRetries, rsc.memTimer := s.memoryTimer }
    | .awake | .asleep => s

end Sys2Proof.Machine
end

