-- ==== Sys2Proof/Machine/Panel.lean ====
section
/-! DEFINITION. Admission, the Pixel Pass Unit, the end of updates, aborts, panel supply faults and the quiesce limit (sections 4.5 to 4.9 and 5.4). -/

namespace Sys2Proof.Machine

/-! ### The end of an update (R59) -/

/-- An update ends with a code: its record is finalized, or its requester told. -/
def endUpdate (origin : Origin) (id : Nat) (results : List (Nat × List Byte)) (code : Code) (s : State) : State :=
  match origin with
  | .record a => finalize .page a results code s
  | .turn => turnEnd code s
  | .rest =>
    if s.rsc.imageId = some id then { s with rsc.imageState := .ended code, rsc.imageId := none } else s

/-- An update ends while waiting (R59). -/
def endWaiting (code : Code) (s : State) (e : Entry) : State :=
  endUpdate e.origin e.id (noLaneResults e.mode.num) code s

/-- Every waiting entry leaves the list and ends with a code, oldest first (R84, R85). -/
def endAllWaiting (code : Code) (s : State) : State :=
  s.upe.list.foldl (endWaiting code) ((s.upe.list.map Entry.id).foldl (fun t id => leaveList id t) s)

/-! ### Lanes (R70, R72) -/

/-- A lane becomes FREE: its binding is released (R70). -/
def freeLane (i : Nat) (s : State) : State :=
  idleCheck (ask .panel (releaseEntry (s.lane i).store (s.setLane i {})))

/-- The lanes in a state, lowest first. -/
def lanesIn (st : LaneState) (s : State) : List Nat := (List.range 32).filter fun i => (s.lane i).state == st

/-- A DRIVING lane aborted with a cause. -/
def Lane.abortWith (c : AbortCause) (l : Lane) : Lane :=
  if l.state = .driving then { l with state := .retiring, abort := some c } else l

/-- Every DRIVING lane is aborted: it becomes RETIRING, its retire pass is requested, it leaves the frame lane set (R72,
R92). -/
def abortLanes (c : AbortCause) (s : State) : State :=
  { s with
    upe.lanes := s.upe.lanes.map (Lane.abortWith c)
    upe.retireQueue := s.upe.retireQueue ++ lanesIn .driving s
    fsc.laneSet := s.fsc.laneSet.filter fun i => (s.lane i).state != .driving }

/-- The code of a lane's error. -/
def LaneError.code : LaneError → Code
  | .memory => .memoryError
  | .window => .window

/-- The lane's error code becomes `e` if it is still none (R76). -/
def Lane.fail (e : LaneError) (l : Lane) : Lane := if l.error = none then { l with error := some e } else l

/-- The results of an update after lane `i` (R59). -/
def laneResults (i : Nat) (l : Lane) : List (Nat × List Byte) :=
  updateResults l.mode.num l.band i l.marked l.collided

/-- Lane `i` becomes FREE and its update ends; the scan runs (R70), before the lookups that the release's report marks (entry
67). -/
def endLane (i : Nat) (code : Code) (s : State) : State :=
  let l := s.lane i
  scan (endUpdate l.origin l.id (laneResults i l) code (freeLane i s))

/-! ### Pixels (R75, R78, R80) -/

/-- A record written back with its fields as they were; the two bits without a name are 0 (R199). -/
def keepPixel (r : BitVec 16) : BitVec 16 := r &&& 0x3FFF

/-- The new level of a source nibble (R75). -/
def newLevel (mode : Mode) (s : BitVec 4) : BitVec 4 :=
  match mode with
  | .clear | .gray => s
  | .quick => if 8 ≤ s.toNat then 15 else 0

/-- What a pixel was decided to be (R75). -/
inductive PixelFate where
  | left | marked | collided
deriving DecidableEq, Repr

/-- The decision of R75 for one pixel; `live` tells which lane numbers name a lane that is not FREE. -/
def decidePixel (live : Nat → Bool) (lane : Nat) (mode : Mode) (s : BitVec 4) (r : BitVec 16) : PixelFate × BitVec 16 :=
  let n := (pixLane r).toNat
  if pixMarked r && n != lane && live n then (.collided, keepPixel r)
  else if mode = .clear ∨ newLevel mode s ≠ pixCurrent r then
    (.marked, mkPixel (pixCurrent r) (newLevel mode s) (BitVec.ofNat 5 lane) true)
  else (.left, if pixMarked r then clearMark r else keepPixel r)

/-- The decisions of a row of `w` pixels. -/
def decideRow (live : Nat → Bool) (lane : Nat) (mode : Mode) (w : Nat) (src seg : List Byte) : List (PixelFate × BitVec 16) :=
  (List.range w).map fun i => decidePixel live lane mode (nibbleAt src i) (pixAt seg i)

/-- How many pixels of a row met a fate. -/
def countFate (f : PixelFate) (l : List (PixelFate × BitVec 16)) : Nat := (l.filter fun d => d.1 == f).length

/-- A record in the retire pass of a lane (R78). -/
def retirePixel (lane : Nat) (aborted : Bool) (r : BitVec 16) : BitVec 16 :=
  if pixMarked r && (pixLane r).toNat == lane then
    (if aborted then clearMark r else mkPixel (pixTarget r) (pixTarget r) (Config.unmarkedLane r) false)
  else keepPixel r

/-- A record in a mark sweep (R80). -/
def sweepPixel (r : BitVec 16) : BitVec 16 := if pixMarked r then clearMark r else keepPixel r

/-- A row's records rewritten. -/
def mapPixels (f : BitVec 16 → BitVec 16) (w : Nat) (seg : List Byte) : List Byte :=
  pixBytes ((List.range w).map fun i => f (pixAt seg i))

/-! ### Passes (R73, R74) -/

/-- The rectangle a pass covers. -/
def passRect (p : Pass) (s : State) : Rect :=
  match p.kind with
  | .admission i | .retire i => (s.lane i).rect
  | .sweep _ _ => ⟨0, 0, p.geom.w, p.geom.h⟩

/-- The address of the first record of the pass's present row. -/
def rowAddr (p : Pass) (s : State) : Nat := p.geom.pixelAddr (passRect p s).x p.row

/-- The read of the present row's buffer segment (R74 step 2). -/
def readSegment (p : Pass) (s : State) : Pass :=
  { p with phase := .segment, got := [], left := blocks (rowAddr p s) (2 * (passRect p s).w) }

/-- The write-back of the present row. -/
def writeSegment (bytes : List Byte) (p : Pass) (s : State) : Pass :=
  { p with phase := .writeBack, got := [], left := [], out := writeBlocks (rowAddr p s) bytes }

/-- The first step of the present row (R74, R78, R80). -/
def startRow (p : Pass) (s : State) : Pass :=
  let q := { p with left := [], out := [], got := [], src := [], marked := 0 }
  match p.kind with
  | .admission i =>
    { q with phase := .source
             left := blocks ((s.lane i).source + (p.row - (s.lane i).rect.y) * (s.lane i).stride) ((s.lane i).rect.w / 2) }
  | .retire _ | .sweep false _ => readSegment q s
  | .sweep true _ => writeSegment (pixBytes (List.replicate p.geom.w 0x00FF)) q s

/-- A pass begins at its first row. -/
def beginPass (kind : PassKind) (s : State) : State :=
  let p : Pass := { kind := kind, geom := s.geom, row := 0, phase := .source }
  let q := { p with row := (passRect p s).y }
  { s with upe.pass := some (startRow q s) }

/-- The unit has become idle without freeing a lane (R73). -/
def unitIdle (s : State) : State := if s.upe.retireQueue.isEmpty then scan s else s

/-- The end of an admission pass (R77). -/
def admissionEnd (i : Nat) (s : State) : State :=
  let l := s.lane i
  if l.marked = 0 then
    endLane i (match l.error with
      | some e => e.code
      | none => if 0 < l.collided then .collided else .noChange) s
  else unitIdle (s.setLane i { l with finished := true })

/-- The code of an update at the end of its retire pass (R79). -/
def Lane.endCode (l : Lane) : Code :=
  match l.abort, l.error with
  | some .fault, _ => .panelFault
  | some .limit, _ => .aborted
  | none, some e => e.code
  | none, none => if 0 < l.collided then .collided else .done

/-- What the end of a retire pass does to panel-image-uncertain (R79, R81). -/
def retireFlag (l : Lane) (s : State) : State :=
  if l.abort ≠ none then setUncertain s
  else if l.note ∧ l.error = none ∧ s.upe.uncertain then ask .panel { s with upe.uncertain := false }
  else s

/-- The end of a retire pass (R79). -/
def retireEnd (i : Nat) (s : State) : State := endLane i (s.lane i).endCode (retireFlag (s.lane i) s)

/-- An initializing sweep for a geometry or buffer change: at once, or after the sweep that runs (R54, entry 24). -/
def requestSweep (s : State) : State :=
  if s.upe.pass.isNone then beginPass (.sweep true false) s else { s with upe.sweepWaiting := true }

/-- The end of a sweep (R80). -/
def sweepEnd (geom : Geometry) (ofStart : Bool) (s : State) : State :=
  let s1 := { s with upe.lastSweep := some geom }
  if ofStart then enterRunFromStart s1
  else if s1.upe.sweepWaiting then beginPass (.sweep true false) { s1 with upe.sweepWaiting := false }
  else scan s1

/-- The pass has done its last row; the unit is idle. -/
def endPass (p : Pass) (s : State) : State :=
  let s1 := { s with upe.pass := none }
  match p.kind with
  | .admission i => admissionEnd i s1
  | .retire i => retireEnd i s1
  | .sweep _ ofStart => sweepEnd p.geom ofStart s1

/-- The pass goes on with its next row, or ends (R74). -/
def nextRow (p : Pass) (s : State) : State :=
  let r := passRect p s
  if p.row + 1 < r.y + r.h then { s with upe.pass := some (startRow { p with row := p.row + 1 } s) }
  else endPass p s

/-- Whether a mark names a lane that is not FREE. -/
def laneLive (s : State) (n : Nat) : Bool := !(s.lane n).isFree

/-- The present row has been read: its records are decided and the write-back is made (R75, R78, R80). -/
def judgeRow (p : Pass) (s : State) : State :=
  let w := (passRect p s).w
  match p.kind with
  | .admission i =>
    let l := s.lane i
    let d := decideRow (laneLive s) i l.mode w p.src p.got
    let m := countFate .marked d
    let s1 := s.setLane i { l with marked := l.marked + m, collided := l.collided + countFate .collided d }
    { s1 with upe.pass := some { writeSegment (pixBytes (d.map Prod.snd)) p s1 with marked := m } }
  | .retire i =>
    { s with upe.pass := some (writeSegment (mapPixels (retirePixel i (s.lane i).abort.isSome) w p.got) p s) }
  | .sweep _ _ => { s with upe.pass := some (writeSegment (mapPixels sweepPixel w p.got) p s) }

/-- A PIXEL burst has completed OKAY (R74). -/
def passOkay (data : List Byte) (s : State) : State :=
  match s.upe.pass with
  | none => s
  | some p =>
    let q := { p with got := p.got ++ data }
    match p.phase with
    | .source =>
      if p.left.isEmpty then { s with upe.pass := some { readSegment q s with src := q.got } }
      else { s with upe.pass := some q }
    | .segment => if p.left.isEmpty then judgeRow q s else { s with upe.pass := some q }
    | .writeBack => if p.out.isEmpty then nextRow p s else s

/-- What a failed access does to the pass's lane and to panel-image-uncertain (R76, R78, R80): every failed access to the working
buffer sets the flag (R56), the segment read of an admission pass among them, which R76 and R81 do not list (entry 53). The
source image is no part of the buffer. -/
def passFailure (e : LaneError) (p : Pass) (s : State) : State :=
  match p.kind, p.phase with
  | .admission i, .source => s.setLane i (Lane.fail e (s.lane i))
  | .admission i, .segment => setUncertain (s.setLane i (Lane.fail e (s.lane i)))
  | .admission i, .writeBack =>
    let l := s.lane i
    setUncertain (s.setLane i (Lane.fail e { l with marked := l.marked - p.marked }))
  | .retire _, _ | .sweep _ _, _ => setUncertain s

/-- A PIXEL burst has failed: the row is given up and the pass goes on (R76, R78, R80). The bursts still left of the row's read
or write-back are not made; no rule speaks of them (the model's choice, entry 54). -/
def passFail (e : LaneError) (s : State) : State :=
  match s.upe.pass with
  | none => s
  | some p => nextRow p (passFailure e p s)

/-- The first waiting retire pass begins (R73). -/
def retireBegin (s : State) : State :=
  match s.upe.pass, s.upe.retireQueue with
  | none, i :: q => beginPass (.retire i) { s with upe.retireQueue := q }
  | _, _ => s

/-! ### Admission (R68) -/

/-- The counter after a full-screen admission (R69). -/
def cadenceAfter (mode : Mode) (n : Nat) : Nat :=
  match mode with
  | .clear => 0
  | .gray => min 255 (n + 1)
  | .quick => n

/-- The current-page record a full-screen admission leaves (R82). -/
def pageAfter (e : Entry) : Option Page :=
  match e.tag with
  | some t => some ⟨t, e.source, e.stride⟩
  | none => none

/-- A full-screen admission: clear-cadence, current page, and for a turn its lists (R68 step 4). -/
def fullAdmission (e : Entry) (mode : Mode) (s : State) : State :=
  let s1 := { s with upe.cadence := cadenceAfter mode s.upe.cadence, upe.current := pageAfter e }
  if e.origin = .turn then turnAdmitted s.upe.current s1 else s1

/-- The lane an entry takes (R68 step 1). -/
def armLane (e : Entry) (k : StoreKey) (i : Nat) (s : State) : Lane :=
  { state := .arming, id := e.id, rect := e.rect, origin := e.origin, policy := e.policy, source := e.source
    stride := e.stride, mode := k.mode, store := i, band := k.band, frames := (s.store i).frames, note := e.note }

/-- An entry with its key is admitted to lane `n`, bound to store entry `i` (R68). -/
def admitEntry (e : Entry) (k : StoreKey) (i n : Nat) (s : State) : State :=
  let s1 := leaveList e.id (bindEntry i e.id (s.setLane n (armLane e k i s)))
  let s2 := if e.rect.isFull s.cfg.width s.cfg.height then fullAdmission e k.mode s1 else s1
  abandonTest (scan (ask .panel (beginPass (.admission n) (railsRise s2))))

/-- The lowest-numbered FREE lane. -/
def freeLaneNumber (s : State) : Option Nat := (List.range 32).find? fun i => (s.lane i).isFree

/-- The scan's eligible entry is admitted; without one nothing changes (R67, R68, entry 5). -/
def admission (s : State) : State :=
  match scanFor s with
  | (none, _) => s
  | (some id, s1) =>
    match findListed id s1, freeLaneNumber s1 with
    | some e, some n =>
      match e.key with
      | some k =>
        match findEntry (StoreEntry.holds .ready k) s1 with
        | some i => admitEntry e k i n s1
        | none => s
      | none => s
    | _, _ => s

/-! ### Failed loads (R44) -/

/-- A waiting entry whose load has failed ends with a code (R44), and the scan for its leaving runs before the lookups that the
load's report marks (the model's choice, entry 67); without such an entry the report stands alone (R66, R67). -/
def failHolder (holder : Option Nat) (code : Code) (s : State) : State :=
  match holder with
  | none => reported s
  | some id =>
    match findListed id s with
    | some e => scan (endWaiting code (leaveList id s) e)
    | none => reported s

/-! ### Faults and lockout (R100, R103) -/

/-- The fault history with a new stamp (R100 step 4). -/
def addFault (h : List Word) (t : Word) : List Word := (if 3 ≤ h.length then h.tail else h) ++ [t]

/-- Three stamps whose newest is less than 60,000 ms after the oldest (R100 step 6). -/
def lockoutDue (h : List Word) : Bool :=
  match h with
  | [a, _, c] => decide ((c - a).toNat < 60000)
  | _ => false

/-- The lockout (R103, R85). -/
def lockout (s : State) : State :=
  abandonTest (lockoutWake (endAllWaiting .panelFault
    (ask .panel { s with pss.rail := .locked, pss.holdTimer := none })))

/-- A fault is taken (R100). -/
def fault (s : State) : State :=
  let s1 := stopFrame { s with
    pss.rail := .fault, pss.holdTimer := s.timer 100, pss.idleTimer := none, pss.riseTimer := none }
  let h := addFault s.pss.history s.partTime
  let s2 := post .panel (ask .panel { abortLanes .fault s1 with pss.history := h })
  if lockoutDue h then lockout s2 else s2

/-- RAIL_GOOD becomes asserted (R98). -/
def goodAsserted (s : State) : State :=
  let s1 := { s with pss.railGood := true }
  if s.pss.rail = .rising then railsOn s1 else s1

/-- RAIL_GOOD becomes deasserted (R100). -/
def goodDeasserted (s : State) : State :=
  let s1 := { s with pss.railGood := false }
  if s.pss.rail = .on then fault s1 else s1

/-- The rise timer expires (R98). -/
def riseExpiry (s : State) : State := if s.pss.rail = .rising ∧ s.pss.riseTimer ≠ none then fault s else s

/-- The idle-hold timer expires (R99). -/
def idleExpiry (s : State) : State :=
  if s.pss.rail = .on ∧ s.pss.idleTimer ≠ none then
    stopFrame (ask .panel { s with pss.rail := .falling, pss.idleTimer := none, pss.fallTimer := s.timer 5 })
  else s

/-- The fall timer expires (R101). -/
def fallExpiry (s : State) : State :=
  if s.pss.rail = .falling ∧ s.pss.fallTimer ≠ none then enterOff { s with pss.fallTimer := none } else s

/-- The fault-hold timer expires (R102). -/
def holdExpiry (s : State) : State :=
  if s.pss.rail = .fault ∧ s.pss.holdTimer ≠ none then
    let s1 := { s with pss.holdTimer := none }
    if someArming s1 then enterRising s1 else enterOff s1
  else s

/-! ### The quiesce limit (R191) -/

/-- A turn in WAIT_PLACE ends CANCELLED (R123, R191). -/
def cancelWaitingTurn (s : State) : State := if s.ktu.turn = .waitPlace then turnEnd .cancelled s else s

/-- A rest image in WAIT_PLACE becomes ENDED with CANCELLED (R191). -/
def cancelWaitingImage (s : State) : State :=
  if s.rsc.imageState = .waitPlace then { s with rsc.imageState := .ended .cancelled } else s

/-- The quiesce timer expires (R191). -/
def quiesceLimit (s : State) : State :=
  if s.rsc.part = .quiesce ∧ s.rsc.quiesceTimer ≠ none then
    abandonTest (cancelWaitingImage (cancelWaitingTurn (abortLanes .limit (endAllWaiting .cancelled
      { s with rsc.limit := true, rsc.quiesceTimer := none }))))
  else s

end Sys2Proof.Machine
end

