-- ==== Sys2Proof/Machine/Scan.lean ====
section
/-! DEFINITION. The Frame Scanner: frames, the line FIFO, and the drive codes (sections 5.1 to 5.3). -/

namespace Sys2Proof.Machine

/-! ### Fetching (R93) -/

/-- The rectangle meets a row. -/
def Rect.meets (r : Rect) (row : Nat) : Bool := decide (r.y ≤ row) && decide (row < r.y + r.h)

/-- The rectangles of the frame lane set that meet a row. -/
def rowRects (s : State) (row : Nat) : List Rect :=
  (s.fsc.laneSet.map fun i => (s.lane i).rect).filter fun r => r.meets row

/-- The fetched span of a row: first column and number of records; none when the row needs no fetch. -/
def rowSpan (s : State) (row : Nat) : Option (Nat × Nat) :=
  match rowRects s row with
  | [] => none
  | r :: l =>
    let a := (l.map Rect.x).foldl min r.x
    let b := (l.map fun q => q.x + q.w).foldl max (r.x + r.w)
    some (a, b - a)

/-- A slot that is FETCHING: neither FILLED nor given up. -/
def LineSlot.fetching (l : LineSlot) : Bool := !l.filled && !l.givenUp

/-- The slot a row is given. -/
def newSlot (g : Geometry) (row x0 count : Nat) : LineSlot :=
  { row := row, x0 := x0, count := count, left := blocks (g.pixelAddr x0 row) (2 * count), got := [] }

/-- The fetch order goes on: rows that need no fetch are passed over, and the next row that needs one takes an EMPTY slot
when no slot is FETCHING (R93). The number bounds the rows gone through. -/
def assignRows : Nat → State → State
  | 0, s => s
  | n + 1, s =>
    if s.fsc.height ≤ s.fsc.fetchRow then s
    else
      match rowSpan s s.fsc.fetchRow with
      | none => assignRows n { s with fsc.fetchRow := s.fsc.fetchRow + 1 }
      | some (a, c) =>
        if decide (s.fsc.slots.length < 4) && !(s.fsc.slots.any LineSlot.fetching) then
          { s with
            fsc.slots := s.fsc.slots ++ [newSlot s.geom s.fsc.fetchRow a c]
            fsc.fetchRow := s.fsc.fetchRow + 1 }
        else s

/-- The fetch order goes on in a running frame. -/
def assignSlots (s : State) : State := if s.fsc.frame = .still then s else assignRows (s.fsc.height + 1) s

/-! ### Drive codes (R90) -/

/-- The drive code of a pixel record fetched for pixel (x, row). -/
def pixelCode (s : State) (x row : Nat) (r : BitVec 16) : Drive :=
  let l := s.lane (pixLane r).toNat
  if pixMarked r && l.state == .driving && l.rect.meets row && decide (l.rect.x ≤ x) && decide (x < l.rect.x + l.rect.w) then
    driveQuery (s.store l.store) l.index (pixCurrent r).toNat (pixTarget r).toNat
  else .hold

/-- The codes of a row from its slot, if it has one. -/
def rowCodes (s : State) (row : Nat) : List Drive :=
  match s.fsc.slots.find? fun l => l.row == row with
  | none => List.replicate s.fsc.width .hold
  | some l =>
    if l.givenUp then List.replicate s.fsc.width .hold
    else (List.range s.fsc.width).map fun x =>
      if l.x0 ≤ x ∧ x < l.x0 + l.count then pixelCode s x row (pixAt l.got (x - l.x0)) else .hold

/-! ### Lines (R88, R94, R95) -/

/-- The line time of the present row begins (R90). -/
def beginLine (s : State) : State :=
  { s with fsc.inLine := true, fsc.held := none, fsc.drive := some (s.fsc.line, rowCodes s s.fsc.line) }

/-- A row is late while it has a slot that is FETCHING (R94). -/
def rowLate (s : State) (row : Nat) : Bool := s.fsc.slots.any fun l => l.row == row && l.fetching

/-- A row's line time is due: it begins, or the line is held (R94). -/
def rowDue (row : Nat) (s : State) : State :=
  let s1 := { s with fsc.frame := .scan, fsc.line := row, fsc.inLine := false, fsc.drive := none }
  if rowLate s1 row then { s1 with fsc.held := s1.timer s1.cfg.stretchLimit } else beginLine s1

/-- A blank line begins, or row 0 is due after the last of them (R87, R88). -/
def blankLine (n : Nat) (s : State) : State :=
  if n < s.fsc.blank then { s with fsc.frame := .blank, fsc.line := n, fsc.inLine := true, fsc.drive := none }
  else rowDue 0 s

/-- A slot changed, by its row. -/
def setRow (row : Nat) (f : LineSlot → LineSlot) (s : State) : State :=
  { s with fsc.slots := s.fsc.slots.map fun l => if l.row = row then f l else l }

/-- The slot that is FETCHING, if any. -/
def fetchingSlot (s : State) : Option LineSlot := s.fsc.slots.find? LineSlot.fetching

/-- The held line of a row begins. -/
def releaseLine (row : Nat) (s : State) : State :=
  if s.fsc.held ≠ none ∧ s.fsc.line = row then beginLine s else s

/-- The slot of a row is FILLED; a held line begins and is counted stretched (R93, R94). -/
def slotFilled (row : Nat) (s : State) : State :=
  let s1 := setRow row (fun l => { l with filled := true }) s
  if s1.fsc.held ≠ none ∧ s1.fsc.line = row then
    let s2 := { s1 with fsc.stretched := satInc s1.fsc.stretched }
    beginLine (if s1.fsc.stretched = 65535 then s2 else ask .panel s2)
  else s1

/-- A row is given up (R95). -/
def giveUpRow (row : Nat) (s : State) : State :=
  let s1 := setRow row (fun l => { l with givenUp := true, left := [], got := [] }) s
  let s2 := { s1 with fsc.scanErrors := satInc s1.fsc.scanErrors }
  assignSlots (releaseLine row (setUncertain (if s1.fsc.scanErrors = 65535 then s2 else ask .panel s2)))

/-- A SCAN burst has completed OKAY (R93). -/
def scanOkay (data : List Byte) (s : State) : State :=
  match fetchingSlot s with
  | none => s
  | some l =>
    let s1 := setRow l.row (fun q => { q with got := q.got ++ data }) s
    if l.left.isEmpty then assignSlots (slotFilled l.row s1) else s1

/-- A SCAN burst has failed (R95). -/
def scanFail (s : State) : State :=
  match fetchingSlot s with
  | none => s
  | some l => giveUpRow l.row s

/-- stretch-limit passes with a line held (R94, R95). -/
def stretchExpiry (s : State) : State :=
  if s.fsc.held ≠ none then giveUpRow s.fsc.line (giveUpBurst .scan s) else s

/-! ### Frames (R71, R87, R88) -/

/-- A lane that a frame start drives. -/
def Lane.armed (l : Lane) : Bool := l.state == .arming && l.finished

/-- The condition of R87. -/
def frameReady (s : State) : Bool :=
  s.fsc.frame == .still && s.pss.rail == .on && s.upe.lanes.any fun l => l.state == .driving || l.armed

/-- A lane at a frame start (R71). -/
def Lane.drive (l : Lane) : Lane := if l.armed then { l with state := .driving, index := 0 } else l

/-- A frame starts (R87). -/
def frameStart (s : State) : State :=
  if frameReady s then
    let s1 := { s with upe.lanes := s.upe.lanes.map Lane.drive }
    let s2 := { s1 with
      fsc.laneSet := lanesIn .driving s1
      fsc.blank := s.cfg.verticalBlank, fsc.period := s.cfg.linePeriod, fsc.width := s.cfg.width, fsc.height := s.cfg.height
      fsc.fetchRow := 0, fsc.slots := [], fsc.frame := .blank }
    blankLine 0 (assignSlots s2)
  else s

/-- A lane at a frame end (R71). -/
def Lane.advance (l : Lane) : Lane :=
  if l.state = .driving then
    (if l.frames ≤ l.index + 1 then { l with state := .retiring, index := l.index + 1 } else { l with index := l.index + 1 })
  else l

/-- A lane that the frame end retires. -/
def Lane.retires (l : Lane) : Bool := l.state == .driving && decide (l.frames ≤ l.index + 1)

/-- A frame ends: lanes advance, retire passes are requested, the scanner is STILL (R71, R88). -/
def frameEnd (s : State) : State :=
  { s with
    upe.lanes := s.upe.lanes.map Lane.advance
    upe.retireQueue := s.upe.retireQueue ++ (List.range 32).filter fun i => (s.lane i).retires
    fsc.frame := .still, fsc.line := 0, fsc.inLine := false, fsc.laneSet := [], fsc.slots := [], fsc.drive := none }

/-- The line time of a row ends: its slot becomes EMPTY, and the next row is due or the frame ends (R88, R93). -/
def rowEnd (s : State) : State :=
  let s1 := assignSlots { s with fsc.slots := s.fsc.slots.filter fun l => l.row != s.fsc.line }
  if s.fsc.line + 1 < s.fsc.height then rowDue (s.fsc.line + 1) s1 else frameEnd s1

/-- The line time being driven ends (R88). -/
def lineTimeEnd (s : State) : State :=
  if s.fsc.inLine then
    match s.fsc.frame with
    | .still => s
    | .blank => blankLine (s.fsc.line + 1) s
    | .scan => rowEnd s
  else s

end Sys2Proof.Machine
end

