-- ==== Sys2Proof/Machine/Station.lean ====
section
/-! DEFINITION. The Station Interface: registers, walks, the taking of records, and the settings load and its application (chapter 1). -/

namespace Sys2Proof.Machine

/-! ### Registers (R1, R3, R4, R5) -/

/-- A write of BASE (R3). -/
def writeBase (v : Word) (s : State) : State :=
  if s.rsc.part = .stopped then { s with sif.base := v &&& 0xFFFFF000 } else s

/-- The chains a WALK mask names (R4). -/
def maskChains (v : Word) : List Chain :=
  (if v.getLsbD 0 then [Chain.page] else []) ++ (if v.getLsbD 1 then [Chain.control] else []) ++
  (if v.getLsbD 2 then [Chain.fetch] else [])

/-- A chain's walk is remembered (R4). -/
def remember (c : Chain) (s : State) : State := s.setChain c { s.chain c with remembered := true }

/-- WALK for one named chain (R4). -/
def walkNamed (s : State) (c : Chain) : State :=
  match s.rsc.part with
  | .stopped | .starting => s
  | .run =>
    match chainState s c with
    | .idle => beginWalk c s
    | .walking | .held => remember c s
  | .quiesce | .rest | .restTurn | .waking => remember c s

/-- A write of WALK (R4). -/
def writeWalk (v : Word) (s : State) : State := (maskChains v).foldl walkNamed s

/-- The acknowledged count an ACK leaves (R5). -/
def ackCount (posted acked count : Half) : Half := if count - acked ≤ posted - acked then count else posted

/-- A write of ACK (R5). -/
def writeAck (v : Word) (s : State) : State :=
  let n := (v.extractLsb' 16 4).toNat
  if 11 < n then s
  else
    let a := ackCount (s.sif.posted.getD n 0) (s.sif.acked.getD n 0) (v.setWidth 16)
    let s1 := evalInt { s with sif.acked := s.sif.acked.set n a }
    if n = Cause.window.num ∧ nothingOutstanding .window s1 then rearm s1 else s1

/-! ### Walks (R7, R8, R9) -/

/-- The next step of a walk begins with its link read; no further step begins under a part-state condition (R7, R9). -/
def walkOn (c : Chain) (s : State) : State :=
  let x := s.chain c
  if partHolds s then s.setChain c { x with walk := .idle }
  else joinStation (stationBurst (.walk c) false x.cursor 4 []) (s.setChain c { x with walk := .link })

/-- A walk ends; the remembered one begins, unless a part-state condition holds the chain (R7, R9). -/
def walkEnd (c : Chain) (s : State) : State :=
  let x := s.chain c
  let s1 := s.setChain c { x with walk := .idle }
  if x.remembered && !partHolds s then beginWalk c s1 else s1

/-- A walk stops at a record its owner declines for now; the chain is HELD on it (R8 case 3, R9). -/
def walkDecline (c : Chain) (d : Decline) (s : State) : State :=
  s.setChain c { s.chain c with walk := .idle, declined := some d }

/-- The cursor moves to a record (R8). -/
def moveCursor (c : Chain) (record : Nat) (s : State) : State := s.setChain c { s.chain c with cursor := record }

/-- A record the Station Interface itself refuses is taken and finalized (R8, entry 14). -/
def refuse (c : Chain) (record : Nat) (code : Code) (s : State) : State :=
  finalize c record [] code (moveCursor c record s)

/-- The link read has completed with a link (R7). A failed link is reported before the walk ends (the model's choice, entry 66). -/
def linkRead (c : Chain) (link : Nat) (s : State) : State :=
  if link = 0 then walkEnd c s
  else if link % 16 ≠ 0 ∨ s.rangeOk link 16 = false then walkEnd c (reportWindow .station false link 16 s)
  else joinStation (stationBurst (.walk c) false link 16 []) (s.setChain c { s.chain c with walk := .header link })

/-- Why the owner of a kind declines its header for now (R58, R118). -/
def declines (k : Kind) (s : State) : Option Decline :=
  match k with
  | .update => if 16 ≤ listCount s then some .listFull else none
  | .stage | .unstage => if turnHolds s then some .turnBegun else none
  | .waveform | .light | .rest | .settings | .turnsSeen | .openFile | .closeFile => none

/-- The Update Engine reserves a place for an UPDATE it takes (R58). -/
def reserve (k : Kind) (s : State) : State :=
  if k = .update then { s with upe.reservations := s.upe.reservations + 1 } else s

/-- The reservation of an UPDATE is released (R58). -/
def unreserve (k : Option Kind) (s : State) : State :=
  if k = some .update then { s with upe.reservations := s.upe.reservations - 1 } else s

/-- The body of a record is read, or the record is ready at once when it has none (R8 case 5). -/
def readBody (c : Chain) (record : Nat) (k : Kind) (header : List Byte) (s : State) : State :=
  match blocks (record + 16) (k.size - 16) with
  | [] => s.setChain c { s.chain c with walk := .ready record header }
  | b :: l =>
    joinStation (stationBurst (.walk c) false b.1 b.2 []) (s.setChain c { s.chain c with walk := .body record l header })

/-- A header read through a good link is judged (R8). -/
def judgeRecord (c : Chain) (record : Nat) (header : List Byte) (s : State) : State :=
  if u8 header 5 ≠ 0 then walkEnd c (refuse c record .refusedFormat s)
  else
    match kindOf header with
    | none => walkOn c (refuse c record .refusedFormat s)
    | some k =>
      if k.chain ≠ c then walkOn c (refuse c record .refusedFormat s)
      else
        match declines k s with
        | some d => walkDecline c d s
        | none =>
          if s.rangeOk record k.size then readBody c record k header (reserve k s)
          else walkOn c (refuse c record .window s)

/-- A body read has failed: the record is finalized, and the walk goes on (R8 case 5, entries 29 and 36). A burst still left of the
read is not made; R8 does not say (the model's choice, entry 61). -/
def bodyFail (c : Chain) (record : Nat) (got : List Byte) (code : Code) (s : State) : State :=
  walkOn c (refuse c record code (unreserve (kindOf got) s))

/-- A walk's burst has completed OKAY. -/
def walkOkay (c : Chain) (data : List Byte) (s : State) : State :=
  let x := s.chain c
  match x.walk with
  | .link => linkRead c (u32 data 0) s
  | .header r => judgeRecord c r data s
  | .body r [] got => s.setChain c { x with walk := .ready r (got ++ data) }
  | .body r (b :: l) got =>
    joinStation (stationBurst (.walk c) false b.1 b.2 []) (s.setChain c { x with walk := .body r l (got ++ data) })
  | .taking => walkOn c s
  | .idle | .ready _ _ => s

/-- A walk's burst has failed (R7, R8, entry 36). -/
def walkFail (c : Chain) (code : Code) (s : State) : State :=
  match (s.chain c).walk with
  | .link | .header _ => walkEnd c s
  | .body r _ got => bodyFail c r got code s
  | .taking => walkOn c s
  | .idle | .ready _ _ => s

/-- A chain that left HELD, or has a walk remembered, begins a walk (R9); otherwise nothing (entry 5). -/
def chainWalkBegin (c : Chain) (s : State) : State :=
  let x := s.chain c
  if s.rsc.part = .run ∧ chainState s c = .idle ∧ (x.remembered ∨ x.declined ≠ none) then beginWalk c s else s

/-! ### The taking of records (R8 case 5, entry 6) -/

/-- The record of a kind that its chain's walk has read in full. -/
def readyRecord (k : Kind) (s : State) : Option (Nat × List Byte) :=
  match (s.chain k.chain).walk with
  | .ready r bytes => if kindOf bytes = some k then some (r, bytes) else none
  | .idle | .link | .header _ | .body _ _ _ | .taking => none

/-- TAKEN is written and the cursor moves to the record (R8 case 5). -/
def markTaken (c : Chain) (record : Nat) (s : State) : State :=
  joinStation (stationBurst (.walk c) true (record + 5) 1 (le8 1))
    (s.setChain c { s.chain c with cursor := record, walk := .taking })

/-- The record of a kind is taken and handed to its owner (R8 case 5); without such a record nothing (entry 5). -/
def takeRecord (k : Kind) (owner : Nat → List Byte → State → State) (s : State) : State :=
  match readyRecord k s with
  | some r => owner r.1 r.2 (markTaken k.chain r.1 s)
  | none => s

/-- A STAGE or UNSTAGE met by a turn that began after its header was judged is declined (R118, entry 6). -/
def takeStaged (k : Kind) (owner : Nat → List Byte → State → State) (s : State) : State :=
  if (readyRecord k s).isSome && turnHolds s then walkDecline .page .turnBegun s else takeRecord k owner s

/-- A record not taken while the part rests: one read in full by then waits for RUN (R9, R86, R170, entry 7). -/
def takeAwake (k : Kind) (owner : Nat → List Byte → State → State) (s : State) : State :=
  match s.rsc.part with
  | .rest | .restTurn | .waking => s
  | .stopped | .starting | .run | .quiesce => takeRecord k owner s

/-- A record taken only in RUN (R17, R127, R187, section 7.2, R35, entry 7). -/
def takeInRun (k : Kind) (owner : Nat → List Byte → State → State) (s : State) : State :=
  if s.rsc.part = .run then takeRecord k owner s else s

/-! ### WAVEFORM records (R35 to R39) -/

/-- The result fields of a WAVEFORM record (section 11.5). -/
def waveResults (gen bands : Byte) (reason index : Nat) : List (Nat × List Byte) :=
  [(0x14, [gen, bands] ++ le8 reason ++ le8 index)]

/-- A WAVEFORM record is finalized without acceptance; its generation and band count are free (entry 11). -/
def refuseWave (record reason index : Nat) (code : Code) (s : State) : State :=
  let g := takeFreeByte s
  let b := takeFreeByte g.2
  finalize .page record (waveResults g.1 b.1 reason index) code b.2

/-- The header read's next burst (R35 step 4). -/
def headerBurst (b : Nat × Nat) : Burst :=
  { client := .waveform, user := .header, write := false, addr := b.1, len := b.2, data := [] }

/-- A WAVEFORM record is handed over (R35). -/
def takeWaveform (record : Nat) (bytes : List Byte) (s : State) : State :=
  let a := u32 bytes 0x10
  if s.wfs.check ≠ none then refuseWave record 0 0 .busy s
  else if a % 64 ≠ 0 then refuseWave record 1 0 .refusedFormat s
  else if s.rangeOk a headerSize = false then refuseWave record 8 0 .window s
  else
    match blocks a headerSize with
    | b :: l => joinWave (headerBurst b) { s with wfs.check := some ⟨record, a, l, []⟩ }
    | [] => s

/-- The header has been read in full: it is judged, range-checked and accepted (R37, R38, R39). -/
def judgeImage (c : HeaderCheck) (l : List Byte) (s : State) : State :=
  match headerFailure l with
  | some f => refuseWave c.record f.1 f.2 .refusedFormat s
  | none =>
    match tableFailure l s.windows c.addr with
    | some e => refuseWave c.record 9 e .window s
    | none =>
      let s1 := acceptImage (parseImage l c.addr) s
      scan (finalize .page c.record (waveResults s1.wfs.generation (BitVec.ofNat 8 (u8 l 5)) 0 0) .done s1)

/-- A header burst has completed OKAY (R36). -/
def headerOkay (data : List Byte) (s : State) : State :=
  match s.wfs.check with
  | none => s
  | some c =>
    match c.left with
    | b :: l => joinWave (headerBurst b) { s with wfs.check := some { c with left := l, got := c.got ++ data } }
    | [] => judgeImage c (c.got ++ data) { s with wfs.check := none }

/-- A header burst has failed (R36). -/
def headerFail (window : Bool) (s : State) : State :=
  match s.wfs.check with
  | none => s
  | some c =>
    if window then refuseWave c.record 8 0 .window { s with wfs.check := none }
    else refuseWave c.record 0 0 .memoryError { s with wfs.check := none }

/-! ### The settings load (R16, R17, R18) -/

/-- A settings load begins with its first burst (R16). -/
def loadSettings (source : LoadBy) (s : State) : State :=
  match blocks s.baseAddr 512 with
  | b :: l => joinStation (stationBurst .settings false b.1 b.2 []) { s with sif.load := some ⟨source, l, []⟩ }
  | [] => s

/-- A SETTINGS record is handed over: its load begins, or waits for the one under way (R17, entry 18). -/
def takeSettings (record : Nat) (_bytes : List Byte) (s : State) : State :=
  if s.sif.load = none then loadSettings (.request record) s
  else { s with sif.loadQueue := s.sif.loadQueue ++ [record] }

/-- The next SETTINGS record waiting begins its load (entry 18). -/
def nextLoad (s : State) : State :=
  match s.sif.load, s.sif.loadQueue with
  | none, r :: q => loadSettings (.request r) { s with sif.loadQueue := q }
  | _, _ => s

/-- The result of a SETTINGS record, in its flags field (section 11.5). -/
def settingsResult (offset : Nat) : List (Nat × List Byte) := [(6, le16 offset)]

/-- A load has failed with an offset (R17, R18). -/
def loadFailed (source : LoadBy) (offset : Nat) (s : State) : State :=
  match source with
  | .start => setPart .stopped { s with sif.err := true, sif.errOffset := BitVec.ofNat 10 offset }
  | .request r => finalize .control r (settingsResult offset) .refusedFormat s

/-- A SETTINGS record is finalized DONE or BUSY; its result is free (entry 12). -/
def endSettings (record : Nat) (code : Code) (s : State) : State :=
  let o := takeFreeOffset s
  finalize .control record (settingsResult o.1.toNat) code o.2

/-! ### The application of settings (R16, R17, R18) -/

/-- The geometries of two settings differ (R17). -/
def geometryDiffers (a b : Settings) : Bool :=
  a.width != b.width || a.height != b.height || a.buffer != b.buffer

/-- The panel's size differs (R54, R119). -/
def sizeDiffers (a b : Settings) : Bool := a.width != b.width || a.height != b.height

/-- A threshold or the hysteresis differs (R174). -/
def thresholdsDiffer (a b : Settings) : Bool :=
  a.lowThreshold != b.lowThreshold || a.criticalThreshold != b.criticalThreshold || a.hysteresis != b.hysteresis

/-- The new settings are held by every block; the debounce counts, the gamma table, the mask and INT follow (R14, R16, R141,
R174, R179). -/
def holdSettings (n : Settings) (s : State) : State :=
  let o := s.cfg
  let s1 := { s with
    settings := some n
    sif.live := true
    sif.mask := BitVec.ofNat 12 n.mask
    ltu.gammaDirty := s.ltu.gammaDirty || n.gamma != o.gamma }
  let s2 := if thresholdsDiffer o n then { s1 with meu.down := 0, meu.deep := false, meu.up := 0, meu.high := false } else s1
  markAged (evalInt s2)

/-- A key line whose polarity changed starts afresh (R107). -/
def repolarize (o n : Settings) (s : State) (i : Nat) : State :=
  if (o.keys.getD i {}).polarity = (n.keys.getD i {}).polarity then s else linePolarity i s

/-- A new panel size empties what was judged for the old one (R54, R119). -/
def resize (o n : Settings) (s : State) : State :=
  if sizeDiffers o n then
    let s1 := { s with upe.current := none, ktu.forward := [], ktu.backward := [] }
    if s.upe.current = none then s1 else ask .panel s1
  else s

/-- A geometry or buffer change: panel-image-uncertain, the new size, and the initializing sweep (R54). -/
def regeometry (o n : Settings) (s : State) : State :=
  if geometryDiffers o n then requestSweep (resize o n (setUncertain s)) else s

/-- LOCKED is left by a SETTINGS request finalized DONE (R104, R189). -/
def leaveLocked (s : State) : State :=
  if s.pss.rail = .locked then forcedRest (enterOff { s with pss.history := [] }) else s

/-- The settings of a SETTINGS request are applied and the record is finalized DONE (R17). -/
def applyRequest (record : Nat) (n : Settings) (s : State) : State :=
  let o := s.cfg
  let s1 := (List.range 4).foldl (repolarize o n) (holdSettings n s)
  let s2 := regeometry o n (if o.lowCeiling = n.lowCeiling then s1 else setCeiling s1)
  leaveLocked (endSettings record .done s2)

/-- The START sweep: initializing when no sweep has completed since power-on or the geometry differs from the last one's,
else a mark sweep (R80). -/
def startSweep (s : State) : State := beginPass (.sweep (s.upe.lastSweep != some s.geom) true) s

/-- C is set at the START application, without a ramp (R132). -/
def startCeiling (s : State) : State :=
  let c := ceilingOf s.cfg s.meu.supply
  if c = s.ltu.ceiling then s else ask .light { s with ltu.ceiling := c }

/-- The settings of a START load are applied, the lines are watched, the battery requester starts and the START sweep begins
(R18, R109, R132, R176). -/
def applyStart (n : Settings) (s : State) : State :=
  startSweep (startRequester (startCeiling ((List.range 4).foldl (fun t i => lineBounce i t) (holdSettings n s))))

/-- Whether the panel is busy for a geometry change (R17). -/
def panelBusy (s : State) : Bool := !allLanesFree s || !s.upe.list.isEmpty

/-- The settings area has been read: every owner checks, and the load succeeds or fails (R16, R17, R18). -/
def judgeSettings (source : LoadBy) (bytes : List Byte) (s : State) : State :=
  let n := parseSettings bytes
  match settingsFailure n s.baseAddr with
  | some o => loadFailed source o s
  | none =>
    match source with
    | .start => applyStart n s
    | .request r => if geometryDiffers s.cfg n && panelBusy s then endSettings r .busy s else applyRequest r n s

/-- A settings burst has completed OKAY (R16). -/
def settingsOkay (data : List Byte) (s : State) : State :=
  match s.sif.load with
  | none => s
  | some d =>
    match d.left with
    | b :: l =>
      joinStation (stationBurst .settings false b.1 b.2 []) { s with sif.load := some { d with left := l, got := d.got ++ data } }
    | [] => nextLoad (judgeSettings d.source (d.got ++ data) { s with sif.load := none })

/-- A settings burst has failed: the load fails as unreadable (R16). The bursts still left of the read are not made; R16 does not
say (the model's choice, entry 62). -/
def settingsFail (s : State) : State :=
  match s.sif.load with
  | none => s
  | some d => nextLoad (loadFailed d.source 0x200 { s with sif.load := none })

/-- START is accepted in STOPPED (R1, R18). -/
def acceptStart (s : State) : State :=
  if s.rsc.part = .stopped then
    loadSettings .start (setPart .starting { s with sif.err := false, sif.errOffset := 0 })
  else s

end Sys2Proof.Machine
end

