-- ==== Sys2Proof/Machine/Port.lean ====
section
/-! DEFINITION. The Memory Port: what the status areas hold, the arbiter, the window check, completions and answers (chapter 2, sections 11.3 and 11.7). -/

namespace Sys2Proof.Machine

/-! ### The status areas (section 11.3) -/

/-- Measurement area and continuation. -/
def measureBytes (s : State) : List Byte × List Byte :=
  let m := s.meu
  let b := m.battery.getD ⟨0, 0⟩
  let t := m.temperature.getD ⟨0, 0, false⟩
  (le16 b.mv ++ les16 t.value ++ le8 (bit m.battery.isSome + 2 * bit m.temperature.isSome + 4 * bit t.aged) ++
     le8 m.supply.num ++ zeros 2 ++ le32 b.stamp.toNat ++ le32 t.stamp.toNat,
   le32 m.supplyStamp.toNat ++ le32 m.askTime.toNat ++ zeros 8)

/-- Window capture. -/
def captureBytes (s : State) : List Byte :=
  let c := s.mpt.capture
  le32 c.addr ++ le32 c.stamp.toNat ++ le16 c.further.toNat ++ le8 c.len ++
  le8 (c.client.num + 8 * bit c.write + 128 * bit c.full) ++ zeros 4

/-- Panel status and continuation. -/
def panelBytes (s : State) : List Byte × List Byte :=
  let tag := match s.upe.current with
    | some p => p.tag.toNat
    | none => 0
  (le8 (bit s.upe.uncertain + 2 * s.pss.rail.num + 16 * bit s.upe.current.isSome) ++ le8 s.upe.cadence ++
     le8 s.upe.list.length ++ le8 (s.upe.lanes.filter fun l => !l.isFree).length ++ le32 tag ++
     le16 s.fsc.stretched.toNat ++ le16 s.fsc.scanErrors.toNat ++ le8 s.pss.history.length ++ zeros 3,
   (List.range 3).flatMap (fun i => le32 (s.pss.history.getD i 0).toNat) ++ zeros 4)

/-- The ramp's fields in the light status: cause code, target warmth, target level, N; free without a ramp, the cause one of
the five codes (R199, entry 30). -/
def rampFields (s : State) : Nat × List Byte :=
  match s.ltu.ramp with
  | some r => (r.cause.num, le8 r.tm ++ le16 r.t ++ le16 r.n)
  | none => ((Config.freeByte s.fresh).toNat % 5, freeBytes s 1 5)

/-- Light status and continuation. -/
def lightBytes (s : State) : List Byte × List Byte :=
  let l := s.ltu
  (le16 l.lr ++ le8 l.mr ++ le8 l.warmth ++ le16 l.level ++ le16 l.ceiling ++ le16 l.remembered ++
     le8 (bit l.keyOff + 2 * bit l.restDark + 4 * bit l.ramp.isSome + 8 * (rampFields s).1) ++ (rampFields s).2,
   le16 l.warm.duty ++ le16 l.cool.duty ++ le32 (l.light.getD 0) ++ zeros 8)

/-- Key report. -/
def keyBytes (s : State) : List Byte :=
  let k := s.ktu
  k.counts.flatMap (fun c => le16 c.toNat) ++ le16 k.dropped.toNat ++ le16 k.reported.toNat ++ le8 k.lastRole.num ++ zeros 3 ++
  le32 k.lastStamp.toNat

/-- One Turn Log entry (section 11.7). -/
def logEntryBytes (e : LogEntry) : List Byte :=
  let dropped := match e.dropped with
    | some t => t.toNat
    | none => 0
  le8 e.dir.num ++ le8 e.result.num ++ le8 (bit e.dropped.isSome + 2 * bit e.ofRest) ++ zeros 1 ++ le32 e.tag.toNat ++
  le32 e.stamp.toNat ++ le32 dropped

/-- Turn Log (section 11.7). -/
def logBytes (s : State) : List Byte :=
  le8 s.ktu.log.length ++ zeros 15 ++ s.ktu.log.flatMap logEntryBytes ++ zeros (16 * (16 - s.ktu.log.length))

/-- The progress state of a slot (R168). -/
def progressState (f : FileSlot) : Nat := if f.state = .free ∧ f.interrupted then 6 else f.state.num

/-- Progress record of a slot (section 11.7). -/
def progressBytes (f : FileSlot) : List Byte :=
  le8 (progressState f) ++ le8 f.extents.length ++ le16 f.file.toNat ++ le32 f.len ++ le32 f.crc.toNat ++
  le32 f.computed.toNat ++ le32 f.received ++ le32 f.stamp.toNat ++ zeros 8 ++
  f.extents.flatMap (fun e => le32 e.1 ++ le32 e.2) ++ zeros (8 * (16 - f.extents.length))

/-- The two bursts of an area with a continuation (R201). -/
def twoBursts (s : State) (a c : Nat) (b : List Byte × List Byte) : List (Nat × List Byte) :=
  [(s.baseAddr + a, b.1), (s.baseAddr + c, b.2)]

/-- The bursts of an area's write, with the values of this moment. -/
def areaWrites (a : Area) (s : State) : List (Nat × List Byte) :=
  match a with
  | .mirror => writeBlocks (s.baseAddr + a.offset) (s.sif.posted.flatMap fun n => le16 n.toNat)
  | .retired => writeBlocks (s.baseAddr + a.offset)
      (le32 s.sif.page.retired.toNat ++ le32 s.sif.control.retired.toNat ++ le32 s.sif.fetch.retired.toNat)
  | .measure => twoBursts s a.offset 0x480 (measureBytes s)
  | .capture => writeBlocks (s.baseAddr + a.offset) (captureBytes s)
  | .panel => twoBursts s a.offset 0x490 (panelBytes s)
  | .light => twoBursts s a.offset 0x4A0 (lightBytes s)
  | .link => writeBlocks (s.baseAddr + a.offset) (s.dlc.counters.flatMap (fun n => le16 n.toNat) ++ zeros 2)
  | .keyReport => writeBlocks (s.baseAddr + a.offset) (keyBytes s)
  | .turnLog => writeBlocks (s.baseAddr + a.offset) (logBytes s)
  | .context _ bytes => writeBlocks (s.baseAddr + a.offset) bytes
  | .progress i => writeBlocks (s.baseAddr + a.offset) (progressBytes (s.slot i))

/-- Free values an area's write has used. -/
def areaFresh (a : Area) (s : State) : Nat := if a = .light ∧ s.ltu.ramp = none then 6 else 0

/-- At its grant the first burst of an area's write takes its address and bytes (R22, R29, R83, R201). -/
def fillStatus (b : Burst) (s : State) : Burst × State :=
  match b.user with
  | .status u =>
    let w := s.writer u
    match w.granted, w.cur with
    | false, some a =>
      match areaWrites a s with
      | x :: l =>
        ({ b with addr := x.1, len := x.2.length, data := x.2 },
         { s.setWriter u { w with granted := true, left := l } with fresh := s.fresh + areaFresh a s })
      | [] => (b, s)
    | _, _ => (b, s)
  | .scan | .pixel | .download | .verify | .header | .load _ | .walk _ | .settings | .resume | .finalizer => (b, s)

/-! ### Bursts the units make (R21) -/

/-- The burst a client has waiting. -/
def waiting (c : Client) (s : State) : Option Burst :=
  match c with
  | .scan => s.mpt.scanWait
  | .pixel => s.mpt.pixelWait
  | .waveform => s.mpt.waveQueue.head?
  | .station => s.mpt.stationQueue.head?
  | .download => s.mpt.downWait
  | .verify => s.mpt.verifyWait

/-- A client has a burst waiting or in flight. -/
def clientBusy (c : Client) (s : State) : Bool :=
  (waiting c s).isSome || s.mpt.inflight.any fun b => b.client == c

/-- The Frame Scanner makes its next burst (R93). It goes on with the bursts of a fourth slot that is FETCHING, as the worked
sequence of chapter 5 shows, where R93 read to the letter would have it present none (the model's choice, entry 45). -/
def pumpScan (s : State) : State :=
  if clientBusy .scan s then s
  else
    match fetchingSlot s with
    | none => s
    | some l =>
      match l.left with
      | [] => s
      | b :: rest =>
        { setRow l.row (fun q => { q with left := rest }) s with
          mpt.scanWait := some { client := .scan, user := .scan, write := false, addr := b.1, len := b.2, data := [] } }

/-- The Pixel Pass Unit makes its next burst (R74). -/
def pumpPixel (s : State) : State :=
  if clientBusy .pixel s then s
  else
    match s.upe.pass with
    | none => s
    | some p =>
      match p.left, p.out with
      | b :: l, _ =>
        { s with
          upe.pass := some { p with left := l }
          mpt.pixelWait := some { client := .pixel, user := .pixel, write := false, addr := b.1, len := b.2, data := [] } }
      | [], b :: l =>
        { s with
          upe.pass := some { p with out := l }
          mpt.pixelWait := some { client := .pixel, user := .pixel, write := true, addr := b.1, len := b.2.length, data := b.2 } }
      | [], [] => s

/-- The dispatcher makes its next burst (R162). -/
def pumpDownload (s : State) : State :=
  if clientBusy .download s then s
  else
    match s.dlc.dispatch with
    | none => s
    | some d =>
      match d.out with
      | [] => s
      | b :: l =>
        { s with
          dlc.dispatch := some { d with out := l }
          mpt.downWait := some { client := .download, user := .download, write := true, addr := b.1, len := b.2.length, data := b.2 } }

/-- The verify pass makes its next burst (R166). -/
def pumpVerify (s : State) : State :=
  if clientBusy .verify s then s
  else
    match s.dlc.verify with
    | none => s
    | some v =>
      let f := s.slot v.slot
      let a := f.dest + v.pos
      let n := min (64 - a % 64) (f.len - v.pos)
      if n = 0 then s
      else
        { s with
          dlc.verify := some { v with pos := v.pos + n }
          mpt.verifyWait := some { client := .verify, user := .verify, write := false, addr := a, len := n, data := [] } }

/-- Every client without a burst makes its next one. -/
def pump (s : State) : State := pumpVerify (pumpDownload (pumpPixel (pumpScan s)))

/-! ### The arbiter (R23, R25, R26) -/

/-- The rotating clients in cyclic order, beginning after the last-served one. -/
def rotation : Client → List Client
  | .waveform => [.station, .download, .verify, .waveform]
  | .station => [.download, .verify, .waveform, .station]
  | .download => [.verify, .waveform, .station, .download]
  | .verify | .scan | .pixel => [.waveform, .station, .download, .verify]

/-- The client whose burst is granted next (R23). -/
def pick (s : State) : Option Client :=
  ([Client.scan, Client.pixel] ++ rotation s.mpt.last).find? fun c => (waiting c s).isSome

/-- The client's waiting burst leaves its place, and a rotating client becomes the last-served (R23). -/
def takeWaiting (c : Client) (s : State) : State :=
  match c with
  | .scan => { s with mpt.scanWait := none }
  | .pixel => { s with mpt.pixelWait := none }
  | .waveform => { s with mpt.waveQueue := s.mpt.waveQueue.tail, mpt.last := c }
  | .station => { s with mpt.stationQueue := s.mpt.stationQueue.tail, mpt.last := c }
  | .download => { s with mpt.downWait := none, mpt.last := c }
  | .verify => { s with mpt.verifyWait := none, mpt.last := c }

/-- The burst is a read of the START load, which is not checked (R16, R25). -/
def startLoadBurst (b : Burst) (s : State) : Bool :=
  b.user == .settings &&
    match s.sif.load with
    | some d => d.source == .start
    | none => false

/-- The window check of a granted burst (R26). -/
def windowPasses (b : Burst) (s : State) : Bool := startLoadBurst b s || s.rangeOk b.addr b.len

/-! ### Completions -/

/-- A load burst has completed OKAY (R40, R43); the load's end is reported (R66, R67). -/
def loadOkay (i : Nat) (data : List Byte) (s : State) : State :=
  let e := s.store i
  if e.stale then reported (reportFree (reportLoadEnd e.key (s.setStore i { stamp := e.stamp })))
  else if e.loadLeft = 0 then
    let s1 := reportLoadEnd e.key (s.setStore i { e with state := .ready, table := e.table ++ [data], stamp := s.partTime })
    reported (if e.holder = none then reportFree s1 else s1)
  else
    joinWave (loadBurst i e.loadAddr)
      (s.setStore i { e with table := e.table ++ [data], loadAddr := e.loadAddr + 64, loadLeft := e.loadLeft - 1 })

/-- A load burst has failed (R44). -/
def loadFail (i : Nat) (code : Code) (s : State) : State :=
  let e := s.store i
  failHolder e.holder code (reportFree (reportLoadEnd e.key (s.setStore i { stamp := e.stamp })))

/-- The code of a failed access (R32). -/
def Answer.code : Answer → Code
  | .window => .window
  | .okay | .error => .memoryError

/-- A lane's error of a failed access (R76). -/
def Answer.laneError : Answer → LaneError
  | .window => .window
  | .okay | .error => .memory

/-- A status writer's burst has completed (R190, R201). -/
def statusDone (u : StatusUser) (ok : Bool) (s : State) : State :=
  match (s.writer u).cur with
  | some (.context phase _) => writerNext u ok (contextDone phase s)
  | _ => writerNext u ok s

/-- The user of a burst takes an OKAY, with a read's data. -/
def userOkay (u : User) (data : List Byte) (s : State) : State :=
  match u with
  | .scan => scanOkay data s
  | .pixel => passOkay data s
  | .download => dispatchNext s
  | .verify => verifyNext data s
  | .header => headerOkay data s
  | .load i => loadOkay i data s
  | .walk c => walkOkay c data s
  | .settings => settingsOkay data s
  | .resume => resumeNext true data s
  | .finalizer => finalizerNext s
  | .status w => statusDone w true s

/-- The user of a burst takes a failure (R32). -/
def userFail (u : User) (a : Answer) (s : State) : State :=
  match u with
  | .scan => scanFail s
  | .pixel => passFail a.laneError s
  | .download => dispatchFail a.code s
  | .verify => verifyFail a.code s
  | .header => headerFail (a == .window) s
  | .load i => loadFail i a.code s
  | .walk c => walkFail c a.code s
  | .settings => settingsFail s
  | .resume => resumeNext false [] s
  | .finalizer => finalizerNext s
  | .status w => statusDone w false s

/-- A burst completes to its client (R21); the answer of a burst given up or dropped reaches no one. -/
def complete (b : Burst) (a : Answer) (data : List Byte) (s : State) : State :=
  if b.fate = .live then (if a = .okay then userOkay b.user data s else userFail b.user a s) else s

/-! ### Grants (R23 to R26) -/

/-- The port grants while it is open and nothing is in flight; a burst that fails the window check completes at once and the
port grants again; it is reported to the capture before it completes, where R22 leaves open which of the two puts its bursts into
the STATION queue first (the model's choice, entry 66). A Rest Controller that waits for a moment without a burst in flight has it before the next burst is granted,
so that the port can close on bursts that wait (R24, R190, R196, entry 46). A burst that a client makes at its completion is
among those the grant of the same event considers, where R23 leaves that to the world (the model's choice, entry 52). The
number bounds the grants of one command (entry 20). -/
def grants : Nat → State → State
  | 0, s => s
  | n + 1, s =>
    let s1 := pump s
    if portOpen s1 && s1.mpt.inflight.isNone then
      match pick s1 with
      | none => s1
      | some c =>
        if awaitsIdle s1 then grants n (portIdle s1)
        else
          match waiting c s1 with
          | none => s1
          | some w =>
            if s1.sif.live || startLoadBurst w s1 then
              let g := fillStatus w (takeWaiting c s1)
              if windowPasses g.1 g.2 then { g.2 with mpt.inflight := some g.1 }
              else grants n (complete g.1 .window [] (reportWindow g.1.client g.1.write g.1.addr g.1.len g.2))
            else s1
    else s1

/-- The grants that follow a command. -/
def portGrants (s : State) : State := grants 65536 s

/-! ### Interconnect answers (R21, R31, R32) -/

/-- Bytes others have put at a burst's addresses. -/
def overlay (b : Burst) (bytes : List Byte) (s : State) : State :=
  { s with mem := memWriteBytes s.mem b.addr (bytes.take b.len) }

/-- The burst in flight is answered OKAY (R21, R33). -/
def answerOkay (data : List Byte) (s : State) : State :=
  match s.mpt.inflight with
  | none => s
  | some b =>
    let s1 := { s with mpt.inflight := none }
    if b.write then complete b .okay [] { s1 with mem := memWriteBytes s1.mem b.addr b.data }
    else
      let s2 := overlay b data s1
      complete b .okay (memReadBytes s2.mem b.addr b.len) s2

/-- What a failed or abandoned write has left at its addresses (R31, R32, entry 2). -/
def failedWrite (b : Burst) (left : List Byte) (s : State) : State := if b.write then overlay b left s else s

/-- The burst in flight is answered ERROR (R32). -/
def answerError (left : List Byte) (s : State) : State :=
  match s.mpt.inflight with
  | none => s
  | some b => complete b .error [] (failedWrite b left { s with mpt.inflight := none })

/-- A burst answered RETRY becomes its client's waiting burst again (R31). -/
def waitAgain (b : Burst) (s : State) : State :=
  match b.client with
  | .scan => { s with mpt.scanWait := some b }
  | .pixel => { s with mpt.pixelWait := some b }
  | .waveform => { s with mpt.waveQueue := b :: s.mpt.waveQueue }
  | .station => { s with mpt.stationQueue := b :: s.mpt.stationQueue }
  | .download => { s with mpt.downWait := some b }
  | .verify => { s with mpt.verifyWait := some b }

/-- The burst in flight is answered RETRY (R31, R33). -/
def answerRetry (left : List Byte) (s : State) : State :=
  match s.mpt.inflight with
  | none => s
  | some b =>
    let s1 := failedWrite b left { s with mpt.inflight := none }
    if b.fate = .dropped then s1
    else if b.retries + 1 < 8 then waitAgain { b with retries := b.retries + 1 } s1
    else complete b .error [] s1

end Sys2Proof.Machine
end

