-- ==== Sys2Proof/Machine/Reset.lean ====
section
/-! DEFINITION. Power-on reset and soft reset (R15, R19, R33, R52, R86, R105, R106, R128, R148, R172, R183, R184). -/

namespace Sys2Proof.Machine

/-- A burst in flight at soft reset: its answer will be discarded, it is not issued again, and its retry count is 0 (R33). -/
def Burst.drop (b : Burst) : Burst := { b with fate := .dropped, retries := 0 }

/-- A key line after a reset: the pin keeps its level, the debouncer is IDLE and stopped (R109, R128). -/
def KeyLine.cleared (k : KeyLine) : KeyLine := { level := k.level }

/-- SOFT RESET: every block as its chapter gives; part time, BASE, the held settings, the generation, the clear-cadence
counter, panel-image-uncertain, the last sweep and the samples are kept (R19, R184); so is the part time at which the last
measurement write was asked for, to which no rule gives a value after a soft reset (entry 43). No status
area is written at the reset or for it at the next START, so the panel status shows the values of before until the next change
(R83 does not say; the model's choice, entry 56). -/
def softReset (s : State) : State where
  pending := s.pending
  mem := s.mem
  partTime := s.partTime
  settings := s.settings
  fresh := s.fresh
  sif := { base := s.sif.base }
  mpt := { inflight := s.mpt.inflight.map Burst.drop }
  meu := { battery := s.meu.battery, temperature := s.meu.temperature, supplyStamp := s.meu.supplyStamp
           askTime := s.meu.askTime }
  wfs := { generation := s.wfs.generation }
  upe := { nextId := s.upe.nextId, cadence := s.upe.cadence, uncertain := s.upe.uncertain || !allLanesFree s
           lastSweep := s.upe.lastSweep }
  fsc := {}
  pss := { railGood := s.pss.railGood }
  ktu := { lines := s.ktu.lines.map KeyLine.cleared }
  ltu := {}
  dlc := {}
  rsc := { sleepAck := s.rsc.sleepAck }

/-- Power-on reset: `State.reset`, with the world as it stands: main memory, pin levels and the commands waiting (R184). -/
def powerOn (s : State) : State :=
  { State.reset with
    pending := s.pending, mem := s.mem, fresh := s.fresh
    pss := { railGood := s.pss.railGood }
    ktu := { lines := s.ktu.lines.map KeyLine.cleared }
    rsc := { sleepAck := s.rsc.sleepAck } }

end Sys2Proof.Machine
end

