-- ==== Sys2Proof/Machine/Commands.lean ====
section
/-! DEFINITION. One meaning per command, over the shared operations. A command whose condition does not hold changes nothing (entry 5); the port's grants that follow a command are made within it (R23). -/

namespace Sys2Proof.Machine

/-- The outcome of a command. -/
abbrev Result := Host.Outcome State Fault Refusal

/-- A command completes, and the port grants what it can (R23). -/
def done (s : State) : Result := .next (portGrants s)

/-! ### Registers and resets -/

/-- START (R1, R18). -/
def execStart (s : State) : Result := done (acceptStart s)

/-- SOFT RESET (R19, R184). -/
def execSoftReset (s : State) : Result := .next (softReset s)

/-- Power-on reset (R184). -/
def execPowerOnReset (s : State) : Result := .next (powerOn s)

/-- BASE (R3). -/
def execBaseWrite (value : Word) (s : State) : Result := .next (writeBase value s)

/-- WALK (R4). -/
def execWalk (value : Word) (s : State) : Result := done (writeWalk value s)

/-- ACK (R5). -/
def execAck (value : Word) (s : State) : Result := done (writeAck value s)

/-! ### The interconnect -/

/-- OKAY (R21). -/
def execBurstOkay (data : List Byte) (s : State) : Result := done (answerOkay data s)

/-- RETRY (R31). -/
def execBurstRetry (left : List Byte) (s : State) : Result := done (answerRetry left s)

/-- ERROR (R32). -/
def execBurstError (left : List Byte) (s : State) : Result := done (answerError left s)

/-! ### Walks and records -/

/-- A chain begins a walk (R9). -/
def execChainWalkBegin (c : Chain) (s : State) : Result := done (chainWalkBegin c s)

/-- UPDATE (R57, R58). -/
def execUpdate (s : State) : Result := done (takeAwake .update takeUpdate s)

/-- STAGE (R116). -/
def execStage (s : State) : Result := done (takeStaged .stage takeStage s)

/-- UNSTAGE (R117). -/
def execUnstage (s : State) : Result := done (takeStaged .unstage takeUnstage s)

/-- WAVEFORM (R35). -/
def execWaveform (s : State) : Result := done (takeInRun .waveform takeWaveform s)

/-- LIGHT (R130). -/
def execLight (s : State) : Result := done (takeInRun .light takeLight s)

/-- REST (R187). -/
def execRest (s : State) : Result := done (takeInRun .rest takeRest s)

/-- SETTINGS (R17). -/
def execSettings (s : State) : Result := done (takeInRun .settings takeSettings s)

/-- TURNS SEEN (R127). -/
def execTurnsSeen (s : State) : Result := done (takeInRun .turnsSeen takeTurnsSeen s)

/-- OPEN (R156). -/
def execOpenFile (s : State) : Result := done (takeAwake .openFile takeOpen s)

/-- CLOSE (R159). -/
def execCloseFile (s : State) : Result := done (takeRecord .closeFile takeClose s)

/-! ### The panel -/

/-- The eligible entry is admitted (R68). -/
def execAdmission (s : State) : Result := done (admission s)

/-- Waiting lookups are made again (R66). -/
def execStoreLookupRetry (s : State) : Result := done (storeRetry s)

/-- The first waiting retire pass begins (R73). -/
def execRetirePassBegin (s : State) : Result := done (retireBegin s)

/-- A frame starts (R87). -/
def execFrameStart (s : State) : Result := done (frameStart s)

/-- The line time ends (R88). -/
def execLineTimeEnd (s : State) : Result := done (lineTimeEnd s)

/-- stretch-limit passes (R94). -/
def execStretchLimitExpiry (s : State) : Result := done (stretchExpiry s)

/-- RAIL_GOOD asserted (R98). -/
def execRailGoodAsserted (s : State) : Result := done (goodAsserted s)

/-- RAIL_GOOD deasserted (R100). -/
def execRailGoodDeasserted (s : State) : Result := done (goodDeasserted s)

/-- The rise timer expires (R98). -/
def execRiseTimeout (s : State) : Result := done (riseExpiry s)

/-- The idle-hold timer expires (R99). -/
def execIdleHoldExpiry (s : State) : Result := done (idleExpiry s)

/-- The fall timer expires (R101). -/
def execFallTimerExpiry (s : State) : Result := done (fallExpiry s)

/-- The fault-hold timer expires (R102). -/
def execFaultHoldExpiry (s : State) : Result := done (holdExpiry s)

/-! ### Keys and turns -/

/-- A key line's pin takes a level; a watched line responds to a change (R108, R109). -/
def keyLevel (i : Nat) (high : Bool) (s : State) : State :=
  if (s.line i).level = high then s
  else
    let s1 := s.setLine i { s.line i with level := high }
    if s.sif.live then lineChanged i s1 else s1

/-- A line's debounce timer has expired (R108). -/
def debounceEnd (i : Nat) (s : State) : State :=
  let k := s.line i
  let active := keyActive (s.keySetting i).polarity k.level
  if k.timer = none then s
  else
    match k.state with
    | .idle => s
    | .bouncing =>
      if active then
        handlePresses (confirmPress (Role.ofNum (s.keySetting i).role)
          (s.setLine i { k with state := .pressed, timer := none }))
      else s
    | .pressed => if active then s else s.setLine i { k with state := .idle, timer := none }

/-- A key line changes (R108). -/
def execKeyLineChange (line : Fin 4) (high : Bool) (s : State) : Result := done (keyLevel line.val high s)

/-- A debounce timer expires (R108). -/
def execDebounceExpiry (line : Fin 4) (s : State) : Result := done (debounceEnd line.val s)

/-- A turn in WAIT_PLACE appends again (R121). -/
def execTurnAppendRetry (s : State) : Result := done (if s.ktu.turn = .waitPlace then turnAppend s else s)

/-! ### Light -/

/-- The ramp tick (R135). -/
def execRampTick (s : State) : Result := done (rampTick s)

/-- A period boundary (R140). -/
def execPeriodBoundary (s : State) : Result := .next (periodBoundary s)

/-- A high count runs out (R139). -/
def execHighPhaseEnd (g : Generator) (s : State) : Result := .next (highPhaseEnd g s)

/-! ### Downloads -/

/-- Bytes on the link (R151, R152). -/
def execChunkFrame (bytes : List Byte) (s : State) : Result := done (recvBytes bytes s)

/-- LSEL goes inactive (R153). -/
def execLselInactive (s : State) : Result := done (lselOff s)

/-- The dispatch of the oldest chunk begins (R160). -/
def execDispatchBegin (s : State) : Result := done (dispatchBegin s)

/-- A stall timer expires (R165). -/
def execStallTimerExpiry (slot : Fin 4) (s : State) : Result := done (stallExpiry slot.val s)

/-- The verify pass begins (R166). -/
def execVerifyPassBegin (s : State) : Result := done (verifyBegin s)

/-- The download stop ends (R169). -/
def execDownloadsStopped (s : State) : Result := done (downloadsStop s)

/-! ### Measurement -/

/-- A temperature conversion has ended (R177, R178). -/
def temperatureEnd (code : Nat) (s : State) : State :=
  adcKick (sampleDone (askMeasure { s with
    meu.adc := none
    meu.temperature := some ⟨temperatureOf s.cfg code, s.partTime, false⟩
    meu.tempTimer := if s.rsc.part = .run then s.timer (s.cfg.tempMaxAge * 1000) else s.meu.tempTimer }))

/-- A battery conversion has ended: the sample, its judgement, and a change of supply state (R178, R180 to R182). The measurement
area is asked for after the report, as R182 numbers its steps (entry 19). -/
def batteryEnd (code : Nat) (s : State) : State :=
  let mv := batteryMv s.cfg code
  let m := judgeSample s.cfg mv { s.meu with adc := none, battery := some ⟨mv, s.partTime⟩ }
  let s1 := { s with meu := m }
  adcKick (askMeasure (if m.supply = s.meu.supply then s1
    else supplyReport (post .supply { s1 with meu.supplyStamp := s.partTime })))

/-- The conversion in progress ends (R175, R178). -/
def conversionEnd (code : Nat) (s : State) : State :=
  match s.meu.adc with
  | none => s
  | some .temperature => temperatureEnd code s
  | some .battery => batteryEnd code s

/-- The battery timer expires (R176). -/
def batteryExpiry (s : State) : State :=
  if s.meu.batteryTimer = none then s
  else requestBattery { s with meu.batteryTimer := s.timer (batteryPeriod s) }

/-- The periodic temperature timer expires (R177). -/
def temperatureExpiry (s : State) : State :=
  if s.meu.tempTimer = none then s else requestTemp { s with meu.tempTimer := none }

/-- A conversion ends (R178). -/
def execAdcConversionEnd (code : BitVec 12) (s : State) : Result := done (conversionEnd code.toNat s)

/-- The battery timer expires (R176). -/
def execBatteryTimerExpiry (s : State) : Result := done (batteryExpiry s)

/-- The temperature timer expires (R177). -/
def execTemperatureTimerExpiry (s : State) : Result := done (temperatureExpiry s)

/-- The temperature ages out (R179). -/
def execTemperatureAgedOut (s : State) : Result := done (markAged s)

/-! ### Rest -/

/-- The rest image is appended again (R188). -/
def imageRetry (s : State) : State :=
  if s.rsc.part = .quiesce ∧ s.rsc.imageState = .waitPlace then appendImage s else s

/-- The rest timer expires (R195). -/
def restExpiry (s : State) : State :=
  if s.rsc.restTimer = none then s else wakeCause .alarm { s with rsc.restTimer := none }

/-- A rest image is appended again (R188). -/
def execRestImageAppendRetry (s : State) : Result := done (imageRetry s)

/-- The quiesce timer expires (R191). -/
def execQuiesceLimit (s : State) : Result := done (quiesceLimit s)

/-- The drain conditions hold (R190). -/
def execDrainComplete (s : State) : Result := done (drainBegin s)

/-- The part enters REST (R190). -/
def execEnterRest (s : State) : Result := done (enterRest s)

/-- SLEEP_ACK asserted (R193). -/
def execSleepAckAsserted (s : State) : Result := done (ackAsserted s)

/-- SLEEP_ACK deasserted (R193). -/
def execSleepAckDeasserted (s : State) : Result := done (ackDeasserted s)

/-- The memory timer expires (R193). -/
def execMemoryTimerExpiry (s : State) : Result := done (memoryExpiry s)

/-- The rest timer expires (R195). -/
def execRestTimerExpiry (s : State) : Result := done (restExpiry s)

/-- The part returns to REST after a rest turn (R196). -/
def execRestTurnSleep (s : State) : Result := done (restTurnSleep s)

end Sys2Proof.Machine
end

