-- ==== Sys2Proof/Machine/Dispatch.lean ====
section
/-! DEFINITION. The dispatch: one arm per command, each one call of its meaning. -/

namespace Sys2Proof.Machine

/-- The effect of a command on everything but the queue. -/
def exec (i : Instr) (s : State) : Host.Outcome State Fault Refusal :=
  match i with
  | .start => Sys2Proof.Machine.execStart s
  | .softReset => Sys2Proof.Machine.execSoftReset s
  | .powerOnReset => Sys2Proof.Machine.execPowerOnReset s
  | .baseWrite value => Sys2Proof.Machine.execBaseWrite value s
  | .walk value => Sys2Proof.Machine.execWalk value s
  | .ack value => Sys2Proof.Machine.execAck value s
  | .burstOkay data => Sys2Proof.Machine.execBurstOkay data s
  | .burstRetry left => Sys2Proof.Machine.execBurstRetry left s
  | .burstError left => Sys2Proof.Machine.execBurstError left s
  | .chainWalkBegin chain => Sys2Proof.Machine.execChainWalkBegin chain s
  | .update => Sys2Proof.Machine.execUpdate s
  | .stage => Sys2Proof.Machine.execStage s
  | .unstage => Sys2Proof.Machine.execUnstage s
  | .waveform => Sys2Proof.Machine.execWaveform s
  | .light => Sys2Proof.Machine.execLight s
  | .rest => Sys2Proof.Machine.execRest s
  | .settings => Sys2Proof.Machine.execSettings s
  | .turnsSeen => Sys2Proof.Machine.execTurnsSeen s
  | .openFile => Sys2Proof.Machine.execOpenFile s
  | .closeFile => Sys2Proof.Machine.execCloseFile s
  | .admission => Sys2Proof.Machine.execAdmission s
  | .storeLookupRetry => Sys2Proof.Machine.execStoreLookupRetry s
  | .retirePassBegin => Sys2Proof.Machine.execRetirePassBegin s
  | .frameStart => Sys2Proof.Machine.execFrameStart s
  | .lineTimeEnd => Sys2Proof.Machine.execLineTimeEnd s
  | .stretchLimitExpiry => Sys2Proof.Machine.execStretchLimitExpiry s
  | .railGoodAsserted => Sys2Proof.Machine.execRailGoodAsserted s
  | .railGoodDeasserted => Sys2Proof.Machine.execRailGoodDeasserted s
  | .riseTimeout => Sys2Proof.Machine.execRiseTimeout s
  | .idleHoldExpiry => Sys2Proof.Machine.execIdleHoldExpiry s
  | .fallTimerExpiry => Sys2Proof.Machine.execFallTimerExpiry s
  | .faultHoldExpiry => Sys2Proof.Machine.execFaultHoldExpiry s
  | .keyLineChange line high => Sys2Proof.Machine.execKeyLineChange line high s
  | .debounceExpiry line => Sys2Proof.Machine.execDebounceExpiry line s
  | .turnAppendRetry => Sys2Proof.Machine.execTurnAppendRetry s
  | .rampTick => Sys2Proof.Machine.execRampTick s
  | .periodBoundary => Sys2Proof.Machine.execPeriodBoundary s
  | .highPhaseEnd gen => Sys2Proof.Machine.execHighPhaseEnd gen s
  | .chunkFrame bytes => Sys2Proof.Machine.execChunkFrame bytes s
  | .lselInactive => Sys2Proof.Machine.execLselInactive s
  | .dispatchBegin => Sys2Proof.Machine.execDispatchBegin s
  | .stallTimerExpiry slot => Sys2Proof.Machine.execStallTimerExpiry slot s
  | .verifyPassBegin => Sys2Proof.Machine.execVerifyPassBegin s
  | .downloadsStopped => Sys2Proof.Machine.execDownloadsStopped s
  | .adcConversionEnd code => Sys2Proof.Machine.execAdcConversionEnd code s
  | .batteryTimerExpiry => Sys2Proof.Machine.execBatteryTimerExpiry s
  | .temperatureTimerExpiry => Sys2Proof.Machine.execTemperatureTimerExpiry s
  | .temperatureAgedOut => Sys2Proof.Machine.execTemperatureAgedOut s
  | .restImageAppendRetry => Sys2Proof.Machine.execRestImageAppendRetry s
  | .quiesceLimit => Sys2Proof.Machine.execQuiesceLimit s
  | .drainComplete => Sys2Proof.Machine.execDrainComplete s
  | .enterRest => Sys2Proof.Machine.execEnterRest s
  | .sleepAckAsserted => Sys2Proof.Machine.execSleepAckAsserted s
  | .sleepAckDeasserted => Sys2Proof.Machine.execSleepAckDeasserted s
  | .memoryTimerExpiry => Sys2Proof.Machine.execMemoryTimerExpiry s
  | .restTimerExpiry => Sys2Proof.Machine.execRestTimerExpiry s
  | .restTurnSleep => Sys2Proof.Machine.execRestTurnSleep s

end Sys2Proof.Machine
end

