-- ==== Sys2Proof/Safety.lean ====
section
/-! DEFINITION. What a safe state is, in the terms the statements use. -/

namespace Sys2Proof.Machine

/-- INT follows the counts and the mask (R14). -/
def State.intLaw (s : State) : Bool := s.sif.int == intOf s.sif.mask s.sif.posted s.sif.acked

/-- Main memory is in canonical form and INT follows the counts and the mask (R14). -/
def State.sound (s : State) : Bool := Memory.wf s.mem && s.intLaw

/-- BASE is 4096-byte aligned (R3). -/
def State.baseAligned (s : State) : Bool := s.sif.base.toNat % 4096 == 0

/-- No lane is DRIVING while the panel supply is in a state other than ON (R100). -/
def State.railLaw (s : State) : Bool := s.pss.rail == .on || s.upe.lanes.all fun l => l.state != .driving

/-- While the idle-hold timer runs in ON, every lane is FREE (R99). -/
def State.idleLaw (s : State) : Bool := s.pss.rail != .on || s.pss.idleTimer.isNone || allLanesFree s

/-- While the part is in REST, every lane is FREE and the panel supply is OFF (R190). -/
def State.restLaw (s : State) : Bool := s.rsc.part != .rest || (allLanesFree s && s.pss.rail == .off)

/-- The three laws of the panel together. -/
def State.panelLaw (s : State) : Bool := s.railLaw && s.idleLaw && s.restLaw

/-- The Turn Log holds at most 16 entries, and fewer while a turn is in progress (R125). -/
def State.logLaw (s : State) : Bool :=
  decide (s.ktu.log.length ≤ 16) && (s.ktu.turnRec.isNone || decide (s.ktu.log.length < 16))

/-- The page lists and the Key Queue keep within their capacities (R110, R115, R122). -/
def State.listLaw (s : State) : Bool :=
  decide (s.ktu.forward.length ≤ 8) && decide (s.ktu.backward.length ≤ 4) && decide (s.ktu.queue.length ≤ 4)

/-- The capacities of the Key and Turn Unit together. -/
def State.turnLaw (s : State) : Bool := s.logLaw && s.listLaw

/-! ### The File Table -/

/-- A slot that is not FREE holds a map that ascends within its length, with at most 16 extents, and a received count that is
the sum of its extents (R162). -/
def FileSlot.mapLaw (f : FileSlot) : Bool :=
  f.state == .free ||
    (extentsOk f.len f.extents && decide (f.extents.length ≤ 16) && f.received == extentSum f.extents)

/-- The file id a slot holds, in use or by a claim (R156). -/
def FileSlot.fileId (f : FileSlot) : Option Half :=
  match f.claim with
  | some c => some c.req.file
  | none => if f.state = .free then none else some f.file

/-- The File Table has four slots, each with its map in order, and only a FREE slot is claimed (R157, R162). -/
def State.slotLaw (s : State) : Bool :=
  s.dlc.slots.length == 4 && s.dlc.slots.all fun f => f.mapLaw && (f.claim.isNone || f.state == .free)

/-- No two slots hold one file id (R158). -/
def State.idLaw (s : State) : Bool :=
  (List.range 4).all fun i => (List.range 4).all fun j =>
    i == j || (s.slot i).fileId.isNone || (s.slot i).fileId != (s.slot j).fileId

/-- A dispatch that is writing is for an OPEN or STALLED slot whose map it will not bring over 16 extents, lies within the
slot's length, and counts the bytes that the map leaves uncovered (R160, R161, R162). -/
def State.dispatchLaw (s : State) : Bool :=
  match s.dlc.dispatch with
  | none => true
  | some d =>
    let f := s.slot d.slot
    let a := d.chunk.hdr.offset
    let b := a + d.chunk.hdr.len
    decide (d.slot < 4) && (f.state == .opened || f.state == .stalled) && decide (a < b ∧ b ≤ f.len) &&
      decide (f.extents.length + 1 ≤ (f.extents.filter (touches a b)).length + 16) &&
      d.fresh == extentSum (uncovered f.extents a b)

/-- The slots of the verify queue and of the verify pass are VERIFYING (R166, R167). -/
def State.verifyLaw (s : State) : Bool :=
  (s.dlc.verifyQueue.all fun i => (s.slot i).state == .verifying) &&
    match s.dlc.verify with
    | none => true
    | some v => (s.slot v.slot).state == .verifying

/-- The laws of the File Table together. -/
def State.fileLaw (s : State) : Bool := s.slotLaw && s.idLaw && s.dispatchLaw && s.verifyLaw

/-! ### What the statements compare -/

/-- The state apart from the status writers, the order of a wake's writes and the STATION queue. -/
def State.sansStatus (s : State) : State := { s with mpt.stationQueue := [], sif.writers := [], sif.wakeOrder := .none }

/-- The state apart from what a post also changes: the posted counts and INT. -/
def State.sansPosts (s : State) : State := { s.sansStatus with sif.posted := [], sif.int := false }

/-- The state apart from what the taking and finalization of a record also change: the chains and the finalizer. -/
def State.sansRequests (s : State) : State :=
  { s.sansPosts with sif.page := {}, sif.control := {}, sif.fetch := {}, sif.finals := [], sif.finalBusy := false }

/-- The state apart from what making the next burst of a unit changes: the waiting bursts and the units' lists of bursts. -/
def State.sansBursts (s : State) : State :=
  { s with
    mpt.scanWait := none, mpt.pixelWait := none, mpt.downWait := none, mpt.verifyWait := none
    fsc.slots := [], upe.pass := none, dlc.dispatch := none, dlc.verify := none }

/-- The writes of the finalizer that are not yet granted, in order: address and bytes (R10). -/
def State.finalWrites (s : State) : List (Nat × List Byte) :=
  ((s.mpt.stationQueue.filter fun b => b.user == .finalizer).map fun b => (b.addr, b.data)) ++
    s.sif.finals.flatMap fun f => f.writes ++ [f.status]

/-- The finalizations whose status write has not joined the STATION queue, in order: the chain, and whether count and post have
been made already (R10, R146). -/
def State.finalJobs (s : State) : List (Chain × Bool) := s.sif.finals.map fun f => (f.chain, f.counted)

/-- A write of an area has been asked for and is not yet granted (R22). -/
def State.asked (s : State) (a : Area) : Prop :=
  ((s.writer a.user).cur = some a ∧ (s.writer a.user).granted = false) ∨ a ∈ (s.writer a.user).queued

/-- What a waiting update asks for, with its number. -/
def Entry.request (e : Entry) : Nat × Origin × Rect × Nat × Nat × Mode × Policy × Option Word :=
  (e.id, e.origin, e.rect, e.source, e.stride, e.mode, e.policy, e.tag)

/-- `t` differs from `s` only as looking at the waiting updates may (R63, R65, R66, R67): they keep their numbers, their order and
what they ask for, and apart from their store states, keys, notes and marks only the sample demand, the note of a report made in a
lookup, the ADC with its two places, the store entries, the band history, bursts that join the waveform and STATION queues (there
those of status writers alone), posts of TEMPERATURE, INT and the status writers may differ. -/
def ScanOnly (s t : State) : Prop :=
  t.upe.list.map Entry.request = s.upe.list.map Entry.request ∧
  ∃ d r a tp bp en hi wq sq k i w, (∀ b ∈ sq, ∃ u, b.user = .status u) ∧ t = { s with
    upe.list := t.upe.list, upe.demand := d, upe.rescan := r, meu.adc := a, meu.tempPlace := tp, meu.batteryPlace := bp
    wfs.entries := en, wfs.history := hi, mpt.waveQueue := s.mpt.waveQueue ++ wq, mpt.stationQueue := s.mpt.stationQueue ++ sq
    sif.posted := s.sif.posted.modify Cause.temperature.num (· + k), sif.int := i, sif.writers := w }

/-- One more post of a cause (R13). -/
def State.postedOnce (s : State) (c : Cause) : List Half := s.sif.posted.modify c.num (· + 1)

/-- The write of TAKEN into the record at `r` of chain `c` joins the STATION queue, behind what waits there and before anything
else this event makes (R8 case 5). -/
def takenWrite (c : Chain) (r : Nat) (s t : State) : Prop :=
  ∃ l, t.mpt.stationQueue = s.mpt.stationQueue ++ stationBurst (.walk c) true (r + 5) 1 [1] :: l

/-- What a finalization by the code `code` adds to the finalizer's writes: results (offset in the record and bytes), stamp and
status, in this order (R10). -/
def finalBytes (r : Nat) (results : List (Nat × List Byte)) (code : Nat) (s : State) : List (Nat × List Byte) :=
  results.map (fun w => (r + w.1, w.2)) ++ [(r + 0xC, le32 s.partTime.toNat), (r + 5, le8 code)]

/-- The posted counts that `n` finalizations of chain `c` leave at once: the port being open, those there were (R10); the port
being closed, `n` posts more of the chain's DONE cause (R146). -/
def State.postedBy (s : State) (c : Chain) (n : Nat) : List Half :=
  if portOpen s = true then s.sif.posted else s.sif.posted.modify (doneCause c).num (· + BitVec.ofNat 16 n)

/-- `n` finalizations of chain `c` made from `s` to `t`: with the port open their count waits for their writes to join (R10);
with it closed it has been made at once (R146). -/
def finalsBy (c : Chain) (n : Nat) (s t : State) : Prop :=
  t.finalJobs = s.finalJobs ++ List.replicate n (c, !portOpen s) ∧
  (t.chain c).retired = if portOpen s = true then (s.chain c).retired else (s.chain c).retired + BitVec.ofNat 32 n

/-- `n` finalizations of chain `c` made from `s` to `t`, and nothing else posted (R10, R146). -/
def countedBy (c : Chain) (n : Nat) (s t : State) : Prop := finalsBy c n s t ∧ t.sif.posted = s.postedBy c n

/-- From `s` to `t` the record at `r` of chain `c` has been taken and is with its owner: the cursor is on it and TAKEN is being
written (R8 case 5). -/
def takenAt (c : Chain) (r : Nat) (s t : State) : Prop :=
  t.chain c = { s.chain c with cursor := r, walk := .taking } ∧ (∀ d, d ≠ c → t.chain d = s.chain d) ∧
  takenWrite c r s t ∧ t.finalWrites = s.finalWrites ∧ t.finalJobs = s.finalJobs ∧ t.sif.posted = s.sif.posted

/-- From `s` to `t` the record at `r` of chain `c` has been taken and finalized with results (offset in the record and bytes)
and a status code: TAKEN is written, results, stamp and status join the finalizer's writes, and the finalization is counted
and posted when they have joined, or at once while the port is closed (R8, R10, R146). -/
def finalizedAt (c : Chain) (r : Nat) (results : List (Nat × List Byte)) (code : Nat) (s t : State) : Prop :=
  t.chain c = { s.chain c with cursor := r, walk := .taking, retired := (t.chain c).retired } ∧
  (∀ d, d ≠ c → t.chain d = s.chain d) ∧
  takenWrite c r s t ∧ t.finalWrites = s.finalWrites ++ finalBytes r results code s ∧ countedBy c 1 s t

/-- The records of chain `c` finalized from `s` to `t`, in order, each with its results and its status code: their writes follow
those of the finalizer that waited, and they are counted as `finalsBy` says (R10, R146). -/
def endsBy (c : Chain) (ends : List (Nat × List (Nat × List Byte) × Nat)) (s t : State) : Prop :=
  t.finalWrites = s.finalWrites ++ ends.flatMap (fun e => finalBytes e.1 e.2.1 e.2.2 s) ∧ finalsBy c ends.length s t

/-- From `s` to `t` the record at `r` of chain `c` has been taken, `ends` have been finalized, and nothing else was posted. -/
def takenEnding (c : Chain) (r : Nat) (ends : List (Nat × List (Nat × List Byte) × Nat)) (s t : State) : Prop :=
  t.chain c = { s.chain c with cursor := r, walk := .taking, retired := (t.chain c).retired } ∧
  (∀ d, d ≠ c → t.chain d = s.chain d) ∧
  takenWrite c r s t ∧ endsBy c ends s t ∧ t.sif.posted = s.postedBy c ends.length

/-- The end of the LIGHT in progress, if there is one: level set, warmth set, applied level and ceiling as they stand (section
7.2). -/
def lightEnds (code : Nat) (s : State) : List (Nat × List (Nat × List Byte) × Nat) :=
  match s.ltu.light with
  | none => []
  | some a => [(a, [(0x18, le16 s.ltu.lr ++ le16 s.ltu.mr ++ le16 s.ltu.level ++ le16 s.ltu.ceiling)], code)]

/-- The ends by a code of waiting updates from records, in order, with the results of an update without a lane (R59, R200). -/
def waitingEnds (code : Nat) (l : List Entry) : List (Nat × List (Nat × List Byte) × Nat) :=
  l.filterMap fun e => match e.origin with
    | .record a => some (a, [(0x21, le8 e.mode.num ++ [0xFF, 0xFF]), (0x28, [0, 0, 0, 0, 0, 0, 0, 0])], code)
    | .turn | .rest => none

/-- The steps of a fade of `d` ms (R134). -/
def fadeSteps (d : Nat) : Nat := max 1 ((d + 7) / 8)

/-! ### Presses -/

/-- The number of the role that line `i` is set to (section 6.1). -/
def State.roleOf (s : State) (i : Nat) : Nat := (s.cfg.keys.getD i {}).role

/-- At the expiry of its debounce timer line `i` confirms a press, and no press waits before it (R108, R111). -/
def State.confirms (s : State) (i : Nat) : Prop :=
  (s.line i).timer ≠ none ∧ (s.line i).state = .bouncing ∧
  keyActive (s.cfg.keys.getD i {}).polarity (s.line i).level = true ∧ s.ktu.queue = []

/-- The state with the press of line `i` confirmed and counted under its role, and taken from the Key Queue (R108, R110,
R111). -/
def State.confirmed (s : State) (i : Nat) : State :=
  { s with
    ktu.lines := s.ktu.lines.set i ⟨(s.line i).level, .pressed, none⟩
    ktu.counts := s.ktu.counts.modify (s.roleOf i - 1) (· + 1) }

/-- The state with a press of this moment reported under a role: the key report's last press and reported count (R113). -/
def State.reports (s : State) (r : Role) : State :=
  { s with ktu.lastRole := r, ktu.lastStamp := s.partTime, ktu.reported := s.ktu.reported + 1 }

/-- The staged pages of a direction, nearest first (section 6.3). -/
def State.staged (s : State) (d : Dir) : List Page :=
  match d with
  | .forward => s.ktu.forward
  | .back => s.ktu.backward

/-- The role of a direction's key. -/
def Dir.role : Dir → Role
  | .forward => .forward
  | .back => .back

/-! ### The light and the wake -/

/-- The Light Unit after a rest fade of `d` ms: rest-dark set, no LIGHT in progress, the fade's ramp towards 0 (R144). -/
def Ltu.faded (l : Ltu) (d : Nat) : Ltu :=
  { l with
    restDark := true, light := none, detached := if l.light = none then l.detached else false
    ramp := some ⟨l.level, l.warmth, 0, l.mr, fadeSteps d, 0, .restFade⟩ }

/-- The Light Unit after a restore with a fade of `d` ms: rest-dark clear and, unless key-off is set, the restore's ramp, to which
no LIGHT is attached (R145; whether its end finalizes one is entry 41). -/
def Ltu.restored (l : Ltu) (d : Nat) : Ltu :=
  if l.keyOff = true then { l with restDark := false }
  else { l with
    restDark := false, detached := l.light.isSome
    ramp := some ⟨l.level, l.warmth, min l.lr l.ceiling, l.mr, fadeSteps d, 0, .restore⟩ }

/-- The Rest Controller in WAKING with a cause, waiting in LEAVING for a memory that slept (R193, R197); the wake's time, supply
and battery are those of this moment (entry 22), and the memory timer runs for the memory-timeout of this rest (entry 42). -/
def Rsc.woken (r : Rsc) (cause : WakeCause) (s : State) : Rsc :=
  { r with
    part := .waking, wake := cause, pendingWake := none, restTimer := none, turnOver := false, wakeTime := s.partTime
    wakeSupply := s.meu.supply
    wakeBattery := (match s.meu.battery with
      | some b => b.mv
      | none => 0)
    handshake := .leaving, memTimer := some ⟨s.partTime, r.timeout⟩ }

/-- The Measurement Unit at the part's leaving of REST: the battery timer starts again with battery-interval, if its requester
works, and no periodic temperature timer runs (R176, R177). -/
def Meu.woken (m : Meu) (s : State) : Meu :=
  { m with
    tempTimer := none
    batteryTimer := if m.requester = true then some ⟨s.partTime, s.cfg.batteryInterval⟩ else m.batteryTimer }

/-- The Key and Turn Unit after the turn `r` has ended with a code at a time: IDLE, with one more Turn Log entry, not yet written
(R123, R125, R126). -/
def Ktu.ended (k : Ktu) (r : TurnRec) (c : Code) (time : Word) : Ktu :=
  { k with
    turn := .idle, turnRec := none, logDirty := true
    log := k.log ++ [⟨r.dir, r.page.tag, time, c, r.dropped, r.ofRest⟩] }

/-- A wake would run on into RUN in the same event: memory is AWAKE, no press waits, and no forced rest would follow (R186,
R193, R197). -/
def State.wakesAtOnce (s : State) : Prop := s.rsc.handshake = .awake ∧ s.ktu.queue = [] ∧ s.meu.supply ≠ .critical

/-- `u` agrees with `s` in all that a wake goes by, the Key and Turn Unit and the posted counts apart. -/
def WakesAlike (s u : State) : Prop :=
  u.rsc = s.rsc ∧ u.meu = s.meu ∧ u.ltu = s.ltu ∧ u.dlc = s.dlc ∧ u.settings = s.settings ∧ u.partTime = s.partTime ∧
  u.fresh = s.fresh ∧ u.sif.writers.length = s.sif.writers.length ∧ u.finalWrites = s.finalWrites ∧ u.finalJobs = s.finalJobs

/-- From `s` to `t` the part has woken with a cause and gone on into RUN in one event, memory being AWAKE (R197): Turn Log, mirror
and context WOKEN are asked for, the REST record is finalized DONE with the cause and the turn count, WAKE is posted, the light is
restored, chains walk and downloads run. The wake's time, supply and battery are those of this moment (entry 22), and the
restore's fade is the rest-fade of this rest (entry 42). -/
def wokenAtOnce (cause : WakeCause) (s t : State) : Prop :=
  let ends := match s.rsc.record with
    | none => []
    | some r => [(r, [(0x1C, le8 cause.num ++ [s.rsc.turns])], 16)]
  let woken := s.rsc.woken cause s
  endsBy .control ends s t ∧ t.sif.posted = s.postedOnce .wake ∧ (∀ c, (t.chain c).walk ≠ .idle) ∧
  (s.sif.writers.length = 8 → t.asked .turnLog ∧ t.asked .mirror ∧
    t.asked (.context .woken (contextBytes .woken { s with rsc := woken }))) ∧
  t.sansRequests = ({ s with
    rsc := { woken with
      part := .run, handshake := s.rsc.handshake, memTimer := s.rsc.memTimer, record := none, fadePending := false
      quiesceTimer := none }
    meu := { s.meu.woken s with tempTimer := some ⟨s.partTime, s.cfg.tempMaxAge * 1000⟩ }
    dlc := { s.dlc with stop := .none, recv := .hunt 0, markers := (s.cfg.marker0, s.cfg.marker1) }
    ktu.logDirty := false, ltu := s.ltu.restored s.rsc.fade, fresh := s.fresh + 15 } : State).sansRequests

end Sys2Proof.Machine
end

