-- ==== Sys2Proof/Certificates/Slice0/Obligations.lean ====
section
/-! DEFINITION. The statements about the model, for the provers. Where a statement names a next state it is `portGrants t`: `t` is the state the command's own effect leaves, and the port's grants follow in the same event (R23); `ArbiterPicksInOrder`, `GrantedBurstPassed` and the whole-machine statements say what those grants do. -/

open Sys2Proof Sys2Proof.Machine

/-! ### The step, the queue and the registers -/

/-- A step with a command at the front of the queue runs it on the state with the queue's rest. On an empty queue a step is one
millisecond of part time, wrapping at 2^32 (R173); that the millisecond is taken there is the model's choice (entry 3). -/
def Obligations.StepRunsFrontCommand : Prop :=
  (∀ (c : Instr) (l : List Instr) (s : State), s.pending = c :: l → step s = exec c { s with pending := l }) ∧
  (∀ s : State, s.pending = [] →
    ∃ t, step s = .next t ∧ t.partTime.toNat = (s.partTime.toNat + 1) % 4294967296 ∧ { t with partTime := s.partTime } = s)

/-- Every command, in every state and with every operand, ends in a next state, with the queue as it was. The commands named here,
whose condition does not hold (no burst in flight, no such record read, a timer that is stopped, a list or queue that is empty, a
state in which the event does not arise), change nothing (the model's choice, entry 5); the grants follow as always. A record that
is taken in RUN alone, and an UPDATE or OPEN at rest, waits (entry 7). -/
def Obligations.EveryCommandCompletes : Prop :=
  (∀ (c : Instr) (s : State), ∃ t, exec c s = .next t ∧ t.pending = s.pending) ∧
  (∀ s : State,
    let still := fun (c : Instr) => exec c s = .next (portGrants s)
    (s.rsc.part ≠ .stopped → still .start) ∧
    (s.mpt.inflight = none → ∀ l, still (.burstOkay l) ∧ still (.burstRetry l) ∧ still (.burstError l)) ∧
    (∀ c, s.rsc.part ≠ .run ∨ (s.chain c).remembered = false ∧ (s.chain c).declined = none → still (.chainWalkBegin c)) ∧
    (∀ c k, (c, k) ∈ [(Instr.update, Kind.update), (.stage, .stage), (.unstage, .unstage), (.waveform, .waveform), (.light, .light),
        (.rest, .rest), (.settings, .settings), (.turnsSeen, .turnsSeen), (.openFile, .openFile), (.closeFile, .closeFile)] →
      readyRecord k s = none → still c) ∧
    (s.rsc.part ≠ .run → still .light ∧ still .rest ∧ still .settings ∧ still .turnsSeen ∧ still .waveform) ∧
    (s.rsc.part = .rest ∨ s.rsc.part = .restTurn ∨ s.rsc.part = .waking → still .openFile ∧ still .update) ∧
    (s.upe.list = [] → still .admission ∧ (s.upe.rescan = false → still .storeLookupRetry)) ∧
    (s.upe.pass ≠ none ∨ s.upe.retireQueue = [] → still .retirePassBegin) ∧
    (frameReady s = false → still .frameStart) ∧
    (s.fsc.inLine = false → still .lineTimeEnd) ∧
    (s.fsc.held = none → still .stretchLimitExpiry) ∧
    (s.pss.riseTimer = none → still .riseTimeout) ∧ (s.pss.idleTimer = none → still .idleHoldExpiry) ∧
    (s.pss.fallTimer = none → still .fallTimerExpiry) ∧ (s.pss.holdTimer = none → still .faultHoldExpiry) ∧
    (∀ i : Fin 4, (s.line i).timer = none → still (.debounceExpiry i)) ∧
    (s.ktu.turn ≠ .waitPlace → still .turnAppendRetry) ∧
    (s.dlc.dispatch ≠ none ∨ s.dlc.fifo = [] → still .dispatchBegin) ∧
    (∀ i : Fin 4, (s.slot i).timer = none → still (.stallTimerExpiry i)) ∧
    (s.dlc.verify ≠ none ∨ s.dlc.verifyQueue = [] → still .verifyPassBegin) ∧
    (s.dlc.stop ≠ .stopping → still .downloadsStopped) ∧
    (s.meu.adc = none → ∀ n, still (.adcConversionEnd n)) ∧
    (s.meu.batteryTimer = none → still .batteryTimerExpiry) ∧ (s.meu.tempTimer = none → still .temperatureTimerExpiry) ∧
    (s.meu.temperature = none → still .temperatureAgedOut) ∧
    (s.rsc.part ≠ .quiesce →
      still .restImageAppendRetry ∧ still .quiesceLimit ∧ still .drainComplete ∧ still .enterRest) ∧
    (s.rsc.quiesceTimer = none → still .quiesceLimit) ∧ (s.rsc.restTimer = none → still .restTimerExpiry) ∧
    (s.rsc.memTimer = none → still .memoryTimerExpiry) ∧
    (s.rsc.part ≠ .restTurn → still .restTurnSleep))

/-- A read of CTRL gives the identity, revision 1, the settings-error offset and flag and the part state; BASE reads as its
value; WALK and ACK read as 0 (R2 to R5, section 11.2). A write of the register window is START, SOFT RESET, BASE, WALK or
ACK; any other CTRL value is no command (R1, section 11.2). A write of BASE is taken in STOPPED, with its low twelve bits
discarded, and ignored in every other part state; nothing else changes (R3). -/
def Obligations.RegisterWindowReadsAndWrites : Prop :=
  (∀ s : State,
    (readCtrl s).toNat = 0x0640 * 65536 + 1 * 16384 + s.sif.errOffset.toNat * 16 + bit s.sif.err * 8 + s.rsc.part.num ∧
    readBase s = s.sif.base ∧ readWalk s = 0 ∧ readAck s = 0) ∧
  (∀ v : Word,
    (busWrite 0x4 v = some (.baseWrite v) ∧ busWrite 0x8 v = some (.walk v) ∧ busWrite 0xC v = some (.ack v)) ∧
    (busWrite 0x0 v = some .start ↔ v = 1) ∧ (busWrite 0x0 v = some .softReset ↔ v = 0xA5) ∧
    (v ≠ 1 → v ≠ 0xA5 → busWrite 0x0 v = none)) ∧
  (∀ (v : Word) (s : State), ∃ t, exec (.baseWrite v) s = .next t ∧
    t.sif.base.toNat = (if s.rsc.part = .stopped then v.toNat / 4096 * 4096 else s.sif.base.toNat) ∧
    { t with sif.base := s.sif.base } = s)

/-! ### Invariants and whole-machine rules -/

/-- The reset state meets the invariants. -/
def Obligations.ResetMeetsInvariants : Prop :=
  State.reset.sound = true ∧ State.reset.baseAligned = true ∧ State.reset.panelLaw = true ∧ State.reset.turnLaw = true ∧
  State.reset.fileLaw = true

/-- Every step keeps main memory in canonical form and INT following the counts and the mask (R14). Every step keeps BASE
4096-byte aligned (R3). -/
def Obligations.StepKeepsSoundAndAligned : Prop :=
  (∀ s t : State, s.sound = true → step s = .next t → t.sound = true) ∧
  (∀ s t : State, s.baseAligned = true → step s = .next t → t.baseAligned = true)

/-- Every step keeps the laws of the panel: no lane is DRIVING outside ON (R100), every lane is FREE while the idle-hold timer
runs in ON (R99), and in REST every lane is FREE and the panel supply OFF (R190). -/
def Obligations.StepKeepsPanelLaw : Prop :=
  ∀ s t : State, s.panelLaw = true → step s = .next t → t.panelLaw = true

/-- Every step keeps the capacities of the Key and Turn Unit: the Turn Log within 16 entries, and below 16 while a turn is in
progress; the page lists within 8 and 4; the Key Queue within 4 presses (R110, R115, R122, R125). -/
def Obligations.StepKeepsTurnLaw : Prop :=
  ∀ s t : State, s.turnLaw = true → step s = .next t → t.turnLaw = true

/-- Main memory changes only under an answer to the burst in flight, and then only at that burst's bytes (R21). That bytes others
have written come with an OKAY alone, as its operand, is the model's choice (entry 1), and so is that a RETRY or ERROR of a write
leaves its operand's bytes there (R31, R32, entry 2). -/
def Obligations.MemoryChangesOnlyUnderBurst : Prop :=
  ∀ (c : Instr) (s t : State), exec c s = .next t →
    t.mem = s.mem ∨
    ∃ b, s.mpt.inflight = some b ∧ ((∃ l, c = .burstOkay l) ∨ (∃ l, c = .burstRetry l) ∨ ∃ l, c = .burstError l) ∧
      ∀ a, a < b.addr ∨ b.addr + max b.len b.data.length ≤ a → memRead t.mem a = memRead s.mem a

/-- A full capture keeps address, length, client, direction and stamp, and stays full, under every command but an ACK and the
resets (R28, R30). BASE changes only under its write and power-on reset, the acknowledged counts only under ACK and the
resets, and the held settings only under power-on reset and the OKAY of a live settings burst (R3, R5, R15, R16). Part time
stands under every command but power-on reset: that it passes in the idle step alone is the model's choice (entry 3). -/
def Obligations.OnlyTheirCommandsChangeThem : Prop :=
  (∀ (c : Instr) (s t : State), s.mpt.capture.full = true → (∀ v, c ≠ .ack v) → c ≠ .softReset → c ≠ .powerOnReset →
    exec c s = .next t → { t.mpt.capture with further := s.mpt.capture.further } = s.mpt.capture) ∧
  (∀ (c : Instr) (s t : State), exec c s = .next t → c ≠ .powerOnReset →
    ((∀ v, c ≠ .baseWrite v) → t.sif.base = s.sif.base) ∧
    ((∀ v, c ≠ .ack v) → c ≠ .softReset → t.sif.acked = s.sif.acked) ∧
    t.partTime = s.partTime ∧
    ((∀ l, c = .burstOkay l → ∀ b, s.mpt.inflight = some b → b.user = .settings → b.fate ≠ .live) → t.settings = s.settings))

/-- A burst that a command leaves newly in flight was granted with the port open, after a START load had succeeded or as a burst
of the START load, and passed the window check or is of the START load (R24, R25, R26). With a burst in flight, or the port
closed, nothing is granted: what follows a command changes only the waiting bursts and the lists of bursts the units have
still to make (R21, R23, R24). -/
def Obligations.GrantedBurstPassed : Prop :=
  (∀ (c : Instr) (s t : State) (b : Burst), exec c s = .next t → t.mpt.inflight = some b →
    s.mpt.inflight = none ∨ (∃ l, c = .burstOkay l) ∨ (∃ l, c = .burstRetry l) ∨ (∃ l, c = .burstError l) →
    portOpen t = true ∧ (t.sif.live = true ∨ startLoadBurst b t = true) ∧ windowPasses b t = true) ∧
  (∀ s : State, s.mpt.inflight.isSome = true ∨ portOpen s = false →
    (portGrants s).sansBursts = s.sansBursts ∧ (portGrants s).mpt.inflight = s.mpt.inflight)

/-- The arbiter's order (R23): a waiting SCAN burst is picked first, then PIXEL, then the first rotating client after the
last-served one, in the order WAVEFORM, STATION, DOWNLOAD, VERIFY, that has a burst waiting. A picked burst that passes the window
check goes in flight as it waits, and a rotating client becomes the last-served. One that fails the check is reported to the
capture and then completes at once to its user as WINDOW (the order of the two is entry 66), main memory standing and nothing in
flight, and the port grants again (R26). With a Rest Controller that waits for a moment without a burst in flight, the port
reports that moment to it before it grants, so that the part can enter REST with bursts waiting (R24, R35, R43, R190, R196; that
nothing waiting leaves the moment to ENTER_REST and REST_TURN_SLEEP is entry 46, and that the moment waits for progress records,
mirror and Turn Log and for a reservation is entry 60). Bursts that the units make in the same event are among those considered
(entry 52). What a unit makes while its client has no burst waiting or in flight: the Frame Scanner the next read of the slot that
is FETCHING (R93; that a fourth slot goes on is entry 45), the pass its next read or else its next write (R74), the dispatcher the
next write of its chunk (R162), the verify pass the read of what is left of the file up to the end of a 64-byte block (R166);
nothing else changes. Accesses are cut at the 64-byte blocks (section 2.1). -/
def Obligations.ArbiterPicksInOrder : Prop :=
  (∀ s : State,
    (s.mpt.scanWait ≠ none → pick s = some .scan) ∧
    (s.mpt.scanWait = none → s.mpt.pixelWait ≠ none → pick s = some .pixel) ∧
    (s.mpt.scanWait = none → s.mpt.pixelWait = none → 2 ≤ s.mpt.last.num →
      ∀ c, pick s = some c ↔ 2 ≤ c.num ∧ waiting c s ≠ none ∧
        ∀ d : Client, 2 ≤ d.num → (d.num + 7 - s.mpt.last.num) % 4 < (c.num + 7 - s.mpt.last.num) % 4 → waiting d s = none)) ∧
  (∀ (s : State) (c : Client) (b : Burst), portOpen s = true → s.mpt.inflight = none → s.sif.live = true → awaitsIdle s = false →
    pick (pump s) = some c → waiting c (pump s) = some b → (∀ u, b.user ≠ .status u) →
    (windowPasses b s = true →
      (portGrants s).mpt.inflight = some b ∧ (portGrants s).sif = s.sif ∧
      (portGrants s).mpt.last = (if c = .scan ∨ c = .pixel then s.mpt.last else c) ∧
      ((portGrants s).mem = s.mem ∧ (portGrants s).mpt.capture = s.mpt.capture)) ∧
    (windowPasses b s = false →
      ∃ v, portGrants s = grants 65535 (complete b .window [] (reportWindow b.client b.write b.addr b.len v)) ∧
        v.sansBursts = ({ s with mpt := v.mpt } : State).sansBursts ∧ v.mpt.inflight = none ∧ v.mpt.capture = s.mpt.capture ∧
        v.mpt.last = (if c = .scan ∨ c = .pixel then s.mpt.last else c) ∧
        (c = .station → s.mpt.stationQueue = b :: v.mpt.stationQueue ∧ v.mpt.waveQueue = s.mpt.waveQueue) ∧
        (c = .waveform → s.mpt.waveQueue = b :: v.mpt.waveQueue ∧ v.mpt.stationQueue = s.mpt.stationQueue) ∧
        (c ≠ .station → c ≠ .waveform → waiting c v = none))) ∧
  (∀ s : State, portOpen s = true → s.mpt.inflight = none → pick (pump s) ≠ none →
    (mayRest s = true → portGrants s = grants 65535 (enterRest (pump s))) ∧
    (s.rsc.part = .restTurn → s.rsc.turnOver = true → panelQuiet s = true →
      portGrants s = grants 65535 (restTurnSleep (pump s)))) ∧
  (∀ s : State,
    let t := pump s
    let free := fun (c : Client) => waiting c s = none ∧ ∀ b, s.mpt.inflight = some b → b.client ≠ c
    let slot := s.fsc.slots.find? fun q => !q.filled && !q.givenUp
    (∀ l a n q, free .scan → slot = some l → l.left = (a, n) :: q →
      t.mpt.scanWait = some { client := .scan, user := .scan, write := false, addr := a, len := n, data := [] } ∧
      t.fsc.slots = s.fsc.slots.map fun x => if x.row = l.row then { x with left := q } else x) ∧
    (¬free .scan ∨ (∀ l, slot = some l → l.left = []) → t.mpt.scanWait = s.mpt.scanWait ∧ t.fsc.slots = s.fsc.slots) ∧
    (∀ p a n q, free .pixel → s.upe.pass = some p → p.left = (a, n) :: q →
      t.mpt.pixelWait = some { client := .pixel, user := .pixel, write := false, addr := a, len := n, data := [] } ∧
      t.upe.pass = some { p with left := q }) ∧
    (∀ p a d q, free .pixel → s.upe.pass = some p → p.left = [] → p.out = (a, d) :: q →
      t.mpt.pixelWait = some { client := .pixel, user := .pixel, write := true, addr := a, len := d.length, data := d } ∧
      t.upe.pass = some { p with out := q }) ∧
    (¬free .pixel ∨ (∀ p, s.upe.pass = some p → p.left = [] ∧ p.out = []) →
      t.mpt.pixelWait = s.mpt.pixelWait ∧ t.upe.pass = s.upe.pass) ∧
    (∀ d a y q, free .download → s.dlc.dispatch = some d → d.out = (a, y) :: q →
      t.mpt.downWait = some { client := .download, user := .download, write := true, addr := a, len := y.length, data := y } ∧
      t.dlc.dispatch = some { d with out := q }) ∧
    (¬free .download ∨ (∀ d, s.dlc.dispatch = some d → d.out = []) →
      t.mpt.downWait = s.mpt.downWait ∧ t.dlc.dispatch = s.dlc.dispatch) ∧
    (∀ v, free .verify → s.dlc.verify = some v → v.pos < (s.slot v.slot).len →
      let a := (s.slot v.slot).dest + v.pos
      let n := min (64 - a % 64) ((s.slot v.slot).len - v.pos)
      t.mpt.verifyWait = some { client := .verify, user := .verify, write := false, addr := a, len := n, data := [] } ∧
      t.dlc.verify = some { v with pos := v.pos + n }) ∧
    (¬free .verify ∨ (∀ v, s.dlc.verify = some v → (s.slot v.slot).len ≤ v.pos) →
      t.mpt.verifyWait = s.mpt.verifyWait ∧ t.dlc.verify = s.dlc.verify) ∧
    t.sansBursts = s.sansBursts) ∧
  (∀ (a n : Nat) (bytes : List Byte),
    let m := min (64 - a % 64) n
    blocks a n = (if n = 0 then [] else (a, m) :: blocks (a + m) (n - m)) ∧
    writeBlocks a bytes = (blocks a bytes.length).map fun p => (p.1, (bytes.drop (p.1 - a)).take p.2))

/-! ### Registers and resets -/

/-- START in STOPPED clears the settings error, makes the part STARTING and begins the settings load with its first burst; in
any other state it is ignored (R1, R16, R18). -/
def Obligations.StartBeginsTheLoad : Prop :=
  ∀ s : State,
    (s.rsc.part = .stopped → ∃ t left, exec .start s = .next (portGrants t) ∧
      t.rsc.part = .starting ∧ t.sif.err = false ∧ t.sif.errOffset = 0 ∧
      t.sif.load = some ⟨.start, left, []⟩ ∧ (s.baseAddr, min (64 - s.baseAddr % 64) 512) :: left = blocks s.baseAddr 512 ∧
      t.mpt.stationQueue = s.mpt.stationQueue ++
        [stationBurst .settings false s.baseAddr (min (64 - s.baseAddr % 64) 512) []] ∧
      { t with
        rsc.part := s.rsc.part, meu.tempTimer := s.meu.tempTimer, meu.batteryTimer := s.meu.batteryTimer
        mpt.stationQueue := s.mpt.stationQueue
        sif.err := s.sif.err, sif.errOffset := s.sif.errOffset, sif.load := s.sif.load } = s) ∧
    (s.rsc.part ≠ .stopped → exec .start s = .next (portGrants s))

/-- A soft reset stops the part and clears every block, field by field as written out here; main memory, part time, BASE, the held
settings, the generation, the clear-cadence counter, the last sweep's geometry, the samples, the change stamp and the levels of
the pins (entry 16) stand, a burst in flight is dropped with its retry count at 0, panel-image-uncertain is set when a lane was
not FREE, and nothing is granted (R15, R19, R33, R52, R81, R86, R105, R109, R128, R183, R184). That the asking time of the
measurement area stands, the values of fields no rule names, and that no panel status is written, are the model's choice (entries
43, 15 and 56). Power-on reset leaves every field at its reset value, but for the world: main memory, the commands waiting and the
levels of the input pins (R3, R15, R51, R105, R128, R173, R184; entry 16). The counter of free values is the model's own and
stands. -/
def Obligations.ResetsLeave : Prop :=
  (∀ s : State, ∃ t, exec .softReset s = .next t ∧
    (t.mem = s.mem ∧ t.partTime = s.partTime ∧ t.settings = s.settings ∧ t.pending = s.pending ∧ t.fresh = s.fresh) ∧
    t.rsc =
      { part := .stopped, handshake := .awake, sleepAck := s.rsc.sleepAck, forced := false, forcedStart := false, limit := false
        keepLight := false, turnsEnabled := false, image := none, wakeAfter := 0, record := none, imageState := .none
        imageId := none, quiesceTimer := none, restTimer := none, memTimer := none, pendingWake := none, wake := .none
        turns := 0, sleepFailures := 0, leaveRetries := 0, fadePending := false, fade := 0, timeout := 0, drain := .waiting
        turnOver := false, entryTime := 0, wakeTime := 0, entrySupply := .normal, wakeSupply := .normal, entryBattery := 0
        wakeBattery := 0 } ∧
    t.sif =
      { base := s.sif.base, live := false, err := false, errOffset := 0, page := ⟨0, .idle, false, none, 0⟩
        control := ⟨0, .idle, false, none, 0⟩, fetch := ⟨0, .idle, false, none, 0⟩, posted := List.replicate 12 0
        acked := List.replicate 12 0, mask := 0, int := false, load := none, loadQueue := [], finals := [], finalBusy := false
        writers := List.replicate 8 ⟨none, false, [], []⟩, wakeOrder := .none } ∧
    t.mpt =
      { inflight := s.mpt.inflight.map fun b => { b with fate := .dropped, retries := 0 }, scanWait := none, pixelWait := none
        downWait := none, verifyWait := none, waveQueue := [], stationQueue := [], last := .verify
        capture := ⟨false, 0, 0, .scan, false, 0, 0⟩ } ∧
    t.meu =
      { battery := s.meu.battery, temperature := s.meu.temperature, supplyStamp := s.meu.supplyStamp, askTime := s.meu.askTime
        adc := none, batteryPlace := false, tempPlace := false, requester := false, batteryTimer := none, tempTimer := none
        supply := .normal, down := 0, deep := false, up := 0, high := false } ∧
    (t.wfs.generation = s.wfs.generation ∧ t.wfs.active = none ∧ t.wfs.history = none ∧ t.wfs.check = none ∧
      t.wfs.entries = List.replicate 4 ⟨.empty, none, false, 0, 0, none, 0, [], 0, 0⟩) ∧
    t.upe =
      { list := [], nextId := s.upe.nextId, reservations := 0, lanes := List.replicate 32 { state := .free }, pass := none
        retireQueue := [], sweepWaiting := false, cadence := s.upe.cadence
        uncertain := s.upe.uncertain || s.upe.lanes.any fun l => l.state != .free
        current := none, lastSweep := s.upe.lastSweep, demand := false, rescan := false } ∧
    t.fsc =
      { frame := .still, line := 0, inLine := false, held := none, laneSet := [], blank := 0, period := 0, width := 0, height := 0
        fetchRow := 0, slots := [], stretched := 0, scanErrors := 0, drive := none } ∧
    t.pss = ⟨.off, none, none, none, none, [], s.pss.railGood⟩ ∧
    t.ltu =
      { lr := 0, mr := 0, level := 0, warmth := 0, ceiling := 1000, keyOff := false, remembered := 0, restDark := false
        ramp := none, light := none, detached := false, pair := none, warm := ⟨0, false, 4095⟩, cool := ⟨0, false, 4095⟩
        gammaDirty := false } ∧
    t.dlc =
      { recv := .hunt 0, markers := (0, 0), fifo := [], counters := List.replicate 7 0
        slots := List.replicate 4 { state := .free }, resumes := [], dispatch := none, verifyQueue := [], verify := none
        stop := .none } ∧
    t.ktu =
      { lines := s.ktu.lines.map fun k => ⟨k.level, .idle, none⟩, queue := [], counts := List.replicate 4 0, dropped := 0
        reported := 0, lastRole := .none, lastStamp := 0, forward := [], backward := [], turn := .idle, turnRec := none
        log := [], logDirty := false }) ∧
  (∀ s : State, ∃ t, exec .powerOnReset s = .next t ∧
    t.mem = s.mem ∧ t.pending = s.pending ∧ t.ktu.lines = s.ktu.lines.map (fun k => ⟨k.level, .idle, none⟩) ∧
    { t with
      pending := [], mem := [], fresh := 0, ktu.lines := List.replicate 4 {}
      pss.railGood := false, rsc.sleepAck := false } = State.reset ∧
    t.pss.railGood = s.pss.railGood ∧ t.rsc.sleepAck = s.rsc.sleepAck ∧ t.fresh = s.fresh ∧
    (t.partTime = 0 ∧ t.settings = none ∧ t.sif.base = 0 ∧ t.sif.live = false ∧ t.sif.posted = List.replicate 12 0 ∧
      t.sif.acked = List.replicate 12 0 ∧ t.sif.int = false ∧ t.rsc.part = .stopped ∧ t.rsc.handshake = .awake ∧
      t.wfs.generation = 0 ∧ t.wfs.active = none ∧ t.upe.cadence = 0 ∧ t.upe.uncertain = true ∧ t.upe.lastSweep = none ∧
      t.meu.battery = none ∧ t.meu.temperature = none ∧ t.meu.supply = .normal ∧ t.pss.rail = .off))

/-- A write of WALK, chain by chain: an unnamed chain stands; a named one is left in STOPPED and STARTING, begins a walk in RUN
when IDLE, and has a walk remembered otherwise. Each walk begun puts its link read in the STATION queue, those of several chains
in the order PAGE, CONTROL, FETCH (the model's choice, entry 19); nothing else changes (R4, R7). The chains a WALK mask names: bit
0 PAGE, bit 1 CONTROL, bit 2 FETCH (R4). -/
def Obligations.WalkNamesChains : Prop :=
  (∀ (v : Word) (s : State), ∃ t, exec (.walk v) s = .next (portGrants t) ∧
    (∀ c : Chain, t.chain c =
      if c ∉ maskChains v ∨ s.rsc.part = .stopped ∨ s.rsc.part = .starting then s.chain c
      else if s.rsc.part = .run ∧ chainState s c = .idle then
        { s.chain c with walk := .link, remembered := false, declined := none }
      else { s.chain c with remembered := true }) ∧
    t.mpt.stationQueue = s.mpt.stationQueue ++
      ((maskChains v).filter fun c => decide (s.rsc.part = .run ∧ chainState s c = .idle)).map
        (fun c => stationBurst (.walk c) false (s.chain c).cursor 4 []) ∧
    { t with
      sif.page := s.sif.page, sif.control := s.sif.control, sif.fetch := s.sif.fetch
      mpt.stationQueue := s.mpt.stationQueue } = s) ∧
  (∀ v : Word,
    (Chain.page ∈ maskChains v ↔ v.toNat % 2 = 1) ∧ (Chain.control ∈ maskChains v ↔ v.toNat / 2 % 2 = 1) ∧
    (Chain.fetch ∈ maskChains v ↔ v.toNat / 4 % 2 = 1))

/-- ACK (R5), whole: a cause above 11 is ignored; otherwise the acknowledged count becomes the count written if that moves it no
further than the posted count, modulo 65536, and the posted count if not; INT is evaluated again; a WINDOW whose counts are
then equal re-arms the capture. It is taken in every part state, and ACK reads as 0. -/
def Obligations.AckMovesTheCount : Prop :=
  ∀ (v : Word) (s : State),
    (11 < v.toNat / 65536 % 16 → exec (.ack v) s = .next (portGrants s)) ∧
    (v.toNat / 65536 % 16 ≤ 11 → ∃ t, exec (.ack v) s = .next (portGrants t) ∧
      (let n := v.toNat / 65536 % 16
       let p := (s.sif.posted.getD n 0).toNat
       let a := (s.sif.acked.getD n 0).toNat
       let c := v.toNat % 65536
       let m : Nat := if (c + 65536 - a) % 65536 ≤ (p + 65536 - a) % 65536 then c else p
       t.sif.acked = s.sif.acked.set n (BitVec.ofNat 16 m) ∧
       (m + 65536 - a) % 65536 ≤ (p + 65536 - a) % 65536 ∧
       t.mpt.capture =
         if n = 8 ∧ t.sif.posted.getD 8 0 = t.sif.acked.getD 8 0 then { s.mpt.capture with full := false, further := 0 }
         else s.mpt.capture) ∧
      t.sif.int = intOf t.sif.mask t.sif.posted t.sif.acked ∧
      ({ t with sif.acked := s.sif.acked, sif.int := s.sif.int, mpt.capture := s.mpt.capture }).sansStatus = s.sansStatus) ∧
    readAck s = 0

/-! ### The interconnect -/

/-- The burst in flight answered OKAY completes to its user. A write puts its bytes at its addresses; a read brings what stands
there; every other byte of main memory stands (R21). That others' bytes come with the command, as its operand, is the model's
choice (entry 1). A completed write of the finalizer, whatever its answer, is followed by the next: the writes of a record join
the STATION queue one by one, the status last, and with the status the chain's retired count advances, the retired counts are
written and the DONE cause is posted, unless all that has been done already at a closed port (R10, R20, R22, R146, entry 40). -/
def Obligations.OkayCompletesTheBurst : Prop :=
  (∀ (d : List Byte) (s : State) (b : Burst), s.mpt.inflight = some b →
    ∃ m r, exec (.burstOkay d) s = .next (portGrants (complete b .okay r { s with mpt.inflight := none, mem := m })) ∧
      (∀ a, memRead m a =
        if b.write = true then (if b.addr ≤ a ∧ a < b.addr + b.data.length then b.data.getD (a - b.addr) 0 else memRead s.mem a)
        else if b.addr ≤ a ∧ a < b.addr + min b.len d.length then d.getD (a - b.addr) 0
        else memRead s.mem a) ∧
      r = if b.write = true then [] else (List.range b.len).map fun i => memRead m (b.addr + i)) ∧
  (∀ (a : Answer) (d : List Byte) (s : State) (b : Burst), b.user = .finalizer → b.fate = .live →
    let t := complete b a d s
    (s.sif.finals = [] → t = { s with sif.finalBusy := false }) ∧
    (∀ f l w ws, s.sif.finals = f :: l → f.writes = w :: ws → t = { s with
      sif.finalBusy := true, sif.finals := { f with writes := ws } :: l
      mpt.stationQueue := s.mpt.stationQueue ++ [stationBurst .finalizer true w.1 w.2.length w.2] }) ∧
    (∀ f l, s.sif.finals = f :: l → f.writes = [] →
      t.sif.finalBusy = true ∧ t.sif.finals = l ∧
      (∃ q, t.mpt.stationQueue = s.mpt.stationQueue ++ stationBurst .finalizer true f.status.1 f.status.2.length f.status.2 :: q) ∧
      (f.counted = false → s.sif.writers.length = 8 → t.asked .retired) ∧
      (∀ c, t.chain c = { s.chain c with
        retired := if c = f.chain ∧ f.counted = false then (s.chain c).retired + 1 else (s.chain c).retired }) ∧
      t.sif.posted = (if f.counted = true then s.sif.posted else s.postedOnce (match f.chain with
        | .page => .pageDone
        | .control => .controlDone
        | .fetch => .fetchDone)) ∧
      t.sansRequests = s.sansRequests))

/-- The burst in flight answered RETRY: dropped at a soft reset, it is not repeated; at fewer than eight RETRY answers it waits
again in its client's place with everything but its count as it was; at the eighth it completes as ERROR. A write may have
left bytes at its own addresses (the model's choice, entry 2); nothing else of main memory changes (R31, R33). The burst in
flight answered ERROR completes to its user as ERROR. A write may have left bytes at its own addresses (the model's choice,
entry 2); nothing else of main memory changes (R32). -/
def Obligations.RetryAndErrorOfTheBurst : Prop :=
  (∀ (d : List Byte) (s : State) (b : Burst), s.mpt.inflight = some b →
    ∃ m, (∀ a, memRead m a = if b.write = true ∧ b.addr ≤ a ∧ a < b.addr + min b.len d.length then d.getD (a - b.addr) 0
        else memRead s.mem a) ∧
      exec (.burstRetry d) s = .next (portGrants (
        if b.fate = .dropped then { s with mpt.inflight := none, mem := m }
        else if b.retries + 1 < 8 then
          waitAgain { b with retries := b.retries + 1 } { s with mpt.inflight := none, mem := m }
        else complete b .error [] { s with mpt.inflight := none, mem := m })) ∧
      waiting b.client (waitAgain { b with retries := b.retries + 1 } { s with mpt.inflight := none, mem := m }) =
        some { b with retries := b.retries + 1 }) ∧
  (∀ (d : List Byte) (s : State) (b : Burst), s.mpt.inflight = some b →
    ∃ m, exec (.burstError d) s = .next (portGrants (complete b .error [] { s with mpt.inflight := none, mem := m })) ∧
      ∀ a, memRead m a = if b.write = true ∧ b.addr ≤ a ∧ a < b.addr + min b.len d.length then d.getD (a - b.addr) 0
        else memRead s.mem a)

/-- The range check holds exactly for the bytes inside one used window (R27). The report of a window failure: an armed capture
is filled with it and WINDOW is posted; a full one counts it as further, up to 65535, and nothing is posted (R28). -/
def Obligations.WindowFailureIsCaptured : Prop :=
  (∀ (ws : List Window) (a n : Nat),
    rangeIn ws a n = true ↔ ∃ w ∈ ws, w.base < w.limit ∧ w.base ≤ a ∧ a + n ≤ w.limit) ∧
  (∀ (c : Client) (w : Bool) (a n : Nat) (s : State),
    (s.mpt.capture.full = false →
      (reportWindow c w a n s).mpt.capture =
        { full := true, addr := a, len := n, client := c, write := w, stamp := s.partTime, further := 0 } ∧
      (reportWindow c w a n s).sif.posted = s.postedOnce .window) ∧
    (s.mpt.capture.full = true →
      (reportWindow c w a n s).mpt.capture = { s.mpt.capture with
        further := BitVec.ofNat 16 (min 65535 (s.mpt.capture.further.toNat + 1)) } ∧
      (reportWindow c w a n s).sif.posted = s.sif.posted) ∧
    ({ reportWindow c w a n s with mpt.capture := s.mpt.capture }).sansPosts = s.sansPosts)

/-- The bytes the status areas are written with, area by area, each at its address and cut into bursts that stay within 64-byte
blocks (sections 2.1, 11.3 and 11.7, R199, R200, R201): the event mirror, the retired counts, the window capture, the measurement
area, the panel status and the light status with their continuations, the link error counters, the key report, the Turn Log, the
rest context and the progress records. Values the manual does not state are codes of their tables or free: the light status
without a ramp (entry 30) and the rest context about what has not been (entry 22); that every CANCELLED context has the entry time
0, also after an earlier rest, is the model's reading (entry 63, DEDUCED). The asking time in the measurement area is the one the
model keeps (entry 23). A status writer's waiting burst takes its address and bytes at its grant, with the values of that moment,
but for a rest context, which carries those of the moment it was asked for (entry 17), and the write's next burst joins the
STATION queue when it has completed OKAY; after the last one, or a failed one, the writer goes on with the next area in the order
they were asked for (R22, R83, R201; the order is entry 17, and that a failure ends the write of every area is entry 44). A
completed ENTERED context, whatever its answer, lets the rest begin (R190). Stated outside the writes of a wake. -/
def Obligations.StatusAreasHoldTheValues : Prop :=
  (∀ (a : Nat) (l : List Byte), (writeBlocks a l).flatMap Prod.snd = l ∧
    ∀ k p, (writeBlocks a l)[k]? = some p → p.1 = a + (((writeBlocks a l).take k).flatMap Prod.snd).length ∧ p.2 ≠ [] ∧
      p.1 / 64 = (p.1 + p.2.length - 1) / 64) ∧
  (∀ s : State, s.baseAligned = true → s.sif.posted.length = 12 →
    ∃ m r c : List Byte,
      areaWrites .mirror s = [(s.baseAddr + 0x240, m)] ∧ m.length = 24 ∧
      (∀ n, n < 12 → u16 m (2 * n) = (s.sif.posted.getD n 0).toNat) ∧
      areaWrites .retired s = [(s.baseAddr + 0x260, r)] ∧ r.length = 12 ∧
      (u32 r 0 = s.sif.page.retired.toNat ∧ u32 r 4 = s.sif.control.retired.toNat ∧ u32 r 8 = s.sif.fetch.retired.toNat) ∧
      areaWrites .capture s = [(s.baseAddr + 0x280, c)] ∧ c.length = 16 ∧
      (u32 c 0 = s.mpt.capture.addr % 4294967296 ∧ u32 c 4 = s.mpt.capture.stamp.toNat ∧
        u16 c 8 = s.mpt.capture.further.toNat ∧ u8 c 10 = s.mpt.capture.len % 256 ∧
        u8 c 11 = s.mpt.capture.client.num + 8 * bit s.mpt.capture.write + 128 * bit s.mpt.capture.full ∧ u32 c 12 = 0)) ∧
  (∀ s : State, (∀ t, s.meu.temperature = some t → -32768 ≤ t.value ∧ t.value < 32768) →
    ∃ x y : List Byte, areaWrites .measure s = [(s.baseAddr + 0x270, x), (s.baseAddr + 0x480, y)] ∧ x.length = 16 ∧ y.length = 16 ∧
      (match s.meu.battery with
        | some b => u16 x 0 = b.mv % 65536 ∧ u32 x 8 = b.stamp.toNat ∧ u8 x 4 % 2 = 1
        | none => u16 x 0 = 0 ∧ u32 x 8 = 0 ∧ u8 x 4 % 2 = 0) ∧
      (match s.meu.temperature with
        | some t => s16 x 2 = t.value ∧ u32 x 12 = t.stamp.toNat ∧ u8 x 4 / 2 = 1 + 2 * bit t.aged
        | none => s16 x 2 = 0 ∧ u32 x 12 = 0 ∧ u8 x 4 / 2 = 0) ∧
      u8 x 5 = s.meu.supply.num ∧ u16 x 6 = 0 ∧
      u32 y 0 = s.meu.supplyStamp.toNat ∧ u32 y 4 = s.meu.askTime.toNat ∧ u32 y 8 = 0 ∧ u32 y 12 = 0) ∧
  (∀ s : State,
    ∃ x y : List Byte, areaWrites .panel s = [(s.baseAddr + 0x290, x), (s.baseAddr + 0x490, y)] ∧ x.length = 16 ∧ y.length = 16 ∧
      u8 x 0 = bit s.upe.uncertain + 2 * s.pss.rail.num + 16 * bit s.upe.current.isSome ∧
      u8 x 1 = s.upe.cadence % 256 ∧ u8 x 2 = s.upe.list.length % 256 ∧
      u8 x 3 = (s.upe.lanes.filter fun l => l.state != .free).length % 256 ∧
      u32 x 4 = (match s.upe.current with
        | some p => p.tag.toNat
        | none => 0) ∧
      u16 x 8 = s.fsc.stretched.toNat ∧ u16 x 10 = s.fsc.scanErrors.toNat ∧ u8 x 12 = s.pss.history.length % 256 ∧
      u8 x 13 = 0 ∧ u16 x 14 = 0 ∧
      (∀ i, i < 3 → u32 y (4 * i) = (s.pss.history.getD i 0).toNat) ∧ u32 y 12 = 0) ∧
  (∀ s : State,
    ∃ x y : List Byte, areaWrites .light s = [(s.baseAddr + 0x2A0, x), (s.baseAddr + 0x4A0, y)] ∧ x.length = 16 ∧ y.length = 16 ∧
      u16 x 0 = s.ltu.lr % 65536 ∧ u8 x 2 = s.ltu.mr % 256 ∧ u8 x 3 = s.ltu.warmth % 256 ∧ u16 x 4 = s.ltu.level % 65536 ∧
      u16 x 6 = s.ltu.ceiling % 65536 ∧ u16 x 8 = s.ltu.remembered % 65536 ∧
      u8 x 10 % 8 = bit s.ltu.keyOff + 2 * bit s.ltu.restDark + 4 * bit s.ltu.ramp.isSome ∧ u8 x 10 / 8 ≤ 4 ∧
      (∀ r, s.ltu.ramp = some r →
        u8 x 10 / 8 = r.cause.num ∧ u8 x 11 = r.tm % 256 ∧ u16 x 12 = r.t % 65536 ∧ u16 x 14 = r.n % 65536) ∧
      u16 y 0 = s.ltu.warm.duty % 65536 ∧ u16 y 2 = s.ltu.cool.duty % 65536 ∧ u32 y 4 = s.ltu.light.getD 0 % 4294967296 ∧
      u32 y 8 = 0 ∧ u32 y 12 = 0) ∧
  (∀ s : State, s.dlc.counters.length = 7 → s.ktu.counts.length = 4 → ∃ x y : List Byte,
      areaWrites .link s = writeBlocks (s.baseAddr + 0x2B0) x ∧ x.length = 16 ∧
      (∀ i, i < 7 → u16 x (2 * i) = (s.dlc.counters.getD i 0).toNat) ∧ u16 x 14 = 0 ∧
      areaWrites .keyReport s = writeBlocks (s.baseAddr + 0x2E0) y ∧ y.length = 20 ∧
      (∀ i, i < 4 → u16 y (2 * i) = (s.ktu.counts.getD i 0).toNat) ∧ u16 y 8 = s.ktu.dropped.toNat ∧
      u16 y 10 = s.ktu.reported.toNat ∧ u8 y 12 = s.ktu.lastRole.num ∧ u8 y 13 = 0 ∧ u16 y 14 = 0 ∧
      u32 y 16 = s.ktu.lastStamp.toNat) ∧
  (∀ s : State, s.ktu.log.length ≤ 16 → ∃ x : List Byte,
      areaWrites .turnLog s = writeBlocks (s.baseAddr + 0x300) x ∧ x.length = 272 ∧ u8 x 0 = s.ktu.log.length ∧
      (∀ i, 1 ≤ i → i < 16 → u8 x i = 0) ∧
      (∀ j e, s.ktu.log[j]? = some e →
        let o := 16 + 16 * j
        u8 x o = e.dir.num ∧ u8 x (o + 1) = e.result.num ∧ u8 x (o + 2) = bit e.dropped.isSome + 2 * bit e.ofRest ∧
        u8 x (o + 3) = 0 ∧ u32 x (o + 4) = e.tag.toNat ∧ u32 x (o + 8) = e.stamp.toNat ∧
        u32 x (o + 12) = (match e.dropped with
          | some t => t.toNat
          | none => 0)) ∧
      (∀ i, 16 + 16 * s.ktu.log.length ≤ i → u8 x i = 0)) ∧
  (∀ (p : Phase) (s : State),
    let x := contextBytes p s
    let r := s.rsc
    (∀ b, areaWrites (.context p b) s = writeBlocks (s.baseAddr + 0x440) b) ∧ x.length = 64 ∧
    u8 x 0 = (match p with
      | .entered => 1
      | .woken => 2
      | .cancelled => 3) ∧
    u8 x 1 = bit r.forced + 2 * bit r.limit + 4 * bit r.keepLight + 8 * bit r.turnsEnabled + 16 * bit r.image.isSome ∧
    u8 x 2 = r.imageState.num ∧
    (match r.imageState with
      | .ended c => u8 x 3 = c.num
      | _ => u8 x 3 ∈ [0, 1, 16, 17, 18, 32, 33, 34, 35, 36, 37, 48, 49, 50, 51, 52, 53]) ∧
    u32 x 4 = r.record.getD 0 % 4294967296 ∧
    (∀ a st, r.image = some (a, st) → u32 x 8 = a % 4294967296 ∧ u32 x 12 = st % 4294967296) ∧
    u32 x 16 = r.wakeAfter % 4294967296 ∧
    u32 x 20 = (if p = .cancelled then 0 else r.entryTime.toNat) ∧ u32 x 24 = (if p = .woken then r.wakeTime.toNat else 0) ∧
    u8 x 28 = r.wake.num ∧ u8 x 29 = r.turns.toNat ∧ u8 x 30 = r.sleepFailures.toNat ∧ u8 x 31 = r.leaveRetries.toNat ∧
    u8 x 32 ≤ 2 ∧ u8 x 33 ≤ 2 ∧ (p ≠ .cancelled → u8 x 32 = r.entrySupply.num ∧ u16 x 36 = r.entryBattery % 65536) ∧
    (p = .woken → u8 x 33 = r.wakeSupply.num ∧ u16 x 38 = r.wakeBattery % 65536) ∧
    u16 x 34 = 0 ∧ (∀ i, 40 ≤ i → u8 x i = 0)) ∧
  (∀ (i : Nat) (s : State), (s.slot i).extents.length ≤ 16 → ∃ x : List Byte,
      let f := s.slot i
      areaWrites (.progress i) s = writeBlocks (s.baseAddr + 0x500 + 160 * i) x ∧ x.length = 160 ∧
      u8 x 0 = (if f.state = .free ∧ f.interrupted = true then 6 else f.state.num) ∧ u8 x 1 = f.extents.length ∧
      u16 x 2 = f.file.toNat ∧ u32 x 4 = f.len % 4294967296 ∧ u32 x 8 = f.crc.toNat ∧ u32 x 12 = f.computed.toNat ∧
      u32 x 16 = f.received % 4294967296 ∧ u32 x 20 = f.stamp.toNat ∧ u32 x 24 = 0 ∧ u32 x 28 = 0 ∧
      (∀ j e, f.extents[j]? = some e →
        u32 x (32 + 8 * j) = e.1 % 4294967296 ∧ u32 x (36 + 8 * j) = e.2 % 4294967296) ∧
      (∀ j, 32 + 8 * f.extents.length ≤ j → u8 x j = 0)) ∧
  (∀ (s : State) (u : StatusUser) (b : Burst) (q : List Burst) (a : Area) (y : Nat × List Byte) (left : List (Nat × List Byte)),
    portOpen s = true → s.mpt.inflight = none → s.sif.live = true → awaitsIdle s = false → pick (pump s) = some .station →
    s.mpt.stationQueue = b :: q → b.user = .status u → s.sif.writers.length = 8 → (s.writer u).cur = some a →
    (s.writer u).granted = false → areaWrites a s = y :: left → s.rangeOk y.1 y.2.length = true →
    (portGrants s).mpt.inflight = some { b with addr := y.1, len := y.2.length, data := y.2 } ∧
    (portGrants s).mpt.stationQueue = q ∧ (portGrants s).writer u = { s.writer u with granted := true, left := left } ∧
    (∀ w, w ≠ u → (portGrants s).writer w = s.writer w)) ∧
  (∀ (x : Answer) (data : List Byte) (s : State) (b : Burst) (u : StatusUser), b.user = .status u → b.fate = .live →
    s.sif.wakeOrder = .none → s.sif.writers.length = 8 →
    let t := complete b x data s
    let w := s.writer u
    let began := fun (v : Writer) (l : List Burst) =>
      t.writer u = v ∧ t.mpt.stationQueue = s.mpt.stationQueue ++ l ∧ ∀ z, z ≠ u → t.writer z = s.writer z
    (∀ y l, x = .okay → w.left = y :: l →
      began { w with left := l } [stationBurst (.status u) true y.1 y.2.length y.2]) ∧
    (x ≠ .okay ∨ w.left = [] →
      (w.queued = [] → began ⟨none, false, [], []⟩ []) ∧
      (∀ a l, w.queued = a :: l → a.user = u →
        began ⟨some a, false, [], l⟩ [stationBurst (.status u) true (s.baseAddr + a.offset) 0 []])) ∧
    (let entered := (∃ bytes, w.cur = some (.context .entered bytes)) ∧ s.rsc.drain = .writing ∧ (s.writer .rest).queued = []
     (entered → t.rsc = { s.rsc with drain := .written }) ∧ (¬entered → t.rsc = s.rsc)) ∧
    ({ t with rsc := s.rsc } : State).sansStatus = s.sansStatus)

/-! ### Walks -/

/-- A chain that has left HELD, or has a walk remembered, begins a walk in RUN: the link of its cursor is read (R7, R9). A link
read in a walk: a link 0 ends the walk, and a remembered walk begins unless a part-state condition holds the chain; a link that is
misaligned, or whose 16 bytes fail the range check, ends it in the same way and is reported as a STATION read; a good link has its
header read, the cursor staying (R7, R9). A header read is judged in order (R8): a status that is not 0 is refused REFUSED_FORMAT
and ends the walk; an unknown kind, or a kind of another chain, is refused REFUSED_FORMAT, and the walk goes on with the link of
that record; an UPDATE that meets a full list, and a STAGE or UNSTAGE that meets a waiting turn, is declined, and the chain is
HELD on it (R9, R58, R118); a record outside the windows is refused WINDOW and the walk goes on; else its body is read, an UPDATE
having a place reserved, or, having no body, it is ready. A part-state condition stops the walk after a refusal (R9). A refusal
moves the cursor to the record; that it is taken and writes no result fields is entry 14. A walk's burst completes (R7, R8): a
link or header read leads there, and, failing, ends the walk as a link 0 does (entry 36); a body read goes on burst by burst, and
after the last one the record is ready, neither taken nor handed over before its own command (the model's choice, entry 6);
failing, the record is finalized MEMORY_ERROR or WINDOW, a reserved place is given back, and the walk goes on from it (R8 case 5,
R58, entries 29 and 36), a burst left of the read not being made (entry 61); after the write of TAKEN, whatever its answer, the
walk goes on with the link of the record. -/
def Obligations.ChainsWalk : Prop :=
  (∀ (c : Chain) (s : State), s.rsc.part = .run → chainState s c = .idle →
    (s.chain c).remembered = true ∨ (s.chain c).declined ≠ none →
    ∃ t, exec (.chainWalkBegin c) s = .next (portGrants t) ∧
      t.chain c = { s.chain c with walk := .link, remembered := false, declined := none } ∧
      (∀ d, d ≠ c → t.chain d = s.chain d) ∧
      t.mpt.stationQueue = s.mpt.stationQueue ++ [stationBurst (.walk c) false (s.chain c).cursor 4 []] ∧
      { t with
        sif.page := s.sif.page, sif.control := s.sif.control, sif.fetch := s.sif.fetch
        mpt.stationQueue := s.mpt.stationQueue } = s) ∧
  (∀ (c : Chain) (link : Nat) (s : State),
    let t := linkRead c link s
    let w : WalkPhase := if (s.chain c).remembered = true ∧ partHolds s = false then .link else .idle
    (link = 0 → (t.chain c).walk = w ∧ t.mpt.capture = s.mpt.capture ∧ t.sif.posted = s.sif.posted) ∧
    (link ≠ 0 → link % 16 ≠ 0 ∨ s.rangeOk link 16 = false →
      (t.chain c).walk = w ∧ t.mpt.capture = (reportWindow .station false link 16 s).mpt.capture ∧
      t.sif.posted = (reportWindow .station false link 16 s).sif.posted) ∧
    (link ≠ 0 → link % 16 = 0 → s.rangeOk link 16 = true →
      t.chain c = { s.chain c with walk := .header link } ∧
      t.mpt.stationQueue = s.mpt.stationQueue ++ [stationBurst (.walk c) false link 16 []] ∧
      t.mpt.capture = s.mpt.capture ∧ t.sif.posted = s.sif.posted) ∧
    (t.chain c).cursor = (s.chain c).cursor ∧ (t.chain c).retired = (s.chain c).retired ∧
    (∀ d, d ≠ c → t.chain d = s.chain d) ∧
    ({ t with mpt.capture := s.mpt.capture }).sansRequests = s.sansRequests) ∧
  (∀ (c : Chain) (r : Nat) (h : List Byte) (s : State),
    let t := judgeRecord c r h s
    let refused := fun (code : Nat) (w : WalkPhase) =>
      (t.chain c).cursor = r ∧ (t.chain c).walk = w ∧
      (w = .link → t.mpt.stationQueue.getLast? = some (stationBurst (.walk c) false r 4 [])) ∧
      (∀ d, d ≠ c → t.chain d = s.chain d) ∧ endsBy c [(r, [], code)] s t ∧ t.sif.posted = s.postedBy c 1 ∧
      t.sansRequests = s.sansRequests
    let on : WalkPhase := if partHolds s = true then .idle else .link
    let full := 16 ≤ s.upe.list.length + s.upe.reservations
    (u8 h 5 ≠ 0 → refused 32 (if (s.chain c).remembered = true ∧ partHolds s = false then .link else .idle)) ∧
    (u8 h 5 = 0 → (∀ k, kindOf h = some k → k.chain ≠ c) → refused 32 on) ∧
    (∀ k, u8 h 5 = 0 → kindOf h = some k → k.chain = c →
      let size := if k = .update then 48 else if k = .unstage ∨ k = .settings ∨ k = .turnsSeen ∨ k = .closeFile then 16 else 32
      let declined := (k = .update ∧ full) ∨ ((k = .stage ∨ k = .unstage) ∧ turnHolds s = true)
      (declined → chainState t c = .held ∧
        t = s.setChain c { s.chain c with walk := .idle, declined := some (if k = .update then .listFull else .turnBegun) }) ∧
      (¬declined → s.rangeOk r size = false → refused 34 on) ∧
      (¬declined → s.rangeOk r size = true → size = 16 → t = s.setChain c { s.chain c with walk := .ready r h }) ∧
      (¬declined → s.rangeOk r size = true → 16 < size → ∃ left,
        (r + 16, min (64 - (r + 16) % 64) (size - 16)) :: left = blocks (r + 16) (size - 16) ∧
        t = { s.setChain c { s.chain c with walk := .body r left h } with
          upe.reservations := if k = .update then s.upe.reservations + 1 else s.upe.reservations
          mpt.stationQueue := s.mpt.stationQueue ++
            [stationBurst (.walk c) false (r + 16) (min (64 - (r + 16) % 64) (size - 16)) []] }))) ∧
  (∀ (c : Chain) (x : Answer) (data : List Byte) (s : State) (b : Burst), b.user = .walk c → b.fate = .live →
    let t := complete b x data s
    let k := s.chain c
    let on : WalkPhase := if partHolds s = true then .idle else .link
    let follows := fun (r : Nat) => (t.chain c).walk = on ∧ (t.chain c).cursor = r ∧ (∀ d, d ≠ c → t.chain d = s.chain d) ∧
      (on = .link → t.mpt.stationQueue.getLast? = some (stationBurst (.walk c) false r 4 []))
    (k.walk = .link → t = linkRead c (if x = .okay then u32 data 0 else 0) s) ∧
    (∀ r, k.walk = .header r → t = if x = .okay then judgeRecord c r data s else linkRead c 0 s) ∧
    (∀ r got, k.walk = .body r [] got → x = .okay → t = s.setChain c { k with walk := .ready r (got ++ data) }) ∧
    (∀ r y left got, k.walk = .body r (y :: left) got → x = .okay → t = { s.setChain c { k with walk := .body r left (got ++ data) } with
      mpt.stationQueue := s.mpt.stationQueue ++ [stationBurst (.walk c) false y.1 y.2 []] }) ∧
    (∀ r left got, k.walk = .body r left got → x ≠ .okay → follows r ∧
      endsBy c [(r, [], if x = .window then 34 else 53)] s t ∧ t.sif.posted = s.postedBy c 1 ∧
      t.sansRequests = ({ s with
        upe.reservations := if kindOf got = some .update then s.upe.reservations - 1 else s.upe.reservations } : State).sansRequests) ∧
    (k.walk = .taking → follows k.cursor ∧ t.finalWrites = s.finalWrites ∧ t.sif.posted = s.sif.posted ∧
      t.chain c = { k with walk := on } ∧ t.sansRequests = s.sansRequests))

/-! ### Records of the PAGE chain -/

/-- An UPDATE handed over that fails a check of R57 is finalized with that check's code and the results of an update without a
lane (R57, R58, R59). An UPDATE handed over that passes R57 joins the list at its tail with store state NONE and no key, its
reservation released and its record left TAKEN; the panel status is asked for, the idle hold looked at, and the admission scan
runs (R57, R58, R60, R67, R99). In REST, REST_TURN and WAKING no UPDATE is taken (R86, entry 7). That a request of mode 3 is
finalized with mode used 3 is entry 55. -/
def Obligations.UpdateIsTaken : Prop :=
  (∀ (s : State) (r : Nat) (bytes : List Byte) (code : Code), readyRecord .update s = some (r, bytes) →
    s.rsc.part ≠ .rest → s.rsc.part ≠ .restTurn → s.rsc.part ≠ .waking →
    updateFailure (parseUpdate bytes) s = some code →
    ∃ t, exec .update s = .next (portGrants t) ∧
      finalizedAt .page r
        [(0x21, le8 (parseUpdate bytes).mode ++ [0xFF, 0xFF]), (0x28, [0, 0, 0, 0, 0, 0, 0, 0])] code.num s t ∧
      t.sansRequests = ({ s with upe.reservations := s.upe.reservations - 1 } : State).sansRequests) ∧
  (∀ (s : State) (r : Nat) (bytes : List Byte), readyRecord .update s = some (r, bytes) →
    s.rsc.part ≠ .rest → s.rsc.part ≠ .restTurn → s.rsc.part ≠ .waking →
    updateFailure (parseUpdate bytes) s = none →
    let q := parseUpdate bytes
    let e : Entry :=
      { id := s.upe.nextId, origin := .record r, rect := q.rect, source := q.source, stride := q.stride
        mode := (Mode.ofNum q.mode).getD .clear, policy := if q.policy = 0 then .wait else .overlap
        tag := if q.tagged = true then some q.tag else none, st := .none, key := none, note := false, again := false }
    ∃ u, exec .update s = .next (portGrants (scan (idleCheck (ask .panel u)))) ∧ takenAt .page r s u ∧
      u.sansRequests = ({ s with
        upe.list := s.upe.list ++ [e], upe.nextId := s.upe.nextId + 1
        upe.reservations := s.upe.reservations - 1 } : State).sansRequests) ∧
  (∀ s : State, s.rsc.part = .rest ∨ s.rsc.part = .restTurn ∨ s.rsc.part = .waking →
    exec .update s = .next (portGrants s))

/-- The checks of R57 in their order, each with its code. -/
def Obligations.UpdateChecksInOrder : Prop :=
  ∀ (q : UpdateReq) (s : State),
    let w := s.cfg.width
    let h := s.cfg.height
    let fits := q.rect.x % 8 = 0 ∧ q.rect.w % 8 = 0 ∧ 8 ≤ q.rect.w ∧ 1 ≤ q.rect.h ∧ q.rect.x + q.rect.w ≤ w ∧ q.rect.y + q.rect.h ≤ h
    let strides := q.stride % 4 = 0 ∧ q.rect.w / 2 ≤ q.stride
    let source := s.rangeOk q.source ((q.rect.h - 1) * q.stride + q.rect.w / 2) = true
    let buffer := s.rangeOk (s.cfg.buffer + 2 * (q.rect.y * w + q.rect.x)) (2 * ((q.rect.h - 1) * w + q.rect.w)) = true
    (2 < q.mode → updateFailure q s = some .refusedFormat) ∧
    (q.mode ≤ 2 → ¬fits → updateFailure q s = some .refusedRange) ∧
    (q.mode ≤ 2 → fits → ¬strides → updateFailure q s = some .refusedRange) ∧
    (q.mode ≤ 2 → fits → strides → q.tagged = true ∧ q.rect ≠ ⟨0, 0, w, h⟩ ∨ s.wfs.active = none →
      updateFailure q s = some .refusedFormat) ∧
    (q.mode ≤ 2 → fits → strides → (q.tagged = true → q.rect = ⟨0, 0, w, h⟩) → s.wfs.active ≠ none → ¬(source ∧ buffer) →
      updateFailure q s = some .window) ∧
    (q.mode ≤ 2 → fits → strides → (q.tagged = true → q.rect = ⟨0, 0, w, h⟩) → s.wfs.active ≠ none → source → buffer →
      updateFailure q s = if s.pss.rail = .locked then some .panelFault else none)

/-- A STAGE handed over: a direction other than FORWARD and BACK, a bad stride, an image outside the windows and a full list are
refused in this order; otherwise the page joins the far end of the list. The result is the number of pages the list then holds
(R116). A STAGE or UNSTAGE met while a turn waits for its admission is declined: the chain is HELD on the record and nothing else
changes (R9, R118); that this holds at its command too, for one whose header was judged before the turn began, is the model's
choice (entry 6). -/
def Obligations.StageIsTaken : Prop :=
  (∀ (s : State) (r : Nat) (bytes : List Byte), readyRecord .stage s = some (r, bytes) → turnHolds s = false →
    let d := flagsOf bytes % 4
    let dir : Dir := if d = 0 then .forward else .back
    let page : Page := ⟨BitVec.ofNat 32 (u32 bytes 0x18), u32 bytes 0x10, u32 bytes 0x14⟩
    let n := (s.pages dir).length
    let cap := if d = 0 then 8 else 4
    let strideOkay := page.stride % 4 = 0 ∧ s.cfg.width / 2 ≤ page.stride
    let inside := s.rangeOk page.addr ((s.cfg.height - 1) * page.stride + s.cfg.width / 2) = true
    let out := fun (k : Nat) (code : Nat) (u : State) => ∃ t, exec .stage s = .next (portGrants t) ∧
      finalizedAt .page r [(0x1C, le8 k)] code s t ∧ t.sansRequests = u.sansRequests
    (2 ≤ d → out 0 32 s) ∧
    (d < 2 → ¬strideOkay → out n 33 s) ∧
    (d < 2 → strideOkay → ¬inside → out n 34 s) ∧
    (d < 2 → strideOkay → inside → cap ≤ n → out n 35 s) ∧
    (d < 2 → strideOkay → inside → n < cap → out (n + 1) 16 (s.setPages dir (s.pages dir ++ [page])))) ∧
  (∀ (c : Instr) (k : Kind) (s : State) (r : Nat) (bytes : List Byte),
    (c, k) = (.stage, .stage) ∨ (c, k) = (.unstage, .unstage) →
    readyRecord k s = some (r, bytes) → turnHolds s = true →
    ∃ t, exec c s = .next (portGrants t) ∧
      t = { s with sif.page := { s.sif.page with walk := .idle, declined := some .turnBegun } } ∧
      chainState t .page = .held)

/-- An UNSTAGE handed over empties the list or lists its direction names and is finalized DONE with the number of pages removed in
byte 7 (R8, R10, R146; that the flags' other byte is not written is entry 30); any other direction is REFUSED_FORMAT with a result
of 0. The current-page record stands, as everything else (R117). -/
def Obligations.UnstageTaken : Prop :=
  ∀ (s : State) (r : Nat) (bytes : List Byte), readyRecord .unstage s = some (r, bytes) → turnHolds s = false →
    let d := flagsOf bytes % 4
    let f := if d = 0 ∨ d = 2 then s.ktu.forward.length else 0
    let b := if d = 1 ∨ d = 2 then s.ktu.backward.length else 0
    Kind.unstage.chain = .page ∧ Kind.unstage.size = 16 ∧
    ∃ t, exec .unstage s = .next (portGrants t) ∧
      finalizedAt .page r [(7, le8 (f + b))] (if d = 3 then 32 else 16) s t ∧
      (d = 3 → f + b = 0) ∧ (s.turnLaw = true → f + b ≤ 12) ∧
      t.upe.current = s.upe.current ∧
      t.sansRequests = ({ s with
        ktu.forward := if d = 0 ∨ d = 2 then [] else s.ktu.forward
        ktu.backward := if d = 1 ∨ d = 2 then [] else s.ktu.backward } : State).sansRequests

/-- A WAVEFORM handed over in RUN: while another is under check it is finalized BUSY; a misaligned image address is
REFUSED_FORMAT with reason 1; a header outside the windows is WINDOW with reason 8; otherwise the header read begins with
its first burst. The generation and band count of a result without acceptance are free values (entry 11) (R35). -/
def Obligations.WaveformTaken : Prop :=
  ∀ (s : State) (r : Nat) (bytes : List Byte), readyRecord .waveform s = some (r, bytes) → s.rsc.part = .run →
    let a := u32 bytes 0x10
    let refused := fun (reason code : Nat) => ∃ t g b, exec .waveform s = .next (portGrants t) ∧
      finalizedAt .page r [(0x14, [g, b] ++ le8 reason ++ le8 0)] code s t ∧
      t.sansRequests = ({ s with fresh := s.fresh + 2 } : State).sansRequests
    (s.wfs.check ≠ none → refused 0 36) ∧
    (s.wfs.check = none → a % 64 ≠ 0 → refused 1 32) ∧
    (s.wfs.check = none → a % 64 = 0 → s.rangeOk a 352 = false → refused 8 34) ∧
    (s.wfs.check = none → a % 64 = 0 → s.rangeOk a 352 = true →
      ∃ t, exec .waveform s = .next (portGrants t) ∧ takenAt .page r s t ∧
        t.sansRequests = ({ s with
          wfs.check := some ⟨r, a, [(a + 64, 64), (a + 128, 64), (a + 192, 64), (a + 256, 64), (a + 320, 32)], []⟩
          mpt.waveQueue := s.mpt.waveQueue ++ [headerBurst (a, 64)] } : State).sansRequests)

/-- The checks of R37 in their order, each with its reason and index, and the first used table outside the windows (R38). A header
burst completes (R36): ERROR ends the read MEMORY_ERROR with reason 0, WINDOW ends it WINDOW with reason 8; after an OKAY the next
one is made; after the last one the image is judged: the first check of R37 that fails refuses it REFUSED_FORMAT, the first used
table outside the windows WINDOW with reason 9; else it is accepted (R39, R40): it becomes active with its bands and directory, the
generation advances, the band history is cleared, READY entries without a lane become EMPTY and the others stale, every waiting
update loses its key, the record is finalized DONE with generation and band count, and the scan runs. Generation and band count of
a result without acceptance are free values (entry 11). -/
def Obligations.WaveformIsJudged : Prop :=
  (∀ l : List Byte,
    let n := u8 l 5
    let used := fun (e : Nat) => e < 36 ∧ e % 12 < n
    let frames := fun (e : Nat) => u8 l (0x34 + 8 * e) ≠ 0
    let place := fun (e : Nat) => u32 l (0x30 + 8 * e) % 64 = 0 ∧ 384 ≤ u32 l (0x30 + 8 * e)
    let first := fun (p : Nat → Prop) (e : Nat) => used e ∧ ¬p e ∧ ∀ d, d < e → used d → p d
    let magic := u32 l 0 = 0x57460601
    let modes := u8 l 4 = 3
    let count := 1 ≤ n ∧ n ≤ 12
    let rise := ∀ p, p < n → s16 l (8 + 2 * p) < s16 l (8 + 2 * (p + 1))
    (¬magic → headerFailure l = some (2, 0)) ∧
    (magic → ¬modes → headerFailure l = some (3, 0)) ∧
    (magic → modes → ¬count → headerFailure l = some (4, 0)) ∧
    (magic → modes → count → ¬rise → headerFailure l = some (5, 0)) ∧
    (∀ e, magic → modes → count → rise → first frames e → headerFailure l = some (6, e)) ∧
    (∀ e, magic → modes → count → rise → (∀ d, used d → frames d) → first place e → headerFailure l = some (7, e)) ∧
    (magic → modes → count → rise → (∀ d, used d → frames d ∧ place d) → headerFailure l = none) ∧
    (∀ (ws : List Window) (a : Nat),
      let inside := fun (e : Nat) => rangeIn ws (a + u32 l (0x30 + 8 * e)) (u8 l (0x34 + 8 * e) * 64) = true
      (∀ e, first inside e → tableFailure l ws a = some e) ∧ ((∀ d, used d → inside d) → tableFailure l ws a = none))) ∧
  (∀ (x : Answer) (data : List Byte) (s : State) (b : Burst) (c : HeaderCheck), b.user = .header → b.fate = .live →
    s.wfs.check = some c →
    let t := complete b x data s
    let l := c.got ++ data
    let n := u8 l 5
    let ended : State := { s with wfs.check := none }
    let refused := fun (reason index code : Nat) => ∃ g k,
      endsBy .page [(c.record, [(0x14, [g, k] ++ le8 reason ++ le8 index)], code)] s t ∧ t.sif.posted = s.postedBy .page 1 ∧
      t.sansRequests = ({ ended with fresh := s.fresh + 2 } : State).sansRequests
    (x = .error → refused 0 0 53) ∧ (x = .window → refused 8 0 34) ∧
    (∀ d left, x = .okay → c.left = d :: left → t = { s with
      wfs.check := some { c with left := left, got := l }, mpt.waveQueue := s.mpt.waveQueue ++ [headerBurst d] }) ∧
    (∀ reason index, x = .okay → c.left = [] → headerFailure l = some (reason, index) → refused reason index 32) ∧
    (∀ e, x = .okay → c.left = [] → headerFailure l = none → tableFailure l s.windows c.addr = some e → refused 9 e 34) ∧
    (x = .okay → c.left = [] → headerFailure l = none → tableFailure l s.windows c.addr = none → ∃ u, t = scan u ∧
      endsBy .page [(c.record, [(0x14, [s.wfs.generation + 1] ++ le8 n ++ [0, 0])], 16)] s u ∧ u.sif.posted = s.postedBy .page 1 ∧
      u.sansRequests = ({ s with
        wfs :=
          { active := some ⟨c.addr, (List.range n).map fun p => s16 l (8 + 2 * p), s16 l (8 + 2 * n),
              (List.range 36).map fun e => (u32 l (0x30 + 8 * e), u8 l (0x34 + 8 * e))⟩
            generation := s.wfs.generation + 1, history := none, check := none
            entries := s.wfs.entries.map fun e =>
              if e.state = .empty then e
              else if e.state = .ready ∧ e.refs = 0 then { stamp := e.stamp }
              else { e with stale := true, holder := none } }
        upe.list := s.upe.list.map fun e => { e with key := none, st := .none, note := false, again := false } } : State).sansRequests))

/-- A table burst of a store entry completes OKAY (R40, R43): the frame joins the table and the next burst is made; after the last
frame the entry is READY with its stamp at this time; a load gone stale leaves the entry EMPTY. At either end each waiting update
that is LOADING with that key goes to NO_ROOM and is to look again, and when the entry is EMPTY, or READY without a holder, so is
every NO_ROOM update; nothing else of the list changes (R66). Then the scan runs, if no update is marked to look again (R67); if
one is, it follows the marked ones' lookups, which are a command of their own (entry 8). A table burst fails (R44): the entry is
EMPTY, the waiting updates are told and the scan runs in the same way; but the entry's holder, if it still waits, leaves the list,
its record finalized MEMORY_ERROR or WINDOW with the results of an update without a lane, and then the scan runs at once, before
the lookups that the report marks (R59, R66, R67; the order is entry 67). -/
def Obligations.LoadBurstFillsTheEntry : Prop :=
  ∀ (i : Nat) (b : Burst) (data : List Byte) (s : State), i < s.wfs.entries.length → b.fate = .live → b.user = .load i →
    let e := s.store i
    let told := s.upe.list.map fun x => if x.st = .loading ∧ x.key = e.key then { x with st := .noRoom, again := true } else x
    let free := fun (l : List Entry) => l.map fun x => if x.st = .noRoom then { x with again := true } else x
    let reports := fun (t u : State) => ((∃ x ∈ u.upe.list, x.again = true) → t = u) ∧ ((∀ x ∈ u.upe.list, x.again = false) → t = scan u)
    (let t := complete b .okay data s
     (e.stale = false → 0 < e.loadLeft → t = { s with
       wfs.entries := s.wfs.entries.set i
         { e with table := e.table ++ [data], loadAddr := e.loadAddr + 64, loadLeft := e.loadLeft - 1 }
       mpt.waveQueue := s.mpt.waveQueue ++
         [{ client := .waveform, user := .load i, write := false, addr := e.loadAddr, len := 64, data := [] }] }) ∧
     (e.stale = false → e.loadLeft = 0 → reports t { s with
       wfs.entries := s.wfs.entries.set i { e with state := .ready, table := e.table ++ [data], stamp := s.partTime }
       upe.list := if e.holder = none then free told else told }) ∧
     (e.stale = true → reports t { s with
       wfs.entries := s.wfs.entries.set i { stamp := e.stamp }, upe.list := free told })) ∧
    (∀ x : Answer, x ≠ .okay →
      let t := complete b x data s
      let code := if x = .window then 34 else 53
      let u : State := { s with wfs.entries := s.wfs.entries.set i { stamp := e.stamp }, upe.list := free told }
      ((e.holder = none ∨ ∃ id, e.holder = some id ∧ ∀ y ∈ s.upe.list, y.id ≠ id) → reports t u) ∧
      (∀ id y a, e.holder = some id → s.upe.list.find? (fun z => z.id == id) = some y → y.origin = .record a → ∃ v, t = scan v ∧
        endsBy .page [(a, [(0x21, le8 y.mode.num ++ [0xFF, 0xFF]), (0x28, [0, 0, 0, 0, 0, 0, 0, 0])], code)] s v ∧
        v.sif.posted = s.postedBy .page 1 ∧
        v.upe.list.map Entry.request = (s.upe.list.filter fun z => z.id != id).map Entry.request ∧
        (∀ j, v.store j = { u.store j with holder := if (u.store j).holder = some id then none else (u.store j).holder }) ∧
        ({ v with upe.list := s.upe.list, wfs.entries := s.wfs.entries, pss.idleTimer := s.pss.idleTimer } : State).sansRequests =
          s.sansRequests))

/-! ### Records of the CONTROL chain -/

/-- A LIGHT handed over in RUN: its fields are clamped, a LIGHT in progress is finalized CANCELLED with the values as they stood,
Lr and Mr take the clamped values, key-off is cleared, a ramp starts towards min(Lr, C) and Mr, and the record becomes the
LIGHT in progress (R130, R131, R134). -/
def Obligations.LightTaken : Prop :=
  ∀ (s : State) (r : Nat) (bytes : List Byte), readyRecord .light s = some (r, bytes) → s.rsc.part = .run →
    let lv := min (u16 bytes 0x10) 1000
    let wm := min (u16 bytes 0x12) 100
    let d := min (u16 bytes 0x14) 10000
    ∃ t, exec .light s = .next (portGrants t) ∧
      t.sansRequests = ({ s with
        ltu.lr := lv, ltu.mr := wm, ltu.keyOff := false, ltu.light := some r, ltu.detached := false
        ltu.ramp := some ⟨s.ltu.level, s.ltu.warmth, min lv s.ltu.ceiling, wm, fadeSteps d, 0, .light⟩ } : State).sansRequests ∧
      (s.ltu.light = none → takenAt .control r s t) ∧
      (∀ old, s.ltu.light = some old → takenEnding .control r
        [(old, [(0x18, le16 s.ltu.lr ++ le16 s.ltu.mr ++ le16 s.ltu.level ++ le16 s.ltu.ceiling)], 48)] s t)

/-- A REST handed over in RUN whose image fails the stride check or the range check is finalized REFUSED_RANGE or WINDOW with
wake cause NONE and no rest turns, and RUN goes on (R187). A REST handed over in RUN that passes its checks begins the
quiesce (R188, R189): the Rest Controller holds the record and its options, clears what the last rest left, and starts the
quiesce timer at the limit; the part is in QUIESCE, the periodic temperature timer stops, downloads stop; unless the light is
kept, the LIGHT in progress is finalized CANCELLED and the rest fade starts. The rest image, if there is one, is appended as a
full-screen CLEAR WAIT update: without an active image its state is ENDED REFUSED_FORMAT, with the panel LOCKED ENDED
PANEL_FAULT, with the list full WAIT_PLACE, else LISTED, and the scan runs (R61, R67). With the supply CRITICAL the rest is
forced: the light is not kept, and that no image is appended is entry 21. That the rest goes by the rest-fade and memory-timeout
of this moment is entry 42. -/
def Obligations.RestTaken : Prop :=
  (∀ (s : State) (r : Nat) (bytes : List Byte), readyRecord .rest s = some (r, bytes) → s.rsc.part = .run →
    flagsOf bytes / 4 % 2 = 1 →
    let a := u32 bytes 0x10
    let st := u32 bytes 0x14
    let strideOkay := st % 4 = 0 ∧ s.cfg.width / 2 ≤ st
    let inside := s.rangeOk a ((s.cfg.height - 1) * st + s.cfg.width / 2) = true
    let refused := fun (code : Nat) => ∃ t, exec .rest s = .next (portGrants t) ∧
      finalizedAt .control r [(0x1C, [0, 0])] code s t ∧ t.sansRequests = s.sansRequests
    (¬strideOkay → refused 33) ∧ (strideOkay → ¬inside → refused 34)) ∧
  (∀ (s : State) (r : Nat) (bytes : List Byte), readyRecord .rest s = some (r, bytes) → s.rsc.part = .run →
    let f := flagsOf bytes
    let a := u32 bytes 0x10
    let st := u32 bytes 0x14
    let image := if f / 4 % 2 = 1 then some (a, st) else none
    (image ≠ none → st % 4 = 0 ∧ s.cfg.width / 2 ≤ st ∧ s.rangeOk a ((s.cfg.height - 1) * st + s.cfg.width / 2) = true) →
    let forced : Bool := s.meu.supply == .critical
    let kept := f % 2 = 1 ∧ forced = false
    let append := image ≠ none ∧ forced = false
    let joins := append ∧ s.wfs.active ≠ none ∧ s.pss.rail ≠ .locked ∧ s.upe.list.length + s.upe.reservations < 16
    let e : Entry :=
      { id := s.upe.nextId, origin := .rest, rect := ⟨0, 0, s.cfg.width, s.cfg.height⟩, source := a, stride := st, mode := .clear
        policy := .wait, tag := none, st := .none, key := none, note := false, again := false }
    ∃ t v, exec .rest s = .next (portGrants t) ∧ ScanOnly v t ∧ (¬joins → t = v) ∧
      takenEnding .control r (if kept then [] else lightEnds 48 s) s v ∧
      v.sansRequests = ({ s with
        rsc := { s.rsc with
          part := .quiesce, keepLight := f % 2 == 1, turnsEnabled := f / 2 % 2 == 1, image := image
          wakeAfter := min (u32 bytes 0x18) 86400, record := some r, forced := forced, forcedStart := forced, limit := false
          turns := 0, sleepFailures := 0, leaveRetries := 0, wake := .none, pendingWake := none, drain := .waiting
          turnOver := false, fadePending := !decide kept, fade := s.cfg.restFade, timeout := s.cfg.memoryTimeout
          quiesceTimer := some ⟨s.partTime, s.cfg.quiesceLimit * 1000⟩
          imageState :=
            if ¬append then .none
            else if s.wfs.active = none then .ended .refusedFormat
            else if s.pss.rail = .locked then .ended .panelFault
            else if 16 ≤ s.upe.list.length + s.upe.reservations then .waitPlace
            else .listed
          imageId := if joins then some s.upe.nextId else none }
        meu.tempTimer := none
        dlc := { s.dlc with stop := .stopping, recv := .hunt 0, markers := (s.cfg.marker0, s.cfg.marker1) }
        ltu := if kept then s.ltu else { s.ltu with
          restDark := true, light := none, detached := if s.ltu.light = none then s.ltu.detached else false
          ramp := some ⟨s.ltu.level, s.ltu.warmth, 0, s.ltu.mr, fadeSteps s.cfg.restFade, 0, .restFade⟩ }
        upe.list := if joins then s.upe.list ++ [e] else s.upe.list
        upe.nextId := if joins then s.upe.nextId + 1 else s.upe.nextId
        pss.idleTimer := if joins ∧ s.pss.rail = .on then none else s.pss.idleTimer } : State).sansRequests)

/-- A SETTINGS handed over in RUN is taken, and its settings load begins with the first burst, or waits for the load under way
(R16, R17; the waiting is entry 18). -/
def Obligations.SettingsTaken : Prop :=
  ∀ (s : State) (r : Nat) (bytes : List Byte), readyRecord .settings s = some (r, bytes) → s.rsc.part = .run →
    ∃ t, exec .settings s = .next (portGrants t) ∧ takenAt .control r s t ∧
      (s.sif.load ≠ none → t.sansRequests = ({ s with sif.loadQueue := s.sif.loadQueue ++ [r] } : State).sansRequests) ∧
      (s.sif.load = none → ∃ left, (s.baseAddr, min (64 - s.baseAddr % 64) 512) :: left = blocks s.baseAddr 512 ∧
        t.sansRequests = ({ s with sif.load := some ⟨.request r, left, []⟩ } : State).sansRequests ∧
        t.mpt.stationQueue.getLast? = some
          (stationBurst .settings false s.baseAddr (min (64 - s.baseAddr % 64) 512) []))

/-- The checks of every owner by field offset, the lowest failing one being reported (R16, R25, R54, R89, R105, R107, R129, R171,
R174, R185). A settings burst completes: the next one is made, or, failing, the load fails as unreadable with offset 0x200, the
bursts left of the read not being made (entry 62); a failed START load stops the part with the settings error, a failed request is
finalized REFUSED_FORMAT with the offset (R16, R17, R18). After the last burst of a START load whose checks pass, the settings are
applied: held, the mask and INT follow, the key lines are watched, the ceiling follows the supply state without a ramp, the
battery requester begins, and the START sweep begins, initializing unless the last sweep was of this geometry (R14, R18, R80,
R109, R132, R176). A request with a new geometry while a lane is in use or an update waits is BUSY (R17). Else it is applied and
finalized DONE: debounce counts, key lines, ceiling, page lists and panel image follow what has changed (R17, R54, R107, R119,
R132, R133, R174); a LOCKED panel is OFF again with its fault history empty (R104). That a sweep asked for while a pass runs waits
for its end is entry 24, that the gamma table of a START counts as changed where it differs from the one held is entry 26, and the
result of a DONE or BUSY request is a free value (entry 12); a result is written over both bytes of the flags (entry 30). Stated
with no further SETTINGS waiting (entry 18). -/
def Obligations.SettingsLoadIsJudged : Prop :=
  (∀ (l : List Byte) (base : Nat),
    let ws := (List.range 4).map fun w => Window.mk (u32 l (0x010 + 8 * w)) (u32 l (0x014 + 8 * w))
    let fields : List (Nat × Prop) :=
      ((List.range 4).flatMap fun w =>
        [(0x010 + 8 * w, u32 l (0x010 + 8 * w) % 64 = 0 ∧
            (w = 0 → (∃ x ∈ ws, x.base < x.limit) ∧ rangeIn ws base 4096 = true)),
         (0x014 + 8 * w, u32 l (0x014 + 8 * w) % 64 = 0 ∧ u32 l (0x010 + 8 * w) ≤ u32 l (0x014 + 8 * w))]) ++
      [(0x030, 256 ≤ u16 l 0x030 ∧ u16 l 0x030 ≤ 2048 ∧ u16 l 0x030 % 8 = 0),
       (0x032, 256 ≤ u16 l 0x032 ∧ u16 l 0x032 ≤ 1536),
       (0x034, u32 l 0x034 % 64 = 0 ∧ rangeIn ws (u32 l 0x034) (2 * u16 l 0x030 * u16 l 0x032) = true),
       (0x038, u8 l 0x038 ≤ 30), (0x039, u8 l 0x039 ≤ 64),
       (0x03A, 50 ≤ u16 l 0x03A ∧ u16 l 0x03A ≤ 2000), (0x03C, 10 ≤ u16 l 0x03C ∧ u16 l 0x03C ≤ 1000),
       (0x03E, 10 ≤ u16 l 0x03E ∧ u16 l 0x03E ≤ 5000), (0x040, 1000 ≤ u16 l 0x040 ∧ u16 l 0x040 ≤ 10000),
       (0x042, 16 ≤ u16 l 0x042 ∧ u16 l 0x042 ≤ 1024), (0x044, -400 ≤ s16 l 0x044 ∧ s16 l 0x044 ≤ 400),
       (0x046, 5 ≤ u16 l 0x046 ∧ u16 l 0x046 ≤ 300), (0x048, 100 ≤ u16 l 0x048 ∧ u16 l 0x048 ≤ 60000),
       (0x04A, 100 ≤ u16 l 0x04A ∧ u16 l 0x04A ≤ 60000), (0x04C, 1000 ≤ u16 l 0x04C ∧ u16 l 0x04C ≤ 9000),
       (0x04E, 1000 ≤ u16 l 0x04E ∧ u16 l 0x04E ≤ 9000 ∧ u16 l 0x04E < u16 l 0x04C), (0x050, u16 l 0x050 ≤ 1000)] ++
      ((List.range 4).flatMap fun k =>
        [(0x060 + 4 * k, u8 l (0x060 + 4 * k) ≤ 4), (0x061 + 4 * k, u8 l (0x061 + 4 * k) ≤ 1),
         (0x062 + 4 * k, 5 ≤ u8 l (0x062 + 4 * k) ∧ u8 l (0x062 + 4 * k) ≤ 100)]) ++
      [(0x070, u8 l 0x070 ≤ 1), (0x080, u16 l 0x080 ≤ 1000), (0x082, u16 l 0x082 ≤ 10000), (0x084, u16 l 0x084 ≤ 10000),
       (0x086, 1 ≤ u16 l 0x086 ∧ u16 l 0x086 ≤ 1000)] ++
      ((List.range 33).map fun i =>
        (0x088 + 2 * i, u16 l (0x088 + 2 * i) ≤ 4095 ∧
          if i = 0 then u16 l 0x088 = 0 else u16 l (0x088 + 2 * (i - 1)) ≤ u16 l (0x088 + 2 * i))) ++
      [(0x0D2, 1 ≤ u16 l 0x0D2 ∧ u16 l 0x0D2 ≤ 600), (0x0E0, u16 l 0x0E0 ≤ 10000),
       (0x0E2, 1 ≤ u8 l 0x0E2 ∧ u8 l 0x0E2 ≤ 60), (0x0E3, 1 ≤ u8 l 0x0E3 ∧ u8 l 0x0E3 ≤ 100)]
    ((∀ q ∈ fields, q.2) → settingsFailure (parseSettings l) base = none) ∧
    (∀ pre q post, fields = pre ++ q :: post → (∀ p ∈ pre, p.2) → ¬q.2 →
      settingsFailure (parseSettings l) base = some q.1)) ∧
  (∀ (x : Answer) (data : List Byte) (s : State) (b : Burst) (d : SettingsLoad), b.user = .settings → b.fate = .live →
    s.sif.load = some d → s.sif.loadQueue = [] →
    let t := complete b x data s
    let l := d.got ++ data
    let n := parseSettings l
    let ended : State := { s with sif.load := none }
    let failed := fun (offset : Nat) =>
      (d.source = .start → s.rsc.part = .starting → t = { ended with
        sif.err := true, sif.errOffset := BitVec.ofNat 10 offset, rsc.part := .stopped, meu.tempTimer := none }) ∧
      (∀ r, d.source = .request r → endsBy .control [(r, [(6, le16 offset)], 32)] s t ∧ t.sif.posted = s.postedBy .control 1 ∧
        t.sansRequests = ended.sansRequests)
    (x ≠ .okay → failed 0x200) ∧
    (∀ c left, x = .okay → d.left = c :: left → t = { s with
      sif.load := some ⟨d.source, left, l⟩
      mpt.stationQueue := s.mpt.stationQueue ++ [stationBurst .settings false c.1 c.2 []] }) ∧
    (∀ o, x = .okay → d.left = [] → settingsFailure n s.baseAddr = some o → failed o) ∧
    (x = .okay → d.left = [] → settingsFailure n s.baseAddr = none →
      let differs := s.cfg.width ≠ n.width ∨ s.cfg.height ≠ n.height ∨ s.cfg.buffer ≠ n.buffer
      let resized := s.cfg.width ≠ n.width ∨ s.cfg.height ≠ n.height
      let busy := (∃ q ∈ s.upe.lanes, q.state ≠ .free) ∨ s.upe.list ≠ []
      let ceiling := match s.meu.supply with
        | .normal => 1000
        | .low => n.lowCeiling
        | .critical => 0
      let applied := t.settings = some n ∧ t.sif.live = true ∧ t.sif.mask = BitVec.ofNat 12 (u16 l 0) ∧
        t.sif.int = intOf t.sif.mask t.sif.posted t.sif.acked ∧
        (if s.cfg.lowThreshold = n.lowThreshold ∧ s.cfg.criticalThreshold = n.criticalThreshold ∧ s.cfg.hysteresis = n.hysteresis
          then t.meu.down = s.meu.down ∧ t.meu.deep = s.meu.deep ∧ t.meu.up = s.meu.up ∧ t.meu.high = s.meu.high
          else t.meu.down = 0 ∧ t.meu.deep = false ∧ t.meu.up = 0 ∧ t.meu.high = false) ∧
        t.ltu.gammaDirty = (s.ltu.gammaDirty || n.gamma != s.cfg.gamma) ∧
        (t.mem = s.mem ∧ t.partTime = s.partTime ∧ t.mpt.inflight = s.mpt.inflight ∧ t.wfs = s.wfs ∧ t.fsc = s.fsc ∧ t.dlc = s.dlc)
      (d.source = .start → s.rsc.part = .starting → s.ktu.lines.length = 4 → applied ∧
        (∀ i, i < 4 → t.line i =
          if (s.line i).state = .idle ∧ keyActive (n.keys.getD i {}).polarity (s.line i).level = true
          then ⟨(s.line i).level, .bouncing, some ⟨s.partTime, (n.keys.getD i {}).debounce⟩⟩ else s.line i) ∧
        t.ltu.ceiling = ceiling ∧ t.ltu.ramp = s.ltu.ramp ∧
        t.meu.requester = true ∧ t.meu.batteryTimer = some ⟨s.partTime, n.batteryInterval⟩ ∧
        (s.meu.adc = none → s.meu.tempPlace = false → s.meu.batteryPlace = false → t.meu.adc = some .battery) ∧
        (∃ p, t.upe = { s.upe with pass := some p } ∧ p.row = 0 ∧ p.geom = ⟨n.width, n.height, n.buffer⟩ ∧
          p.kind = .sweep (decide (s.upe.lastSweep ≠ some ⟨n.width, n.height, n.buffer⟩)) true) ∧
        t.rsc = s.rsc ∧ t.pss = s.pss ∧ t.sif.posted = s.sif.posted ∧ t.finalWrites = s.finalWrites) ∧
      (∀ r, d.source = .request r → differs → busy → ∃ o : BitVec 10,
        endsBy .control [(r, [(6, le16 o.toNat)], 36)] s t ∧ t.sif.posted = s.postedBy .control 1 ∧
        t.sansRequests = ({ ended with fresh := s.fresh + 1 } : State).sansRequests) ∧
      (∀ r, d.source = .request r → ¬(differs ∧ busy) → s.pss.rail ≠ .locked → s.ktu.lines.length = 4 →
        (∃ o : BitVec 10, endsBy .control [(r, [(6, le16 o.toNat)], 16)] s t) ∧ t.sif.posted = s.postedBy .control 1 ∧ applied ∧
        (∀ i, i < 4 →
          let k := s.line i
          let q := n.keys.getD i {}
          t.line i = if (s.cfg.keys.getD i {}).polarity = q.polarity then k
            else if keyActive q.polarity k.level = true then ⟨k.level, .bouncing, some ⟨s.partTime, q.debounce⟩⟩
            else ⟨k.level, .idle, none⟩) ∧
        (s.cfg.lowCeiling = n.lowCeiling ∨ ceiling = s.ltu.ceiling →
          t.ltu.ceiling = s.ltu.ceiling ∧ t.ltu.ramp = s.ltu.ramp) ∧
        (s.cfg.lowCeiling ≠ n.lowCeiling → ceiling ≠ s.ltu.ceiling → t.ltu.ceiling = ceiling ∧
          t.ltu.light = s.ltu.light ∧ t.ltu.detached = (s.ltu.detached && s.ltu.restDark) ∧
          t.ltu.ramp = if s.ltu.restDark = true then s.ltu.ramp
            else some ⟨s.ltu.level, s.ltu.warmth, if s.ltu.keyOff = true then 0 else min s.ltu.lr ceiling, s.ltu.mr,
              fadeSteps n.ceilingFade, 0, .ceiling⟩) ∧
        (¬differs → t.upe = s.upe ∧ t.ktu.forward = s.ktu.forward ∧ t.ktu.backward = s.ktu.backward) ∧
        (differs → t.upe.uncertain = true ∧ t.upe.list = [] ∧ t.upe.cadence = s.upe.cadence ∧
          t.upe.current = (if resized then none else s.upe.current) ∧
          t.ktu.forward = (if resized then [] else s.ktu.forward) ∧ t.ktu.backward = (if resized then [] else s.ktu.backward) ∧
          (s.upe.pass = none → ∃ p, t.upe.pass = some p ∧ p.kind = .sweep true false ∧ p.row = 0 ∧
            p.geom = ⟨n.width, n.height, n.buffer⟩) ∧
          (s.upe.pass ≠ none → t.upe.pass = s.upe.pass ∧ t.upe.sweepWaiting = true)) ∧
        t.rsc = s.rsc ∧ t.pss = s.pss) ∧
      (∀ r, d.source = .request r → ¬(differs ∧ busy) → s.pss.rail = .locked → ¬(s.rsc.part = .run ∧ s.meu.supply = .critical) →
        (∃ o : BitVec 10, endsBy .control [(r, [(6, le16 o.toNat)], 16)] s t) ∧ t.settings = some n ∧ t.pss.history = [] ∧
        ((∀ q ∈ s.upe.lanes, q.state ≠ .arming) → t.pss.rail = .off) ∧ t.rsc = s.rsc)))

/-- A TURNS SEEN handed over in RUN removes the n oldest log entries, n clamped to the entries there are, and is finalized DONE
with the number removed (R127), in byte 7, the flags' other byte not being written (entry 30). -/
def Obligations.TurnsSeenTaken : Prop :=
  ∀ (s : State) (r : Nat) (bytes : List Byte), readyRecord .turnsSeen s = some (r, bytes) → s.rsc.part = .run →
    let n := min (u8 bytes 6) s.ktu.log.length
    ∃ t, exec .turnsSeen s = .next (portGrants t) ∧ finalizedAt .control r [(7, le8 n)] 16 s t ∧
      t.ktu.log.length + n = s.ktu.log.length ∧ s.ktu.log = s.ktu.log.take n ++ t.ktu.log ∧
      t.sansRequests = ({ s with ktu.log := t.ktu.log, ktu.logDirty := false } : State).sansRequests

/-! ### Records of the FETCH chain -/

/-- The checks of R156 on an OPEN handed over, in their order, each with its code, and nothing else changed; the result's reason
is 0, in byte 7, the flags' other byte not being written (entry 30). An OPEN that passes them: with RESUME the slot is claimed and
its progress record read, 160 bytes at 0x500 + 160 × slot of the station block, the first burst at once if no other resume read is
under way (entry 58); without, the slot becomes OPEN with an empty map, its stamp the part time and its stall timer started, and
its progress record is written (R157, R158, R165, R168). In REST, REST_TURN and WAKING no OPEN is taken (entry 7). The end of a
download stop is opened again by an OPEN accepted after it (entry 27). A resume read's burst completes (R157): the next one is
made; failing, the OPEN is finalized MEMORY_ERROR, after WINDOW as after ERROR (entry 36), also where a CLOSE has cancelled it
(entry 48), the bursts left of the read not being made (entry 59); after the last one a cancelled claim ends CANCELLED, the first
failing check of the progress record refuses it REFUSED_FORMAT with its reason, and else the slot takes its map, OPEN, or
VERIFYING when nothing is missing. With another resume read asked for, the end of the one begins the next (entry 58). -/
def Obligations.OpenTaken : Prop :=
  (∀ (s : State) (r : Nat) (bytes : List Byte), readyRecord .openFile s = some (r, bytes) →
    s.rsc.part ≠ .rest → s.rsc.part ≠ .restTurn → s.rsc.part ≠ .waking →
    let i := u8 bytes 0x10
    let q : OpenReq := ⟨r, BitVec.ofNat 16 (u16 bytes 0x12), u32 bytes 0x14, u32 bytes 0x18, BitVec.ofNat 32 (u32 bytes 0x1C)⟩
    let sized := 1 ≤ q.len ∧ q.len ≤ 268435456
    let unused := (s.slot i).state = .free ∧ (s.slot i).claim = none
    let held := ∃ j, j < 4 ∧ j ≠ i ∧
      ((s.slot j).state ≠ .free ∧ (s.slot j).file = q.file ∨ ∃ c, (s.slot j).claim = some c ∧ c.req.file = q.file)
    let inside := s.rangeOk q.dest q.len = true
    let stop := if s.dlc.stop = StopState.stopped then StopState.stopping else s.dlc.stop
    let refused := fun (code : Nat) => ∃ t, exec .openFile s = .next (portGrants t) ∧ finalizedAt .fetch r [(7, [0])] code s t ∧
      t.sansRequests = s.sansRequests
    (3 < i → refused 33) ∧
    (i ≤ 3 → ¬sized → refused 33) ∧
    (i ≤ 3 → sized → ¬unused → refused 36) ∧
    (i ≤ 3 → sized → unused → held → refused 37) ∧
    (i ≤ 3 → sized → unused → ¬held → ¬inside → refused 34) ∧
    (i ≤ 3 → sized → unused → ¬held → inside → flagsOf bytes % 2 = 1 →
      let a := s.baseAddr + 0x500 + 160 * i
      ∃ t left, exec .openFile s = .next (portGrants t) ∧ takenAt .fetch r s t ∧
        (a, min (64 - a % 64) 160) :: left = blocks a 160 ∧
        (s.dlc.resumes = [] → t.mpt.stationQueue = s.mpt.stationQueue ++
          [stationBurst (.walk .fetch) true (r + 5) 1 [1], stationBurst .resume false a (min (64 - a % 64) 160) []]) ∧
        t.sansRequests = ({ s with
          dlc.slots := s.dlc.slots.set i { s.slot i with claim := some { req := q, cancelled := false } }
          dlc.resumes := if s.dlc.resumes = [] then [⟨i, left, []⟩] else s.dlc.resumes ++ [⟨i, blocks a 160, []⟩]
          dlc.stop := stop } : State).sansRequests) ∧
    (i ≤ 3 → sized → unused → ¬held → inside → flagsOf bytes % 2 = 0 →
      ∃ t, exec .openFile s = .next (portGrants t) ∧ takenAt .fetch r s t ∧
        (s.sif.writers.length = 8 → t.asked (.progress i)) ∧
        t.sansRequests = ({ s with
          dlc.slots := s.dlc.slots.set i
            { state := .opened, file := q.file, dest := q.dest, len := q.len, crc := q.crc, stamp := s.partTime, record := r
              timer := some ⟨s.partTime, s.cfg.stallLimit * 1000⟩ }
          dlc.stop := stop } : State).sansRequests)) ∧
  (∀ s : State, s.rsc.part = .rest ∨ s.rsc.part = .restTurn ∨ s.rsc.part = .waking →
    exec .openFile s = .next (portGrants s)) ∧
  (∀ (x : Answer) (data : List Byte) (s : State) (b : Burst) (d : Resume) (c : Claim), b.user = .resume → b.fate = .live →
    s.dlc.resumes = [d] → d.slot < s.dlc.slots.length → (s.slot d.slot).claim = some c →
    let t := complete b x data s
    let l := d.got ++ data
    let q := c.req
    let m := (List.range (u8 l 1)).map fun k => (u32 l (0x20 + 8 * k), u32 l (0x24 + 8 * k))
    let whole := m = [(0, q.len)]
    let ended := fun (reason code : Nat) => endsBy .fetch [(q.record, [(7, le8 reason)], code)] s t ∧
      t.sif.posted = s.postedBy .fetch 1 ∧
      t.sansRequests = ({ s with
        dlc.resumes := [], dlc.slots := s.dlc.slots.set d.slot { s.slot d.slot with claim := none } } : State).sansRequests
    (x ≠ .okay → ended 0 53) ∧
    (∀ p left, x = .okay → d.left = p :: left → t = { s with
      dlc.resumes := [⟨d.slot, left, l⟩]
      mpt.stationQueue := s.mpt.stationQueue ++ [stationBurst .resume false p.1 p.2 []] }) ∧
    (x = .okay → d.left = [] → c.cancelled = true → ended 0 48) ∧
    (x = .okay → d.left = [] → c.cancelled = false →
      let known := u8 l 0 < 7
      let same := u16 l 2 = q.file.toNat
      let long := u32 l 4 = q.len
      let few := u8 l 1 ≤ 16
      let order := extentsOk q.len m = true
      let sum := u32 l 0x10 = extentSum m
      (¬known → ended 1 32) ∧ (known → ¬same → ended 2 32) ∧ (known → same → ¬long → ended 3 32) ∧
      (known → same → long → ¬few → ended 4 32) ∧ (known → same → long → few → ¬order → ended 5 32) ∧
      (known → same → long → few → order → ¬sum → ended 6 32) ∧
      (known → same → long → few → order → sum → t.sansStatus = ({ s with
        dlc.resumes := []
        dlc.slots := s.dlc.slots.set d.slot
          { state := if whole then .verifying else .opened, file := q.file, dest := q.dest, len := q.len, crc := q.crc
            extents := m, received := extentSum m, stamp := s.partTime, record := q.record
            timer := if whole then none else some ⟨s.partTime, s.cfg.stallLimit * 1000⟩ }
        dlc.verifyQueue := if whole then s.dlc.verifyQueue ++ [d.slot] else s.dlc.verifyQueue
        dlc.stop := if s.dlc.stop = StopState.stopped then StopState.stopping else s.dlc.stop } : State).sansStatus))) ∧
  (∀ (x : Answer) (data : List Byte) (s : State) (b : Burst) (d e : Resume) (l : List Resume) (y : Nat × Nat)
    (left : List (Nat × Nat)), b.user = .resume → b.fate = .live → s.dlc.resumes = d :: e :: l → x ≠ .okay ∨ d.left = [] → e.left = y :: left →
    let t := complete b x data s
    t.dlc.resumes = ⟨e.slot, left, e.got⟩ :: l ∧
    ∃ q, t.mpt.stationQueue = s.mpt.stationQueue ++ q ++ [stationBurst .resume false y.1 y.2 []])

/-- A CLOSE handed over, by the state of its slot (R159): a slot above 3 is REFUSED_RANGE, with one of the state codes as its
result, which one being free (entry 12); a FREE slot stands, but that a claim is marked cancelled; a VERIFIED or CORRUPT slot
becomes FREE; and the CLOSE's result is the state before it; that the flags' other byte is not written, here and with an OPEN's
result, is entry 30. A CLOSE of a slot in use (R159, R164, R167): the OPEN record is finalized CANCELLED and then the CLOSE DONE,
FETCH_DONE being posted for both, the slot becomes FREE with map and counts as they stood, and a verify pass or dispatch for it is
abandoned, the dispatch's chunk leaving the FIFO uncounted. -/
def Obligations.CloseTaken : Prop :=
  (∀ (s : State) (r : Nat) (bytes : List Byte), readyRecord .closeFile s = some (r, bytes) →
    let i := flagsOf bytes % 4
    let f := s.slot i
    let high := flagsOf bytes / 4 % 2 = 1
    (high → ∃ (t : State) (x : Byte), x.toNat < 7 ∧ exec .closeFile s = .next (portGrants t) ∧
      finalizedAt .fetch r [(7, [x])] 33 s t ∧ t.sansRequests = ({ s with fresh := s.fresh + 1 } : State).sansRequests) ∧
    (¬high → f.state = .free → ∃ t, exec .closeFile s = .next (portGrants t) ∧ finalizedAt .fetch r [(7, [0])] 16 s t ∧
      t.sansRequests = (match f.claim with
        | none => s
        | some c => s.setSlot i { f with claim := some { c with cancelled := true } }).sansRequests) ∧
    (¬high → f.state = .verified ∨ f.state = .corrupt → ∃ t, exec .closeFile s = .next (portGrants t) ∧
      finalizedAt .fetch r [(7, [if f.state = .verified then 4 else 5])] 16 s t ∧
      t.sansRequests = (s.setSlot i { f with state := .free, timer := none, interrupted := false }).sansRequests)) ∧
  (∀ (s : State) (r : Nat) (bytes : List Byte), readyRecord .closeFile s = some (r, bytes) →
    let i := flagsOf bytes % 4
    let f := s.slot i
    let code := if f.state = .opened then 1 else if f.state = .stalled then 2 else 3
    flagsOf bytes / 4 % 2 = 0 → f.state = .opened ∨ f.state = .stalled ∨ f.state = .verifying →
    ∃ t, exec .closeFile s = .next (portGrants t) ∧
      takenEnding .fetch r [(f.record, [(7, [0])], 48), (r, [(7, le8 code)], 16)] s t ∧
      t.dlc.slots = s.dlc.slots.set i { f with state := .free, timer := none, interrupted := false } ∧
      (∀ d, t.dlc.dispatch = some d → d.slot ≠ i ∨ f.state = .verifying) ∧
      (f.state = .verifying → i ∉ t.dlc.verifyQueue ∧ ∀ v, t.dlc.verify = some v → v.slot ≠ i) ∧
      t.dlc.fifo = (match s.dlc.dispatch with
        | some d => if d.slot = i ∧ f.state ≠ .verifying then s.dlc.fifo.tail else s.dlc.fifo
        | none => s.dlc.fifo) ∧
      t.dlc.counters = s.dlc.counters ∧
      t.mem = s.mem ∧ t.upe = s.upe ∧ t.rsc = s.rsc ∧ t.ktu = s.ktu ∧ t.ltu = s.ltu ∧ t.meu = s.meu)

/-! ### The panel -/

/-- The admission of the entry the scan finds eligible, `s1` being the state the scan leaves (R67, R68, R69, R82, R97): the
lowest-numbered FREE lane takes the entry and is bound to the READY store entry of its key; the entry leaves the list, and is no
holder; a full-screen admission moves the clear-cadence counter, the current page and a turn's lists (R122); the idle hold stops;
the rails rise if they are OFF; the admission pass begins. The panel status is asked for, the scan runs at once, also before
lookups that a report is still to have made again (entry 67), and under the limit the quiesce may be abandoned. Nothing else
changes. With no eligible entry nothing is admitted (entry 5). Which entry is eligible (R62, R64, R67): one the scan finds is
keyed and unblocked, and the conditions of R67 hold; a keyed or NO_ROOM entry that the scan meets is eligible exactly when it is
unblocked, those conditions hold, and the table for the mode now decided and its band is READY; one that is SAMPLING or LOADING is
not; and what the conditions are. An unblocked entry in NONE, the temperature fresh, chooses its key: the generation in force, the
mode decided for it and the band selected for the temperature, with the promotion's note, looks it up, takes the store state of
the answer, and is then tested as such an entry is (R62, R63, R64, R65); without an active image it stays as it is. Every band
selection posts TEMPERATURE once for a temperature below the first bound or at or above the upper limit, and nothing otherwise,
and changes nothing else but the history (R50). -/
def Obligations.EligibleEntryIsAdmitted : Prop :=
  (∀ (s s1 : State) (id n i : Nat) (e : Entry) (k : StoreKey),
    scanFor s = (some id, s1) → findListed id s1 = some e → e.key = some k →
    freeLaneNumber s1 = some n → findEntry (StoreEntry.holds .ready k) s1 = some i →
    let full := e.rect = ⟨0, 0, s1.cfg.width, s1.cfg.height⟩
    ((s1.lane n).state = .free ∧ ∀ m, m < n → (s1.lane m).state ≠ .free) ∧
    ∃ v, exec .admission s = .next (portGrants (abandonTest (scan (ask .panel (beginPass (.admission n) (railsRise v)))))) ∧
      v.upe.lanes = s1.upe.lanes.set n
        { state := .arming, id := e.id, rect := e.rect, origin := e.origin, policy := e.policy, source := e.source
          stride := e.stride, mode := k.mode, store := i, band := k.band, frames := (s1.store i).frames, note := e.note } ∧
      (v.upe.list.map fun x => { x with again := false }) =
        (s1.upe.list.filter fun x => x.id != e.id).map (fun x => { x with again := false }) ∧
      (∀ j, v.store j = { s1.store j with
        refs := if j = i then (s1.store j).refs + 1 else (s1.store j).refs
        stamp := if j = i then s1.partTime else (s1.store j).stamp
        holder := if (s1.store j).holder = some e.id then none else (s1.store j).holder }) ∧
      v.upe.cadence = (if full then (match k.mode with
        | .clear => 0
        | .gray => min 255 (s1.upe.cadence + 1)
        | .quick => s1.upe.cadence) else s1.upe.cadence) ∧
      v.upe.current = (if full then e.tag.map fun x => Page.mk x e.source e.stride else s1.upe.current) ∧
      v.ktu = (if full ∧ e.origin = .turn then (turnAdmitted s1.upe.current s1).ktu else s1.ktu) ∧
      (n < s1.upe.lanes.length → v.pss.idleTimer = if s1.pss.rail = .on then none else s1.pss.idleTimer) ∧
      ({ v with
        upe.lanes := s1.upe.lanes, upe.list := s1.upe.list, upe.cadence := s1.upe.cadence, upe.current := s1.upe.current
        wfs.entries := s1.wfs.entries, ktu := s1.ktu, pss.idleTimer := s1.pss.idleTimer } : State).sansStatus = s1.sansStatus) ∧
  (∀ s : State, (scanFor s).1 = none → exec .admission s = .next (portGrants s)) ∧
  (∀ (s s1 : State) (id : Nat), scanFor s = (some id, s1) → ∃ e k i, findListed id s1 = some e ∧ e.key = some k ∧
    findEntry (StoreEntry.holds .ready k) s1 = some i ∧ isBlocked s1.upe.list e = false ∧ mayAdmit s1 = true ∧ waitOk e s1 = true) ∧
  (∀ (s : State) (e : Entry), findListed e.id s = some e →
    (∀ k, e.key = some k → e.st = .keyed ∨ e.st = .noRoom → ((scanEntry e.id s).1 = true ↔
      isBlocked s.upe.list e = false ∧ mayAdmit s = true ∧ waitOk e s = true ∧ s.wfs.active ≠ none ∧
      ∃ j, j < 4 ∧ (s.store j).state = .ready ∧ (s.store j).stale = false ∧
        (s.store j).key = some ⟨s.wfs.generation, (decideMode e s).1, k.band⟩)) ∧
    (e.st = .sampling ∨ e.st = .loading ∨ isBlocked s.upe.list e = true → scanEntry e.id s = (false, s)) ∧
    (e.st = .none → isBlocked s.upe.list e = false → tempFresh s = false →
      (scanEntry e.id s).1 = false ∧ findListed e.id (scanEntry e.id s).2 = some { e with st := .sampling } ∧
      (scanEntry e.id s).2.upe.demand = true)) ∧
  (∀ (s : State) (e : Entry), findListed e.id s = some e → e.st = .none → isBlocked s.upe.list e = false → tempFresh s = true →
    (s.wfs.active = none → scanEntry e.id s = (false, s)) ∧
    (∀ im x, s.wfs.active = some im → s.meu.temperature = some x →
      let m := decideMode e s
      let b := selectBand im x.value s
      let r := lookupFor e.id m.1 b.1 m.2 b.2
      scanEntry e.id s = scanEntry e.id r.2 ∧
      findListed e.id r.2 = some { e with
        st := match r.1 with
          | .found _ => .keyed
          | .loading => .loading
          | .noRoom => .noRoom
          | .noImage => .none
        key := some ⟨s.wfs.generation, m.1, b.1⟩, note := m.2, again := false })) ∧
  (∀ (im : Image) (t : Int) (s : State),
    let u := (selectBand im t s).2
    u.sif.posted = (if t < im.bands.getD 0 0 ∨ im.upper ≤ t then s.postedOnce .temperature else s.sif.posted) ∧
    ({ u with wfs.history := s.wfs.history } : State).sansPosts = s.sansPosts) ∧
  (∀ s : State, tempFresh s = true ↔
    ∃ x, s.meu.temperature = some x ∧ x.aged = false ∧ (s.partTime - x.stamp).toNat ≤ s.cfg.tempMaxAge * 1000) ∧
  (∀ (s : State) (e : Entry),
    (mayAdmit s = true ↔ (s.rsc.part = .run ∨ s.rsc.part = .quiesce ∨ s.rsc.part = .restTurn) ∧ s.pss.rail ≠ .locked ∧
      (∃ l ∈ s.upe.lanes, l.state = .free) ∧ s.upe.pass = none ∧ s.upe.retireQueue = [] ∧ s.upe.sweepWaiting = false) ∧
    (waitOk e s = true ↔ e.policy = .overlap ∨ ∀ l ∈ s.upe.lanes, l.state ≠ .free → l.rect.intersects e.rect = false) ∧
    decideMode e s =
      (if e.rect = ⟨0, 0, s.cfg.width, s.cfg.height⟩ ∧ s.upe.uncertain = true then (.clear, true)
       else if e.rect = ⟨0, 0, s.cfg.width, s.cfg.height⟩ ∧ e.mode = .gray ∧ 0 < s.cfg.cadence ∧ s.cfg.cadence ≤ s.upe.cadence + 1
       then (.clear, false) else (e.mode, false))) ∧
  (∀ (e : Entry) (older younger : List Entry), (∀ o ∈ older, o.id ≠ e.id) →
    (isBlocked (older ++ e :: younger) e = true ↔ ∃ o ∈ older, o.rect.intersects e.rect = true)) ∧
  (∀ a b : Rect, 1 ≤ a.w → 1 ≤ a.h → 1 ≤ b.w → 1 ≤ b.h → (a.intersects b = true ↔
    ∃ x y, (a.x ≤ x ∧ x < a.x + a.w ∧ a.y ≤ y ∧ y < a.y + a.h) ∧ (b.x ≤ x ∧ x < b.x + b.w ∧ b.y ≤ y ∧ y < b.y + b.h)))

/-- The admission scan, and the lookups made again, keep the waiting updates in their order with all they ask for; beside their
store states, keys, notes and marks, and the note of a report so made, they change the store, the band history, the measurement
requests, the bursts of store loads and of status writes, and posts of TEMPERATURE with the INT that follows, and nothing else
(R63, R65, R66, R67): `ScanOnly` of Safety.lean says so field by field. Lookups marked to be made again are made, oldest first,
each with the entry's own mode and band and posting nothing, and the scan runs; it runs too when a lookup of a scan has made such
a report since a scan last began (entry 8); otherwise nothing is done. A lookup (R41): without an active image NO_IMAGE; else the
lowest entry that holds the key READY, not stale; else LOADING when one is being loaded with it; else a load begins in the lowest
EMPTY entry, or in the READY one, not stale, unused and unheld, with the oldest stamp (R42), or, without one, NO_ROOM. A load
gives the entry the key, the asker as its holder, and frame count and table address from the image's directory at 12 × mode +
band, and makes the table's first read (R43). The asker's hold of an entry with another key is cleared, a READY one so freed being
reported (R47, R66) and the scan let run once more (R67); that this comes first is entry 50. The asker takes the key, the note and
the store state of the answer, unmarked (R65). -/
def Obligations.WaitingUpdatesAreLookedAt : Prop :=
  (∀ s : State, ScanOnly s (scan s) ∧ scan s = (scanFor { s with upe.rescan := false }).2) ∧
  (∀ s : State,
    ((∃ e ∈ s.upe.list, e.again = true) ∨ s.upe.rescan = true → ∃ u, exec .storeLookupRetry s = .next (portGrants (scan u)) ∧
      u = relookList (s.upe.list.map Entry.id) s ∧ ScanOnly s u ∧ u.sif = s.sif ∧ u.meu = s.meu ∧
      u.mpt.stationQueue = s.mpt.stationQueue ∧ u.wfs.history = s.wfs.history) ∧
    ((∀ e ∈ s.upe.list, e.again = false) → s.upe.rescan = false → exec .storeLookupRetry s = .next (portGrants s))) ∧
  (∀ (s : State) (id : Nat) (l : List Nat),
    (∀ e k, findListed id s = some e → e.again = true → e.key = some k →
      relookList (id :: l) s = relookList l (lookupFor id k.mode k.band e.note s).2) ∧
    ((∀ e, findListed id s = some e → e.again = false ∨ e.key = none) → relookList (id :: l) s = relookList l s)) ∧
  (∀ s : State, relookList [] s = s) ∧
  (∀ (s : State) (id band : Nat) (mode : Mode) (note : Bool),
    let r := lookup id mode band s
    lookupFor id mode band note s = (r.1, { r.2 with upe.list := r.2.upe.list.map fun e =>
      if e.id = id then { e with
        st := match r.1 with
          | .found _ => .keyed
          | .loading => .loading
          | .noRoom => .noRoom
          | .noImage => .none
        key := some ⟨s.wfs.generation, mode, band⟩, note := note, again := false } else e })) ∧
  (∀ (s : State) (id band : Nat) (mode : Mode), s.wfs.active = none → lookup id mode band s = (.noImage, s)) ∧
  (∀ (s : State) (id band : Nat) (mode : Mode) (im : Image), s.wfs.active = some im →
    let k : StoreKey := ⟨s.wfs.generation, mode, band⟩
    let r := lookup id mode band s
    let freed := ∃ e ∈ s.wfs.entries, e.holder = some id ∧ e.key ≠ some k ∧ e.state = .ready ∧ e.refs = 0
    ∃ u : State,
      (freed → u.upe.rescan = true ∧ u.upe.list = s.upe.list.map fun x => if x.st = .noRoom then { x with again := true } else x) ∧
      (¬freed → u.upe.rescan = s.upe.rescan ∧ u.upe.list = s.upe.list) ∧
      u = { s with
        wfs.entries := s.wfs.entries.map fun e => if e.holder = some id ∧ e.key ≠ some k then { e with holder := none } else e
        upe.list := u.upe.list, upe.rescan := u.upe.rescan } ∧
      (let holds := fun (st : EntryState) (i : Nat) =>
         i < 4 ∧ (u.store i).state = st ∧ (u.store i).stale = false ∧ (u.store i).key = some k
       let empty := fun (i : Nat) => i < 4 ∧ (u.store i).state = .empty
       let unused := fun (i : Nat) =>
         i < 4 ∧ (u.store i).state = .ready ∧ (u.store i).stale = false ∧ (u.store i).refs = 0 ∧ (u.store i).holder = none
       let age := fun (i : Nat) => (s.partTime - (u.store i).stamp).toNat
       let d := im.dir.getD (mode.num * 12 + band) (0, 0)
       let loads := fun (i : Nat) => r = (.loading, { u with
         wfs.entries := u.wfs.entries.set i
           { state := .loading, key := some k, frames := d.2, table := [], stale := false, refs := 0, holder := some id
             stamp := (u.store i).stamp, loadAddr := im.addr + d.1 + 64, loadLeft := d.2 - 1 }
         mpt.waveQueue := s.mpt.waveQueue ++
           [{ client := .waveform, user := .load i, write := false, addr := im.addr + d.1, len := 64, data := [] }] })
       let new := (∀ i, ¬holds .ready i) ∧ ∀ i, ¬holds .loading i
       (∀ i, holds .ready i → (∀ j, j < i → ¬holds .ready j) → r = (.found i, u)) ∧
       ((∀ i, ¬holds .ready i) → (∃ i, holds .loading i) → r = (.loading, u)) ∧
       (∀ i, new → empty i → (∀ j, j < i → ¬empty j) → loads i) ∧
       (∀ i, new → (∀ j, ¬empty j) → unused i → (∀ j, unused j → age j < age i ∨ age j = age i ∧ i ≤ j) → loads i) ∧
       (new → (∀ j, ¬empty j) → (∀ j, ¬unused j) → r = (.noRoom, u))))

/-- With the Pixel Pass Unit idle, the retire pass waiting longest begins with the read of its first row's segment (R73, R78). The
last write-back of a pass's last row completes OKAY and the unit is idle: the end of an admission pass with pixels marked leaves
its lane finished, and the scan runs unless a retire pass waits; with none marked, and at the end of a retire pass, the lane
becomes FREE, its store entry is released, the scan runs at once, also before the lookups that this report marks (R66, R67, entry
67), and its update ends with the code of R77 or R79 and its results, in its record, its turn's log entry or the rest image's
state (R59, R70); a rest turn's end is reported to the Rest Controller, which waits, or, with a wake cause pending, wakes the part
with it, stated with memory AWAKE, no press waiting and the supply not CRITICAL (R196, R197; the wake's values are entry 22, its
fade entry 42); an abort sets panel-image-uncertain, an update without error whose key was chosen under it clears it (R79, R81);
the end of a sweep keeps its geometry and leads to RUN after START or to the scan (R80), or to the sweep that waits (entry 24). A
failed PIXEL access gives the row up and the pass goes on with the next one: the lane keeps the first error, a failed write-back
takes back the row's marked pixels, and every failed access but that of the source image sets panel-image-uncertain (R56, R76,
R78, R80, R81); that a failed segment read of an admission pass does is entry 53, and that the rest of the row's bursts are not
made is entry 54. -/
def Obligations.PassesBeginAndEnd : Prop :=
  (∀ (s : State) (i : Nat) (q : List Nat), s.upe.pass = none → s.upe.retireQueue = i :: q →
    let r := (s.lane i).rect
    let p : Pass :=
      { kind := .retire i, geom := ⟨s.cfg.width, s.cfg.height, s.cfg.buffer⟩, row := r.y, phase := .segment
        left := blocks (s.cfg.buffer + 2 * (r.y * s.cfg.width + r.x)) (2 * r.w) }
    exec .retirePassBegin s = .next (portGrants { s with upe.retireQueue := q, upe.pass := some p })) ∧
  (∀ (data : List Byte) (s : State) (b : Burst) (p : Pass), b.user = .pixel → b.fate = .live → s.upe.pass = some p →
    p.phase = .writeBack → p.out = [] →
    let t := complete b .okay data s
    let idle : State := { s with upe.pass := none }
    let ended := fun (i : Nat) (lanes : List Lane) (uncertain : Bool) (c : Code) (n : Nat) => ∃ v, t = scan v ∧
      v.upe.lanes = lanes.set i {} ∧ v.upe.pass = none ∧ v.upe.uncertain = uncertain ∧
      (v.store (s.lane i).store).refs = (s.store (s.lane i).store).refs - 1 ∧
      (∀ a, (s.lane i).origin = .record a →
        endsBy .page [(a, [(0x21, le8 (s.lane i).mode.num ++ le8 (s.lane i).band ++ le8 i),
          (0x28, le32 (s.lane i).marked ++ le32 (s.lane i).collided)], n)] s v ∧ v.sif.posted = s.postedBy .page 1 ∧
        ({ v with upe.lanes := s.upe.lanes, upe.list := s.upe.list, upe.pass := s.upe.pass, upe.uncertain := s.upe.uncertain
                  wfs.entries := s.wfs.entries, pss.idleTimer := s.pss.idleTimer } : State).sansRequests = s.sansRequests) ∧
      (∀ r, (s.lane i).origin = .turn → s.ktu.turnRec = some r → s.rsc.part ≠ .restTurn → v.ktu.turn = .idle ∧
        v.ktu.log = s.ktu.log ++ [⟨r.dir, r.page.tag, s.partTime, c, r.dropped, r.ofRest⟩]) ∧
      (∀ r, (s.lane i).origin = .turn → s.ktu.turnRec = some r → s.rsc.part = .restTurn →
        (s.rsc.pendingWake = none → v.ktu = s.ktu.ended r c s.partTime ∧ v.rsc = { s.rsc with turnOver := true } ∧
          v.sif.posted = s.sif.posted ∧ v.finalWrites = s.finalWrites) ∧
        (∀ w, s.rsc.pendingWake = some w → s.wakesAtOnce → ∃ u, u.ktu = s.ktu.ended r c s.partTime ∧ WakesAlike s u ∧
          u.sif.posted = s.sif.posted ∧ wokenAtOnce w u v)) ∧
      ((s.lane i).origin = .rest → s.rsc.imageId = some (s.lane i).id → v.rsc.imageState = .ended c)
    (∀ i, p.kind = .admission i → (s.lane i).rect.y + (s.lane i).rect.h ≤ p.row + 1 →
      let l := s.lane i
      (0 < l.marked → t = let u := idle.setLane i { l with finished := true }
        if s.upe.retireQueue = [] then scan u else u) ∧
      (l.marked = 0 → ∀ c n, (c, n) = (match l.error with
          | some .memory => (Code.memoryError, 53)
          | some .window => (.window, 34)
          | none => if 0 < l.collided then (.collided, 18) else (.noChange, 17)) →
        ended i s.upe.lanes s.upe.uncertain c n)) ∧
    (∀ i c n, p.kind = .retire i → (s.lane i).rect.y + (s.lane i).rect.h ≤ p.row + 1 →
      let l := s.lane i
      (c, n) = (match l.abort, l.error with
        | some .fault, _ => (Code.panelFault, 50)
        | some .limit, _ => (.aborted, 49)
        | none, some .memory => (.memoryError, 53)
        | none, some .window => (.window, 34)
        | none, none => if 0 < l.collided then (.collided, 18) else (.done, 16)) →
      ended i (if l.abort = none then s.upe.lanes else s.upe.lanes.map fun x => if x.state = .free then x else { x with note := false })
        (if l.abort ≠ none then true else if l.note = true ∧ l.error = none then false else s.upe.uncertain) c n) ∧
    (∀ z st, p.kind = .sweep z st → p.geom.h ≤ p.row + 1 →
      let u : State := { idle with upe.lastSweep := some p.geom }
      (st = true → t = enterRunFromStart u) ∧
      (st = false → s.upe.sweepWaiting = false → t = scan u) ∧
      (st = false → s.upe.sweepWaiting = true → ∃ q, t = { u with upe.sweepWaiting := false, upe.pass := some q } ∧
        q.kind = .sweep true false ∧ q.row = 0 ∧ q.geom = ⟨s.cfg.width, s.cfg.height, s.cfg.buffer⟩))) ∧
  (∀ (x : Answer) (data : List Byte) (s : State) (b : Burst) (p : Pass), b.user = .pixel → b.fate = .live → x ≠ .okay →
    s.upe.pass = some p →
    let t := complete b x data s
    let e : LaneError := if x = .window then .window else .memory
    let next := t.finalWrites = s.finalWrites ∧ t.sif.posted = s.sif.posted ∧ t.mem = s.mem ∧
      ∃ q, t.upe.pass = some q ∧ q.kind = p.kind ∧ q.row = p.row + 1 ∧ q.geom = p.geom
    (∀ i, p.kind = .admission i → i < s.upe.lanes.length → p.row + 1 < (s.lane i).rect.y + (s.lane i).rect.h →
      let l := s.lane i
      next ∧ (t.lane i).error = (if l.error = none then some e else l.error) ∧ (t.lane i).collided = l.collided ∧
      (t.lane i).marked = (if p.phase = .writeBack then l.marked - p.marked else l.marked) ∧
      t.upe.uncertain = (if p.phase = .source then s.upe.uncertain else true)) ∧
    (∀ i, p.kind = .retire i → p.row + 1 < (s.lane i).rect.y + (s.lane i).rect.h →
      next ∧ t.upe.uncertain = true ∧ (t.lane i).error = (s.lane i).error) ∧
    (∀ z st, p.kind = .sweep z st → p.row + 1 < p.geom.h → next ∧ t.upe.uncertain = true))

/-- A frame starts in ON with a lane to drive: every finished ARMING lane becomes DRIVING at index 0, the lane set is the DRIVING
lanes, the frame's geometry and times are those in force, and the first blank line, or row 0, is due (R71, R87). stretch-limit
passes with a line held: the row is given up and driven HOLD, scan errors count it (saturating), and panel-image-uncertain is set
with the notes of the lanes in use cleared (R81, R94, R95). A SCAN burst completes for the row that is FETCHING: OKAY, its records
join the slot, and after the last one the slot is FILLED, and if the row's line is held it is driven from the slot and counted
stretched (saturating); a failed one gives the row up, with the same counts and marks as above, a held line being driven HOLD and
any other left alone (R81, R93, R94, R95; that the count and the flag change with the failed burst, not at the row's line time, is
entry 10). The fetch order goes on at a frame start, and when a row's slot is FILLED or given up (R93): rows that no rectangle of
the lane set meets are passed over; the next one takes a slot if fewer than four are in use and none is FETCHING, with the span
from the leftmost column of those rectangles to the rightmost, and with the reads of the span's records in the working buffer, two
bytes each. The codes of a row (R90): HOLD in a row without a slot or given up, outside the fetched span, and for a record without
the mark of a DRIVING lane whose rectangle holds the pixel; else what the lane's table answers for its frame index and the
record's levels. -/
def Obligations.FramesStartAndRowsAreGivenUp : Prop :=
  (∀ s : State, s.fsc.frame = .still → s.pss.rail = .on →
    (∃ l ∈ s.upe.lanes, l.state = .driving ∨ l.state = .arming ∧ l.finished = true) →
    ∃ t, exec .frameStart s = .next (portGrants t) ∧
      t.upe.lanes = s.upe.lanes.map (fun l =>
        if l.state = .arming ∧ l.finished = true then { l with state := .driving, index := 0 } else l) ∧
      t.fsc.laneSet = (List.range 32).filter (fun i => (t.lane i).state == .driving) ∧
      t.fsc.blank = s.cfg.verticalBlank ∧ t.fsc.period = s.cfg.linePeriod ∧
      t.fsc.width = s.cfg.width ∧ t.fsc.height = s.cfg.height ∧ t.fsc.line = 0 ∧
      t.fsc.frame = (if 0 < s.cfg.verticalBlank then .blank else .scan) ∧
      (let u := assignSlots { t with fsc.slots := [], fsc.fetchRow := 0 }
       t.fsc.slots = u.fsc.slots ∧ t.fsc.fetchRow = u.fsc.fetchRow) ∧
      { t with upe.lanes := s.upe.lanes, fsc := s.fsc } = s) ∧
  (∀ s : State, s.fsc.held ≠ none →
    ∃ t, exec .stretchLimitExpiry s = .next (portGrants t) ∧
      t.fsc.scanErrors.toNat = min 65535 (s.fsc.scanErrors.toNat + 1) ∧ t.upe.uncertain = true ∧
      t.upe.lanes = s.upe.lanes.map (fun l => if l.state = .free then l else { l with note := false }) ∧
      t.fsc.inLine = true ∧ t.fsc.held = none ∧ t.fsc.line = s.fsc.line ∧
      t.fsc.drive = some (s.fsc.line, List.replicate s.fsc.width .hold) ∧
      (let u := assignSlots { s with fsc.slots := s.fsc.slots.map fun q =>
         if q.row = s.fsc.line then { q with givenUp := true, left := [], got := [] } else q }
       t.fsc.slots = u.fsc.slots ∧ t.fsc.fetchRow = u.fsc.fetchRow) ∧
      t.mem = s.mem ∧ t.pss = s.pss ∧ t.rsc = s.rsc ∧ t.ktu = s.ktu ∧ t.upe.list = s.upe.list ∧ t.upe.pass = s.upe.pass) ∧
  (∀ (x : Answer) (data : List Byte) (s : State) (b : Burst) (l : LineSlot), b.user = .scan → b.fate = .live →
    s.fsc.slots.find? (fun q => !q.filled && !q.givenUp) = some l →
    let t := complete b x data s
    let held := s.fsc.held ≠ none ∧ s.fsc.line = l.row
    let row := fun (f : LineSlot → LineSlot) => s.fsc.slots.map fun q => if q.row = l.row then f q else q
    let goesOn := fun (slots : List LineSlot) =>
      let u := assignSlots { s with fsc.slots := slots }
      t.fsc.slots = u.fsc.slots ∧ t.fsc.fetchRow = u.fsc.fetchRow
    (x = .okay → l.left ≠ [] → t = { s with fsc.slots := row fun q => { q with got := q.got ++ data } }) ∧
    (x = .okay → l.left = [] →
      goesOn (row fun q => { q with got := q.got ++ data, filled := true }) ∧
      (¬held → { t with fsc.slots := s.fsc.slots, fsc.fetchRow := s.fsc.fetchRow } = s) ∧
      (held → t.fsc.inLine = true ∧ t.fsc.held = none ∧ t.fsc.drive = some (s.fsc.line, rowCodes t s.fsc.line) ∧
        t.fsc.stretched.toNat = min 65535 (s.fsc.stretched.toNat + 1) ∧ t.fsc.scanErrors = s.fsc.scanErrors ∧
        ({ t with fsc := s.fsc } : State).sansStatus = s.sansStatus)) ∧
    (x ≠ .okay →
      goesOn (row fun q => { q with givenUp := true, left := [], got := [] }) ∧
      t.fsc.scanErrors.toNat = min 65535 (s.fsc.scanErrors.toNat + 1) ∧ t.fsc.stretched = s.fsc.stretched ∧
      t.upe.uncertain = true ∧
      t.upe.lanes = s.upe.lanes.map (fun q => if q.state = .free then q else { q with note := false }) ∧
      (held → t.fsc.inLine = true ∧ t.fsc.held = none ∧ t.fsc.drive = some (s.fsc.line, List.replicate s.fsc.width .hold)) ∧
      (¬held → t.fsc.inLine = s.fsc.inLine ∧ t.fsc.held = s.fsc.held ∧ t.fsc.drive = s.fsc.drive) ∧
      ({ t with fsc := s.fsc, upe.uncertain := s.upe.uncertain, upe.lanes := s.upe.lanes } : State).sansStatus = s.sansStatus)) ∧
  (∀ s : State, s.fsc.frame ≠ .still →
    let t := assignSlots s
    let meets := fun (row i : Nat) => i ∈ s.fsc.laneSet ∧ (s.lane i).rect.y ≤ row ∧ row < (s.lane i).rect.y + (s.lane i).rect.h
    let idle := fun (row : Nat) => ∀ i, ¬meets row i
    let room := s.fsc.slots.length < 4 ∧ ∀ q ∈ s.fsc.slots, q.filled = true ∨ q.givenUp = true
    ((∀ r, s.fsc.fetchRow ≤ r → r < s.fsc.height → idle r) → t = { s with fsc.fetchRow := max s.fsc.fetchRow s.fsc.height }) ∧
    (∀ r, s.fsc.fetchRow ≤ r → r < s.fsc.height → ¬idle r → (∀ q, s.fsc.fetchRow ≤ q → q < r → idle q) →
      (¬room → t = { s with fsc.fetchRow := r }) ∧
      (room → ∃ x n,
        ((∀ i, meets r i → x ≤ (s.lane i).rect.x) ∧ ∃ i, meets r i ∧ x = (s.lane i).rect.x) ∧
        ((∀ i, meets r i → (s.lane i).rect.x + (s.lane i).rect.w ≤ x + n) ∧
          ∃ i, meets r i ∧ x + n = (s.lane i).rect.x + (s.lane i).rect.w) ∧
        t = { s with
          fsc.fetchRow := r + 1
          fsc.slots := s.fsc.slots ++
            [{ row := r, x0 := x, count := n, left := blocks (s.cfg.buffer + 2 * (r * s.cfg.width + x)) (2 * n), got := []
               filled := false, givenUp := false }] }))) ∧
  (∀ (s : State) (row x : Nat), x < s.fsc.width → (rowCodes s row).length = s.fsc.width ∧
    (s.fsc.slots.find? (fun l => l.row == row) = none → (rowCodes s row).getD x .hold = .hold) ∧
    (∀ l, s.fsc.slots.find? (fun l => l.row == row) = some l →
      let r := pixAt l.got (x - l.x0)
      let q := s.lane (pixLane r).toNat
      (rowCodes s row).getD x .hold =
        if l.givenUp = false ∧ l.x0 ≤ x ∧ x < l.x0 + l.count ∧ pixMarked r = true ∧ q.state = .driving ∧ q.rect.y ≤ row ∧
          row < q.rect.y + q.rect.h ∧ q.rect.x ≤ x ∧ x < q.rect.x + q.rect.w
        then driveQuery (s.store q.store) q.index (pixCurrent r).toNat (pixTarget r).toNat
        else .hold))

/-- The line time of a row's last line ends the frame (R71, R88): every DRIVING lane's index advances and a lane that has driven
its last frame becomes RETIRING with its retire pass requested, lowest lane first; that the Frame Scanner is STILL until a frame
start of its own is entry 8. The line time of a row that is not the last ends: its slot becomes EMPTY, the fetch order goes on,
and the next row is due: it is held, with its stretch timer, exactly when it is late, its slot being FETCHING, and driven
otherwise (R88, R93, R94). A blank line's time ends: the next blank line begins, or row 0 is due after the last, in the same way
(R87, R88). -/
def Obligations.LineTimeEnds : Prop :=
  (∀ s : State, s.fsc.inLine = true → s.fsc.frame = .scan → s.fsc.height ≤ s.fsc.line + 1 →
    ∃ t, exec .lineTimeEnd s = .next (portGrants t) ∧
      t.upe.lanes = s.upe.lanes.map (fun l =>
        if l.state = .driving then
          { l with index := l.index + 1, state := if l.frames ≤ l.index + 1 then .retiring else .driving }
        else l) ∧
      t.upe.retireQueue = s.upe.retireQueue ++
        (List.range 32).filter (fun i => (s.lane i).state == .driving && decide ((s.lane i).frames ≤ (s.lane i).index + 1)) ∧
      t.fsc.frame = .still ∧ t.fsc.inLine = false ∧ t.fsc.laneSet = [] ∧ t.fsc.slots = [] ∧ t.fsc.drive = none ∧
      { t with upe.lanes := s.upe.lanes, upe.retireQueue := s.upe.retireQueue, fsc := s.fsc } = s) ∧
  (∀ s : State, s.fsc.inLine = true → s.fsc.frame = .scan → s.fsc.line + 1 < s.fsc.height →
    ∃ t, exec .lineTimeEnd s = .next (portGrants t) ∧
      (let late := ∃ l ∈ t.fsc.slots, l.row = s.fsc.line + 1 ∧ l.filled = false ∧ l.givenUp = false
       (¬late → t.fsc.inLine = true ∧ t.fsc.held = none ∧ t.fsc.drive = some (s.fsc.line + 1, rowCodes t (s.fsc.line + 1))) ∧
       (late → t.fsc.inLine = false ∧ t.fsc.held = some ⟨s.partTime, s.cfg.stretchLimit⟩ ∧ t.fsc.drive = none)) ∧
      t.fsc.frame = .scan ∧ t.fsc.line = s.fsc.line + 1 ∧
      (let u := assignSlots { s with fsc.slots := s.fsc.slots.filter fun l => l.row != s.fsc.line }
       t.fsc.slots = u.fsc.slots ∧ t.fsc.fetchRow = u.fsc.fetchRow) ∧
      { t with fsc := s.fsc } = s) ∧
  (∀ s : State, s.fsc.inLine = true → s.fsc.frame = .blank →
    ∃ t, exec .lineTimeEnd s = .next (portGrants t) ∧
      (s.fsc.line + 1 < s.fsc.blank → t.fsc.frame = .blank ∧ t.fsc.line = s.fsc.line + 1 ∧ t.fsc.inLine = true) ∧
      (s.fsc.blank ≤ s.fsc.line + 1 → t.fsc.frame = .scan ∧ t.fsc.line = 0 ∧
        let late := ∃ l ∈ s.fsc.slots, l.row = 0 ∧ l.filled = false ∧ l.givenUp = false
        (¬late → t.fsc.inLine = true ∧ t.fsc.held = none ∧ t.fsc.drive = some (0, rowCodes t 0)) ∧
        (late → t.fsc.inLine = false ∧ t.fsc.held = some ⟨s.partTime, s.cfg.stretchLimit⟩ ∧ t.fsc.drive = none)) ∧
      t.fsc.slots = s.fsc.slots ∧ { t with fsc := s.fsc } = s)

/-! ### The panel supply -/

/-- RAIL_GOOD asserted: in RISING the state becomes ON with the rise timer stopped, and the idle-hold timer starts if nothing is
to be driven; in any other state only the pin changes (R98, R99). RAIL_GOOD deasserted outside ON changes only the pin; the
rise timer's expiry outside RISING finds no timer (R98, R101, R102). The idle-hold timer expires in ON: FALLING with the fall
timer at 5 ms, and a frame still running ends at once, without a frame end (R99, R101). The fall and fault-hold timers: FALLING
becomes OFF, or RISING at once with a lane ARMING; FAULT becomes RISING with a lane ARMING, else OFF. RISING starts its timer at
20 ms, and becomes ON at once with RAIL_GOOD already asserted (R97, R98, R101, R102). -/
def Obligations.RailsFollowPinAndTimers : Prop :=
  (∀ s : State, ∃ t, exec .railGoodAsserted s = .next (portGrants t) ∧
    t.pss.railGood = true ∧
    (s.pss.rail = .rising → t.pss.rail = .on ∧ t.pss.riseTimer = none ∧ railEn t = true ∧
      t.pss.idleTimer = (if (∀ l ∈ s.upe.lanes, l.state = .free) ∧ s.upe.list = [] then
        (if s.pss.idleTimer = none then some ⟨s.partTime, s.cfg.idleHold⟩ else s.pss.idleTimer) else none) ∧
      ({ t with pss := s.pss } : State).sansStatus = s.sansStatus) ∧
    (s.pss.rail ≠ .rising → t = { s with pss.railGood := true })) ∧
  (∀ s : State,
    (s.pss.rail ≠ .on → exec .railGoodDeasserted s = .next (portGrants { s with pss.railGood := false })) ∧
    (s.pss.rail ≠ .rising → exec .riseTimeout s = .next (portGrants s))) ∧
  (∀ s : State, s.pss.rail = .on → s.pss.idleTimer ≠ none →
    ∃ t, exec .idleHoldExpiry s = .next (portGrants t) ∧
      t.pss = { s.pss with rail := .falling, idleTimer := none, fallTimer := some ⟨s.partTime, 5⟩ } ∧ railEn t = false ∧
      t.fsc.frame = .still ∧ t.upe = s.upe ∧ t.mem = s.mem ∧ t.rsc = s.rsc ∧ t.sif.posted = s.sif.posted) ∧
  (∀ (c : Instr) (s : State),
    (c = .fallTimerExpiry ∧ s.pss.rail = .falling ∧ s.pss.fallTimer ≠ none) ∨
      (c = .faultHoldExpiry ∧ s.pss.rail = .fault ∧ s.pss.holdTimer ≠ none) →
    ∃ t, exec c s = .next (portGrants t) ∧
      (let arming := ∃ l ∈ s.upe.lanes, l.state = .arming
       (¬arming → t.pss.rail = .off ∧ railEn t = false) ∧
       (arming → s.pss.railGood = false → t.pss.rail = .rising ∧ railEn t = true ∧ t.pss.riseTimer = some ⟨s.partTime, 20⟩) ∧
       (arming → s.pss.railGood = true → t.pss.rail = .on ∧ railEn t = true ∧ t.pss.riseTimer = none)) ∧
      (c = .fallTimerExpiry → t.pss.fallTimer = none) ∧ (c = .faultHoldExpiry → t.pss.holdTimer = none) ∧
      t.pss.history = s.pss.history ∧ ({ t with pss := s.pss } : State).sansStatus = s.sansStatus)

/-- A fault without lockout, from RAIL_GOOD deasserted in ON or the rise timer expiring in RISING (R100): FAULT with the hold
timer at 100 ms and the idle and rise timers stopped; a running frame ended; every DRIVING lane RETIRING, aborted with cause
FAULT, its retire pass requested; the part time the newest of at most three stamps; PANEL posted. A third fault within 60,000 ms
of the oldest of three locks the panel, by either event: LOCKED, with no hold timer (R100, R103); every waiting update leaves the
list and ends PANEL_FAULT, oldest first: its record with the results of an update without a lane, a turn with one log entry, a
rest image ENDED (R59, R85, R123); and a quiesce past its limit is abandoned if a lane is ARMING, the REST record ending
PANEL_FAULT (R191). In REST_TURN the end of a waiting turn is reported to the Rest Controller, which waits, or wakes the part with
the cause that is pending; a turn whose lane is ARMING cannot end, and the part wakes with cause PANEL, the turn running on in RUN
(R196, R197). Each wake is stated with memory AWAKE, no press waiting and the supply not CRITICAL (its values are entry 22, its
fade entry 42). -/
def Obligations.FaultIsTaken : Prop :=
  (∀ (c : Instr) (s : State),
    (c = .railGoodDeasserted ∧ s.pss.rail = .on) ∨ (c = .riseTimeout ∧ s.pss.rail = .rising ∧ s.pss.riseTimer ≠ none) →
    let h := (if 3 ≤ s.pss.history.length then s.pss.history.tail else s.pss.history) ++ [s.partTime]
    lockoutDue h = false →
    ∃ t, exec c s = .next (portGrants t) ∧
      t.pss.rail = .fault ∧ railEn t = false ∧ t.pss.holdTimer = some ⟨s.partTime, 100⟩ ∧ t.pss.idleTimer = none ∧
      t.pss.riseTimer = none ∧ t.pss.history = h ∧ t.fsc.frame = .still ∧
      (s.fsc.frame ≠ .still → t.fsc.slots = [] ∧ t.fsc.inLine = false ∧ t.fsc.held = none ∧ t.fsc.drive = none) ∧
      t.upe.lanes = s.upe.lanes.map (fun l =>
        if l.state = .driving then { l with state := .retiring, abort := some .fault } else l) ∧
      t.upe.retireQueue = s.upe.retireQueue ++ (List.range 32).filter (fun i => (s.lane i).state == .driving) ∧
      t.sif.posted = s.postedOnce .panel ∧
      t.upe.list = s.upe.list ∧ t.upe.pass = s.upe.pass ∧ t.upe.uncertain = s.upe.uncertain ∧ t.mem = s.mem ∧
      t.ktu = s.ktu ∧ t.ltu = s.ltu ∧ t.dlc = s.dlc ∧ t.rsc = s.rsc ∧ t.meu = s.meu ∧ t.wfs = s.wfs) ∧
  (∀ (c : Instr) (s : State) (a b : Word),
    (c = .railGoodDeasserted ∧ s.pss.rail = .on) ∨ (c = .riseTimeout ∧ s.pss.rail = .rising ∧ s.pss.riseTimer ≠ none) →
    s.pss.history = [a, b] ∨ (∃ x, s.pss.history = [x, a, b]) → (s.partTime - a).toNat < 60000 →
    let arming := ∃ l ∈ s.upe.lanes, l.state = .arming
    ∃ t, exec c s = .next (portGrants t) ∧
      t.pss.rail = .locked ∧ t.pss.holdTimer = none ∧ t.pss.history = [a, b, s.partTime] ∧ t.upe.list = [] ∧
      (t.pss.idleTimer = none ∧ t.pss.riseTimer = none ∧ railEn t = false ∧ t.fsc.frame = .still) ∧
      t.upe.lanes = s.upe.lanes.map (fun l =>
        if l.state = .driving then { l with state := .retiring, abort := some .fault } else l) ∧
      t.upe.retireQueue = s.upe.retireQueue ++ (List.range 32).filter (fun i => (s.lane i).state == .driving) ∧
      (s.rsc.part = .run → (∀ e ∈ s.upe.list, ∃ r, e.origin = .record r) →
        endsBy .page (waitingEnds 50 s.upe.list) s t ∧
        t.sif.posted = ({ s with sif.posted := s.postedOnce .panel } : State).postedBy .page s.upe.list.length ∧
        (∀ e ∈ s.upe.list, ∀ j, (t.store j).holder ≠ some e.id)) ∧
      (∀ e r, s.rsc.part = .run → s.upe.list = [e] → e.origin = .turn → s.ktu.turnRec = some r →
        t.ktu.turn = .idle ∧ t.ktu.log = s.ktu.log ++ [⟨r.dir, r.page.tag, s.partTime, .panelFault, r.dropped, r.ofRest⟩]) ∧
      (∀ e, s.rsc.part = .quiesce → s.rsc.limit = false → s.upe.list = [e] → e.origin = .rest → s.rsc.imageId = some e.id →
        t.rsc.imageState = .ended .panelFault) ∧
      (∀ e r, s.rsc.part = .restTurn → ¬arming → s.upe.list = [e] → e.origin = .turn → s.ktu.turnRec = some r →
        (s.rsc.pendingWake = none → t.ktu = s.ktu.ended r .panelFault s.partTime ∧ t.rsc = { s.rsc with turnOver := true } ∧
          t.sif.posted = s.postedOnce .panel) ∧
        (∀ w, s.rsc.pendingWake = some w → s.wakesAtOnce → ∃ u, u.ktu = s.ktu.ended r .panelFault s.partTime ∧ WakesAlike s u ∧
          u.sif.posted = s.postedOnce .panel ∧ wokenAtOnce w u t)) ∧
      (s.rsc.part = .restTurn → arming → s.upe.list = [] → s.wakesAtOnce → ∃ u, u.ktu = s.ktu ∧ WakesAlike s u ∧
        u.sif.posted = s.postedOnce .panel ∧ wokenAtOnce .panel u t) ∧
      (∀ r, s.rsc.part = .quiesce → s.rsc.limit = true → arming → s.upe.lanes.length = 32 →
        s.upe.list = [] → s.ktu.queue = [] → s.rsc.record = some r →
        t.rsc.part = .run ∧ t.rsc.record = none ∧ endsBy .control [(r, [(0x1C, [0, s.rsc.turns])], 50)] s t))

/-! ### Pixels, bands and drive codes -/

/-- A drive query: the 2-bit code the table holds for the pair of levels in the frame, HOLD for code 3 and for a frame index at
or above F; the answer depends on the entry alone (R34). The decision of R75 for one pixel: a mark of another lane that is
not FREE leaves it collided and its record as it was; else CLEAR, or a new level that differs from the current one, marks it
for the lane with the new level as target; else it is left without a mark. QUICK takes the darker or lighter end of the
levels (section 4.2, R55, R75). A retire pass completes the lane's own pixels: the current level becomes the target (or,
aborted, stays) and the mark is cleared; every other record is left (R78). A row of a pass (R74): its source bytes and its segment
of the buffer are read burst by burst; an admission pass then decides every pixel of the row with the states of the lanes as they
are, counts the marked and the collided ones on its lane, and writes all records back (R75); a retire pass and a mark sweep write
their records back as above, with every mark cleared by a sweep (R78, R80). The last write-back of a row that is not the last one
begins the next row: with its source in an admission pass, its segment in a retire pass and a mark sweep, and with the write of
records of white without a mark in an initializing sweep. -/
def Obligations.PixelRules : Prop :=
  (∀ (e : StoreEntry) (f s d : Nat),
    let p := s * 16 + d
    let code := u8 (e.table.getD f []) (p / 4) / 4 ^ (p % 4) % 4
    driveQuery e f s d =
      if e.frames ≤ f then .hold else if code = 1 then .darken else if code = 2 then .lighten else .hold) ∧
  (∀ (live : Nat → Bool) (lane : Nat) (mode : Mode) (src : BitVec 4) (r : BitVec 16), lane < 32 →
    let other := pixMarked r = true ∧ (pixLane r).toNat ≠ lane ∧ live (pixLane r).toNat = true
    let new := if mode = .quick then (if src.toNat < 8 then 0#4 else 15#4) else src
    let d := decidePixel live lane mode src r
    (other → d.1 = .collided ∧ d.2.toNat = r.toNat % 16384) ∧
    (¬other → mode = .clear ∨ new ≠ pixCurrent r →
      d.1 = .marked ∧ pixCurrent d.2 = pixCurrent r ∧ pixTarget d.2 = new ∧ (pixLane d.2).toNat = lane ∧ pixMarked d.2 = true) ∧
    (¬other → mode ≠ .clear → new = pixCurrent r →
      d.1 = .left ∧ pixCurrent d.2 = pixCurrent r ∧ pixTarget d.2 = pixTarget r ∧ pixMarked d.2 = false)) ∧
  (∀ (lane : Nat) (aborted : Bool) (r : BitVec 16),
    let q := retirePixel lane aborted r
    (pixMarked r = true ∧ (pixLane r).toNat = lane → pixMarked q = false ∧ pixTarget q = pixTarget r ∧
      pixCurrent q = if aborted = true then pixCurrent r else pixTarget r) ∧
    (¬(pixMarked r = true ∧ (pixLane r).toNat = lane) → q.toNat = r.toNat % 16384)) ∧
  (∀ (data : List Byte) (s : State) (b : Burst) (p : Pass), b.user = .pixel → b.fate = .live → s.upe.pass = some p →
    let t := complete b .okay data s
    let r : Rect := match p.kind with
      | .admission i => (s.lane i).rect
      | .retire i => (s.lane i).rect
      | .sweep _ _ => ⟨0, 0, p.geom.w, p.geom.h⟩
    let a := p.geom.addr + 2 * (p.row * p.geom.w + r.x)
    let got := p.got ++ data
    let back := fun (l : List (BitVec 16)) => { p with phase := .writeBack, got := [], left := [], out := writeBlocks a (pixBytes l) }
    (p.phase ≠ .writeBack → p.left ≠ [] → t = { s with upe.pass := some { p with got := got } }) ∧
    (p.phase = .source → p.left = [] → t = { s with
      upe.pass := some { p with phase := .segment, src := got, got := [], left := blocks a (2 * r.w) } }) ∧
    (∀ i, p.phase = .segment → p.left = [] → p.kind = .admission i →
      let l := s.lane i
      let d := (List.range r.w).map fun k =>
        decidePixel (fun n => (s.lane n).state != .free) i l.mode (nibbleAt p.src k) (pixAt got k)
      let n := fun (f : PixelFate) => (d.filter fun q => q.1 == f).length
      t = { s.setLane i { l with marked := l.marked + n .marked, collided := l.collided + n .collided } with
        upe.pass := some { back (d.map Prod.snd) with marked := n .marked } }) ∧
    (∀ i, p.phase = .segment → p.left = [] → p.kind = .retire i → t = { s with
      upe.pass := some (back ((List.range r.w).map fun k => retirePixel i (s.lane i).abort.isSome (pixAt got k))) }) ∧
    (∀ z st, p.phase = .segment → p.left = [] → p.kind = .sweep z st → ∃ l, t = { s with upe.pass := some (back l) } ∧
      l.length = r.w ∧ ∀ k, k < r.w →
        let o := pixAt got k
        let q := l.getD k 0
        pixMarked q = false ∧ pixCurrent q = pixCurrent o ∧ pixTarget q = pixTarget o ∧ q.toNat < 16384) ∧
    (p.phase = .writeBack → p.out ≠ [] → t = s) ∧
    (p.phase = .writeBack → p.out = [] → p.row + 1 < r.y + r.h → ∃ q, t = { s with upe.pass := some q } ∧
      q.kind = p.kind ∧ q.geom = p.geom ∧ q.row = p.row + 1 ∧ q.got = [] ∧ q.marked = 0 ∧
      (∀ i, p.kind = .admission i → q.phase = .source ∧ q.out = [] ∧
        q.left = blocks ((s.lane i).source + (p.row + 1 - r.y) * (s.lane i).stride) (r.w / 2)) ∧
      ((∃ i, p.kind = .retire i) ∨ (∃ st, p.kind = .sweep false st) → q.phase = .segment ∧ q.out = [] ∧
        q.left = blocks (a + 2 * p.geom.w) (2 * r.w)) ∧
      (∀ st, p.kind = .sweep true st → q.phase = .writeBack ∧ q.left = [] ∧
        q.out = writeBlocks (a + 2 * p.geom.w) (pixBytes (List.replicate p.geom.w 0x00FF)))))

/-- The band selection over an image that passes R37. Without history: B−1 at or above the upper limit, 0 below the first bound,
else the largest i with b_i at most t. With history j: j stays unless t lies below b_j − 2 or, with j below B−1, at or above
b_(j+1) + 2; then the plain lookup decides. The chosen band becomes the history (R48, R49). -/
def Obligations.BandIsSelected : Prop :=
  ∀ (l : List Byte) (a : Nat) (t : Int) (s : State), headerFailure l = none →
    let im := parseImage l a
    let n := u8 l 5
    let x := (selectBand im t s).1
    let p := chooseBand im none t
    ((n = im.bands.length ∧ 1 ≤ n ∧ (∀ i, i < n → im.bands.getD i 0 = boundAt l i) ∧ im.upper = boundAt l n)) ∧
    (im.upper ≤ t → p = n - 1) ∧ (t < boundAt l 0 → p = 0) ∧
    (boundAt l 0 ≤ t → t < im.upper → p < n ∧ boundAt l p ≤ t ∧ ∀ i, i < n → boundAt l i ≤ t → i ≤ p) ∧
    (s.wfs.history = none → x = p) ∧
    (∀ j, s.wfs.history = some j → j < n →
      x = if t < boundAt l j - 2 ∨ (j < n - 1 ∧ boundAt l (j + 1) + 2 ≤ t) then p else j) ∧
    (selectBand im t s).2.wfs.history = some x

/-! ### Keys and turns -/

/-- A key line's level changes (R107, R108, R109): an unwatched line only takes the level; in IDLE an active level begins
BOUNCING with the timer; in BOUNCING an inactive one returns to IDLE; in PRESSED the timer starts at an inactive level and
stops at an active one. The other lines and everything else stand. -/
def Obligations.KeyLineChanges : Prop :=
  ∀ (i : Fin 4) (high : Bool) (s : State), (s.line i).level ≠ high →
    ∃ t, exec (.keyLineChange i high) s = .next (portGrants t) ∧
      (let k := s.line i
       let c := s.cfg.keys.getD i {}
       let active := keyActive c.polarity high
       let started : Timer := some ⟨s.partTime, c.debounce⟩
       let x : KeyLine :=
         if s.sif.live = false then { k with level := high }
         else match k.state with
           | .idle => if active = true then ⟨high, .bouncing, started⟩ else { k with level := high }
           | .bouncing => if active = true then { k with level := high } else ⟨high, .idle, none⟩
           | .pressed => ⟨high, .pressed, if active = true then none else started⟩
       t = { s with ktu.lines := s.ktu.lines.set i x })

/-- A debounce timer expires in PRESSED with the level inactive: the line is IDLE, and nothing else changes (R108). A debounce
timer expires in BOUNCING with the level active, where presses are held or the queue has no room (R108, R110, R111): the
line is PRESSED, and the press joins the queue and is counted, or is dropped and counted, or, with role NONE, is discarded.
A WAKE press confirmed in RUN with an empty queue is reported: last role and stamp, one more reported, KEY posted, the press
leaving the queue (R110, R111, R113). -/
def Obligations.PressesAreDebounced : Prop :=
  (∀ (i : Fin 4) (s : State), (s.line i).timer ≠ none → (s.line i).state = .pressed →
    keyActive (s.cfg.keys.getD i {}).polarity (s.line i).level = false →
    exec (.debounceExpiry i) s = .next (portGrants
      { s with ktu.lines := s.ktu.lines.set i ⟨(s.line i).level, .idle, none⟩ })) ∧
  (∀ (i : Fin 4) (s : State), (s.line i).timer ≠ none → (s.line i).state = .bouncing →
    keyActive (s.cfg.keys.getD i {}).polarity (s.line i).level = true →
    s.rsc.part = .starting ∨ s.rsc.part = .restTurn ∨ s.rsc.part = .waking →
    let role := Role.ofNum (s.cfg.keys.getD i {}).role
    let lines := s.ktu.lines.set i ⟨(s.line i).level, .pressed, none⟩
    ∃ t, exec (.debounceExpiry i) s = .next (portGrants t) ∧
      (role = .none → t = { s with ktu.lines := lines }) ∧
      (role ≠ .none → s.ktu.queue.length < 4 → t.sansStatus = ({ s with
        ktu.lines := lines, ktu.queue := s.ktu.queue ++ [⟨role, s.partTime⟩]
        ktu.counts := s.ktu.counts.modify (role.num - 1) (· + 1) } : State).sansStatus) ∧
      (role ≠ .none → 4 ≤ s.ktu.queue.length → t.sansStatus = ({ s with
        ktu.lines := lines, ktu.dropped := BitVec.ofNat 16 (min 65535 (s.ktu.dropped.toNat + 1)) } : State).sansStatus)) ∧
  (∀ (i : Fin 4) (s : State), (s.line i).timer ≠ none → (s.line i).state = .bouncing →
    keyActive (s.cfg.keys.getD i {}).polarity (s.line i).level = true → (s.cfg.keys.getD i {}).role = 4 →
    s.rsc.part = .run → s.ktu.queue = [] →
    ∃ t, exec (.debounceExpiry i) s = .next (portGrants t) ∧ t.sif.posted = s.postedOnce .key ∧
      t.sansPosts = ({ s with
        ktu.lines := s.ktu.lines.set i ⟨(s.line i).level, .pressed, none⟩
        ktu.counts := s.ktu.counts.modify 3 (· + 1), ktu.lastRole := .wake, ktu.lastStamp := s.partTime
        ktu.reported := s.ktu.reported + 1 } : State).sansPosts)

/-- A FORWARD or BACK press confirmed in RUN begins a turn when quick-turn is ENABLED, its list holds a page, the supply is not
CRITICAL, the turn unit is IDLE and the Turn Log has room: the nearest page is copied and its full-screen GRAY WAIT update is
appended; LISTED, WAIT_PLACE, or ended at once with one log entry, written, and TURN posted. Otherwise the press is reported (R112,
R113, R120, R121, R123, R126). A LIGHT press toggles the light, in RUN and where a rest keeps the light: ignored under rest-dark or
with a ceiling of 0; off becomes the remembered level, an unset level becomes key-default-level, a lit light goes off, each with a
ramp of key-fade, and a LIGHT in progress ends CANCELLED (R142, R143, R192, R194); that its result shows the level as it was before
key-default-level is entry 47. -/
def Obligations.PressesActInRun : Prop :=
  (∀ (i : Fin 4) (d : Dir) (s : State), s.confirms i → s.rsc.part = .run → Role.ofNum (s.roleOf i) = d.role →
    let u := s.confirmed i
    let turns := s.cfg.quickTurn = 1 ∧ s.staged d ≠ [] ∧ s.meu.supply ≠ .critical ∧ s.ktu.turn = .idle ∧ s.ktu.log.length < 16
    ∃ t, exec (.debounceExpiry i) s = .next (portGrants t) ∧ (s.sif.writers.length = 8 → t.asked .keyReport) ∧
      (¬turns → t.sif.posted = s.postedOnce .key ∧ t.sansPosts = (u.reports d.role).sansPosts) ∧
      (∀ p l, turns → s.staged d = p :: l →
        let r : TurnRec := { dir := d, page := p, ofRest := false, dropped := none }
        let e : Entry :=
          { id := s.upe.nextId, origin := .turn, rect := ⟨0, 0, s.cfg.width, s.cfg.height⟩, source := p.addr, stride := p.stride
            mode := .gray, policy := .wait, tag := some p.tag, st := .none, key := none, note := false, again := false }
        let ended := fun (c : Code) => t.sif.posted = s.postedOnce .turn ∧ (s.sif.writers.length = 8 → t.asked .turnLog) ∧
          t.sansPosts = ({ u with
            ktu.turnRec := none, ktu.log := s.ktu.log ++ [⟨d, p.tag, s.partTime, c, none, false⟩]
            ktu.logDirty := false } : State).sansPosts
        (s.wfs.active = none → ended .refusedFormat) ∧
        (s.wfs.active ≠ none → s.pss.rail = .locked → ended .panelFault) ∧
        (s.wfs.active ≠ none → s.pss.rail ≠ .locked → 16 ≤ s.upe.list.length + s.upe.reservations →
          t.sansStatus = ({ u with ktu.turn := .waitPlace, ktu.turnRec := some r } : State).sansStatus) ∧
        (s.wfs.active ≠ none → s.pss.rail ≠ .locked → s.upe.list.length + s.upe.reservations < 16 →
          ∃ v, ScanOnly v t ∧ v.sansStatus = ({ u with
            ktu.turn := .listed, ktu.turnRec := some r, upe.list := s.upe.list ++ [e], upe.nextId := s.upe.nextId + 1
            pss.idleTimer := if s.pss.rail = .on then none else s.pss.idleTimer } : State).sansStatus))) ∧
  (∀ (i : Fin 4) (s : State), s.confirms i → s.roleOf i = 3 →
    s.rsc.part = .run ∨ s.rsc.keepLight = true ∧ s.rsc.forced = false ∧
      (s.rsc.part = .quiesce ∨ s.rsc.part = .rest ∧ s.meu.supply ≠ .critical) →
    let u := s.confirmed i
    let l := s.ltu
    ∃ t, exec (.debounceExpiry i) s = .next (portGrants t) ∧
      (let acts := fun (m : Ltu) (target : Nat) =>
        endsBy .control (lightEnds 48 s) s t ∧ t.sif.posted = s.postedBy .control (lightEnds 48 s).length ∧
        t.sansRequests = ({ u with ltu := { m with
          light := none, detached := if l.light = none then l.detached else false
          ramp := some ⟨l.level, l.warmth, target, l.mr, fadeSteps s.cfg.keyFade, 0, .key⟩ } } : State).sansRequests
       (l.restDark = true → t.sansStatus = u.sansStatus) ∧
       (l.restDark = false → l.keyOff = true → acts { l with keyOff := false } (min l.remembered l.ceiling)) ∧
       (l.restDark = false → l.keyOff = false → l.lr = 0 →
         acts { l with lr := s.cfg.keyDefaultLevel } (min s.cfg.keyDefaultLevel l.ceiling)) ∧
       (l.restDark = false → l.keyOff = false → 0 < l.lr → 0 < l.ceiling →
         acts { l with keyOff := true, remembered := l.lr } 0) ∧
       (l.restDark = false → l.keyOff = false → 0 < l.lr → l.ceiling = 0 → t.sansStatus = u.sansStatus)))

/-- A turn in WAIT_PLACE appends again (R61, R121, R123): with the list still full it waits; without an image, or with the panel
LOCKED, it ends REFUSED_FORMAT or PANEL_FAULT with one log entry; else its full-screen GRAY WAIT update, tagged with the page,
joins the list. Stated with the part in QUIESCE, where no log is written and no event posted (that none is written either while an
earlier write is under way is entry 57). The same in RUN and in REST_TURN: a turn that ends in RUN has the log written and TURN
posted (R126); one that ends in REST_TURN has its entry kept, and its end is reported to the Rest Controller, which waits, or,
with a wake cause pending, wakes the part with it, stated with memory AWAKE, no press waiting and the supply not CRITICAL (R124,
R196, R197; the wake's values are entry 22, its fade entry 42). A turn's admission moves its lists (R122): the page leaves the
near end of its list; a page that was current is put at the near end of the other list, whose far page is dropped when that list
is full and its tag is recorded. -/
def Obligations.TurnsAppendAndMove : Prop :=
  (∀ (s : State) (r : TurnRec), s.ktu.turn = .waitPlace → s.ktu.turnRec = some r → s.rsc.part = .quiesce →
    ∃ t, exec .turnAppendRetry s = .next (portGrants t) ∧
      (let ends := fun (code : Code) => t = { s with
         ktu.turn := .idle, ktu.turnRec := none, ktu.logDirty := true
         ktu.log := s.ktu.log ++ [⟨r.dir, r.page.tag, s.partTime, code, r.dropped, r.ofRest⟩] }
       (s.wfs.active = none → ends .refusedFormat) ∧
       (s.wfs.active ≠ none → s.pss.rail = .locked → ends .panelFault) ∧
       (s.wfs.active ≠ none → s.pss.rail ≠ .locked → 16 ≤ s.upe.list.length + s.upe.reservations → t = s) ∧
       (s.wfs.active ≠ none → s.pss.rail ≠ .locked → s.upe.list.length + s.upe.reservations < 16 →
         t.ktu = { s.ktu with turn := .listed } ∧ t.upe.nextId = s.upe.nextId + 1 ∧
         t.upe.list.map (fun e => (e.id, e.origin, e.rect, e.source, e.stride, e.mode, e.policy, e.tag)) =
           s.upe.list.map (fun e => (e.id, e.origin, e.rect, e.source, e.stride, e.mode, e.policy, e.tag)) ++
           [(s.upe.nextId, .turn, ⟨0, 0, s.cfg.width, s.cfg.height⟩, r.page.addr, r.page.stride, .gray, .wait, some r.page.tag)]))) ∧
  (∀ (s : State) (r : TurnRec), s.ktu.turn = .waitPlace → s.ktu.turnRec = some r → s.rsc.part = .run ∨ s.rsc.part = .restTurn →
    let e : Entry :=
      { id := s.upe.nextId, origin := .turn, rect := ⟨0, 0, s.cfg.width, s.cfg.height⟩, source := r.page.addr
        stride := r.page.stride, mode := .gray, policy := .wait, tag := some r.page.tag, st := .none, key := none, note := false
        again := false }
    let out := fun (c : Code) => ({ s with ktu := s.ktu.ended r c s.partTime } : State)
    ∃ t, exec .turnAppendRetry s = .next (portGrants t) ∧
      (let ends := fun (c : Code) =>
         (s.rsc.part = .run → t.sif.posted = s.postedOnce .turn ∧ (s.sif.writers.length = 8 → t.asked .turnLog) ∧
           t.sansPosts = ({ out c with ktu.logDirty := false } : State).sansPosts) ∧
         (s.rsc.part = .restTurn → s.rsc.pendingWake = none → t = { out c with rsc.turnOver := true }) ∧
         (∀ w, s.rsc.part = .restTurn → s.rsc.pendingWake = some w → s.wakesAtOnce → wokenAtOnce w (out c) t)
       (s.wfs.active = none → ends .refusedFormat) ∧
       (s.wfs.active ≠ none → s.pss.rail = .locked → ends .panelFault) ∧
       (s.wfs.active ≠ none → s.pss.rail ≠ .locked → 16 ≤ s.upe.list.length + s.upe.reservations → t = s) ∧
       (s.wfs.active ≠ none → s.pss.rail ≠ .locked → s.upe.list.length + s.upe.reservations < 16 →
         ∃ v, ScanOnly v t ∧ v.sansStatus = ({ s with
           ktu.turn := .listed, upe.list := s.upe.list ++ [e], upe.nextId := s.upe.nextId + 1
           pss.idleTimer := if s.pss.rail = .on then none else s.pss.idleTimer } : State).sansStatus))) ∧
  (∀ (s : State) (r : TurnRec) (old : Option Page), s.ktu.turnRec = some r →
    let t := turnAdmitted old s
    let put := fun (cap : Nat) (l : List Page) => match old with
      | none => l
      | some p => p :: (if cap ≤ l.length then l.take (cap - 1) else l)
    t.ktu.forward = (if r.dir = .forward then s.ktu.forward.tail else put 8 s.ktu.forward) ∧
    t.ktu.backward = (if r.dir = .forward then put 4 s.ktu.backward else s.ktu.backward.tail) ∧
    t.ktu.turn = .admitted ∧
    (let cap := if r.dir = .forward then 4 else 8
     let other := if r.dir = .forward then s.ktu.backward else s.ktu.forward
     t.ktu.turnRec = some (match old with
       | none => r
       | some _ => { r with dropped := if cap ≤ other.length then other.getLast?.map Page.tag else none })) ∧
    { t with ktu.forward := s.ktu.forward, ktu.backward := s.ktu.backward, ktu.turn := s.ktu.turn, ktu.turnRec := s.ktu.turnRec } = s)

/-! ### Light -/

/-- A ramp tick with a ramp present takes its next step: k advances, the applied values move by the rounded share of their way,
and their duty pair is placed, whatever pair waited; the last step ends the ramp on its targets, finalizes the LIGHT in progress
DONE and reports to the Rest Controller (R131, R135, R136, R140, R141); whether that is so of a LIGHT whose ramp a restore
replaced (R136), or it is attached to no ramp and stays in progress (R145), is a free value (entry 41). A ramp tick without a
ramp: after a change of the gamma table the pair of the applied values is computed again and placed, else nothing; before a START
load nothing is computed (R129, R141). -/
def Obligations.RampTickIsTaken : Prop :=
  (∀ (s : State) (r : Ramp), s.sif.live = true → s.ltu.ramp = some r →
    let v := rampValue r.v0 r.t (r.k + 1) r.n
    let m := rampValue r.m0 r.tm (r.k + 1) r.n
    let l : Ltu := { s.ltu with
      level := v, warmth := m, pair := some (dutySplit (luminance s.cfg.gamma v) m), gammaDirty := false }
    ∃ t, exec .rampTick s = .next (portGrants t) ∧
      (r.k + 1 < r.n → t.sansStatus = ({ s with ltu := { l with ramp := some { r with k := r.k + 1 } } } : State).sansStatus) ∧
      (r.n ≤ r.k + 1 → s.ltu.light = none ∨ s.ltu.detached = true ∧ Config.restoreEndsLight = false →
        t.sansStatus = ({ s with ltu := { l with ramp := none }, rsc.fadePending := false } : State).sansStatus) ∧
      (∀ a, r.n ≤ r.k + 1 → s.ltu.light = some a → s.ltu.detached = false ∨ Config.restoreEndsLight = true →
        t.sansRequests = ({ s with
          ltu := { l with ramp := none, light := none, detached := false }, rsc.fadePending := false } : State).sansRequests ∧
        endsBy .control [(a, [(0x18, le16 s.ltu.lr ++ le16 s.ltu.mr ++ le16 v ++ le16 s.ltu.ceiling)], 16)] s t ∧
        t.sif.posted = s.postedBy .control 1 ∧ (portOpen s = false → s.sif.writers.length = 8 → t.asked .retired))) ∧
  (∀ s : State, s.ltu.ramp = none →
    ∃ t, exec .rampTick s = .next (portGrants t) ∧
      t.sansStatus = (if s.sif.live = true ∧ s.ltu.gammaDirty = true then
        { s with ltu.pair := some (dutySplit (luminance s.cfg.gamma s.ltu.level) s.ltu.warmth), ltu.gammaDirty := false }
      else s).sansStatus)

/-- The arithmetic of ramps and duties: step 0 of a ramp is its start and step N its target, values between lie between; the
duties of a luminance code add up to it, and a table that never decreases and ends at most at 4095 gives codes of at most
4095 that never decrease with the level (R135, R137, R138). A period boundary: both generators take the pending pair together and
the pair is gone, or go on with the pair they have; each goes high with the high reload, or, for duty 0, stays low with 4095. A
generator in its high phase whose count runs out goes low with the low reload, one in its low phase has no high count, and the
other generator stands (R139, R140). -/
def Obligations.LightArithmeticAndPhases : Prop :=
  (∀ a b n : Nat, 1 ≤ n → rampValue a b 0 n = a ∧ rampValue a b n n = b) ∧
  (∀ a b k n : Nat, 1 ≤ n → k ≤ n → min a b ≤ rampValue a b k n ∧ rampValue a b k n ≤ max a b) ∧
  (∀ y m : Nat, m ≤ 100 → (dutySplit y m).1 + (dutySplit y m).2 = y) ∧
  (∀ (g : List Nat) (v w : Nat), (∀ i, i < 32 → g.getD i 0 ≤ g.getD (i + 1) 0) → g.getD 32 0 ≤ 4095 → v ≤ w → w ≤ 1000 →
    luminance g v ≤ luminance g w ∧ luminance g w ≤ 4095) ∧
  (∀ s : State,
    let p := match s.ltu.pair with
      | some x => x
      | none => (s.ltu.warm.duty, s.ltu.cool.duty)
    let high := fun (d : Nat) => if d = 0 then Gen.mk 0 false 4095 else Gen.mk d true (d - 1)
    let low := fun (g : Gen) => if g.out = true then Gen.mk g.duty false (4096 - g.duty - 1) else g
    exec .periodBoundary s = .next { s with ltu.pair := none, ltu.warm := high p.1, ltu.cool := high p.2 } ∧
    exec (.highPhaseEnd .warm) s = .next { s with ltu.warm := low s.ltu.warm } ∧
    exec (.highPhaseEnd .cool) s = .next { s with ltu.cool := low s.ltu.cool })

/-! ### Downloads -/

/-- A whole good frame, given to a receiver in HUNT with no progress and room for it, becomes a stored chunk at the tail of the
Chunk FIFO, and the receiver is in HUNT again under the marker in force; nothing else changes, no error is counted (R150, R151,
R152, R154, section 8.1). The same frame with another CRC-32 field stores nothing: the CRC error count alone is increased (R152,
R155). Bytes given in two commands do what they do in one, the second command run on what the first's own effect leaves, without
the grants between them; that a command carries any stretch of bytes, a whole frame or a part, is the model's choice (entry 28). A
header with a length of 0 or above 1024 is counted as a framing error, and the receiver hunts again; one with no room for its
chunk is counted as an overflow, and its payload and CRC are discarded byte by byte, after which the receiver hunts again
uncounted (R151, R153, R155). -/
def Obligations.FramesAreChecked : Prop :=
  (∀ (s : State) (hdr payload : List Byte), receiverRuns s = true → s.dlc.recv = .hunt 0 → hdr.length = 8 →
    u16 hdr 6 = payload.length → 1 ≤ payload.length → payload.length ≤ 1024 → 8 + payload.length ≤ freeSpace s →
    exec (.chunkFrame ([s.dlc.markers.1, s.dlc.markers.2] ++ hdr ++ payload ++ le32 (crc32 (hdr ++ payload)).toNat)) s =
      .next (portGrants { s with
        dlc.recv := .hunt 0, dlc.markers := (s.cfg.marker0, s.cfg.marker1)
        dlc.fifo := s.dlc.fifo ++ [⟨⟨BitVec.ofNat 16 (u16 hdr 0), u32 hdr 2, payload.length⟩, payload⟩] })) ∧
  (∀ (s : State) (hdr payload field : List Byte), receiverRuns s = true → s.dlc.recv = .hunt 0 → hdr.length = 8 →
    u16 hdr 6 = payload.length → 1 ≤ payload.length → payload.length ≤ 1024 → 8 + payload.length ≤ freeSpace s →
    field.length = 4 → u32 field 0 ≠ (crc32 (hdr ++ payload)).toNat → (s.dlc.counters.getD 1 0).toNat < 65535 →
    ∃ t, exec (.chunkFrame ([s.dlc.markers.1, s.dlc.markers.2] ++ hdr ++ payload ++ field)) s = .next (portGrants t) ∧
      t.sansPosts = ({ s with
        dlc.recv := .hunt 0, dlc.markers := (s.cfg.marker0, s.cfg.marker1)
        dlc.counters := s.dlc.counters.modify 1 (· + 1) } : State).sansPosts ∧
      t.sif.posted = if s.sif.posted.getD 11 0 = s.sif.acked.getD 11 0 then s.postedOnce .link else s.sif.posted) ∧
  (∀ (s : State) (x y : List Byte), ∃ u t, exec (.chunkFrame x) s = .next (portGrants u) ∧
    exec (.chunkFrame y) u = .next (portGrants t) ∧ exec (.chunkFrame (x ++ y)) s = .next (portGrants t)) ∧
  (∀ (s : State) (hdr : List Byte), receiverRuns s = true → s.dlc.recv = .hunt 0 → hdr.length = 8 →
    let n := u16 hdr 6
    let counted := fun (k : Nat) => if s.dlc.counters.getD k 0 = 65535 then s.dlc.counters else s.dlc.counters.modify k (· + 1)
    ∃ t, exec (.chunkFrame ([s.dlc.markers.1, s.dlc.markers.2] ++ hdr)) s = .next (portGrants t) ∧
      (n = 0 ∨ 1024 < n → t.sansPosts = ({ s with
        dlc.recv := .hunt 0, dlc.markers := (s.cfg.marker0, s.cfg.marker1), dlc.counters := counted 0 } : State).sansPosts) ∧
      (1 ≤ n → n ≤ 1024 → freeSpace s < 8 + n → t.sansPosts = ({ s with
        dlc.recv := .discard (n + 4), dlc.counters := counted 2 } : State).sansPosts)) ∧
  (∀ (s : State) (bytes : List Byte) (k : Nat), receiverRuns s = true → s.dlc.recv = .discard k →
    (bytes.length < k → exec (.chunkFrame bytes) s = .next (portGrants { s with dlc.recv := .discard (k - bytes.length) })) ∧
    (1 ≤ k → bytes.length = k → exec (.chunkFrame bytes) s = .next (portGrants { s with
      dlc.recv := .hunt 0, dlc.markers := (s.cfg.marker0, s.cfg.marker1) })))

/-- A receiver that is not watched or not in RUN takes no notice of bytes or of LSEL (R149). LSEL goes inactive at a running
receiver: in HUNT the progress is lost, a discard ends uncounted, and a frame in progress is dropped and counted as a
framing error (R153, R155). -/
def Obligations.LinkSelectIsFollowed : Prop :=
  (∀ (s : State) (bytes : List Byte), s.sif.live = false ∨ s.rsc.part ≠ .run →
    exec (.chunkFrame bytes) s = .next (portGrants s) ∧ exec .lselInactive s = .next (portGrants s)) ∧
  (∀ s : State, receiverRuns s = true →
    let quiet := { s with dlc.recv := .hunt 0, dlc.markers := (s.cfg.marker0, s.cfg.marker1) }
    let counted := ∃ t, exec .lselInactive s = .next (portGrants t) ∧
      t.sansPosts = ({ quiet with dlc.counters := if s.dlc.counters.getD 0 0 = 65535 then s.dlc.counters
        else s.dlc.counters.modify 0 (· + 1) } : State).sansPosts
    match s.dlc.recv with
    | .hunt _ => exec .lselInactive s = .next (portGrants { s with dlc.recv := .hunt 0 })
    | .discard _ => exec .lselInactive s = .next (portGrants quiet)
    | .header _ _ => counted
    | .payload _ _ _ => counted
    | .trailer _ _ _ _ => counted)

/-- The dispatch of the oldest chunk (R160): no slot but a claim for its file, it waits; no slot, it is counted unknown; past the
slot's length, counted out of range; a slot that verifies or is settled, counted duplicate; each dropped. The dispatch of a chunk
for an OPEN or STALLED slot (R161, R162): a seventeenth extent is a fragment error; a chunk wholly covered is counted duplicate
and accepted, the slot OPEN with its timer afresh; else the writes of the uncovered parts begin. A payload write completes (R162):
with writes left nothing more happens; the last one accepts the chunk, merged into the map with its fresh bytes counted, the slot
OPEN with its timer afresh, or VERIFYING at the tail of the verify queue when the map is whole. A payload write fails (R163): the
dispatch ends, the chunk leaves the FIFO, the slot is CORRUPT with its timer stopped, the OPEN ends MEMORY_ERROR or WINDOW, its
result in byte 7 alone (entry 30), and FILE is posted. -/
def Obligations.ChunksAreDispatched : Prop :=
  (∀ (s : State) (c : Chunk) (q : List Chunk), s.dlc.dispatch = none → s.dlc.fifo = c :: q →
    let dropped := fun (n : Nat) => ∃ t, exec .dispatchBegin s = .next (portGrants t) ∧
      t.sansPosts = ({ s with
        dlc.fifo := q
        dlc.counters := if s.dlc.counters.getD n 0 = 65535 then s.dlc.counters else s.dlc.counters.modify n (· + 1) } : State).sansPosts
    (slotOf c.hdr.file s = none → claimedFile c.hdr.file s = true → exec .dispatchBegin s = .next (portGrants s)) ∧
    (slotOf c.hdr.file s = none → claimedFile c.hdr.file s = false → dropped 3) ∧
    (∀ i, slotOf c.hdr.file s = some i → (s.slot i).len < c.hdr.offset + c.hdr.len → dropped 4) ∧
    (∀ i, slotOf c.hdr.file s = some i → c.hdr.offset + c.hdr.len ≤ (s.slot i).len →
      (s.slot i).state = .verifying ∨ (s.slot i).state = .verified ∨ (s.slot i).state = .corrupt → dropped 6)) ∧
  (∀ (s : State) (c : Chunk) (q : List Chunk) (i : Nat), s.dlc.dispatch = none → s.dlc.fifo = c :: q →
    slotOf c.hdr.file s = some i → c.hdr.offset + c.hdr.len ≤ (s.slot i).len →
    (s.slot i).state = .opened ∨ (s.slot i).state = .stalled →
    let f := s.slot i
    let a := c.hdr.offset
    let b := a + c.hdr.len
    let n := (f.extents.filter fun e => decide (e.1 ≤ b) && decide (a ≤ e.2)).length
    let count := fun (k : Nat) => if s.dlc.counters.getD k 0 = 65535 then s.dlc.counters else s.dlc.counters.modify k (· + 1)
    (f.extents.length + 1 = n + 17 → ∃ t, exec .dispatchBegin s = .next (portGrants t) ∧
      t.sansPosts = ({ s with dlc.fifo := q, dlc.counters := count 5 } : State).sansPosts) ∧
    (f.extents.length + 1 < n + 17 → uncovered f.extents a b = [] → ∃ t, exec .dispatchBegin s = .next (portGrants t) ∧
      t.sansPosts = ({ s with
        dlc.fifo := q, dlc.counters := count 6
        dlc.slots := s.dlc.slots.set i
          { f with state := .opened, stamp := s.partTime, timer := some ⟨s.partTime, s.cfg.stallLimit * 1000⟩ } } : State).sansPosts) ∧
    (f.extents.length + 1 < n + 17 → uncovered f.extents a b ≠ [] →
      exec .dispatchBegin s = .next (portGrants { s with
        dlc.dispatch := some ⟨i, c,
          (uncovered f.extents a b).flatMap fun p =>
            writeBlocks (f.dest + p.1) ((c.payload.drop (p.1 - a)).take (p.2 - p.1)),
          extentSum (uncovered f.extents a b)⟩ }))) ∧
  (∀ (x : Answer) (data : List Byte) (s : State) (b : Burst) (d : Dispatch), b.user = .download → b.fate = .live →
    s.dlc.dispatch = some d →
    let t := complete b x data s
    let f := s.slot d.slot
    let m := mergeExtent f.extents d.chunk.hdr.offset (d.chunk.hdr.offset + d.chunk.hdr.len)
    let whole := m = [(0, f.len)]
    (x = .okay → d.out ≠ [] → t = s) ∧
    (x = .okay → d.out = [] → (s.sif.writers.length = 8 → t.asked (.progress d.slot)) ∧
      t.sansStatus = ({ s with
        dlc.dispatch := none, dlc.fifo := s.dlc.fifo.tail
        dlc.slots := s.dlc.slots.set d.slot { f with
          state := if whole then .verifying else .opened, extents := m, received := f.received + d.fresh, stamp := s.partTime
          timer := if whole then none else some ⟨s.partTime, s.cfg.stallLimit * 1000⟩ }
        dlc.verifyQueue := if whole then s.dlc.verifyQueue ++ [d.slot] else s.dlc.verifyQueue } : State).sansStatus) ∧
    (x ≠ .okay → (s.sif.writers.length = 8 → t.asked (.progress d.slot)) ∧
      endsBy .fetch [(f.record, [(7, [0])], if x = .window then 34 else 53)] s t ∧
      t.sif.posted = (s.postedBy .fetch 1).modify 6 (· + 1) ∧
      t.sansRequests = ({ s with
        dlc.dispatch := none, dlc.fifo := s.dlc.fifo.tail
        dlc.slots := s.dlc.slots.set d.slot { f with state := .corrupt, timer := none } } : State).sansRequests))

/-- Every step keeps the laws of the File Table, of which these follow: every slot that is not FREE holds a map that ascends, with
gaps, within its length, with at most 16 extents, and a received count that is the sum of its extents (R162); no two slots in use
hold one file id (R158). Merging a chunk into a map in order keeps it in order, leaves the extents it does not touch and one more,
covers what was covered or lies in the chunk, and adds to the sum of the extents exactly the uncovered bytes (R161, R162). -/
def Obligations.FileTableKeepsItsLaws : Prop :=
  (∀ s t : State, s.fileLaw = true → step s = .next t → t.fileLaw = true) ∧
  (∀ (len : Nat) (m : List (Nat × Nat)), extentsOk len m = true ↔
    (∀ e ∈ m, e.1 < e.2 ∧ e.2 ≤ len) ∧ m.Pairwise fun e f => e.2 < f.1) ∧
  (∀ s : State, s.fileLaw = true →
    (∀ i, i < 4 → (s.slot i).state ≠ .free →
      extentsOk (s.slot i).len (s.slot i).extents = true ∧ (s.slot i).extents.length ≤ 16 ∧
      (s.slot i).received = ((s.slot i).extents.map fun e => e.2 - e.1).sum) ∧
    (∀ i j, i < 4 → j < 4 → i ≠ j → (s.slot i).state ≠ .free → (s.slot j).state ≠ .free → (s.slot i).file ≠ (s.slot j).file)) ∧
  (∀ (len a b : Nat) (m : List (Nat × Nat)), extentsOk len m = true → a < b → b ≤ len →
    let n := (m.filter (touches a b)).length
    extentsOk len (mergeExtent m a b) = true ∧
    (mergeExtent m a b).length = m.length + 1 - n ∧
    extentSum (mergeExtent m a b) = extentSum m + extentSum (uncovered m a b) ∧
    (∀ x, (∃ e ∈ mergeExtent m a b, e.1 ≤ x ∧ x < e.2) ↔ (a ≤ x ∧ x < b) ∨ ∃ e ∈ m, e.1 ≤ x ∧ x < e.2) ∧
    (∀ x, (∃ e ∈ uncovered m a b, e.1 ≤ x ∧ x < e.2) ↔ (a ≤ x ∧ x < b) ∧ ¬∃ e ∈ m, e.1 ≤ x ∧ x < e.2))

/-- A stall timer that runs in an OPEN slot expires: the slot is STALLED without a timer and FILE is posted; otherwise nothing
(R165). The verify pass begins for the head of the verify queue, at the file's first byte with the check-sum register at all ones
(R150, R166); one that runs is not begun again. A verify read completes (R167): its bytes enter the register; after the last one
the slot is VERIFIED and its OPEN ends DONE when the complement is the file's CRC-32, else it is CORRUPT and the OPEN ends
CORRUPT; a failed read makes it CORRUPT, with 0 computed and MEMORY_ERROR or WINDOW; each posts FILE and ends the pass. The
download stop ends when no chunk, dispatch, verify pass or claim is left: every OPEN or STALLED slot becomes FREE and interrupted,
its OPEN finalized INTERRUPTED, and the Rest Controller is told (R169); that they go from slot 0 to slot 3 is entry 49. An OPEN's
result is written in byte 7 alone (entry 30). -/
def Obligations.SlotsStallVerifyAndStop : Prop :=
  (∀ (i : Fin 4) (s : State),
    let f := s.slot i
    (f.state = .opened → f.timer ≠ none → ∃ t, exec (.stallTimerExpiry i) s = .next (portGrants t) ∧
      t.sif.posted = s.postedOnce .file ∧
      t.sansPosts = ({ s with dlc.slots := s.dlc.slots.set i { f with state := .stalled, timer := none } } : State).sansPosts) ∧
    (f.state ≠ .opened ∨ f.timer = none → exec (.stallTimerExpiry i) s = .next (portGrants s))) ∧
  (∀ s : State,
    (∀ i q, s.dlc.verify = none → s.dlc.verifyQueue = i :: q →
      exec .verifyPassBegin s = .next (portGrants { s with dlc.verify := some ⟨i, 0, 4294967295⟩ })) ∧
    (s.dlc.verify ≠ none ∨ s.dlc.verifyQueue = [] → exec .verifyPassBegin s = .next (portGrants s))) ∧
  (∀ (x : Answer) (data : List Byte) (s : State) (b : Burst) (v : Verify), b.user = .verify → b.fate = .live →
    s.dlc.verify = some v →
    let t := complete b x data s
    let f := s.slot v.slot
    let crc := crcBytes v.crc data
    let ended := fun (g : FileSlot) (code : Nat) => (s.sif.writers.length = 8 → t.asked (.progress v.slot)) ∧
      endsBy .fetch [(f.record, [(7, [0])], code)] s t ∧ t.sif.posted = (s.postedBy .fetch 1).modify 6 (· + 1) ∧
      t.sansRequests = ({ s with
        dlc.verify := none, dlc.verifyQueue := s.dlc.verifyQueue.filter fun i => i != v.slot
        dlc.slots := s.dlc.slots.set v.slot g } : State).sansRequests
    (x = .okay → v.pos < f.len → t = { s with dlc.verify := some { v with crc := crc } }) ∧
    (x = .okay → f.len ≤ v.pos → ~~~crc = f.crc → ended { f with state := .verified, computed := ~~~crc } 16) ∧
    (x = .okay → f.len ≤ v.pos → ~~~crc ≠ f.crc → ended { f with state := .corrupt, timer := none, computed := ~~~crc } 52) ∧
    (x ≠ .okay → ended { f with state := .corrupt, timer := none, computed := 0 } (if x = .window then 34 else 53))) ∧
  (∀ s : State, s.dlc.stop = .stopping → downloadsDrained s = true → s.dlc.slots.length = 4 →
    let inUse := fun (f : FileSlot) => f.state = .opened ∨ f.state = .stalled
    let ends := (s.dlc.slots.filter fun f => decide (inUse f)).map fun f => (f.record, [(7, [0])], 51)
    ∃ t, exec .downloadsStopped s = .next (portGrants t) ∧
      t.dlc.stop = .stopped ∧
      t.dlc.slots = s.dlc.slots.map (fun f =>
        if inUse f then { f with state := .free, timer := none, interrupted := true } else f) ∧
      endsBy .fetch ends s t ∧ t.sif.posted = s.postedBy .fetch ends.length ∧
      ({ t with dlc.slots := s.dlc.slots, dlc.stop := s.dlc.stop } : State).sansRequests = s.sansRequests)

/-! ### Measurement -/

/-- A battery conversion ends without a change of supply state: the sample floor(code × vscale / 4096) with its stamp, and the
counts the debounce gives (R178, R180, R181). The time the measurement write was asked for is left aside. A battery conversion
that changes the supply state, with the part in STARTING or WAKING, where the Rest Controller has nothing to do: the change is
stamped, SUPPLY is posted, and the ceiling follows (R132, R178, R182). A temperature conversion ends with no update waiting for it
and no place filled: the sample floor(code × tslope / 4096) + toffset with its stamp and without the aged-out mark, and in RUN the
periodic timer starts afresh; the scan has run, and met no update (R63, R67, R177, R178). A temperature conversion ends with any
updates waiting and any places filled: besides, the updates that are SAMPLING return to NONE and the scan follows, with the
temperature fresh, after which the next request's conversion begins, temperature before battery (R63, R67, R175). -/
def Obligations.SamplesAreTaken : Prop :=
  (∀ (code : BitVec 12) (s : State), s.meu.adc = some .battery → s.meu.requester = false ∨ s.meu.tempPlace = false →
    s.meu.batteryPlace = false →
    let mv := code.toNat * s.cfg.vscale / 4096
    let m := countSample s.cfg mv s.meu
    supplyAfter m = s.meu.supply →
    ∃ t, exec (.adcConversionEnd code) s = .next (portGrants t) ∧
      ({ t with meu.askTime := s.meu.askTime } : State).sansStatus =
        ({ s with meu := { m with adc := none, battery := some ⟨mv, s.partTime⟩ } } : State).sansStatus) ∧
  (∀ (code : BitVec 12) (s : State), s.meu.adc = some .battery → s.rsc.part = .starting ∨ s.rsc.part = .waking →
    let mv := code.toNat * s.cfg.vscale / 4096
    let x := supplyAfter (countSample s.cfg mv s.meu)
    x ≠ s.meu.supply →
    ∃ t, exec (.adcConversionEnd code) s = .next (portGrants t) ∧
      t.meu.supply = x ∧ t.meu.supplyStamp = s.partTime ∧ t.meu.battery = some ⟨mv, s.partTime⟩ ∧
      t.meu.down = 0 ∧ t.meu.up = 0 ∧ t.sif.posted = s.postedOnce .supply ∧
      t.ltu.ceiling = (match x with
        | .normal => 1000
        | .low => s.cfg.lowCeiling
        | .critical => 0) ∧
      t.rsc = s.rsc ∧ t.upe = s.upe ∧ t.pss = s.pss ∧ t.ktu = s.ktu ∧ t.dlc = s.dlc ∧ t.mem = s.mem) ∧
  (∀ (code : BitVec 12) (s : State), s.meu.adc = some .temperature → s.upe.list = [] → s.meu.batteryPlace = false →
    s.meu.tempPlace = false →
    let value : Int := ((code.toNat * s.cfg.tslope / 4096 : Nat) : Int) + s.cfg.toffset
    ∃ t, exec (.adcConversionEnd code) s = .next (portGrants t) ∧
      ({ t with meu.askTime := s.meu.askTime } : State).sansStatus = ({ s with
        upe.demand := false, upe.rescan := false
        meu := { s.meu with
          adc := none, temperature := some ⟨value, s.partTime, false⟩
          tempTimer := if s.rsc.part = .run then some ⟨s.partTime, s.cfg.tempMaxAge * 1000⟩ else s.meu.tempTimer } } : State).sansStatus) ∧
  (∀ (code : BitVec 12) (s : State), s.meu.adc = some .temperature →
    let value : Int := ((code.toNat * s.cfg.tslope / 4096 : Nat) : Int) + s.cfg.toffset
    let asks := s.meu.requester = true
    ∃ t u, exec (.adcConversionEnd code) s = .next (portGrants t) ∧
      (s.sif.writers.length = 8 → u.asked .measure) ∧
      ({ u with meu.askTime := s.meu.askTime } : State).sansStatus = ({ s with
        upe.demand := false
        upe.list := s.upe.list.map fun e => if e.st = .sampling then { e with st := .none } else e
        meu := { s.meu with
          adc := none, temperature := some ⟨value, s.partTime, false⟩
          tempTimer := if s.rsc.part = .run then some ⟨s.partTime, s.cfg.tempMaxAge * 1000⟩ else s.meu.tempTimer } } : State).sansStatus ∧
      tempFresh u = true ∧
      (¬asks ∨ s.meu.tempPlace = false ∧ s.meu.batteryPlace = false → t = scan u) ∧
      (asks → s.meu.tempPlace = true → t = { scan u with meu.adc := some .temperature, meu.tempPlace := false }) ∧
      (asks → s.meu.tempPlace = false → s.meu.batteryPlace = true →
        t = { scan u with meu.adc := some .battery, meu.batteryPlace := false }))

/-- A battery conversion that changes the supply state: the change is stamped, SUPPLY is posted, the measurement area is asked
for, and the ceiling follows with its ramp, or without one under rest-dark (R132, R133, R182). Then, by the part state: in RUN a
change to CRITICAL begins a forced rest (R189), its KEEP_LIGHT, TURNS_ENABLED and WAKE_AFTER clear (entry 65); in QUIESCE it
forces the quiesce, and a light that was kept is faded now, while another change concerns the Rest Controller no further; in REST,
and after a rest turn, every change wakes the part with cause SUPPLY (R195); during a rest turn it becomes the pending wake cause
unless one is pending; in every other part state nothing follows. Stated with no request waiting for the ADC and, for the wake,
with memory asleep and SLEEP_ACK asserted. The asking time of the measurement area is left aside, and the place of its write among
the others is entry 19. That the wake's time, supply and battery are those of the entry to WAKING is entry 22, and that a rest's
fade and memory timer go by the settings of its entry to QUIESCE is entry 42. -/
def Obligations.SupplyChangesAct : Prop :=
  ∀ (code : BitVec 12) (s : State), s.meu.adc = some .battery → s.meu.batteryPlace = false → s.meu.tempPlace = false →
    let mv := code.toNat * s.cfg.vscale / 4096
    let x := supplyAfter (countSample s.cfg mv s.meu)
    x ≠ s.meu.supply →
    let c := match x with
      | .normal => 1000
      | .low => s.cfg.lowCeiling
      | .critical => 0
    let l := s.ltu
    let lit : Ltu :=
      if c = l.ceiling then l
      else if l.restDark = true then { l with ceiling := c }
      else { l with
        ceiling := c, detached := false
        ramp := some ⟨l.level, l.warmth, if l.keyOff = true then 0 else min l.lr c, l.mr, fadeSteps s.cfg.ceilingFade, 0, .ceiling⟩ }
    let w : State := { s with
      ltu := lit
      meu := { s.meu with
        adc := none, battery := some ⟨mv, s.partTime⟩, supply := x, supplyStamp := s.partTime, down := 0, deep := false, up := 0
        high := false } }
    ∃ t, exec (.adcConversionEnd code) s = .next (portGrants t) ∧
      (let now : State := { t with meu.askTime := s.meu.askTime }
       let ends := fun (n : Nat) => endsBy .control (lightEnds 48 w) s t ∧ n = (lightEnds 48 w).length ∧
         t.sif.posted = ({ s with sif.posted := s.postedOnce .supply } : State).postedBy .control n
       let quiet := t.sif.posted = s.postedOnce .supply
       (s.sif.writers.length = 8 → t.asked .measure) ∧
       (s.rsc.part = .stopped ∨ s.rsc.part = .starting ∨ s.rsc.part = .waking ∨ s.rsc.part = .run ∧ x ≠ .critical ∨
           s.rsc.part = .quiesce ∧ (x ≠ .critical ∨ s.rsc.forced = true) →
         quiet ∧ now.sansPosts = w.sansPosts) ∧
       (s.rsc.part = .run → x = .critical → (∃ n, ends n) ∧ now.sansRequests = ({ w with
         rsc := { s.rsc with
           part := .quiesce, keepLight := false, turnsEnabled := false, image := none, wakeAfter := 0, record := none, forced := true
           forcedStart := true, limit := false, turns := 0, sleepFailures := 0, leaveRetries := 0, wake := .none
           pendingWake := none, drain := .waiting, turnOver := false, fadePending := true, fade := s.cfg.restFade
           timeout := s.cfg.memoryTimeout, quiesceTimer := some ⟨s.partTime, s.cfg.quiesceLimit * 1000⟩, imageState := .none
           imageId := none }
         meu.tempTimer := none
         dlc := { s.dlc with stop := .stopping, recv := .hunt 0, markers := (s.cfg.marker0, s.cfg.marker1) }
         ltu := lit.faded s.cfg.restFade } : State).sansRequests) ∧
       (s.rsc.part = .quiesce → x = .critical → s.rsc.forced = false →
         (s.rsc.keepLight = false → quiet ∧ now.sansPosts = ({ w with rsc.forced := true } : State).sansPosts) ∧
         (s.rsc.keepLight = true → (∃ n, ends n) ∧ now.sansRequests =
           ({ w with rsc.forced := true, rsc.fadePending := true, ltu := lit.faded s.rsc.fade } : State).sansRequests)) ∧
       (s.rsc.part = .rest ∨ s.rsc.part = .restTurn ∧ s.rsc.turnOver = true → s.rsc.handshake = .asleep → s.rsc.sleepAck = true →
         quiet ∧ now.sansPosts = ({ w with rsc := s.rsc.woken .supply w, meu := w.meu.woken s } : State).sansPosts) ∧
       (s.rsc.part = .restTurn → s.rsc.turnOver = false →
         quiet ∧ now.sansPosts = ({ w with
           rsc.pendingWake := if s.rsc.pendingWake = none then some .supply else s.rsc.pendingWake } : State).sansPosts))

/-- The supply debounce (R180, R181): which samples count as a fall or a rise in each state, which keep the deep and the high note,
and what three of a run lead to. The measurement timers, their requester working and the ADC idle with no place filled: the battery
timer starts its conversion and starts again with the period of the part state; the periodic temperature timer starts its
conversion and has expired (R175, R176, R177). The temperature sample is marked aged-out when its age exceeds temp-max-age, and
stands otherwise (R179); that this is so in STOPPED too is entry 51. -/
def Obligations.SupplyDebounceAndTimers : Prop :=
  (∀ (cfg : Settings) (mv : Nat) (m : Meu),
    let c := countSample cfg mv m
    let j := judgeSample cfg mv m
    let falls := (m.supply = .normal ∧ mv < cfg.lowThreshold) ∨ (m.supply = .low ∧ mv < cfg.criticalThreshold)
    let rises := (m.supply = .critical ∧ cfg.criticalThreshold + cfg.hysteresis ≤ mv) ∨
      (m.supply = .low ∧ cfg.lowThreshold + cfg.hysteresis ≤ mv)
    c.down = (if falls then m.down + 1 else 0) ∧ c.up = (if rises then m.up + 1 else 0) ∧
    (c.deep = true ↔ falls ∧ mv < cfg.criticalThreshold ∧ (m.down = 0 ∨ m.deep = true)) ∧
    (c.high = true ↔ rises ∧ cfg.lowThreshold + cfg.hysteresis ≤ mv ∧ (m.up = 0 ∨ m.high = true)) ∧
    (m.supply = .normal → j.supply = if m.down < 2 ∨ ¬falls then .normal else if c.deep = true then .critical else .low) ∧
    (m.supply = .low → cfg.criticalThreshold < cfg.lowThreshold + cfg.hysteresis →
      j.supply = if 2 ≤ m.down ∧ falls then .critical else if 2 ≤ m.up ∧ rises then .normal else .low) ∧
    (m.supply = .critical → j.supply = if m.up < 2 ∨ ¬rises then .critical else if c.high = true then .normal else .low) ∧
    (j.supply ≠ m.supply → j.down = 0 ∧ j.up = 0 ∧ j.deep = false ∧ j.high = false)) ∧
  (∀ s : State, s.meu.requester = true → s.meu.adc = none → s.meu.batteryPlace = false → s.meu.tempPlace = false →
    (s.meu.batteryTimer ≠ none → exec .batteryTimerExpiry s = .next (portGrants { s with
      meu.adc := some .battery
      meu.batteryTimer := some ⟨s.partTime, if s.rsc.part = .rest ∨ s.rsc.part = .restTurn then s.cfg.restBatteryInterval
        else s.cfg.batteryInterval⟩ })) ∧
    (s.meu.tempTimer ≠ none → exec .temperatureTimerExpiry s = .next (portGrants { s with
      meu.adc := some .temperature, meu.tempTimer := none }))) ∧
  (∀ s : State,
    (∀ x, s.meu.temperature = some x → s.cfg.tempMaxAge * 1000 < (s.partTime - x.stamp).toNat →
      exec .temperatureAgedOut s = .next (portGrants { s with meu.temperature := some { x with aged := true } })) ∧
    (∀ x, s.meu.temperature = some x → (s.partTime - x.stamp).toNat ≤ s.cfg.tempMaxAge * 1000 →
      exec .temperatureAgedOut s = .next (portGrants s)) ∧
    (s.meu.temperature = none → exec .temperatureAgedOut s = .next (portGrants s)))

/-! ### Rest -/

/-- The quiesce limit (R72, R191): the limit is noted, the quiesce timer is gone, and every DRIVING lane becomes RETIRING, aborted
with cause LIMIT, its retire pass requested. Waiting updates end CANCELLED, oldest first, with the results of an update without a
lane, a turn in WAIT_PLACE ends CANCELLED with one log entry, and a rest image in WAIT_PLACE is ENDED CANCELLED (R84, R123, R191;
the log clause is stated with no turn in the list). With the panel LOCKED while a lane is ARMING the quiesce is abandoned: the
REST record ends PANEL_FAULT with cause NONE, the context is written with phase CANCELLED (its record address 0, entry 22), the
light is restored with the rest-fade of this rest (entry 42), its rest image forgotten (entry 68), and the part is in RUN, no
forced rest following (R145, R186, R189, R191). A rest image in WAIT_PLACE is appended again in QUIESCE: with the list still full
it waits; without an active image it is ENDED REFUSED_FORMAT, with the panel LOCKED ENDED PANEL_FAULT; else its full-screen CLEAR
WAIT update joins the list, and the scan runs (R61, R67, R188). The drain conditions hold in QUIESCE: the rest context is asked
for with phase ENTERED, and the part stays in QUIESCE until it is written (R190, R198); the entry's values are of this moment,
fifteen bytes free (entry 22). The rest begins with the context written, no burst in flight, the drain conditions holding still
and no press waiting (R104, R176, R190, R193): the part is in REST, the panel supply OFF, the port closed with SLEEP_REQ asserted,
and the rest timer runs if WAKE_AFTER is above 0, but not for a REST forced from its start (R189, entry 21); the entry's values
are taken again (entry 22). The memory timer runs for the memory-timeout of this rest (entry 42). With the conditions gone the
Rest Controller waits again. While a write of a progress record, of the mirror or of the Turn Log waits, or a reservation stands
or may be made, it does not act (R13, R58, R86, R169, R196, entry 60). -/
def Obligations.QuiesceAdvances : Prop :=
  (∀ s : State, s.rsc.part = .quiesce → s.rsc.quiesceTimer ≠ none → s.upe.list = [] → s.ktu.turn ≠ .waitPlace →
    s.rsc.imageState ≠ .waitPlace → s.pss.rail ≠ .locked →
    exec .quiesceLimit s = .next (portGrants { s with
      rsc.limit := true, rsc.quiesceTimer := none
      upe.lanes := s.upe.lanes.map fun l => if l.state = .driving then { l with state := .retiring, abort := some .limit } else l
      upe.retireQueue := s.upe.retireQueue ++ (List.range 32).filter fun i => (s.lane i).state == .driving
      fsc.laneSet := s.fsc.laneSet.filter fun i => (s.lane i).state != .driving })) ∧
  (∀ s : State, s.rsc.part = .quiesce → s.rsc.quiesceTimer ≠ none →
    let aborted := s.upe.lanes.map fun l => if l.state = .driving then { l with state := .retiring, abort := some .limit } else l
    let retire := s.upe.retireQueue ++ (List.range 32).filter fun i => (s.lane i).state == .driving
    ∃ t, exec .quiesceLimit s = .next (portGrants t) ∧ t.rsc.limit = true ∧ t.rsc.quiesceTimer = none ∧
      t.upe.lanes = aborted ∧ t.upe.retireQueue = retire ∧ t.upe.list = [] ∧
      (s.rsc.imageState = .waitPlace → t.rsc.imageState = .ended .cancelled) ∧
      (s.pss.rail ≠ .locked →
        endsBy .page (waitingEnds 48 s.upe.list) s t ∧ t.sif.posted = s.postedBy .page (waitingEnds 48 s.upe.list).length ∧
        (∀ e ∈ s.upe.list, ∀ j, (t.store j).holder ≠ some e.id) ∧ t.rsc.part = .quiesce ∧
        (∀ r, (∀ e ∈ s.upe.list, e.origin ≠ .turn) → s.ktu.turn = .waitPlace → s.ktu.turnRec = some r → t.ktu.turn = .idle ∧
          t.ktu.log = s.ktu.log ++ [⟨r.dir, r.page.tag, s.partTime, .cancelled, r.dropped, r.ofRest⟩])) ∧
      (s.pss.rail = .locked → (∃ l ∈ s.upe.lanes, l.state = .arming) → s.upe.lanes.length = 32 → s.upe.list = [] →
        s.ktu.turn ≠ .waitPlace → s.rsc.imageState ≠ .waitPlace → s.ktu.queue = [] →
        let ends := match s.rsc.record with
          | none => []
          | some a => [(a, [(0x1C, [0, s.rsc.turns])], 50)]
        let posted := s.postedBy .control ends.length
        endsBy .control ends s t ∧ t.sif.posted = (if s.ktu.logDirty = true then posted.modify 4 (· + 1) else posted) ∧
        (s.sif.writers.length = 8 →
          t.asked (.context .cancelled (contextBytes .cancelled { s with rsc.record := none, rsc.limit := true }))) ∧
        (∀ c, (t.chain c).walk ≠ .idle) ∧
        t.sansRequests = ({ s with
          rsc := { s.rsc with
            part := .run, limit := true, record := none, imageId := none, fadePending := false, quiesceTimer := none
            restTimer := none }
          upe.lanes := aborted, upe.retireQueue := retire
          fsc.laneSet := s.fsc.laneSet.filter fun i => (s.lane i).state != .driving
          meu.tempTimer := some ⟨s.partTime, s.cfg.tempMaxAge * 1000⟩
          dlc := { s.dlc with stop := .none, recv := .hunt 0, markers := (s.cfg.marker0, s.cfg.marker1) }
          ktu.logDirty := false, ltu := s.ltu.restored s.rsc.fade, fresh := s.fresh + 15 } : State).sansRequests)) ∧
  (∀ (s : State) (a st : Nat), s.rsc.part = .quiesce → s.rsc.imageState = .waitPlace → s.rsc.image = some (a, st) →
    let e : Entry :=
      { id := s.upe.nextId, origin := .rest, rect := ⟨0, 0, s.cfg.width, s.cfg.height⟩, source := a, stride := st, mode := .clear
        policy := .wait, tag := none, st := .none, key := none, note := false, again := false }
    ∃ t, exec .restImageAppendRetry s = .next (portGrants t) ∧
      (s.wfs.active = none → t = { s with rsc.imageState := .ended .refusedFormat }) ∧
      (s.wfs.active ≠ none → s.pss.rail = .locked → t = { s with rsc.imageState := .ended .panelFault }) ∧
      (s.wfs.active ≠ none → s.pss.rail ≠ .locked → 16 ≤ s.upe.list.length + s.upe.reservations → t = s) ∧
      (s.wfs.active ≠ none → s.pss.rail ≠ .locked → s.upe.list.length + s.upe.reservations < 16 →
        ∃ v, ScanOnly v t ∧ v.sansStatus = ({ s with
          rsc.imageState := .listed, rsc.imageId := some s.upe.nextId
          upe.list := s.upe.list ++ [e], upe.nextId := s.upe.nextId + 1
          pss.idleTimer := if s.pss.rail = .on then none else s.pss.idleTimer } : State).sansStatus)) ∧
  (∀ s : State, s.rsc.part = .quiesce → s.rsc.drain = .waiting → drained s = true →
    ∃ t u, exec .drainComplete s = .next (portGrants t) ∧
      u = { s with
        rsc.drain := .writing, rsc.entryTime := s.partTime, rsc.entrySupply := s.meu.supply
        rsc.entryBattery := (match s.meu.battery with
          | some b => b.mv
          | none => 0) } ∧
      t = ask (.context .entered (contextBytes .entered u)) { u with fresh := s.fresh + 15 }) ∧
  (∀ s : State, s.rsc.part = .quiesce → s.rsc.drain = .written → s.mpt.inflight = none →
    (writesWait s = true ∨ reservationOpen s = true → exec .enterRest s = .next (portGrants s))) ∧
  (∀ s : State, writesWait s = true ↔ ∃ w ∈ s.sif.writers, ∃ a, (w.cur = some a ∨ a ∈ w.queued) ∧
    (a = .mirror ∨ a = .turnLog ∨ ∃ i, a = .progress i)) ∧
  (∀ s : State, s.rsc.part = .quiesce → s.rsc.drain = .written → s.mpt.inflight = none → writesWait s = false →
    reservationOpen s = false →
    (drained s = false → exec .enterRest s = .next (portGrants { s with rsc.drain := .waiting })) ∧
    (drained s = true → s.ktu.queue = [] → s.rsc.handshake = .awake →
      ∃ t, exec .enterRest s = .next (portGrants t) ∧
        t.rsc = { s.rsc with
          part := .rest, quiesceTimer := none, drain := .waiting, entryTime := s.partTime, entrySupply := s.meu.supply
          entryBattery := (match s.meu.battery with
            | some b => b.mv
            | none => 0)
          handshake := if s.rsc.sleepAck = true then .asleep else .entering
          memTimer := if s.rsc.sleepAck = true then none else some ⟨s.partTime, s.rsc.timeout⟩
          restTimer := if 0 < s.rsc.wakeAfter ∧ s.rsc.forcedStart = false then some ⟨s.partTime, s.rsc.wakeAfter * 1000⟩
            else s.rsc.restTimer } ∧
        t.pss.rail = .off ∧ portOpen t = false ∧ sleepReq t = true ∧ t.meu.tempTimer = none ∧
        (s.meu.requester = true → t.meu.batteryTimer = some ⟨s.partTime, s.cfg.restBatteryInterval⟩) ∧
        t.upe = s.upe ∧ t.ktu = s.ktu ∧ t.dlc = s.dlc ∧ t.ltu = s.ltu ∧ t.mem = s.mem))

/-- A press confirmed in QUIESCE (R192): in a forced one it waits in the queue; a LIGHT press with the light not kept is ignored; a
FORWARD, BACK or WAKE press cancels the rest: the REST record ends CANCELLED with cause KEY and the turn count, which is 0 in a
quiesce, the context is written with phase CANCELLED, the light is restored, and the part is in RUN, its chains walking, downloads
running, the Turn Log written if it has new entries; the press itself is consumed (R145, R170, R186, R198). Stated with the supply
not CRITICAL there. A press confirmed in REST (R194): a LIGHT press with the light not kept, in a forced rest or under CRITICAL is
ignored; a FORWARD or BACK press begins a rest turn, waiting for memory, when turns are enabled, the rest is not forced, the list
holds a page, the supply is not CRITICAL and the Turn Log has room (R120, R196); any other page press, and a WAKE press, is
reported and wakes the part with cause KEY (R113, R197). Stated with memory asleep and SLEEP_ACK asserted. That a CANCELLED
context's record address is 0, and that the wake's time, supply and battery are those of the entry to WAKING, is entry 22; that
the restore's fade and the memory timer go by the settings of the entry to QUIESCE is entry 42. -/
def Obligations.PressesActInRest : Prop :=
  (∀ (i : Fin 4) (s : State), s.confirms i → s.rsc.part = .quiesce →
    let n := s.roleOf i
    let u := s.confirmed i
    ∃ t, exec (.debounceExpiry i) s = .next (portGrants t) ∧
      (1 ≤ n → n ≤ 4 → s.rsc.forced = true →
        t.sansStatus = ({ u with ktu.queue := [⟨Role.ofNum n, s.partTime⟩] } : State).sansStatus) ∧
      (n = 3 → s.rsc.forced = false → s.rsc.keepLight = false → t.sansStatus = u.sansStatus) ∧
      (n = 1 ∨ n = 2 ∨ n = 4 → s.rsc.forced = false → s.meu.supply ≠ .critical →
        let ends := match s.rsc.record with
          | none => []
          | some a => [(a, [(0x1C, [1, s.rsc.turns])], 48)]
        let posted := s.postedBy .control ends.length
        endsBy .control ends s t ∧ t.sif.posted = (if s.ktu.logDirty = true then posted.modify 4 (· + 1) else posted) ∧
        (s.sif.writers.length = 8 →
          t.asked (.context .cancelled (contextBytes .cancelled { s with rsc.record := none })) ∧
          (s.ktu.logDirty = true → t.asked .turnLog)) ∧
        (∀ c, (t.chain c).walk ≠ .idle) ∧
        t.sansRequests = ({ u with
          rsc := { s.rsc with
            part := .run, record := none, imageId := none, fadePending := false, quiesceTimer := none, restTimer := none }
          meu.tempTimer := some ⟨s.partTime, s.cfg.tempMaxAge * 1000⟩
          dlc := { s.dlc with stop := .none, recv := .hunt 0, markers := (s.cfg.marker0, s.cfg.marker1) }
          ktu.logDirty := false, ltu := s.ltu.restored s.rsc.fade, fresh := s.fresh + 15 } : State).sansRequests)) ∧
  (∀ (i : Fin 4) (s : State), s.confirms i → s.rsc.part = .rest → s.rsc.handshake = .asleep → s.rsc.sleepAck = true →
    let n := s.roleOf i
    let u := s.confirmed i
    ∃ t, exec (.debounceExpiry i) s = .next (portGrants t) ∧
      (let wakes := fun (r : Role) => t.sif.posted = s.postedOnce .key ∧ (s.sif.writers.length = 8 → t.asked .keyReport) ∧
        t.sansPosts = ({ u.reports r with rsc := s.rsc.woken .key s, meu := s.meu.woken s } : State).sansPosts
       (n = 3 → s.rsc.keepLight = false ∨ s.rsc.forced = true ∨ s.meu.supply = .critical → t.sansStatus = u.sansStatus) ∧
       (n = 4 → wakes .wake) ∧
       (∀ d : Dir, Role.ofNum n = d.role →
         let turns := s.rsc.turnsEnabled = true ∧ s.rsc.forced = false ∧ s.staged d ≠ [] ∧ s.meu.supply ≠ .critical ∧
           s.ktu.log.length < 16
         (¬turns → wakes d.role) ∧
         (∀ p l, turns → s.ktu.turn = .idle → s.staged d = p :: l → t.sansStatus = ({ u with
           rsc.part := .restTurn, rsc.turns := s.rsc.turns + 1, rsc.handshake := .leaving
           rsc.memTimer := some ⟨s.partTime, s.rsc.timeout⟩, meu.tempTimer := none, ktu.turn := .waitMemory
           ktu.turnRec := some { dir := d, page := p, ofRest := true, dropped := none } } : State).sansStatus))))

/-- SLEEP_ACK asserted: in ENTERING memory is ASLEEP and the timer stops; in every other state only the pin changes (R193).
SLEEP_ACK deasserted outside LEAVING changes only the pin. In LEAVING memory is AWAKE with its timer stopped. In WAKING the wake
goes on, stated with no press waiting: Turn Log, mirror and context WOKEN are asked for, the REST record is finalized DONE, WAKE
posted, the light restored, and the part in RUN, or, with the supply CRITICAL, in a forced quiesce, its WAKE_AFTER clear (entry
65) (R145, R186, R189, R193, R197, R198). In REST_TURN the turn that waits for memory appends its update: LISTED, WAIT_PLACE, or
ended with its log entry (R121, R124, R196). The memory timer runs out (R193): in ENTERING the sleep has failed, SLEEP_REQ is
released and the failure is counted; in LEAVING, in WAKING, the retry is counted and the timer starts again; in REST_TURN
SLEEP_REQ is asserted again, memory is ASLEEP, and a turn that waits for it ends MEMORY_UNAVAILABLE, after which the Rest
Controller waits, or wakes with the pending cause (R123, R196); without a timer nothing happens. The rest timer runs out in REST:
the part is in WAKING with cause ALARM and asks for memory (R193, R195, R197); that the wake's time, supply and battery are those
of this moment is entry 22, and that restore and memory timer go by the settings of the entry to QUIESCE is entry 42. Stated with
memory asleep, SLEEP_ACK asserted and the battery requester working. A rest timer that runs out in REST_TURN before the turn has
ended sets the pending wake cause unless one is pending (R195). After a rest turn, with the panel quiet, no burst in flight and no
press waiting, the part is in REST again and asks for sleep; the rest timer runs on (R193, R195, R196), and the entry's time,
supply and battery stay those of the first entry to REST (entry 64). -/
def Obligations.HandshakeAndWaking : Prop :=
  (∀ s : State, exec .sleepAckAsserted s = .next (portGrants { s with
    rsc.sleepAck := true
    rsc.handshake := if s.rsc.handshake = .entering then .asleep else s.rsc.handshake
    rsc.memTimer := if s.rsc.handshake = .entering then none else s.rsc.memTimer })) ∧
  (∀ s : State,
    (s.rsc.handshake ≠ .leaving → exec .sleepAckDeasserted s = .next (portGrants { s with rsc.sleepAck := false })) ∧
    (s.rsc.handshake = .leaving → s.rsc.part = .waking → s.ktu.queue = [] →
      let awake : State := { s with rsc.handshake := .awake }
      let ends := match s.rsc.record with
        | none => []
        | some r => [(r, [(0x1C, le8 s.rsc.wake.num ++ [s.rsc.turns])], 16)]
      ∃ t, exec .sleepAckDeasserted s = .next (portGrants t) ∧
        t.rsc.handshake = .awake ∧ t.rsc.memTimer = none ∧ t.rsc.sleepAck = false ∧ t.rsc.restTimer = none ∧
        t.rsc.record = none ∧ t.dlc.recv = .hunt 0 ∧ (∀ c, (t.chain c).walk ≠ .idle) ∧ t.ktu.logDirty = false ∧
        (s.sif.writers.length = 8 → t.asked .turnLog ∧ t.asked .mirror ∧ t.asked (.context .woken (contextBytes .woken s))) ∧
        (s.meu.supply ≠ .critical → t.rsc.part = .run ∧ t.dlc.stop = .none ∧ t.ltu = s.ltu.restored s.rsc.fade ∧
          t.meu.tempTimer = some ⟨s.partTime, s.cfg.tempMaxAge * 1000⟩ ∧
          endsBy .control ends awake t ∧ t.sif.posted = s.postedOnce .wake) ∧
        (s.meu.supply = .critical → t.rsc.part = .quiesce ∧ t.rsc.forced = true ∧ t.rsc.image = none ∧ t.rsc.wakeAfter = 0 ∧
          t.dlc.stop = .stopping ∧ t.ltu.restDark = true ∧ t.meu.tempTimer = none)) ∧
    (∀ r, s.rsc.handshake = .leaving → s.rsc.part = .restTurn → s.ktu.turn = .waitMemory → s.ktu.turnRec = some r →
      let u : State := { s with rsc.sleepAck := false, rsc.handshake := .awake, rsc.memTimer := none }
      let e : Entry :=
        { id := s.upe.nextId, origin := .turn, rect := ⟨0, 0, s.cfg.width, s.cfg.height⟩, source := r.page.addr
          stride := r.page.stride, mode := .gray, policy := .wait, tag := some r.page.tag, st := .none, key := none, note := false
          again := false }
      ∃ t, exec .sleepAckDeasserted s = .next (portGrants t) ∧
        (let ended := fun (c : Code) => t = { u with
           ktu.turn := .idle, ktu.turnRec := none, ktu.logDirty := true
           ktu.log := s.ktu.log ++ [⟨r.dir, r.page.tag, s.partTime, c, r.dropped, r.ofRest⟩], rsc.turnOver := true }
         (s.wfs.active = none → s.rsc.pendingWake = none → ended .refusedFormat) ∧
         (s.wfs.active ≠ none → s.pss.rail = .locked → s.rsc.pendingWake = none → ended .panelFault) ∧
         (s.wfs.active ≠ none → s.pss.rail ≠ .locked → 16 ≤ s.upe.list.length + s.upe.reservations →
           t = { u with ktu.turn := .waitPlace }) ∧
         (s.wfs.active ≠ none → s.pss.rail ≠ .locked → s.upe.list.length + s.upe.reservations < 16 →
           ∃ v, ScanOnly v t ∧ v.sansStatus = ({ u with
             ktu.turn := .listed, upe.list := s.upe.list ++ [e], upe.nextId := s.upe.nextId + 1
             pss.idleTimer := if s.pss.rail = .on then none else s.pss.idleTimer } : State).sansStatus)))) ∧
  (∀ s : State,
    (s.rsc.memTimer = none → exec .memoryTimerExpiry s = .next (portGrants s)) ∧
    (s.rsc.memTimer ≠ none → s.rsc.handshake = .entering → exec .memoryTimerExpiry s = .next (portGrants { s with
      rsc.handshake := .awake, rsc.memTimer := none
      rsc.sleepFailures := BitVec.ofNat 8 (min 255 (s.rsc.sleepFailures.toNat + 1)) })) ∧
    (s.rsc.memTimer ≠ none → s.rsc.handshake = .leaving → s.rsc.part = .waking →
      exec .memoryTimerExpiry s = .next (portGrants { s with
        rsc.memTimer := some ⟨s.partTime, s.rsc.timeout⟩
        rsc.leaveRetries := BitVec.ofNat 8 (min 255 (s.rsc.leaveRetries.toNat + 1)) })) ∧
    (s.rsc.memTimer ≠ none → s.rsc.handshake = .leaving → s.rsc.part = .restTurn → s.ktu.turn ≠ .waitMemory →
      exec .memoryTimerExpiry s = .next (portGrants { s with rsc.handshake := .asleep, rsc.memTimer := none })) ∧
    (∀ r, s.rsc.memTimer ≠ none → s.rsc.handshake = .leaving → s.rsc.part = .restTurn → s.ktu.turn = .waitMemory →
      s.ktu.turnRec = some r →
      let u : State := { s with
        rsc.handshake := .asleep, rsc.memTimer := none, ktu.turn := .idle, ktu.turnRec := none, ktu.logDirty := true
        ktu.log := s.ktu.log ++ [⟨r.dir, r.page.tag, s.partTime, .memoryUnavailable, r.dropped, r.ofRest⟩] }
      (s.rsc.pendingWake = none → exec .memoryTimerExpiry s = .next (portGrants { u with rsc.turnOver := true })) ∧
      (∀ c, s.rsc.pendingWake = some c → s.rsc.sleepAck = true →
        exec .memoryTimerExpiry s = .next (portGrants { u with rsc := s.rsc.woken c s, meu := s.meu.woken s })))) ∧
  (∀ s : State, s.rsc.restTimer ≠ none → s.rsc.part = .rest → s.rsc.handshake = .asleep → s.rsc.sleepAck = true →
    s.meu.requester = true →
    exec .restTimerExpiry s = .next (portGrants { s with
      meu.tempTimer := none, meu.batteryTimer := some ⟨s.partTime, s.cfg.batteryInterval⟩
      rsc.part := .waking, rsc.wake := .alarm, rsc.pendingWake := none, rsc.restTimer := none, rsc.turnOver := false
      rsc.wakeTime := s.partTime, rsc.wakeSupply := s.meu.supply
      rsc.wakeBattery := (match s.meu.battery with
        | some b => b.mv
        | none => 0)
      rsc.handshake := .leaving, rsc.memTimer := some ⟨s.partTime, s.rsc.timeout⟩ })) ∧
  (∀ s : State, s.rsc.restTimer ≠ none → s.rsc.part = .restTurn → s.rsc.turnOver = false →
    exec .restTimerExpiry s = .next (portGrants { s with
      rsc.restTimer := none
      rsc.pendingWake := if s.rsc.pendingWake = none then some .alarm else s.rsc.pendingWake })) ∧
  (∀ s : State, s.rsc.part = .restTurn → s.rsc.turnOver = true → panelQuiet s = true → s.mpt.inflight = none →
    s.ktu.queue = [] → s.rsc.handshake = .awake →
    ∃ t, exec .restTurnSleep s = .next (portGrants t) ∧
      t.rsc.part = .rest ∧ t.rsc.turnOver = false ∧ t.pss.rail = .off ∧ sleepReq t = true ∧ portOpen t = false ∧
      t.rsc.restTimer = s.rsc.restTimer ∧ t.meu.batteryTimer = s.meu.batteryTimer ∧ t.rsc.entryTime = s.rsc.entryTime ∧
      (t.rsc.entrySupply = s.rsc.entrySupply ∧ t.rsc.entryBattery = s.rsc.entryBattery) ∧
      t.upe = s.upe ∧ t.ktu = s.ktu ∧ t.mem = s.mem)
end

