-- ==== Sys2Proof/Laws/State.lean ====
section
/-! SUPPORT. One lemma per field per update of the state, true by rfl, so that no later proof unfolds a record update. -/

set_option Elab.async false

namespace Sys2Proof.Machine

/-! ### The queue and the clock -/

@[simp] theorem withPending_pending (s : State) (l : List Instr) : (s.withPending l).pending = l := rfl
@[simp] theorem withPending_mem (s : State) (l : List Instr) : (s.withPending l).mem = s.mem := rfl
@[simp] theorem withPending_partTime (s : State) (l : List Instr) : (s.withPending l).partTime = s.partTime := rfl
@[simp] theorem withPending_settings (s : State) (l : List Instr) : (s.withPending l).settings = s.settings := rfl
@[simp] theorem withPending_fresh (s : State) (l : List Instr) : (s.withPending l).fresh = s.fresh := rfl
@[simp] theorem withPending_sif (s : State) (l : List Instr) : (s.withPending l).sif = s.sif := rfl
@[simp] theorem withPending_mpt (s : State) (l : List Instr) : (s.withPending l).mpt = s.mpt := rfl
@[simp] theorem withPending_meu (s : State) (l : List Instr) : (s.withPending l).meu = s.meu := rfl
@[simp] theorem withPending_wfs (s : State) (l : List Instr) : (s.withPending l).wfs = s.wfs := rfl
@[simp] theorem withPending_upe (s : State) (l : List Instr) : (s.withPending l).upe = s.upe := rfl
@[simp] theorem withPending_fsc (s : State) (l : List Instr) : (s.withPending l).fsc = s.fsc := rfl
@[simp] theorem withPending_pss (s : State) (l : List Instr) : (s.withPending l).pss = s.pss := rfl
@[simp] theorem withPending_ktu (s : State) (l : List Instr) : (s.withPending l).ktu = s.ktu := rfl
@[simp] theorem withPending_ltu (s : State) (l : List Instr) : (s.withPending l).ltu = s.ltu := rfl
@[simp] theorem withPending_dlc (s : State) (l : List Instr) : (s.withPending l).dlc = s.dlc := rfl
@[simp] theorem withPending_rsc (s : State) (l : List Instr) : (s.withPending l).rsc = s.rsc := rfl

@[simp] theorem tick_pending (s : State) : (s.tick).pending = s.pending := rfl
@[simp] theorem tick_mem (s : State) : (s.tick).mem = s.mem := rfl
@[simp] theorem tick_partTime (s : State) : (s.tick).partTime = s.partTime + 1 := rfl
@[simp] theorem tick_settings (s : State) : (s.tick).settings = s.settings := rfl
@[simp] theorem tick_fresh (s : State) : (s.tick).fresh = s.fresh := rfl
@[simp] theorem tick_sif (s : State) : (s.tick).sif = s.sif := rfl
@[simp] theorem tick_mpt (s : State) : (s.tick).mpt = s.mpt := rfl
@[simp] theorem tick_meu (s : State) : (s.tick).meu = s.meu := rfl
@[simp] theorem tick_wfs (s : State) : (s.tick).wfs = s.wfs := rfl
@[simp] theorem tick_upe (s : State) : (s.tick).upe = s.upe := rfl
@[simp] theorem tick_fsc (s : State) : (s.tick).fsc = s.fsc := rfl
@[simp] theorem tick_pss (s : State) : (s.tick).pss = s.pss := rfl
@[simp] theorem tick_ktu (s : State) : (s.tick).ktu = s.ktu := rfl
@[simp] theorem tick_ltu (s : State) : (s.tick).ltu = s.ltu := rfl
@[simp] theorem tick_dlc (s : State) : (s.tick).dlc = s.dlc := rfl
@[simp] theorem tick_rsc (s : State) : (s.tick).rsc = s.rsc := rfl

/-! ### Parts of a block -/

@[simp] theorem setLane_pending (s : State) (i : Nat) (l : Lane) : (s.setLane i l).pending = s.pending := rfl
@[simp] theorem setLane_mem (s : State) (i : Nat) (l : Lane) : (s.setLane i l).mem = s.mem := rfl
@[simp] theorem setLane_partTime (s : State) (i : Nat) (l : Lane) : (s.setLane i l).partTime = s.partTime := rfl
@[simp] theorem setLane_settings (s : State) (i : Nat) (l : Lane) : (s.setLane i l).settings = s.settings := rfl
@[simp] theorem setLane_fresh (s : State) (i : Nat) (l : Lane) : (s.setLane i l).fresh = s.fresh := rfl
@[simp] theorem setLane_sif (s : State) (i : Nat) (l : Lane) : (s.setLane i l).sif = s.sif := rfl
@[simp] theorem setLane_mpt (s : State) (i : Nat) (l : Lane) : (s.setLane i l).mpt = s.mpt := rfl
@[simp] theorem setLane_meu (s : State) (i : Nat) (l : Lane) : (s.setLane i l).meu = s.meu := rfl
@[simp] theorem setLane_wfs (s : State) (i : Nat) (l : Lane) : (s.setLane i l).wfs = s.wfs := rfl
@[simp] theorem setLane_upe (s : State) (i : Nat) (l : Lane) : (s.setLane i l).upe = { s.upe with lanes := s.upe.lanes.set i l } := rfl
@[simp] theorem setLane_fsc (s : State) (i : Nat) (l : Lane) : (s.setLane i l).fsc = s.fsc := rfl
@[simp] theorem setLane_pss (s : State) (i : Nat) (l : Lane) : (s.setLane i l).pss = s.pss := rfl
@[simp] theorem setLane_ktu (s : State) (i : Nat) (l : Lane) : (s.setLane i l).ktu = s.ktu := rfl
@[simp] theorem setLane_ltu (s : State) (i : Nat) (l : Lane) : (s.setLane i l).ltu = s.ltu := rfl
@[simp] theorem setLane_dlc (s : State) (i : Nat) (l : Lane) : (s.setLane i l).dlc = s.dlc := rfl
@[simp] theorem setLane_rsc (s : State) (i : Nat) (l : Lane) : (s.setLane i l).rsc = s.rsc := rfl

@[simp] theorem setStore_pending (s : State) (i : Nat) (e : StoreEntry) : (s.setStore i e).pending = s.pending := rfl
@[simp] theorem setStore_mem (s : State) (i : Nat) (e : StoreEntry) : (s.setStore i e).mem = s.mem := rfl
@[simp] theorem setStore_partTime (s : State) (i : Nat) (e : StoreEntry) : (s.setStore i e).partTime = s.partTime := rfl
@[simp] theorem setStore_settings (s : State) (i : Nat) (e : StoreEntry) : (s.setStore i e).settings = s.settings := rfl
@[simp] theorem setStore_fresh (s : State) (i : Nat) (e : StoreEntry) : (s.setStore i e).fresh = s.fresh := rfl
@[simp] theorem setStore_sif (s : State) (i : Nat) (e : StoreEntry) : (s.setStore i e).sif = s.sif := rfl
@[simp] theorem setStore_mpt (s : State) (i : Nat) (e : StoreEntry) : (s.setStore i e).mpt = s.mpt := rfl
@[simp] theorem setStore_meu (s : State) (i : Nat) (e : StoreEntry) : (s.setStore i e).meu = s.meu := rfl
@[simp] theorem setStore_wfs (s : State) (i : Nat) (e : StoreEntry) : (s.setStore i e).wfs = { s.wfs with entries := s.wfs.entries.set i e } := rfl
@[simp] theorem setStore_upe (s : State) (i : Nat) (e : StoreEntry) : (s.setStore i e).upe = s.upe := rfl
@[simp] theorem setStore_fsc (s : State) (i : Nat) (e : StoreEntry) : (s.setStore i e).fsc = s.fsc := rfl
@[simp] theorem setStore_pss (s : State) (i : Nat) (e : StoreEntry) : (s.setStore i e).pss = s.pss := rfl
@[simp] theorem setStore_ktu (s : State) (i : Nat) (e : StoreEntry) : (s.setStore i e).ktu = s.ktu := rfl
@[simp] theorem setStore_ltu (s : State) (i : Nat) (e : StoreEntry) : (s.setStore i e).ltu = s.ltu := rfl
@[simp] theorem setStore_dlc (s : State) (i : Nat) (e : StoreEntry) : (s.setStore i e).dlc = s.dlc := rfl
@[simp] theorem setStore_rsc (s : State) (i : Nat) (e : StoreEntry) : (s.setStore i e).rsc = s.rsc := rfl

@[simp] theorem setSlot_pending (s : State) (i : Nat) (f : FileSlot) : (s.setSlot i f).pending = s.pending := rfl
@[simp] theorem setSlot_mem (s : State) (i : Nat) (f : FileSlot) : (s.setSlot i f).mem = s.mem := rfl
@[simp] theorem setSlot_partTime (s : State) (i : Nat) (f : FileSlot) : (s.setSlot i f).partTime = s.partTime := rfl
@[simp] theorem setSlot_settings (s : State) (i : Nat) (f : FileSlot) : (s.setSlot i f).settings = s.settings := rfl
@[simp] theorem setSlot_fresh (s : State) (i : Nat) (f : FileSlot) : (s.setSlot i f).fresh = s.fresh := rfl
@[simp] theorem setSlot_sif (s : State) (i : Nat) (f : FileSlot) : (s.setSlot i f).sif = s.sif := rfl
@[simp] theorem setSlot_mpt (s : State) (i : Nat) (f : FileSlot) : (s.setSlot i f).mpt = s.mpt := rfl
@[simp] theorem setSlot_meu (s : State) (i : Nat) (f : FileSlot) : (s.setSlot i f).meu = s.meu := rfl
@[simp] theorem setSlot_wfs (s : State) (i : Nat) (f : FileSlot) : (s.setSlot i f).wfs = s.wfs := rfl
@[simp] theorem setSlot_upe (s : State) (i : Nat) (f : FileSlot) : (s.setSlot i f).upe = s.upe := rfl
@[simp] theorem setSlot_fsc (s : State) (i : Nat) (f : FileSlot) : (s.setSlot i f).fsc = s.fsc := rfl
@[simp] theorem setSlot_pss (s : State) (i : Nat) (f : FileSlot) : (s.setSlot i f).pss = s.pss := rfl
@[simp] theorem setSlot_ktu (s : State) (i : Nat) (f : FileSlot) : (s.setSlot i f).ktu = s.ktu := rfl
@[simp] theorem setSlot_ltu (s : State) (i : Nat) (f : FileSlot) : (s.setSlot i f).ltu = s.ltu := rfl
@[simp] theorem setSlot_dlc (s : State) (i : Nat) (f : FileSlot) : (s.setSlot i f).dlc = { s.dlc with slots := s.dlc.slots.set i f } := rfl
@[simp] theorem setSlot_rsc (s : State) (i : Nat) (f : FileSlot) : (s.setSlot i f).rsc = s.rsc := rfl

@[simp] theorem setLine_pending (s : State) (i : Nat) (k : KeyLine) : (s.setLine i k).pending = s.pending := rfl
@[simp] theorem setLine_mem (s : State) (i : Nat) (k : KeyLine) : (s.setLine i k).mem = s.mem := rfl
@[simp] theorem setLine_partTime (s : State) (i : Nat) (k : KeyLine) : (s.setLine i k).partTime = s.partTime := rfl
@[simp] theorem setLine_settings (s : State) (i : Nat) (k : KeyLine) : (s.setLine i k).settings = s.settings := rfl
@[simp] theorem setLine_fresh (s : State) (i : Nat) (k : KeyLine) : (s.setLine i k).fresh = s.fresh := rfl
@[simp] theorem setLine_sif (s : State) (i : Nat) (k : KeyLine) : (s.setLine i k).sif = s.sif := rfl
@[simp] theorem setLine_mpt (s : State) (i : Nat) (k : KeyLine) : (s.setLine i k).mpt = s.mpt := rfl
@[simp] theorem setLine_meu (s : State) (i : Nat) (k : KeyLine) : (s.setLine i k).meu = s.meu := rfl
@[simp] theorem setLine_wfs (s : State) (i : Nat) (k : KeyLine) : (s.setLine i k).wfs = s.wfs := rfl
@[simp] theorem setLine_upe (s : State) (i : Nat) (k : KeyLine) : (s.setLine i k).upe = s.upe := rfl
@[simp] theorem setLine_fsc (s : State) (i : Nat) (k : KeyLine) : (s.setLine i k).fsc = s.fsc := rfl
@[simp] theorem setLine_pss (s : State) (i : Nat) (k : KeyLine) : (s.setLine i k).pss = s.pss := rfl
@[simp] theorem setLine_ktu (s : State) (i : Nat) (k : KeyLine) : (s.setLine i k).ktu = { s.ktu with lines := s.ktu.lines.set i k } := rfl
@[simp] theorem setLine_ltu (s : State) (i : Nat) (k : KeyLine) : (s.setLine i k).ltu = s.ltu := rfl
@[simp] theorem setLine_dlc (s : State) (i : Nat) (k : KeyLine) : (s.setLine i k).dlc = s.dlc := rfl
@[simp] theorem setLine_rsc (s : State) (i : Nat) (k : KeyLine) : (s.setLine i k).rsc = s.rsc := rfl

@[simp] theorem setWriter_pending (s : State) (u : StatusUser) (w : Writer) : (s.setWriter u w).pending = s.pending := rfl
@[simp] theorem setWriter_mem (s : State) (u : StatusUser) (w : Writer) : (s.setWriter u w).mem = s.mem := rfl
@[simp] theorem setWriter_partTime (s : State) (u : StatusUser) (w : Writer) : (s.setWriter u w).partTime = s.partTime := rfl
@[simp] theorem setWriter_settings (s : State) (u : StatusUser) (w : Writer) : (s.setWriter u w).settings = s.settings := rfl
@[simp] theorem setWriter_fresh (s : State) (u : StatusUser) (w : Writer) : (s.setWriter u w).fresh = s.fresh := rfl
@[simp] theorem setWriter_sif (s : State) (u : StatusUser) (w : Writer) : (s.setWriter u w).sif = { s.sif with writers := s.sif.writers.set u.num w } := rfl
@[simp] theorem setWriter_mpt (s : State) (u : StatusUser) (w : Writer) : (s.setWriter u w).mpt = s.mpt := rfl
@[simp] theorem setWriter_meu (s : State) (u : StatusUser) (w : Writer) : (s.setWriter u w).meu = s.meu := rfl
@[simp] theorem setWriter_wfs (s : State) (u : StatusUser) (w : Writer) : (s.setWriter u w).wfs = s.wfs := rfl
@[simp] theorem setWriter_upe (s : State) (u : StatusUser) (w : Writer) : (s.setWriter u w).upe = s.upe := rfl
@[simp] theorem setWriter_fsc (s : State) (u : StatusUser) (w : Writer) : (s.setWriter u w).fsc = s.fsc := rfl
@[simp] theorem setWriter_pss (s : State) (u : StatusUser) (w : Writer) : (s.setWriter u w).pss = s.pss := rfl
@[simp] theorem setWriter_ktu (s : State) (u : StatusUser) (w : Writer) : (s.setWriter u w).ktu = s.ktu := rfl
@[simp] theorem setWriter_ltu (s : State) (u : StatusUser) (w : Writer) : (s.setWriter u w).ltu = s.ltu := rfl
@[simp] theorem setWriter_dlc (s : State) (u : StatusUser) (w : Writer) : (s.setWriter u w).dlc = s.dlc := rfl
@[simp] theorem setWriter_rsc (s : State) (u : StatusUser) (w : Writer) : (s.setWriter u w).rsc = s.rsc := rfl

@[simp] theorem joinStation_pending (s : State) (b : Burst) : (joinStation b s).pending = s.pending := rfl
@[simp] theorem joinStation_mem (s : State) (b : Burst) : (joinStation b s).mem = s.mem := rfl
@[simp] theorem joinStation_partTime (s : State) (b : Burst) : (joinStation b s).partTime = s.partTime := rfl
@[simp] theorem joinStation_settings (s : State) (b : Burst) : (joinStation b s).settings = s.settings := rfl
@[simp] theorem joinStation_fresh (s : State) (b : Burst) : (joinStation b s).fresh = s.fresh := rfl
@[simp] theorem joinStation_sif (s : State) (b : Burst) : (joinStation b s).sif = s.sif := rfl
@[simp] theorem joinStation_mpt (s : State) (b : Burst) : (joinStation b s).mpt = { s.mpt with stationQueue := s.mpt.stationQueue ++ [b] } := rfl
@[simp] theorem joinStation_meu (s : State) (b : Burst) : (joinStation b s).meu = s.meu := rfl
@[simp] theorem joinStation_wfs (s : State) (b : Burst) : (joinStation b s).wfs = s.wfs := rfl
@[simp] theorem joinStation_upe (s : State) (b : Burst) : (joinStation b s).upe = s.upe := rfl
@[simp] theorem joinStation_fsc (s : State) (b : Burst) : (joinStation b s).fsc = s.fsc := rfl
@[simp] theorem joinStation_pss (s : State) (b : Burst) : (joinStation b s).pss = s.pss := rfl
@[simp] theorem joinStation_ktu (s : State) (b : Burst) : (joinStation b s).ktu = s.ktu := rfl
@[simp] theorem joinStation_ltu (s : State) (b : Burst) : (joinStation b s).ltu = s.ltu := rfl
@[simp] theorem joinStation_dlc (s : State) (b : Burst) : (joinStation b s).dlc = s.dlc := rfl
@[simp] theorem joinStation_rsc (s : State) (b : Burst) : (joinStation b s).rsc = s.rsc := rfl

/-! ### A chain's control -/

@[simp] theorem setChain_pending (s : State) (c : Chain) (x : ChainCtl) : (s.setChain c x).pending = s.pending := by cases c <;> rfl
@[simp] theorem setChain_mem (s : State) (c : Chain) (x : ChainCtl) : (s.setChain c x).mem = s.mem := by cases c <;> rfl
@[simp] theorem setChain_partTime (s : State) (c : Chain) (x : ChainCtl) : (s.setChain c x).partTime = s.partTime := by cases c <;> rfl
@[simp] theorem setChain_settings (s : State) (c : Chain) (x : ChainCtl) : (s.setChain c x).settings = s.settings := by cases c <;> rfl
@[simp] theorem setChain_fresh (s : State) (c : Chain) (x : ChainCtl) : (s.setChain c x).fresh = s.fresh := by cases c <;> rfl
@[simp] theorem setChain_mpt (s : State) (c : Chain) (x : ChainCtl) : (s.setChain c x).mpt = s.mpt := by cases c <;> rfl
@[simp] theorem setChain_meu (s : State) (c : Chain) (x : ChainCtl) : (s.setChain c x).meu = s.meu := by cases c <;> rfl
@[simp] theorem setChain_wfs (s : State) (c : Chain) (x : ChainCtl) : (s.setChain c x).wfs = s.wfs := by cases c <;> rfl
@[simp] theorem setChain_upe (s : State) (c : Chain) (x : ChainCtl) : (s.setChain c x).upe = s.upe := by cases c <;> rfl
@[simp] theorem setChain_fsc (s : State) (c : Chain) (x : ChainCtl) : (s.setChain c x).fsc = s.fsc := by cases c <;> rfl
@[simp] theorem setChain_pss (s : State) (c : Chain) (x : ChainCtl) : (s.setChain c x).pss = s.pss := by cases c <;> rfl
@[simp] theorem setChain_ktu (s : State) (c : Chain) (x : ChainCtl) : (s.setChain c x).ktu = s.ktu := by cases c <;> rfl
@[simp] theorem setChain_ltu (s : State) (c : Chain) (x : ChainCtl) : (s.setChain c x).ltu = s.ltu := by cases c <;> rfl
@[simp] theorem setChain_dlc (s : State) (c : Chain) (x : ChainCtl) : (s.setChain c x).dlc = s.dlc := by cases c <;> rfl
@[simp] theorem setChain_rsc (s : State) (c : Chain) (x : ChainCtl) : (s.setChain c x).rsc = s.rsc := by cases c <;> rfl
@[simp] theorem setChain_sif_base (s : State) (c : Chain) (x : ChainCtl) : (s.setChain c x).sif.base = s.sif.base := by cases c <;> rfl
@[simp] theorem setChain_sif_live (s : State) (c : Chain) (x : ChainCtl) : (s.setChain c x).sif.live = s.sif.live := by cases c <;> rfl
@[simp] theorem setChain_sif_err (s : State) (c : Chain) (x : ChainCtl) : (s.setChain c x).sif.err = s.sif.err := by cases c <;> rfl
@[simp] theorem setChain_sif_errOffset (s : State) (c : Chain) (x : ChainCtl) : (s.setChain c x).sif.errOffset = s.sif.errOffset := by cases c <;> rfl
@[simp] theorem setChain_sif_posted (s : State) (c : Chain) (x : ChainCtl) : (s.setChain c x).sif.posted = s.sif.posted := by cases c <;> rfl
@[simp] theorem setChain_sif_acked (s : State) (c : Chain) (x : ChainCtl) : (s.setChain c x).sif.acked = s.sif.acked := by cases c <;> rfl
@[simp] theorem setChain_sif_mask (s : State) (c : Chain) (x : ChainCtl) : (s.setChain c x).sif.mask = s.sif.mask := by cases c <;> rfl
@[simp] theorem setChain_sif_int (s : State) (c : Chain) (x : ChainCtl) : (s.setChain c x).sif.int = s.sif.int := by cases c <;> rfl
@[simp] theorem setChain_sif_load (s : State) (c : Chain) (x : ChainCtl) : (s.setChain c x).sif.load = s.sif.load := by cases c <;> rfl
@[simp] theorem setChain_sif_loadQueue (s : State) (c : Chain) (x : ChainCtl) : (s.setChain c x).sif.loadQueue = s.sif.loadQueue := by cases c <;> rfl
@[simp] theorem setChain_sif_finals (s : State) (c : Chain) (x : ChainCtl) : (s.setChain c x).sif.finals = s.sif.finals := by cases c <;> rfl
@[simp] theorem setChain_sif_finalBusy (s : State) (c : Chain) (x : ChainCtl) : (s.setChain c x).sif.finalBusy = s.sif.finalBusy := by cases c <;> rfl
@[simp] theorem setChain_sif_writers (s : State) (c : Chain) (x : ChainCtl) : (s.setChain c x).sif.writers = s.sif.writers := by cases c <;> rfl

@[simp] theorem setChain_chain (s : State) (c : Chain) (x : ChainCtl) : (s.setChain c x).chain c = x := by cases c <;> rfl

/-- Replacing one chain's control leaves the others. -/
theorem setChain_chain_ne (s : State) {c d : Chain} (x : ChainCtl) (h : d ≠ c) : (s.setChain c x).chain d = s.chain d := by
  cases c <;> cases d <;> first | rfl | exact absurd rfl h

@[simp] theorem joinStation_chain (s : State) (b : Burst) (c : Chain) : (joinStation b s).chain c = s.chain c := by
  cases c <;> rfl

end Sys2Proof.Machine
end

