-- ==== Sys2Proof/Laws/Ops.lean ====
section
/-! SUPPORT. For each shared operation, one lemma that says once everything it can do. -/

set_option Elab.async false

namespace Sys2Proof.Machine

/-- Asking for an area's write changes only the status writers and the STATION queue. -/
theorem ask_eq (a : Area) (s : State) :
    ∃ w q, ask a s = { s with sif.writers := w, mpt.stationQueue := s.mpt.stationQueue ++ q } := by
  unfold ask
  dsimp only
  split
  · exact ⟨s.sif.writers, [], by simp⟩
  · split
    · exact ⟨_, [_], rfl⟩
    · exact ⟨s.sif.writers.set a.user.num { s.writer a.user with queued := (s.writer a.user).queued ++ [a] }, [],
        by simp [State.setWriter]⟩

/-- What asking for a write puts in the STATION queue is its writer's. -/
theorem ask_queue (a : Area) (s : State) :
    ∃ q, (ask a s).mpt.stationQueue = s.mpt.stationQueue ++ q ∧ ∀ b ∈ q, ∃ u, b.user = .status u := by
  unfold ask
  dsimp only
  split
  · exact ⟨[], by simp⟩
  · split
    · exact ⟨_, rfl, by simp [stationBurst]⟩
    · exact ⟨[], by simp [State.setWriter]⟩

/-- A post adds one to its cause's posted count, evaluates INT, and changes nothing else but the status writers and the
STATION queue (R13, R14). -/
theorem post_eq (c : Cause) (s : State) :
    ∃ w q, post c s = { s with
      sif.posted := s.sif.posted.modify c.num (· + 1)
      sif.int := intOf s.sif.mask (s.sif.posted.modify c.num (· + 1)) s.sif.acked
      sif.writers := w, mpt.stationQueue := s.mpt.stationQueue ++ q } := by
  unfold post
  dsimp only
  split
  · obtain ⟨w, q, e⟩ := ask_eq .mirror { s with sif.posted := s.sif.posted.modify c.num (· + 1) }
    exact ⟨w, q, by rw [e]; rfl⟩
  · exact ⟨s.sif.writers, [], by simp [evalInt]⟩

/-- What a post puts in the STATION queue is a status writer's. -/
theorem post_queue (c : Cause) (s : State) :
    ∃ q, (post c s).mpt.stationQueue = s.mpt.stationQueue ++ q ∧ ∀ b ∈ q, ∃ u, b.user = .status u := by
  unfold post
  dsimp only
  split
  · exact ask_queue .mirror { s with sif.posted := s.sif.posted.modify c.num (· + 1) }
  · exact ⟨[], by simp [evalInt]⟩

/-- Counting a finalization changes only its chain's retired count. -/
theorem countRetired_eq (c : Chain) (s : State) :
    countRetired c s = s.setChain c { s.chain c with retired := (s.chain c).retired + 1 } := rfl

/-- Counting a finalization advances its chain's retired count and its DONE cause, and asks for status writes (R10, R12). -/
theorem countFinal_eq (c : Chain) (s : State) :
    ∃ w q, countFinal c s =
      { (s.setChain c { s.chain c with retired := (s.chain c).retired + 1 }) with
        sif.writers := w, mpt.stationQueue := s.mpt.stationQueue ++ q
        sif.posted := s.sif.posted.modify (doneCause c).num (· + 1)
        sif.int := intOf s.sif.mask (s.sif.posted.modify (doneCause c).num (· + 1)) s.sif.acked } := by
  obtain ⟨w, q, e⟩ := ask_eq .retired (countRetired c s)
  obtain ⟨v, p, e2⟩ := post_eq (doneCause c) (ask .retired (countRetired c s))
  refine ⟨v, q ++ p, ?_⟩
  unfold countFinal
  rw [e2, e]
  cases c <;> simp [countRetired, State.setChain, State.chain, List.append_assoc]

/-- The finalizer stands, its head job's next write joins the STATION queue, or that job's status joins and the job is done. -/
theorem kickFinalizer_cases (s : State) :
    (s.sif.finalBusy = true ∨ s.sif.finals = []) ∧ kickFinalizer s = s ∨
    (∃ f l b w, s.sif.finalBusy = false ∧ s.sif.finals = f :: l ∧ f.writes = b :: w ∧
      kickFinalizer s = joinFinal b { s with sif.finals := { f with writes := w } :: l, sif.finalBusy := true }) ∨
    (∃ f l, s.sif.finalBusy = false ∧ s.sif.finals = f :: l ∧ f.writes = [] ∧
      kickFinalizer s = finalJoined f (joinFinal f.status { s with sif.finals := l, sif.finalBusy := true })) := by
  unfold kickFinalizer
  split
  · next f l hb hf =>
    split
    · next b w hw => exact .inr (.inl ⟨f, l, b, w, hb, hf, hw, rfl⟩)
    · next hw => exact .inr (.inr ⟨f, l, hb, hf, hw, rfl⟩)
  · next hn =>
    refine .inl ⟨?_, rfl⟩
    cases hb : s.sif.finalBusy with
    | true => exact .inl rfl
    | false =>
      cases hf : s.sif.finals with
      | nil => exact .inr rfl
      | cons f l => exact absurd hf (hn f l hb)

/-- With one job in line, which still has its writes, the finalizer counts nothing. -/
theorem kickFinalizer_one (f : Final) (b : Nat × List Byte) (w : List (Nat × List Byte)) (hw : f.writes = b :: w) (s : State)
    (hf : s.sif.finals = [f]) :
    ∃ g y q, kickFinalizer s =
      { s with sif.finals := g, sif.finalBusy := y, mpt.stationQueue := s.mpt.stationQueue ++ q } := by
  rcases kickFinalizer_cases s with ⟨_, e⟩ | ⟨g, l, d, v, _, _, _, e⟩ | ⟨g, l, _, hg, hv, _⟩
  · exact ⟨s.sif.finals, s.sif.finalBusy, [], by rw [e]; simp⟩
  · exact ⟨_, _, _, e⟩
  · rw [hf, List.cons.injEq] at hg
    rw [← hg.1, hw] at hv
    exact absurd hv (by simp)

/-- What a finalization makes of its chain's retired count, of the posted counts and of INT: with the port open nothing yet,
with it closed the count and the post at once (R10, R146). -/
theorem finalize_eq (c : Chain) (r : Nat) (l : List (Nat × List Byte)) (x : Code) (s : State) :
    ∃ f y w q, finalize c r l x s =
      { (s.setChain c { s.chain c with
          retired := if portOpen s then (s.chain c).retired else (s.chain c).retired + 1 }) with
        sif.finals := f, sif.finalBusy := y, sif.writers := w, mpt.stationQueue := s.mpt.stationQueue ++ q
        sif.posted := if portOpen s then s.sif.posted else s.sif.posted.modify (doneCause c).num (· + 1)
        sif.int := if portOpen s then s.sif.int else
          intOf s.sif.mask (s.sif.posted.modify (doneCause c).num (· + 1)) s.sif.acked } := by
  have hs : s.setChain c (s.chain c) = s := by cases c <;> rfl
  have hk : ∀ f b w, f.writes = b :: w → ∃ g y q,
      (if s.sif.finals.isEmpty then kickFinalizer { s with sif.finals := s.sif.finals ++ [f] }
        else { s with sif.finals := s.sif.finals ++ [f] }) =
      { s with sif.finals := g, sif.finalBusy := y, mpt.stationQueue := s.mpt.stationQueue ++ q } := by
    intro f b w hw
    split
    · next he =>
      exact kickFinalizer_one f b w hw { s with sif.finals := s.sif.finals ++ [f] }
        (by simp [List.isEmpty_iff.mp he])
    · exact ⟨s.sif.finals ++ [f], s.sif.finalBusy, [], by simp⟩
  unfold finalize
  dsimp only
  cases hw : l.map (fun p => (r + p.1, p.2)) ++ [(r + 0xC, le32 s.partTime.toNat)] with
  | nil => simp at hw
  | cons b w =>
    obtain ⟨g, y, q, e⟩ := hk ⟨c, !portOpen s, b :: w, (r + 5, le8 x.num)⟩ b w rfl
    rw [e]
    by_cases hp : portOpen s = true
    · refine ⟨g, y, s.sif.writers, q, ?_⟩
      simp only [hp, if_true]
      rw [hs]
    · simp only [hp, if_false, Bool.false_eq_true]
      obtain ⟨v, p, e2⟩ := countFinal_eq c (
        { s with sif.finals := g, sif.finalBusy := y, mpt.stationQueue := s.mpt.stationQueue ++ q })
      refine ⟨g, y, v, q ++ p, ?_⟩
      rw [e2]
      cases c <;> simp [State.setChain, State.chain, List.append_assoc]

/-! ### What asking for a write leaves -/

@[simp] theorem ask_pending (a : Area) (s : State) : (ask a s).pending = s.pending := by
  obtain ⟨w, q, e⟩ := ask_eq a s; rw [e]
@[simp] theorem ask_mem (a : Area) (s : State) : (ask a s).mem = s.mem := by
  obtain ⟨w, q, e⟩ := ask_eq a s; rw [e]
@[simp] theorem ask_partTime (a : Area) (s : State) : (ask a s).partTime = s.partTime := by
  obtain ⟨w, q, e⟩ := ask_eq a s; rw [e]
@[simp] theorem ask_settings (a : Area) (s : State) : (ask a s).settings = s.settings := by
  obtain ⟨w, q, e⟩ := ask_eq a s; rw [e]
@[simp] theorem ask_fresh (a : Area) (s : State) : (ask a s).fresh = s.fresh := by
  obtain ⟨w, q, e⟩ := ask_eq a s; rw [e]
@[simp] theorem ask_meu (a : Area) (s : State) : (ask a s).meu = s.meu := by
  obtain ⟨w, q, e⟩ := ask_eq a s; rw [e]
@[simp] theorem ask_wfs (a : Area) (s : State) : (ask a s).wfs = s.wfs := by
  obtain ⟨w, q, e⟩ := ask_eq a s; rw [e]
@[simp] theorem ask_upe (a : Area) (s : State) : (ask a s).upe = s.upe := by
  obtain ⟨w, q, e⟩ := ask_eq a s; rw [e]
@[simp] theorem ask_fsc (a : Area) (s : State) : (ask a s).fsc = s.fsc := by
  obtain ⟨w, q, e⟩ := ask_eq a s; rw [e]
@[simp] theorem ask_pss (a : Area) (s : State) : (ask a s).pss = s.pss := by
  obtain ⟨w, q, e⟩ := ask_eq a s; rw [e]
@[simp] theorem ask_ktu (a : Area) (s : State) : (ask a s).ktu = s.ktu := by
  obtain ⟨w, q, e⟩ := ask_eq a s; rw [e]
@[simp] theorem ask_ltu (a : Area) (s : State) : (ask a s).ltu = s.ltu := by
  obtain ⟨w, q, e⟩ := ask_eq a s; rw [e]
@[simp] theorem ask_dlc (a : Area) (s : State) : (ask a s).dlc = s.dlc := by
  obtain ⟨w, q, e⟩ := ask_eq a s; rw [e]
@[simp] theorem ask_rsc (a : Area) (s : State) : (ask a s).rsc = s.rsc := by
  obtain ⟨w, q, e⟩ := ask_eq a s; rw [e]
@[simp] theorem ask_sif_base (a : Area) (s : State) : (ask a s).sif.base = s.sif.base := by
  obtain ⟨w, q, e⟩ := ask_eq a s; rw [e]
@[simp] theorem ask_sif_live (a : Area) (s : State) : (ask a s).sif.live = s.sif.live := by
  obtain ⟨w, q, e⟩ := ask_eq a s; rw [e]
@[simp] theorem ask_sif_err (a : Area) (s : State) : (ask a s).sif.err = s.sif.err := by
  obtain ⟨w, q, e⟩ := ask_eq a s; rw [e]
@[simp] theorem ask_sif_errOffset (a : Area) (s : State) : (ask a s).sif.errOffset = s.sif.errOffset := by
  obtain ⟨w, q, e⟩ := ask_eq a s; rw [e]
@[simp] theorem ask_sif_page (a : Area) (s : State) : (ask a s).sif.page = s.sif.page := by
  obtain ⟨w, q, e⟩ := ask_eq a s; rw [e]
@[simp] theorem ask_sif_control (a : Area) (s : State) : (ask a s).sif.control = s.sif.control := by
  obtain ⟨w, q, e⟩ := ask_eq a s; rw [e]
@[simp] theorem ask_sif_fetch (a : Area) (s : State) : (ask a s).sif.fetch = s.sif.fetch := by
  obtain ⟨w, q, e⟩ := ask_eq a s; rw [e]
@[simp] theorem ask_sif_posted (a : Area) (s : State) : (ask a s).sif.posted = s.sif.posted := by
  obtain ⟨w, q, e⟩ := ask_eq a s; rw [e]
@[simp] theorem ask_sif_acked (a : Area) (s : State) : (ask a s).sif.acked = s.sif.acked := by
  obtain ⟨w, q, e⟩ := ask_eq a s; rw [e]
@[simp] theorem ask_sif_mask (a : Area) (s : State) : (ask a s).sif.mask = s.sif.mask := by
  obtain ⟨w, q, e⟩ := ask_eq a s; rw [e]
@[simp] theorem ask_sif_int (a : Area) (s : State) : (ask a s).sif.int = s.sif.int := by
  obtain ⟨w, q, e⟩ := ask_eq a s; rw [e]
@[simp] theorem ask_sif_load (a : Area) (s : State) : (ask a s).sif.load = s.sif.load := by
  obtain ⟨w, q, e⟩ := ask_eq a s; rw [e]
@[simp] theorem ask_sif_loadQueue (a : Area) (s : State) : (ask a s).sif.loadQueue = s.sif.loadQueue := by
  obtain ⟨w, q, e⟩ := ask_eq a s; rw [e]
@[simp] theorem ask_sif_finals (a : Area) (s : State) : (ask a s).sif.finals = s.sif.finals := by
  obtain ⟨w, q, e⟩ := ask_eq a s; rw [e]
@[simp] theorem ask_sif_finalBusy (a : Area) (s : State) : (ask a s).sif.finalBusy = s.sif.finalBusy := by
  obtain ⟨w, q, e⟩ := ask_eq a s; rw [e]
@[simp] theorem ask_mpt_inflight (a : Area) (s : State) : (ask a s).mpt.inflight = s.mpt.inflight := by
  obtain ⟨w, q, e⟩ := ask_eq a s; rw [e]
@[simp] theorem ask_mpt_scanWait (a : Area) (s : State) : (ask a s).mpt.scanWait = s.mpt.scanWait := by
  obtain ⟨w, q, e⟩ := ask_eq a s; rw [e]
@[simp] theorem ask_mpt_pixelWait (a : Area) (s : State) : (ask a s).mpt.pixelWait = s.mpt.pixelWait := by
  obtain ⟨w, q, e⟩ := ask_eq a s; rw [e]
@[simp] theorem ask_mpt_downWait (a : Area) (s : State) : (ask a s).mpt.downWait = s.mpt.downWait := by
  obtain ⟨w, q, e⟩ := ask_eq a s; rw [e]
@[simp] theorem ask_mpt_verifyWait (a : Area) (s : State) : (ask a s).mpt.verifyWait = s.mpt.verifyWait := by
  obtain ⟨w, q, e⟩ := ask_eq a s; rw [e]
@[simp] theorem ask_mpt_waveQueue (a : Area) (s : State) : (ask a s).mpt.waveQueue = s.mpt.waveQueue := by
  obtain ⟨w, q, e⟩ := ask_eq a s; rw [e]
@[simp] theorem ask_mpt_last (a : Area) (s : State) : (ask a s).mpt.last = s.mpt.last := by
  obtain ⟨w, q, e⟩ := ask_eq a s; rw [e]
@[simp] theorem ask_mpt_capture (a : Area) (s : State) : (ask a s).mpt.capture = s.mpt.capture := by
  obtain ⟨w, q, e⟩ := ask_eq a s; rw [e]

/-! ### What a post leaves -/

@[simp] theorem post_pending (c : Cause) (s : State) : (post c s).pending = s.pending := by
  obtain ⟨w, q, e⟩ := post_eq c s; rw [e]
@[simp] theorem post_mem (c : Cause) (s : State) : (post c s).mem = s.mem := by
  obtain ⟨w, q, e⟩ := post_eq c s; rw [e]
@[simp] theorem post_partTime (c : Cause) (s : State) : (post c s).partTime = s.partTime := by
  obtain ⟨w, q, e⟩ := post_eq c s; rw [e]
@[simp] theorem post_settings (c : Cause) (s : State) : (post c s).settings = s.settings := by
  obtain ⟨w, q, e⟩ := post_eq c s; rw [e]
@[simp] theorem post_fresh (c : Cause) (s : State) : (post c s).fresh = s.fresh := by
  obtain ⟨w, q, e⟩ := post_eq c s; rw [e]
@[simp] theorem post_meu (c : Cause) (s : State) : (post c s).meu = s.meu := by
  obtain ⟨w, q, e⟩ := post_eq c s; rw [e]
@[simp] theorem post_wfs (c : Cause) (s : State) : (post c s).wfs = s.wfs := by
  obtain ⟨w, q, e⟩ := post_eq c s; rw [e]
@[simp] theorem post_upe (c : Cause) (s : State) : (post c s).upe = s.upe := by
  obtain ⟨w, q, e⟩ := post_eq c s; rw [e]
@[simp] theorem post_fsc (c : Cause) (s : State) : (post c s).fsc = s.fsc := by
  obtain ⟨w, q, e⟩ := post_eq c s; rw [e]
@[simp] theorem post_pss (c : Cause) (s : State) : (post c s).pss = s.pss := by
  obtain ⟨w, q, e⟩ := post_eq c s; rw [e]
@[simp] theorem post_ktu (c : Cause) (s : State) : (post c s).ktu = s.ktu := by
  obtain ⟨w, q, e⟩ := post_eq c s; rw [e]
@[simp] theorem post_ltu (c : Cause) (s : State) : (post c s).ltu = s.ltu := by
  obtain ⟨w, q, e⟩ := post_eq c s; rw [e]
@[simp] theorem post_dlc (c : Cause) (s : State) : (post c s).dlc = s.dlc := by
  obtain ⟨w, q, e⟩ := post_eq c s; rw [e]
@[simp] theorem post_rsc (c : Cause) (s : State) : (post c s).rsc = s.rsc := by
  obtain ⟨w, q, e⟩ := post_eq c s; rw [e]
@[simp] theorem post_sif_base (c : Cause) (s : State) : (post c s).sif.base = s.sif.base := by
  obtain ⟨w, q, e⟩ := post_eq c s; rw [e]
@[simp] theorem post_sif_live (c : Cause) (s : State) : (post c s).sif.live = s.sif.live := by
  obtain ⟨w, q, e⟩ := post_eq c s; rw [e]
@[simp] theorem post_sif_err (c : Cause) (s : State) : (post c s).sif.err = s.sif.err := by
  obtain ⟨w, q, e⟩ := post_eq c s; rw [e]
@[simp] theorem post_sif_errOffset (c : Cause) (s : State) : (post c s).sif.errOffset = s.sif.errOffset := by
  obtain ⟨w, q, e⟩ := post_eq c s; rw [e]
@[simp] theorem post_sif_page (c : Cause) (s : State) : (post c s).sif.page = s.sif.page := by
  obtain ⟨w, q, e⟩ := post_eq c s; rw [e]
@[simp] theorem post_sif_control (c : Cause) (s : State) : (post c s).sif.control = s.sif.control := by
  obtain ⟨w, q, e⟩ := post_eq c s; rw [e]
@[simp] theorem post_sif_fetch (c : Cause) (s : State) : (post c s).sif.fetch = s.sif.fetch := by
  obtain ⟨w, q, e⟩ := post_eq c s; rw [e]
@[simp] theorem post_sif_acked (c : Cause) (s : State) : (post c s).sif.acked = s.sif.acked := by
  obtain ⟨w, q, e⟩ := post_eq c s; rw [e]
@[simp] theorem post_sif_mask (c : Cause) (s : State) : (post c s).sif.mask = s.sif.mask := by
  obtain ⟨w, q, e⟩ := post_eq c s; rw [e]
@[simp] theorem post_sif_load (c : Cause) (s : State) : (post c s).sif.load = s.sif.load := by
  obtain ⟨w, q, e⟩ := post_eq c s; rw [e]
@[simp] theorem post_sif_loadQueue (c : Cause) (s : State) : (post c s).sif.loadQueue = s.sif.loadQueue := by
  obtain ⟨w, q, e⟩ := post_eq c s; rw [e]
@[simp] theorem post_sif_finals (c : Cause) (s : State) : (post c s).sif.finals = s.sif.finals := by
  obtain ⟨w, q, e⟩ := post_eq c s; rw [e]
@[simp] theorem post_sif_finalBusy (c : Cause) (s : State) : (post c s).sif.finalBusy = s.sif.finalBusy := by
  obtain ⟨w, q, e⟩ := post_eq c s; rw [e]
@[simp] theorem post_mpt_inflight (c : Cause) (s : State) : (post c s).mpt.inflight = s.mpt.inflight := by
  obtain ⟨w, q, e⟩ := post_eq c s; rw [e]
@[simp] theorem post_mpt_scanWait (c : Cause) (s : State) : (post c s).mpt.scanWait = s.mpt.scanWait := by
  obtain ⟨w, q, e⟩ := post_eq c s; rw [e]
@[simp] theorem post_mpt_pixelWait (c : Cause) (s : State) : (post c s).mpt.pixelWait = s.mpt.pixelWait := by
  obtain ⟨w, q, e⟩ := post_eq c s; rw [e]
@[simp] theorem post_mpt_downWait (c : Cause) (s : State) : (post c s).mpt.downWait = s.mpt.downWait := by
  obtain ⟨w, q, e⟩ := post_eq c s; rw [e]
@[simp] theorem post_mpt_verifyWait (c : Cause) (s : State) : (post c s).mpt.verifyWait = s.mpt.verifyWait := by
  obtain ⟨w, q, e⟩ := post_eq c s; rw [e]
@[simp] theorem post_mpt_waveQueue (c : Cause) (s : State) : (post c s).mpt.waveQueue = s.mpt.waveQueue := by
  obtain ⟨w, q, e⟩ := post_eq c s; rw [e]
@[simp] theorem post_mpt_last (c : Cause) (s : State) : (post c s).mpt.last = s.mpt.last := by
  obtain ⟨w, q, e⟩ := post_eq c s; rw [e]
@[simp] theorem post_mpt_capture (c : Cause) (s : State) : (post c s).mpt.capture = s.mpt.capture := by
  obtain ⟨w, q, e⟩ := post_eq c s; rw [e]
@[simp] theorem post_sif_posted (c : Cause) (s : State) : (post c s).sif.posted = s.sif.posted.modify c.num (· + 1) := by
  obtain ⟨w, q, e⟩ := post_eq c s; rw [e]
@[simp] theorem post_sif_int (c : Cause) (s : State) :
    (post c s).sif.int = intOf s.sif.mask (s.sif.posted.modify c.num (· + 1)) s.sif.acked := by
  obtain ⟨w, q, e⟩ := post_eq c s; rw [e]

/-! ### What a finalization leaves -/

@[simp] theorem finalize_pending (c : Chain) (r : Nat) (l : List (Nat × List Byte)) (x : Code) (s : State) : (finalize c r l x s).pending = s.pending := by
  obtain ⟨f, y, w, q, e⟩ := finalize_eq c r l x s; rw [e]; simp
@[simp] theorem finalize_mem (c : Chain) (r : Nat) (l : List (Nat × List Byte)) (x : Code) (s : State) : (finalize c r l x s).mem = s.mem := by
  obtain ⟨f, y, w, q, e⟩ := finalize_eq c r l x s; rw [e]; simp
@[simp] theorem finalize_partTime (c : Chain) (r : Nat) (l : List (Nat × List Byte)) (x : Code) (s : State) : (finalize c r l x s).partTime = s.partTime := by
  obtain ⟨f, y, w, q, e⟩ := finalize_eq c r l x s; rw [e]; simp
@[simp] theorem finalize_settings (c : Chain) (r : Nat) (l : List (Nat × List Byte)) (x : Code) (s : State) : (finalize c r l x s).settings = s.settings := by
  obtain ⟨f, y, w, q, e⟩ := finalize_eq c r l x s; rw [e]; simp
@[simp] theorem finalize_fresh (c : Chain) (r : Nat) (l : List (Nat × List Byte)) (x : Code) (s : State) : (finalize c r l x s).fresh = s.fresh := by
  obtain ⟨f, y, w, q, e⟩ := finalize_eq c r l x s; rw [e]; simp
@[simp] theorem finalize_meu (c : Chain) (r : Nat) (l : List (Nat × List Byte)) (x : Code) (s : State) : (finalize c r l x s).meu = s.meu := by
  obtain ⟨f, y, w, q, e⟩ := finalize_eq c r l x s; rw [e]; simp
@[simp] theorem finalize_wfs (c : Chain) (r : Nat) (l : List (Nat × List Byte)) (x : Code) (s : State) : (finalize c r l x s).wfs = s.wfs := by
  obtain ⟨f, y, w, q, e⟩ := finalize_eq c r l x s; rw [e]; simp
@[simp] theorem finalize_upe (c : Chain) (r : Nat) (l : List (Nat × List Byte)) (x : Code) (s : State) : (finalize c r l x s).upe = s.upe := by
  obtain ⟨f, y, w, q, e⟩ := finalize_eq c r l x s; rw [e]; simp
@[simp] theorem finalize_fsc (c : Chain) (r : Nat) (l : List (Nat × List Byte)) (x : Code) (s : State) : (finalize c r l x s).fsc = s.fsc := by
  obtain ⟨f, y, w, q, e⟩ := finalize_eq c r l x s; rw [e]; simp
@[simp] theorem finalize_pss (c : Chain) (r : Nat) (l : List (Nat × List Byte)) (x : Code) (s : State) : (finalize c r l x s).pss = s.pss := by
  obtain ⟨f, y, w, q, e⟩ := finalize_eq c r l x s; rw [e]; simp
@[simp] theorem finalize_ktu (c : Chain) (r : Nat) (l : List (Nat × List Byte)) (x : Code) (s : State) : (finalize c r l x s).ktu = s.ktu := by
  obtain ⟨f, y, w, q, e⟩ := finalize_eq c r l x s; rw [e]; simp
@[simp] theorem finalize_ltu (c : Chain) (r : Nat) (l : List (Nat × List Byte)) (x : Code) (s : State) : (finalize c r l x s).ltu = s.ltu := by
  obtain ⟨f, y, w, q, e⟩ := finalize_eq c r l x s; rw [e]; simp
@[simp] theorem finalize_dlc (c : Chain) (r : Nat) (l : List (Nat × List Byte)) (x : Code) (s : State) : (finalize c r l x s).dlc = s.dlc := by
  obtain ⟨f, y, w, q, e⟩ := finalize_eq c r l x s; rw [e]; simp
@[simp] theorem finalize_rsc (c : Chain) (r : Nat) (l : List (Nat × List Byte)) (x : Code) (s : State) : (finalize c r l x s).rsc = s.rsc := by
  obtain ⟨f, y, w, q, e⟩ := finalize_eq c r l x s; rw [e]; simp
@[simp] theorem finalize_sif_base (c : Chain) (r : Nat) (l : List (Nat × List Byte)) (x : Code) (s : State) : (finalize c r l x s).sif.base = s.sif.base := by
  obtain ⟨f, y, w, q, e⟩ := finalize_eq c r l x s; rw [e]; simp
@[simp] theorem finalize_sif_live (c : Chain) (r : Nat) (l : List (Nat × List Byte)) (x : Code) (s : State) : (finalize c r l x s).sif.live = s.sif.live := by
  obtain ⟨f, y, w, q, e⟩ := finalize_eq c r l x s; rw [e]; simp
@[simp] theorem finalize_sif_err (c : Chain) (r : Nat) (l : List (Nat × List Byte)) (x : Code) (s : State) : (finalize c r l x s).sif.err = s.sif.err := by
  obtain ⟨f, y, w, q, e⟩ := finalize_eq c r l x s; rw [e]; simp
@[simp] theorem finalize_sif_errOffset (c : Chain) (r : Nat) (l : List (Nat × List Byte)) (x : Code) (s : State) : (finalize c r l x s).sif.errOffset = s.sif.errOffset := by
  obtain ⟨f, y, w, q, e⟩ := finalize_eq c r l x s; rw [e]; simp
@[simp] theorem finalize_sif_acked (c : Chain) (r : Nat) (l : List (Nat × List Byte)) (x : Code) (s : State) : (finalize c r l x s).sif.acked = s.sif.acked := by
  obtain ⟨f, y, w, q, e⟩ := finalize_eq c r l x s; rw [e]; simp
@[simp] theorem finalize_sif_mask (c : Chain) (r : Nat) (l : List (Nat × List Byte)) (x : Code) (s : State) : (finalize c r l x s).sif.mask = s.sif.mask := by
  obtain ⟨f, y, w, q, e⟩ := finalize_eq c r l x s; rw [e]; simp
@[simp] theorem finalize_sif_load (c : Chain) (r : Nat) (l : List (Nat × List Byte)) (x : Code) (s : State) : (finalize c r l x s).sif.load = s.sif.load := by
  obtain ⟨f, y, w, q, e⟩ := finalize_eq c r l x s; rw [e]; simp
@[simp] theorem finalize_sif_loadQueue (c : Chain) (r : Nat) (l : List (Nat × List Byte)) (x : Code) (s : State) : (finalize c r l x s).sif.loadQueue = s.sif.loadQueue := by
  obtain ⟨f, y, w, q, e⟩ := finalize_eq c r l x s; rw [e]; simp
@[simp] theorem finalize_mpt_inflight (c : Chain) (r : Nat) (l : List (Nat × List Byte)) (x : Code) (s : State) : (finalize c r l x s).mpt.inflight = s.mpt.inflight := by
  obtain ⟨f, y, w, q, e⟩ := finalize_eq c r l x s; rw [e]; simp
@[simp] theorem finalize_mpt_scanWait (c : Chain) (r : Nat) (l : List (Nat × List Byte)) (x : Code) (s : State) : (finalize c r l x s).mpt.scanWait = s.mpt.scanWait := by
  obtain ⟨f, y, w, q, e⟩ := finalize_eq c r l x s; rw [e]; simp
@[simp] theorem finalize_mpt_pixelWait (c : Chain) (r : Nat) (l : List (Nat × List Byte)) (x : Code) (s : State) : (finalize c r l x s).mpt.pixelWait = s.mpt.pixelWait := by
  obtain ⟨f, y, w, q, e⟩ := finalize_eq c r l x s; rw [e]; simp
@[simp] theorem finalize_mpt_downWait (c : Chain) (r : Nat) (l : List (Nat × List Byte)) (x : Code) (s : State) : (finalize c r l x s).mpt.downWait = s.mpt.downWait := by
  obtain ⟨f, y, w, q, e⟩ := finalize_eq c r l x s; rw [e]; simp
@[simp] theorem finalize_mpt_verifyWait (c : Chain) (r : Nat) (l : List (Nat × List Byte)) (x : Code) (s : State) : (finalize c r l x s).mpt.verifyWait = s.mpt.verifyWait := by
  obtain ⟨f, y, w, q, e⟩ := finalize_eq c r l x s; rw [e]; simp
@[simp] theorem finalize_mpt_waveQueue (c : Chain) (r : Nat) (l : List (Nat × List Byte)) (x : Code) (s : State) : (finalize c r l x s).mpt.waveQueue = s.mpt.waveQueue := by
  obtain ⟨f, y, w, q, e⟩ := finalize_eq c r l x s; rw [e]; simp
@[simp] theorem finalize_mpt_last (c : Chain) (r : Nat) (l : List (Nat × List Byte)) (x : Code) (s : State) : (finalize c r l x s).mpt.last = s.mpt.last := by
  obtain ⟨f, y, w, q, e⟩ := finalize_eq c r l x s; rw [e]; simp
@[simp] theorem finalize_mpt_capture (c : Chain) (r : Nat) (l : List (Nat × List Byte)) (x : Code) (s : State) : (finalize c r l x s).mpt.capture = s.mpt.capture := by
  obtain ⟨f, y, w, q, e⟩ := finalize_eq c r l x s; rw [e]; simp
@[simp] theorem finalize_sif_posted (c : Chain) (r : Nat) (l : List (Nat × List Byte)) (x : Code) (s : State) :
    (finalize c r l x s).sif.posted =
      if portOpen s then s.sif.posted else s.sif.posted.modify (doneCause c).num (· + 1) := by
  obtain ⟨f, y, w, q, e⟩ := finalize_eq c r l x s; rw [e]
@[simp] theorem finalize_chain (c d : Chain) (r : Nat) (l : List (Nat × List Byte)) (x : Code) (s : State) :
    (finalize c r l x s).chain d = if d = c then { s.chain c with
      retired := if portOpen s then (s.chain c).retired else (s.chain c).retired + 1 } else s.chain d := by
  obtain ⟨f, y, w, q, e⟩ := finalize_eq c r l x s
  rw [e]
  cases c <;> cases d <;> rfl

end Sys2Proof.Machine
end

