-- ==== Sys2Proof/Laws/Keeps.lean ====
section
/-! SUPPORT. What every effect but a burst's answer, an ACK, a BASE write and a reset keeps: the relation `Keeps`, and that the shared operations of Ops.lean are in it. -/

set_option Elab.async false

namespace Sys2Proof.Machine

/-- A burst without its fate: what a unit's giving up leaves as it was. -/
def Burst.plain (b : Burst) : Burst := { b with fate := .live }

/-- The lane states in order. -/
def State.laneStates (s : State) : List LaneState := s.upe.lanes.map Lane.state

/-- The fields of the capture that a further failure leaves (R28). -/
def Capture.fixed (c : Capture) : Capture := { c with further := 0 }

/-- Merging a chunk into a map in order keeps it in order, counts its extents and adds the uncovered bytes to its sum: what the
keeping of the File Table's laws rests on (R161, R162). -/
def MergesWell : Prop :=
  ∀ (len a b : Nat) (m : List (Nat × Nat)), extentsOk len m = true → a < b → b ≤ len →
    extentsOk len (mergeExtent m a b) = true ∧
    (mergeExtent m a b).length = m.length + 1 - (m.filter (touches a b)).length ∧
    extentSum (mergeExtent m a b) = extentSum m + extentSum (uncovered m a b)

/-- What the laws of the File Table read of the Download Channel. -/
abbrev Dlc.table (d : Dlc) : List FileSlot × Option (Nat × Chunk × Nat) × List Nat × Option Nat :=
  (d.slots, d.dispatch.map fun x => (x.slot, x.chunk, x.fresh), d.verifyQueue, d.verify.map Verify.slot)

/-- What `Keeps` says but for the laws of the panel. -/
structure KeepsCore (k b : Bool) (s t : State) : Prop where
  pending  : t.pending = s.pending
  mem      : t.mem = s.mem
  time     : t.partTime = s.partTime
  base     : t.sif.base = s.sif.base
  acked    : t.sif.acked = s.sif.acked
  burst    : b = true → t.mpt.inflight.map Burst.plain = s.mpt.inflight.map Burst.plain
  capture  : s.mpt.capture.full = true → t.mpt.capture.fixed = s.mpt.capture.fixed
  settings : k = true → t.settings = s.settings
  int      : s.intLaw = true → t.intLaw = true
  turns    : s.turnLaw = true → t.turnLaw = true
  files    : MergesWell → s.fileLaw = true → t.fileLaw = true

/-- `t` differs from `s` only as the units' own effects may: the queue of commands, main memory, part time, BASE and the
acknowledged counts stand; the burst in flight stands but for its fate (if `b`); a full capture stands but for its further
count; the held settings stand (if `k`); and the laws of INT, the panel, the turn unit and the File Table that hold of `s` hold
of `t`. -/
structure Keeps (k b : Bool) (s t : State) : Prop where
  core  : KeepsCore k b s t
  panel : s.panelLaw = true → t.panelLaw = true

variable {k b : Bool} {s t u : State}

theorem full_of_fixed {c d : Capture} (h : c.fixed = d.fixed) (e : d.full = true) : c.full = true :=
  (congrArg Capture.full h).trans e

theorem plain_ignore (x : Burst) : x.ignore.plain = x.plain := by
  unfold Burst.ignore
  split <;> rfl

theorem KeepsCore.refl : KeepsCore k b s s :=
  ⟨rfl, rfl, rfl, rfl, rfl, fun _ => rfl, fun _ => rfl, fun _ => rfl, id, id, fun _ => id⟩

theorem KeepsCore.trans (h : KeepsCore k b s t) (g : KeepsCore k b t u) : KeepsCore k b s u where
  pending := g.pending.trans h.pending
  mem := g.mem.trans h.mem
  time := g.time.trans h.time
  base := g.base.trans h.base
  acked := g.acked.trans h.acked
  burst e := (g.burst e).trans (h.burst e)
  capture e := (g.capture (full_of_fixed (h.capture e) e)).trans (h.capture e)
  settings e := (g.settings e).trans (h.settings e)
  int e := g.int (h.int e)
  turns e := g.turns (h.turns e)
  files m e := g.files m (h.files m e)

theorem Keeps.refl : Keeps k b s s := ⟨KeepsCore.refl, id⟩

theorem Keeps.trans (h : Keeps k b s t) (g : Keeps k b t u) : Keeps k b s u :=
  ⟨h.core.trans g.core, fun e => g.panel (h.panel e)⟩

/-! ### The laws read only these fields -/

theorem railLaw_eq (s : State) : s.railLaw = (s.pss.rail == .on || s.laneStates.all (· != .driving)) := by
  simp [State.railLaw, State.laneStates, List.all_map, Function.comp_def]

theorem allLanesFree_eq (s : State) : allLanesFree s = s.laneStates.all (· == .free) := by
  simp only [allLanesFree, State.laneStates, List.all_map]
  rfl

/-- The laws of the panel spelled out. -/
theorem panelLaw_iff (s : State) : s.panelLaw = true ↔
    (s.pss.rail = .on ∨ ∀ l ∈ s.upe.lanes, l.state ≠ .driving) ∧
    (s.pss.rail ≠ .on ∨ s.pss.idleTimer = none ∨ ∀ l ∈ s.upe.lanes, l.state = .free) ∧
    (s.rsc.part ≠ .rest ∨ (∀ l ∈ s.upe.lanes, l.state = .free) ∧ s.pss.rail = .off) := by
  simp [State.panelLaw, State.railLaw, State.idleLaw, State.restLaw, allLanesFree, Lane.isFree, and_assoc, or_assoc]

/-- The laws of the turn unit spelled out. -/
theorem turnLaw_iff (s : State) : s.turnLaw = true ↔
    s.ktu.log.length ≤ 16 ∧ (s.ktu.turnRec = none ∨ s.ktu.log.length < 16) ∧
    s.ktu.forward.length ≤ 8 ∧ s.ktu.backward.length ≤ 4 ∧ s.ktu.queue.length ≤ 4 := by
  simp [State.turnLaw, State.logLaw, State.listLaw, and_assoc]

/-- The panel laws follow from the lane states, the rail state, the idle-hold timer and the part state. -/
theorem panelLaw_congr (hl : t.laneStates = s.laneStates) (hr : t.pss.rail = s.pss.rail)
    (hi : t.pss.idleTimer = s.pss.idleTimer) (hp : t.rsc.part = s.rsc.part) : t.panelLaw = s.panelLaw := by
  simp [State.panelLaw, railLaw_eq, State.idleLaw, State.restLaw, allLanesFree_eq, hl, hr, hi, hp]

/-- The laws of the File Table follow from the table. -/
theorem fileLaw_congr (e : t.dlc.table = s.dlc.table) : t.fileLaw = s.fileLaw := by
  simp only [Dlc.table, Prod.mk.injEq] at e
  obtain ⟨h1, h2, h3, h4⟩ := e
  have hs : ∀ i, t.slot i = s.slot i := fun i => by simp only [State.slot, h1]
  have hd : t.dispatchLaw = s.dispatchLaw := by
    unfold State.dispatchLaw
    cases a : t.dlc.dispatch with
    | none =>
      cases c : s.dlc.dispatch with
      | none => rfl
      | some y => simp [a, c] at h2
    | some x =>
      cases c : s.dlc.dispatch with
      | none => simp [a, c] at h2
      | some y =>
        simp only [a, c, Option.map_some, Option.some.injEq, Prod.mk.injEq] at h2
        obtain ⟨e1, e2, e3⟩ := h2
        simp only [hs, e1, e2, e3]
  have hv : t.verifyLaw = s.verifyLaw := by
    unfold State.verifyLaw
    cases a : t.dlc.verify with
    | none =>
      cases c : s.dlc.verify with
      | none => simp only [h3, hs]
      | some y => simp [a, c] at h4
    | some x =>
      cases c : s.dlc.verify with
      | none => simp [a, c] at h4
      | some y =>
        simp only [a, c, Option.map_some, Option.some.injEq] at h4
        simp only [h3, hs, h4]
  simp only [State.fileLaw, State.slotLaw, State.idLaw, h1, hs, hd, hv]

/-- A record update that leaves the fields the laws of INT, the turn unit and the File Table read. -/
theorem KeepsCore.upd (h : KeepsCore k b s t) {settings fresh sif mpt meu wfs upe fsc pss ktu ltu dlc rsc}
    (h1 : k = true → settings = t.settings := by intros; rfl)
    (h2 : sif.base = t.sif.base := by intros; rfl)
    (h3 : sif.acked = t.sif.acked := by intros; rfl)
    (h4 : sif.posted = t.sif.posted := by intros; rfl)
    (h5 : sif.mask = t.sif.mask := by intros; rfl)
    (h6 : sif.int = t.sif.int := by intros; rfl)
    (h7 : b = true → mpt.inflight.map Burst.plain = t.mpt.inflight.map Burst.plain := by intros; rfl)
    (h8 : mpt.capture = t.mpt.capture := by intros; rfl)
    (h13 : ktu.log = t.ktu.log := by intros; rfl)
    (h14 : ktu.turnRec.isNone = t.ktu.turnRec.isNone := by intros; rfl)
    (h15 : ktu.forward = t.ktu.forward := by intros; rfl)
    (h16 : ktu.backward = t.ktu.backward := by intros; rfl)
    (h17 : ktu.queue = t.ktu.queue := by intros; rfl)
    (h18 : dlc.table = t.dlc.table := by intros; rfl) :
    KeepsCore k b s (State.mk t.pending t.mem t.partTime settings fresh sif mpt meu wfs upe fsc pss ktu ltu dlc rsc) := by
  refine h.trans ⟨rfl, rfl, rfl, h2, h3, h7, fun _ => by rw [h8], h1, ?_, ?_, fun _ e => (fileLaw_congr (s := t) h18).trans e⟩
  · simp [State.intLaw, h4, h5, h6, h3]
  · simp [State.turnLaw, State.logLaw, State.listLaw, h13, h14, h15, h16, h17]

/-- A record update that leaves every field the laws read keeps them all. -/
theorem Keeps.upd (h : Keeps k b s t) {settings fresh sif mpt meu wfs upe fsc pss ktu ltu dlc rsc}
    (h1 : k = true → settings = t.settings := by intros; rfl)
    (h2 : sif.base = t.sif.base := by intros; rfl)
    (h3 : sif.acked = t.sif.acked := by intros; rfl)
    (h4 : sif.posted = t.sif.posted := by intros; rfl)
    (h5 : sif.mask = t.sif.mask := by intros; rfl)
    (h6 : sif.int = t.sif.int := by intros; rfl)
    (h7 : b = true → mpt.inflight.map Burst.plain = t.mpt.inflight.map Burst.plain := by intros; rfl)
    (h8 : mpt.capture = t.mpt.capture := by intros; rfl)
    (h9 : upe.lanes.map Lane.state = t.upe.lanes.map Lane.state := by intros; rfl)
    (h10 : pss.rail = t.pss.rail := by intros; rfl)
    (h11 : pss.idleTimer = t.pss.idleTimer := by intros; rfl)
    (h12 : rsc.part = t.rsc.part := by intros; rfl)
    (h13 : ktu.log = t.ktu.log := by intros; rfl)
    (h14 : ktu.turnRec.isNone = t.ktu.turnRec.isNone := by intros; rfl)
    (h15 : ktu.forward = t.ktu.forward := by intros; rfl)
    (h16 : ktu.backward = t.ktu.backward := by intros; rfl)
    (h17 : ktu.queue = t.ktu.queue := by intros; rfl)
    (h18 : dlc.table = t.dlc.table := by intros; rfl) :
    Keeps k b s (State.mk t.pending t.mem t.partTime settings fresh sif mpt meu wfs upe fsc pss ktu ltu dlc rsc) :=
  ⟨h.core.upd h1 h2 h3 h4 h5 h6 h7 h8 h13 h14 h15 h16 h17 h18, fun e =>
    (panelLaw_congr (s := t) (t := State.mk t.pending t.mem t.partTime settings fresh sif mpt meu wfs upe fsc
      pss ktu ltu dlc rsc) h9 h10 h11 h12).trans (h.panel e)⟩

/-- The turn unit replaced. -/
theorem Keeps.ktu (h : Keeps k b s t) (x : Ktu) (e : t.turnLaw = true → { t with ktu := x }.turnLaw = true) :
    Keeps k b s { t with ktu := x } :=
  h.trans ⟨⟨rfl, rfl, rfl, rfl, rfl, fun _ => rfl, fun _ => rfl, fun _ => rfl, id, e, fun _ => id⟩, id⟩

/-- The Download Channel replaced. -/
theorem Keeps.dlc (h : Keeps k b s t) (x : Dlc)
    (e : MergesWell → t.fileLaw = true → { t with dlc := x }.fileLaw = true) : Keeps k b s { t with dlc := x } :=
  h.trans ⟨⟨rfl, rfl, rfl, rfl, rfl, fun _ => rfl, fun _ => rfl, fun _ => rfl, id, id, e⟩, id⟩

/-- A fold of steps that keep. -/
theorem keeps_foldl {α : Type} (f : State → α → State) (hf : ∀ t x, Keeps k b s t → Keeps k b s (f t x)) :
    ∀ (l : List α) {t : State}, Keeps k b s t → Keeps k b s (l.foldl f t)
  | [], _, h => h
  | x :: l, t, h => keeps_foldl f hf l (hf t x h)

/-! ### The shared operations -/

variable (h : Keeps k b s t)
include h

theorem keeps_takeFreeByte : Keeps k b s (takeFreeByte t).2 := h.upd

theorem keeps_takeFreeOffset : Keeps k b s (takeFreeOffset t).2 := h.upd

theorem keeps_setChain (c : Chain) (x : ChainCtl) : Keeps k b s (t.setChain c x) := by
  cases c <;> exact h.upd

theorem keeps_setStore (i : Nat) (e : StoreEntry) : Keeps k b s (t.setStore i e) := h.upd

theorem keeps_setLine (i : Nat) (x : KeyLine) : Keeps k b s (t.setLine i x) := h.upd

theorem keeps_setWriter (w : StatusUser) (x : Writer) : Keeps k b s (t.setWriter w x) := h.upd

theorem keeps_joinStation (x : Burst) : Keeps k b s (joinStation x t) := h.upd

theorem keeps_beginArea (a : Area) (w : Writer) : Keeps k b s (beginArea a w t) :=
  keeps_joinStation (keeps_setWriter h _ _) _

theorem keeps_ask (a : Area) : Keeps k b s (ask a t) := by
  unfold ask
  dsimp only
  repeat' split
  · exact h
  · exact keeps_beginArea h _ _
  · exact keeps_setWriter h _ _

theorem keeps_writerBegin (w : StatusUser) : Keeps k b s (writerBegin w t) := by
  unfold writerBegin
  dsimp only
  repeat' split
  · exact keeps_beginArea h _ _
  · exact h
  · exact h

theorem keeps_wakeWritesOn : Keeps k b s (wakeWritesOn t) := by
  have c : Keeps k b s (if t.sif.wakeOrder = .log ∧ logJoined t then
      writerBegin .counts { t with sif.wakeOrder := .mirror } else t) := by
    split
    · exact keeps_writerBegin h.upd _
    · exact h
  unfold wakeWritesOn
  dsimp only
  revert c
  generalize (if t.sif.wakeOrder = .log ∧ logJoined t then
      writerBegin .counts { t with sif.wakeOrder := .mirror } else t) = x
  intro c
  split
  · exact keeps_writerBegin c.upd _
  · exact c

theorem keeps_writerNext (w : StatusUser) (ok : Bool) : Keeps k b s (writerNext w ok t) := by
  unfold writerNext
  dsimp only
  refine keeps_wakeWritesOn ?_
  split
  · exact keeps_joinStation (keeps_setWriter h _ _) _
  · exact keeps_writerBegin (keeps_setWriter h _ _) _

/-- INT is evaluated after the counts or the mask have changed (R14). -/
theorem keeps_evalInt {p : List Half} {m : BitVec 12}
    (g : Keeps k b { t with sif.posted := p, sif.mask := m } u) : Keeps k b s (evalInt u) where
  core :=
    { pending := g.core.pending.trans h.core.pending
      mem := g.core.mem.trans h.core.mem
      time := g.core.time.trans h.core.time
      base := g.core.base.trans h.core.base
      acked := g.core.acked.trans h.core.acked
      burst := fun e => (g.core.burst e).trans (h.core.burst e)
      capture := fun e => (g.core.capture (full_of_fixed (h.core.capture e) e)).trans (h.core.capture e)
      settings := fun e => (g.core.settings e).trans (h.core.settings e)
      int := fun _ => by simp [State.intLaw, evalInt]
      turns := fun e => g.core.turns (h.core.turns e)
      files := fun m e => g.core.files m (h.core.files m e) }
  panel e := g.panel (h.panel e)

theorem keeps_post (c : Cause) : Keeps k b s (post c t) := by
  unfold post
  dsimp only
  split
  · exact keeps_evalInt h (m := t.sif.mask) (keeps_ask Keeps.refl _)
  · exact keeps_evalInt h (m := t.sif.mask) Keeps.refl

theorem keeps_countRetired (c : Chain) : Keeps k b s (countRetired c t) := keeps_setChain h _ _

theorem keeps_countFinal (c : Chain) : Keeps k b s (countFinal c t) := keeps_post (keeps_ask (keeps_countRetired h _) _) _

theorem keeps_finalJoined (f : Final) : Keeps k b s (finalJoined f t) := by
  unfold finalJoined
  split
  · exact h
  · exact keeps_countFinal h _

theorem keeps_joinFinal (w : Nat × List Byte) : Keeps k b s (joinFinal w t) := keeps_joinStation h _

theorem keeps_kickFinalizer : Keeps k b s (kickFinalizer t) := by
  unfold kickFinalizer
  repeat' split
  · exact keeps_joinFinal h.upd _
  · exact keeps_finalJoined (keeps_joinFinal h.upd _) _
  · exact h

theorem keeps_finalizerNext : Keeps k b s (finalizerNext t) := keeps_kickFinalizer h.upd

theorem keeps_finalize (c : Chain) (r : Nat) (l : List (Nat × List Byte)) (x : Code) :
    Keeps k b s (finalize c r l x t) := by
  have g : ∀ f : Final, Keeps k b s (if t.sif.finals.isEmpty then kickFinalizer { t with sif.finals := t.sif.finals ++ [f] }
      else { t with sif.finals := t.sif.finals ++ [f] }) := by
    intro f
    split
    · exact keeps_kickFinalizer h.upd
    · exact h.upd
  unfold finalize
  dsimp only
  split
  · exact g _
  · exact keeps_countFinal (g _) _

theorem keeps_askCapture : Keeps k b s (askCapture t) := by
  unfold askCapture
  split
  · exact keeps_ask h _
  · exact h

/-- A window failure leaves the fixed fields of a full capture (R28). -/
theorem keeps_reportWindow (c : Client) (w : Bool) (a n : Nat) : Keeps k b s (reportWindow c w a n t) := by
  unfold reportWindow
  split
  · split
    · exact h
    · exact keeps_askCapture (h.trans ⟨⟨rfl, rfl, rfl, rfl, rfl, fun _ => rfl, fun _ => rfl, fun _ => rfl, id, id, fun _ => id⟩, id⟩)
  · next hf =>
    refine keeps_askCapture (keeps_post (h.trans ?_) _)
    exact ⟨⟨rfl, rfl, rfl, rfl, rfl, fun _ => rfl, fun e => absurd e hf, fun _ => rfl, id, id, fun _ => id⟩, id⟩

theorem keeps_setUncertain : Keeps k b s (setUncertain t) := by
  have e : (t.upe.lanes.map fun l => if l.isFree then l else { l with note := false }).map Lane.state =
      t.upe.lanes.map Lane.state := by
    rw [List.map_map]
    exact List.map_congr_left fun l _ => by simp only [Function.comp]; split <;> rfl
  unfold setUncertain
  dsimp only
  split
  · exact h.upd (h9 := e)
  · exact keeps_ask (h.upd (h9 := e)) _

theorem keeps_giveUpBurst (c : Client) : Keeps k b s (giveUpBurst c t) := by
  have e : (t.mpt.inflight.map fun x => if x.client = c then x.ignore else x).map Burst.plain =
      t.mpt.inflight.map Burst.plain := by
    rw [Option.map_map]
    congr 1
    funext x
    simp only [Function.comp]
    split
    · exact plain_ignore x
    · rfl
  cases c <;> exact h.upd (h7 := fun _ => e)

/-- A lane replaced by one in the same state. -/
theorem keeps_setLane (i : Nat) (l : Lane) (e : l.state = (t.lane i).state) : Keeps k b s (t.setLane i l) := by
  refine h.upd (h9 := ?_)
  rw [List.map_set, e]
  by_cases hi : i < t.upe.lanes.length
  · apply List.ext_getElem (by simp)
    intro n h1 h2
    simp only [List.getElem_set]
    split
    · next hn => subst hn; simp [State.lane, List.getD_eq_getElem?_getD, hi]
    · rfl
  · rw [List.set_eq_of_length_le (by simp; omega)]

/-- A lane freed. -/
theorem keeps_setLane_free (i : Nat) : Keeps k b s (t.setLane i {}) := by
  refine h.trans ⟨KeepsCore.refl.upd, ?_⟩
  have hs : (t.setLane i {}).laneStates = t.laneStates.set i .free := by
    simp [State.setLane, State.laneStates, List.map_set]
  have hall : ∀ p : LaneState → Bool, p .free = true → t.laneStates.all p = true → (t.laneStates.set i .free).all p = true := by
    intro p hp ha
    rw [List.all_eq_true] at ha ⊢
    intro x hx
    rcases List.mem_or_eq_of_mem_set hx with hx | hx
    · exact ha x hx
    · exact hx ▸ hp
  simp only [State.panelLaw, railLaw_eq, State.idleLaw, State.restLaw, allLanesFree_eq, hs, Bool.and_eq_true, Bool.or_eq_true]
  rintro ⟨⟨h1, h2⟩, h3⟩
  refine ⟨⟨h1.imp id (hall _ rfl), h2.imp id (hall _ rfl)⟩, h3.imp id (And.imp (hall _ rfl) id)⟩

end Sys2Proof.Machine
end

