-- ==== Sys2Proof/Laws/KeepsSupply.lean ====
section
/-! SUPPORT. The Panel Supply Sequencer's moves keep what `Keeps` says. -/

set_option Elab.async false

namespace Sys2Proof.Machine

variable {k b : Bool} {s t u : State}

/-- After the idle-hold check the law of the idle hold holds. -/
theorem panelLaw_idleCheck (h1 : t.pss.rail = .on ∨ ∀ l ∈ t.upe.lanes, l.state ≠ .driving)
    (h3 : t.rsc.part ≠ .rest ∨ (∀ l ∈ t.upe.lanes, l.state = .free) ∧ t.pss.rail = .off) :
    (idleCheck t).panelLaw = true := by
  rw [panelLaw_iff]
  unfold idleCheck
  split
  · next hr =>
    split
    · next hf =>
      have hl : ∀ l ∈ t.upe.lanes, l.state = .free := by
        simp only [allLanesFree, Bool.and_eq_true, List.all_eq_true] at hf
        exact fun l hl => by simpa [Lane.isFree] using hf.1 l hl
      split
      · exact ⟨h1, .inr (.inr hl), h3⟩
      · exact ⟨h1, .inr (.inr hl), h3⟩
    · exact ⟨h1, .inr (.inl rfl), h3⟩
  · next hr => exact ⟨h1, .inl hr, h3⟩

theorem core_idleCheck (h : KeepsCore k b s t) : KeepsCore k b s (idleCheck t) := by
  unfold idleCheck
  repeat' first
    | exact h
    | exact h.upd
    | split

theorem keeps_idleCheck (h : Keeps k b s t) : Keeps k b s (idleCheck t) :=
  ⟨core_idleCheck h.core, fun e =>
    have g := (panelLaw_iff t).1 (h.panel e)
    panelLaw_idleCheck g.1 g.2.2⟩

/-- The rails become ON out of RISING. -/
theorem keeps_railsOn (h : Keeps k b s t) (hr : t.pss.rail = .rising) : Keeps k b s (railsOn t) := by
  unfold railsOn
  have c : KeepsCore k b s (ask .panel { t with pss.rail := .on, pss.riseTimer := none }) :=
    h.core.upd.trans (keeps_ask Keeps.refl _).core
  refine ⟨core_idleCheck c, fun e => ?_⟩
  have g := (panelLaw_iff t).1 (h.panel e)
  refine panelLaw_idleCheck (.inl (by simp)) ?_
  simp only [ask_rsc, ask_upe, ask_pss]
  exact g.2.2.imp id fun x => absurd (hr.symm.trans x.2) (by decide)

/-- The rails rise out of a state other than ON, not in REST. -/
theorem keeps_enterRising (h : Keeps k b s t) (hr : t.pss.rail ≠ .on)
    (hp : s.panelLaw = true → t.rsc.part ≠ .rest) : Keeps k b s (enterRising t) := by
  unfold enterRising
  have c : Keeps k b s (ask .panel { t with pss.rail := .rising, pss.riseTimer := t.timer 20 }) := by
    refine keeps_ask ⟨h.core.upd, fun e => ?_⟩ _
    have g := (panelLaw_iff t).1 (h.panel e)
    rw [panelLaw_iff]
    exact ⟨.inr (g.1.resolve_left hr), .inl (nofun), .inl (hp e)⟩
  dsimp only
  split
  · exact keeps_railsOn c (by simp)
  · exact c

theorem keeps_railsRise (h : Keeps k b s t) : Keeps k b s (railsRise t) := by
  unfold railsRise
  split
  · next hc =>
    refine keeps_enterRising h (by rw [hc.1]; decide) fun e => ?_
    have g := (panelLaw_iff t).1 (h.panel e)
    refine g.2.2.resolve_right fun x => ?_
    obtain ⟨l, hl, ha⟩ := List.any_eq_true.1 hc.2
    rw [x.1 l hl] at ha
    exact absurd ha (by decide)
  · exact h

/-- The sequencer enters OFF from a state other than ON. -/
theorem keeps_enterOff (h : Keeps k b s t) (hr : t.pss.rail ≠ .on) : Keeps k b s (enterOff t) := by
  unfold enterOff
  refine keeps_railsRise (keeps_ask ⟨h.core.upd, fun e => ?_⟩ _)
  have g := (panelLaw_iff t).1 (h.panel e)
  rw [panelLaw_iff]
  exact ⟨.inr (g.1.resolve_left hr), .inl (nofun), g.2.2.imp id fun x => ⟨x.1, rfl⟩⟩

theorem keeps_stopFrame (h : Keeps k b s t) : Keeps k b s (stopFrame t) := by
  unfold stopFrame
  split
  · exact h
  · exact keeps_giveUpBurst h.upd _

end Sys2Proof.Machine
end

