-- ==== Sys2Proof/Laws/KeepsUnits.lean ====
section
/-! SUPPORT. The effects of the Measurement Unit, the Waveform Store, the Update Engine's list and the Light Unit keep what `Keeps` says. -/

set_option Elab.async false

namespace Sys2Proof.Machine

variable {k b : Bool} {s t u : State} (h : Keeps k b s t)
include h

/-! ### Measure.lean -/

theorem keeps_askMeasure : Keeps k b s (askMeasure t) := by
  unfold askMeasure
  try dsimp only
  repeat' first
    | rfl
    | exact h
    | with_reducible apply keeps_ask
    | split
    | with_reducible refine Keeps.upd ?_

theorem keeps_adcKick : Keeps k b s (adcKick t) := by
  unfold adcKick
  try dsimp only
  repeat' first
    | rfl
    | exact h
    | split
    | with_reducible refine Keeps.upd ?_

theorem keeps_requestTemp : Keeps k b s (requestTemp t) := by
  unfold requestTemp
  try dsimp only
  repeat' first
    | rfl
    | exact h
    | with_reducible apply keeps_adcKick
    | split
    | with_reducible refine Keeps.upd ?_

theorem keeps_requestBattery : Keeps k b s (requestBattery t) := by
  unfold requestBattery
  try dsimp only
  repeat' first
    | rfl
    | exact h
    | with_reducible apply keeps_adcKick
    | split
    | with_reducible refine Keeps.upd ?_

theorem keeps_demandSample : Keeps k b s (demandSample t) := by
  unfold demandSample
  try dsimp only
  repeat' first
    | rfl
    | exact h
    | with_reducible apply keeps_requestTemp
    | split
    | with_reducible refine Keeps.upd ?_

theorem keeps_startRequester : Keeps k b s (startRequester t) := by
  unfold startRequester
  try dsimp only
  repeat' first
    | rfl
    | exact h
    | with_reducible apply keeps_requestBattery
    | split
    | with_reducible refine Keeps.upd ?_

theorem keeps_markAged : Keeps k b s (markAged t) := by
  unfold markAged
  try dsimp only
  repeat' first
    | rfl
    | exact h
    | split
    | with_reducible refine Keeps.upd ?_

/-! ### Waveforms.lean -/

theorem keeps_reportFree : Keeps k b s (reportFree t) := by
  unfold reportFree
  try dsimp only
  repeat' first
    | rfl
    | exact h
    | split
    | with_reducible refine Keeps.upd ?_

theorem keeps_reportLoadEnd (a1 : Option StoreKey) : Keeps k b s (reportLoadEnd a1 t) := by
  unfold reportLoadEnd
  try dsimp only
  repeat' first
    | rfl
    | exact h
    | split
    | with_reducible refine Keeps.upd ?_

theorem keeps_clearHolder (a1 : Nat) (a2 : Option StoreKey) : Keeps k b s (clearHolder a1 a2 t) := by
  unfold clearHolder
  try dsimp only
  repeat' first
    | rfl
    | exact h
    | with_reducible apply keeps_reportFree
    | split
    | with_reducible refine Keeps.upd ?_

theorem keeps_dropOtherHold (a1 : Nat) (a2 : StoreKey) : Keeps k b s (dropOtherHold a1 a2 t) := by
  have g := keeps_clearHolder h a1 (some a2)
  unfold dropOtherHold
  dsimp only
  split
  · exact g.upd
  · exact g

theorem keeps_selectBand (a1 : Image) (a2 : Int) : Keeps k b s (selectBand a1 a2 t).2 := by
  unfold selectBand
  try dsimp only
  repeat' first
    | rfl
    | exact h
    | with_reducible apply keeps_post
    | split
    | with_reducible refine Keeps.upd ?_

theorem keeps_selectBand_eq (a1 : Image) (a2 : Int) {r : Nat} (e : selectBand a1 a2 t = (r, u)) : Keeps k b s u := by
  have g := keeps_selectBand h a1 a2
  rw [e] at g
  exact g

theorem keeps_joinWave (a1 : Burst) : Keeps k b s (joinWave a1 t) := by
  unfold joinWave
  try dsimp only
  repeat' first
    | rfl
    | exact h
    | split
    | with_reducible refine Keeps.upd ?_

theorem keeps_beginLoad (a1 : Image) (a2 : Nat) (a3 : StoreKey) (a4 : Nat) : Keeps k b s (beginLoad a1 a2 a3 a4 t) := by
  unfold beginLoad
  try dsimp only
  repeat' first
    | rfl
    | exact h
    | with_reducible apply keeps_setStore
    | with_reducible apply keeps_joinWave

theorem keeps_lookup (a1 : Nat) (a2 : Mode) (a3 : Nat) : Keeps k b s (lookup a1 a2 a3 t).2 := by
  unfold lookup
  try dsimp only
  repeat' first
    | rfl
    | exact h
    | with_reducible apply keeps_dropOtherHold
    | with_reducible apply keeps_beginLoad
    | split

theorem keeps_lookup_eq (a1 : Nat) (a2 : Mode) (a3 : Nat) {r : LookupAnswer} (e : lookup a1 a2 a3 t = (r, u)) : Keeps k b s u := by
  have g := keeps_lookup h a1 a2 a3
  rw [e] at g
  exact g

theorem keeps_bindEntry (a1 : Nat) (a2 : Nat) : Keeps k b s (bindEntry a1 a2 t) := by
  unfold bindEntry
  try dsimp only
  repeat' first
    | rfl
    | exact h
    | with_reducible apply keeps_setStore

theorem keeps_releaseEntry (a1 : Nat) : Keeps k b s (releaseEntry a1 t) := by
  unfold releaseEntry
  try dsimp only
  repeat' first
    | rfl
    | exact h
    | with_reducible apply keeps_setStore
    | with_reducible apply keeps_reportFree
    | split

theorem keeps_acceptImage (a1 : Image) : Keeps k b s (acceptImage a1 t) := by
  unfold acceptImage
  try dsimp only
  repeat' first
    | rfl
    | exact h
    | split
    | with_reducible refine Keeps.upd ?_

/-! ### Lanes.lean -/

theorem keeps_setEntry (a1 : Nat) (a2 : Entry → Entry) : Keeps k b s (setEntry a1 a2 t) := by
  unfold setEntry
  try dsimp only
  repeat' first
    | rfl
    | exact h
    | split
    | with_reducible refine Keeps.upd ?_

theorem keeps_lookupFor (a1 : Nat) (a2 : Mode) (a3 : Nat) (a4 : Bool) : Keeps k b s (lookupFor a1 a2 a3 a4 t).2 := by
  unfold lookupFor
  try dsimp only
  repeat' first
    | rfl
    | exact h
    | with_reducible refine keeps_lookup_eq ?_ (by assumption)
    | with_reducible apply keeps_lookup
    | with_reducible apply keeps_setEntry

theorem keeps_lookupFor_eq (a1 : Nat) (a2 : Mode) (a3 : Nat) (a4 : Bool) {r : LookupAnswer} (e : lookupFor a1 a2 a3 a4 t = (r, u)) : Keeps k b s u := by
  have g := keeps_lookupFor h a1 a2 a3 a4
  rw [e] at g
  exact g

theorem keeps_chooseKey (a1 : Entry) : Keeps k b s (chooseKey a1 t) := by
  unfold chooseKey
  try dsimp only
  repeat' first
    | rfl
    | exact h
    | with_reducible refine keeps_selectBand_eq ?_ (by assumption)
    | with_reducible apply keeps_selectBand
    | with_reducible refine keeps_lookupFor_eq ?_ (by assumption)
    | with_reducible apply keeps_lookupFor
    | split

theorem keeps_keyOrSample (a1 : Entry) : Keeps k b s (keyOrSample a1 t) := by
  unfold keyOrSample
  try dsimp only
  repeat' first
    | rfl
    | exact h
    | with_reducible apply keeps_demandSample
    | with_reducible apply keeps_setEntry
    | with_reducible apply keeps_chooseKey
    | split

theorem keeps_eligible (a1 : Entry) : Keeps k b s (eligible a1 t).2 := by
  unfold eligible
  split
  · exact h
  · next x _ =>
    dsimp only
    split
    · rcases e : lookupFor a1.id (decideMode a1 t).1 x.band (decideMode a1 t).2 t with ⟨a, u⟩
      have g := keeps_lookupFor_eq h _ _ _ _ e
      cases a <;> exact g
    · exact h

theorem keeps_eligible_eq (a1 : Entry) {r : Bool} (e : eligible a1 t = (r, u)) : Keeps k b s u := by
  have g := keeps_eligible h a1
  rw [e] at g
  exact g

theorem keeps_scanEntry (a1 : Nat) : Keeps k b s (scanEntry a1 t).2 := by
  unfold scanEntry
  try dsimp only
  repeat' first
    | rfl
    | exact h
    | with_reducible apply keeps_keyOrSample
    | with_reducible refine keeps_eligible_eq ?_ (by assumption)
    | with_reducible apply keeps_eligible
    | split

theorem keeps_scanEntry_eq (a1 : Nat) {r : Bool} (e : scanEntry a1 t = (r, u)) : Keeps k b s u := by
  have g := keeps_scanEntry h a1
  rw [e] at g
  exact g

omit h in
theorem keeps_scanList : ∀ (l : List Nat) {t : State} (_ : Keeps k b s t), Keeps k b s (scanList l t).2
  | [], _, h => h
  | i :: l, t, h => by
    unfold scanList
    rcases e : scanEntry i t with ⟨f, u⟩
    have g := keeps_scanEntry_eq h _ e
    cases f
    · exact keeps_scanList l g
    · exact g

theorem keeps_scanFor : Keeps k b s (scanFor t).2 := keeps_scanList _ h

theorem keeps_scanFor_eq {r : Option Nat} (e : scanFor t = (r, u)) : Keeps k b s u := by
  have g := keeps_scanFor h
  rw [e] at g
  exact g

theorem keeps_scan : Keeps k b s (scan t) := keeps_scanFor h.upd

theorem keeps_joinList (a1 : Entry) : Keeps k b s (joinList a1 t) := by
  unfold joinList
  try dsimp only
  repeat' first
    | rfl
    | exact h
    | with_reducible apply keeps_ask
    | with_reducible apply keeps_idleCheck
    | with_reducible apply keeps_scan
    | split
    | with_reducible refine Keeps.upd ?_

theorem keeps_leaveList (a1 : Nat) : Keeps k b s (leaveList a1 t) := by
  unfold leaveList
  try dsimp only
  repeat' first
    | rfl
    | exact h
    | with_reducible apply keeps_ask
    | with_reducible apply keeps_idleCheck
    | with_reducible apply keeps_clearHolder
    | split
    | with_reducible refine Keeps.upd ?_

theorem keeps_append (a1 : Origin) (a2 : Mode) (a3 : Nat) (a4 : Nat) (a5 : Option Word) : Keeps k b s (append a1 a2 a3 a4 a5 t).2 := by
  unfold append
  try dsimp only
  repeat' first
    | rfl
    | exact h
    | with_reducible apply keeps_joinList
    | split

theorem keeps_append_eq (a1 : Origin) (a2 : Mode) (a3 : Nat) (a4 : Nat) (a5 : Option Word) {r : AppendAnswer} (e : append a1 a2 a3 a4 a5 t = (r, u)) : Keeps k b s u := by
  have g := keeps_append h a1 a2 a3 a4 a5
  rw [e] at g
  exact g

theorem keeps_takeUpdate (a1 : Nat) (a2 : List Byte) : Keeps k b s (takeUpdate a1 a2 t) := by
  unfold takeUpdate
  try dsimp only
  repeat' first
    | rfl
    | exact h
    | with_reducible apply keeps_finalize
    | with_reducible apply keeps_joinList
    | split
    | with_reducible refine Keeps.upd ?_

omit h in
theorem keeps_relookList : ∀ (l : List Nat) {t : State} (_ : Keeps k b s t), Keeps k b s (relookList l t)
  | [], _, h => h
  | i :: l, t, h => by
    unfold relookList
    split
    · split
      · exact keeps_relookList l (keeps_lookupFor h _ _ _ _)
      · exact keeps_relookList l h
    · exact keeps_relookList l h

theorem keeps_reported : Keeps k b s (reported t) := by
  unfold reported
  split
  · exact h
  · exact keeps_scan h

theorem keeps_storeRetry : Keeps k b s (storeRetry t) := by
  unfold storeRetry
  try dsimp only
  repeat' first
    | rfl
    | exact h
    | with_reducible apply keeps_scan
    | with_reducible apply keeps_relookList
    | split

theorem keeps_sampleDone : Keeps k b s (sampleDone t) := by
  unfold sampleDone
  try dsimp only
  repeat' first
    | rfl
    | exact h
    | with_reducible apply keeps_scan
    | split
    | with_reducible refine Keeps.upd ?_

/-! ### Light.lean -/

theorem keeps_startRamp (a1 : Nat) (a2 : Nat) (a3 : Nat) (a4 : RampCause) : Keeps k b s (startRamp a1 a2 a3 a4 t) := by
  unfold startRamp
  try dsimp only
  repeat' first
    | rfl
    | exact h
    | with_reducible apply keeps_ask
    | split
    | with_reducible refine Keeps.upd ?_

theorem keeps_finalizeLight (a1 : Code) : Keeps k b s (finalizeLight a1 t) := by
  unfold finalizeLight
  try dsimp only
  repeat' first
    | rfl
    | exact h
    | with_reducible apply keeps_finalize
    | split
    | with_reducible refine Keeps.upd ?_

theorem keeps_setCeiling : Keeps k b s (setCeiling t) := by
  unfold setCeiling
  try dsimp only
  repeat' first
    | rfl
    | exact h
    | with_reducible apply keeps_ask
    | with_reducible apply keeps_startRamp
    | split
    | with_reducible refine Keeps.upd ?_

theorem keeps_takeLight (a1 : Nat) (a2 : List Byte) : Keeps k b s (takeLight a1 a2 t) := by
  unfold takeLight
  try dsimp only
  repeat' first
    | rfl
    | exact h
    | with_reducible apply keeps_startRamp
    | with_reducible apply keeps_finalizeLight
    | split
    | with_reducible refine Keeps.upd ?_

theorem keeps_toggle : Keeps k b s (toggle t) := by
  unfold toggle
  try dsimp only
  repeat' first
    | rfl
    | exact h
    | with_reducible apply keeps_startRamp
    | with_reducible apply keeps_finalizeLight
    | split
    | with_reducible refine Keeps.upd ?_

theorem keeps_restFade : Keeps k b s (restFade t) := by
  unfold restFade
  try dsimp only
  repeat' first
    | rfl
    | exact h
    | with_reducible apply keeps_startRamp
    | with_reducible apply keeps_finalizeLight
    | split
    | with_reducible refine Keeps.upd ?_

theorem keeps_restore : Keeps k b s (restore t) := by
  unfold restore
  try dsimp only
  repeat' first
    | rfl
    | exact h
    | with_reducible apply keeps_ask
    | with_reducible apply keeps_startRamp
    | with_reducible apply keeps_restFade
    | split
    | with_reducible refine Keeps.upd ?_

theorem keeps_placePair : Keeps k b s (placePair t) := by
  unfold placePair
  try dsimp only
  repeat' first
    | rfl
    | exact h
    | split
    | with_reducible refine Keeps.upd ?_

theorem keeps_endRamp : Keeps k b s (endRamp t) := by
  unfold endRamp
  try dsimp only
  repeat' first
    | rfl
    | exact h
    | with_reducible apply keeps_ask
    | with_reducible apply keeps_finalizeLight
    | split
    | with_reducible refine Keeps.upd ?_

theorem keeps_stepRamp (a1 : Ramp) : Keeps k b s (stepRamp a1 t) := by
  unfold stepRamp
  try dsimp only
  repeat' first
    | rfl
    | exact h
    | with_reducible apply keeps_ask
    | with_reducible apply keeps_placePair
    | with_reducible apply keeps_endRamp
    | split
    | with_reducible refine Keeps.upd ?_

theorem keeps_rampTick : Keeps k b s (rampTick t) := by
  unfold rampTick
  try dsimp only
  repeat' first
    | rfl
    | exact h
    | with_reducible apply keeps_ask
    | with_reducible apply keeps_placePair
    | with_reducible apply keeps_stepRamp
    | split

theorem keeps_periodBoundary : Keeps k b s (periodBoundary t) := by
  unfold periodBoundary
  try dsimp only
  repeat' first
    | rfl
    | exact h
    | split
    | with_reducible refine Keeps.upd ?_

theorem keeps_highPhaseEnd (a1 : Generator) : Keeps k b s (highPhaseEnd a1 t) := by
  unfold highPhaseEnd
  try dsimp only
  repeat' first
    | rfl
    | exact h
    | split
    | with_reducible refine Keeps.upd ?_

end Sys2Proof.Machine
end

