-- ==== Sys2Proof/Laws/KeepsTurns.lean ====
section
/-! SUPPORT. The effects of the Key and Turn Unit and of the Download Channel keep what `Keeps` says. -/

set_option Elab.async false

namespace Sys2Proof.Machine

variable {k b : Bool} {s t u : State} (h : Keeps k b s t)
include h

/-! ### Keys.lean -/

theorem keeps_lineBounce (a1 : Nat) : Keeps k b s (lineBounce a1 t) := by
  unfold lineBounce
  try dsimp only
  repeat' first
    | rfl
    | assumption
    | with_reducible apply keeps_setLine
    | split

theorem keeps_lineChanged (a1 : Nat) : Keeps k b s (lineChanged a1 t) := by
  unfold lineChanged
  try dsimp only
  repeat' first
    | rfl
    | assumption
    | with_reducible apply keeps_setLine
    | with_reducible apply keeps_lineBounce
    | split

theorem keeps_linePolarity (a1 : Nat) : Keeps k b s (linePolarity a1 t) := by
  unfold linePolarity
  try dsimp only
  repeat' first
    | rfl
    | assumption
    | with_reducible apply keeps_setLine
    | with_reducible apply keeps_lineBounce

theorem keeps_confirmPress (a1 : Role) : Keeps k b s (confirmPress a1 t) := by
  unfold confirmPress
  split
  · exact h
  · split
    · next hq =>
      refine keeps_ask (h.ktu _ fun e => ?_) _
      have g := (turnLaw_iff t).1 e
      rw [turnLaw_iff]
      exact ⟨g.1, g.2.1, g.2.2.1, g.2.2.2.1, by simp; omega⟩
    · split
      · exact h
      · exact keeps_ask h.upd _

theorem keeps_reportPress (a1 : Press) : Keeps k b s (reportPress a1 t) := by
  unfold reportPress
  try dsimp only
  repeat' first
    | rfl
    | assumption
    | with_reducible apply keeps_ask
    | with_reducible apply keeps_post
    | split
    | with_reducible refine Keeps.upd ?_

theorem keeps_writeLog : Keeps k b s (writeLog t) := by
  unfold writeLog
  try dsimp only
  repeat' first
    | rfl
    | assumption
    | with_reducible apply keeps_ask
    | split
    | with_reducible refine Keeps.upd ?_

/-- A turn that ends leaves one entry more in the log, and no turn record (R125). -/
theorem keeps_turnEndLog (a1 : Code) : Keeps k b s (turnEndLog a1 t) := by
  unfold turnEndLog
  split
  · exact h
  · next r hr =>
    have c : Keeps k b s { t with
        ktu.turn := .idle, ktu.turnRec := none
        ktu.log := t.ktu.log ++ [⟨r.dir, r.page.tag, t.partTime, a1, r.dropped, r.ofRest⟩], ktu.logDirty := true } := by
      refine h.ktu _ fun e => ?_
      have g := (turnLaw_iff t).1 e
      have := g.2.1.resolve_left (by rw [hr]; nofun)
      rw [turnLaw_iff]
      exact ⟨by simp; omega, .inl rfl, g.2.2⟩
    dsimp only
    split
    · exact keeps_post (keeps_writeLog c) _
    · exact c

theorem keeps_appendTurn : Keeps k b s (appendTurn t).2 := by
  unfold appendTurn
  split
  · exact h
  · next r _ =>
    rcases e : append .turn .gray r.page.addr r.page.stride (some r.page.tag) t with ⟨a, u⟩
    have g := keeps_append_eq h _ _ _ _ _ e
    cases a
    · exact g.upd
    · exact g.upd
    · exact g
    · exact g

theorem keeps_appendTurn_eq  {r : Option Code} (e : appendTurn t = (r, u)) : Keeps k b s u := by
  have g := keeps_appendTurn h 
  rw [e] at g
  exact g

/-- A turn begins only while the log has a place (R125). -/
theorem keeps_fillTurn (a1 : Dir) (a2 : Bool) (hl : t.ktu.log.length < 16) : Keeps k b s (fillTurn a1 a2 t) := by
  unfold fillTurn
  split
  · refine h.ktu _ fun e => ?_
    have g := (turnLaw_iff t).1 e
    rw [turnLaw_iff]
    exact ⟨g.1, .inr hl, g.2.2⟩
  · exact h

omit h in
/-- A turn that may begin finds a place in the log (R112, R194). -/
theorem turnAllowed_log {d : Dir} (e : turnAllowed d t = true) : t.ktu.log.length < 16 := by
  simp only [turnAllowed, Bool.and_eq_true, decide_eq_true_eq] at e
  exact e.2

theorem keeps_beginRunTurn (a1 : Dir) (hl : t.ktu.log.length < 16) : Keeps k b s (beginRunTurn a1 t) := by
  unfold beginRunTurn
  split
  · next c u e => exact keeps_turnEndLog (keeps_appendTurn_eq (keeps_fillTurn h _ _ hl) e) _
  · next u e => exact keeps_appendTurn_eq (keeps_fillTurn h _ _ hl) e

theorem keeps_pressRun (a1 : Press) : Keeps k b s (pressRun a1 t) := by
  unfold pressRun
  split
  · exact h
  · exact keeps_toggle h
  · exact keeps_reportPress h _
  · split
    · next c => exact keeps_beginRunTurn h _ (turnAllowed_log c.2)
    · exact keeps_reportPress h _
  · split
    · next c => exact keeps_beginRunTurn h _ (turnAllowed_log c.2)
    · exact keeps_reportPress h _

/-- A press taken from the Key Queue. -/
theorem keeps_dequeue (p : Press) (q : List Press) (e : t.ktu.queue = p :: q) : Keeps k b s { t with ktu.queue := q } := by
  refine h.ktu _ fun g => ?_
  have g := (turnLaw_iff t).1 g
  rw [turnLaw_iff]
  rw [e] at g
  exact ⟨g.1, g.2.1, g.2.2.1, g.2.2.2.1, by have := g.2.2.2.2; simp at this ⊢; omega⟩

omit h in
theorem keeps_runQueue : ∀ (n : Nat) {t : State} (_ : Keeps k b s t), Keeps k b s (runQueue n t)
  | 0, _, h => h
  | n + 1, t, h => by
    unfold runQueue
    split
    · next p q e => exact keeps_runQueue n (keeps_pressRun (keeps_dequeue h p q e) _)
    · exact h

omit h in
/-- A page pushed keeps a list within its capacity (R122). -/
theorem pushPage_length (c : Nat) (p : Page) (l : List Page) (hc : 0 < c) (hl : l.length ≤ c) :
    (pushPage c p l).1.length ≤ c := by
  unfold pushPage
  split
  · simp; omega
  · simp; omega

/-- The lists move at a turn's admission and keep within their capacities (R122). -/
theorem keeps_turnAdmitted (a1 : Option Page) : Keeps k b s (turnAdmitted a1 t) := by
  unfold turnAdmitted
  split
  · exact h
  · next r hr =>
    dsimp only
    split
    all_goals
      refine h.ktu _ fun e => ?_
      have g := (turnLaw_iff t).1 e
      have gl := g.2.1.resolve_left (by rw [hr]; nofun)
      rw [turnLaw_iff]
    · exact ⟨g.1, g.2.1, by have := g.2.2.1; simp; omega, g.2.2.2⟩
    · exact ⟨g.1, g.2.1, g.2.2.1, by have := g.2.2.2.1; simp; omega, g.2.2.2.2⟩
    · exact ⟨g.1, .inr gl, by have := g.2.2.1; simp; omega, pushPage_length 4 _ _ (by decide) g.2.2.2.1, g.2.2.2.2⟩
    · exact ⟨g.1, .inr gl, pushPage_length 8 _ _ (by decide) g.2.2.1, by have := g.2.2.2.1; simp; omega, g.2.2.2.2⟩

/-- A direction's list replaced by one within its capacity. -/
theorem keeps_setPages (d : Dir) (l : List Page) (hl : l.length ≤ d.capacity) : Keeps k b s (t.setPages d l) := by
  cases d
  all_goals
    refine h.ktu _ fun e => ?_
    have g := (turnLaw_iff t).1 e
    rw [turnLaw_iff]
  · exact ⟨g.1, g.2.1, hl, g.2.2.2⟩
  · exact ⟨g.1, g.2.1, g.2.2.1, hl, g.2.2.2.2⟩

theorem keeps_takeStage (a1 : Nat) (a2 : List Byte) : Keeps k b s (takeStage a1 a2 t) := by
  unfold takeStage
  dsimp only
  repeat' first
    | assumption
    | with_reducible apply keeps_finalize
    | split
    | (with_reducible apply keeps_setPages
       on_goal 2 => simp only [List.length_append, List.length_cons, List.length_nil]; omega)

theorem keeps_takeUnstage (a1 : Nat) (a2 : List Byte) : Keeps k b s (takeUnstage a1 a2 t) := by
  unfold takeUnstage
  dsimp only
  split
  all_goals with_reducible apply keeps_finalize
  · refine h.ktu _ fun e => ?_
    have g := (turnLaw_iff t).1 e
    rw [turnLaw_iff]
    exact ⟨g.1, g.2.1, Nat.zero_le _, g.2.2.2⟩
  · refine h.ktu _ fun e => ?_
    have g := (turnLaw_iff t).1 e
    rw [turnLaw_iff]
    exact ⟨g.1, g.2.1, g.2.2.1, Nat.zero_le _, g.2.2.2.2⟩
  · refine h.ktu _ fun e => ?_
    have g := (turnLaw_iff t).1 e
    rw [turnLaw_iff]
    exact ⟨g.1, g.2.1, Nat.zero_le _, Nat.zero_le _, g.2.2.2.2⟩
  · exact h

theorem keeps_takeTurnsSeen (a1 : Nat) (a2 : List Byte) : Keeps k b s (takeTurnsSeen a1 a2 t) := by
  unfold takeTurnsSeen
  refine keeps_finalize (keeps_writeLog (h.ktu _ fun e => ?_)) _ _ _ _
  have g := (turnLaw_iff t).1 e
  rw [turnLaw_iff]
  exact ⟨by have := g.1; simp; omega, g.2.1.imp id fun x => by simp; omega, g.2.2⟩

/-! ### Download.lean -/

theorem keeps_countLink (a1 : LinkCounter) : Keeps k b s (countLink a1 t) := by
  unfold countLink
  try dsimp only
  repeat' first
    | rfl
    | assumption
    | with_reducible apply keeps_ask
    | with_reducible apply keeps_post
    | split
    | with_reducible refine Keeps.upd ?_

theorem keeps_enterHunt : Keeps k b s (enterHunt t) := by
  unfold enterHunt
  try dsimp only
  repeat' first
    | rfl
    | assumption
    | split
    | with_reducible refine Keeps.upd ?_

theorem keeps_judgeHeader (a1 : Word) (a2 : ChunkHeader) : Keeps k b s (judgeHeader a1 a2 t) := by
  unfold judgeHeader
  try dsimp only
  repeat' first
    | rfl
    | assumption
    | with_reducible apply keeps_countLink
    | with_reducible apply keeps_enterHunt
    | split
    | with_reducible refine Keeps.upd ?_

theorem keeps_judgeFrame (a1 : Word) (a2 : ChunkHeader) (a3 : List Byte) (a4 : List Byte) : Keeps k b s (judgeFrame a1 a2 a3 a4 t) := by
  unfold judgeFrame
  try dsimp only
  repeat' first
    | rfl
    | assumption
    | with_reducible apply keeps_countLink
    | with_reducible apply keeps_enterHunt
    | split
    | with_reducible refine Keeps.upd ?_

theorem keeps_recvByte (a1 : Byte) : Keeps k b s (recvByte t a1) := by
  unfold recvByte
  repeat' first
    | assumption
    | with_reducible apply keeps_enterHunt
    | with_reducible apply keeps_judgeHeader
    | with_reducible apply keeps_judgeFrame
    | split
    | with_reducible refine Keeps.upd ?_

theorem keeps_recvBytes (a1 : List Byte) : Keeps k b s (recvBytes a1 t) := by
  unfold recvBytes
  split
  · exact keeps_foldl _ (fun _ x g => keeps_recvByte g x) _ h
  · exact h

theorem keeps_lselOff : Keeps k b s (lselOff t) := by
  unfold lselOff
  try dsimp only
  repeat' first
    | rfl
    | assumption
    | with_reducible apply keeps_countLink
    | with_reducible apply keeps_enterHunt
    | split
    | with_reducible refine Keeps.upd ?_

end Sys2Proof.Machine
end

