-- ==== Sys2Proof/Laws/KeepsFiles.lean ====
section
/-! SUPPORT. The File Table's effects keep what `Keeps` says, the laws of the table among it. -/

set_option Elab.async false

namespace Sys2Proof.Machine

variable {k b : Bool} {s t u : State}

/-! ### The laws of the File Table spelled out -/

/-- The laws of the File Table, slot by slot. -/
structure FilesOk (s : State) : Prop where
  len    : s.dlc.slots.length = 4
  map    : ∀ i, i < 4 → (s.slot i).mapLaw = true
  claim  : ∀ i, i < 4 → (s.slot i).claim = none ∨ (s.slot i).state = .free
  ids    : ∀ i j, i < 4 → j < 4 → i ≠ j → (s.slot i).fileId = none ∨ (s.slot i).fileId ≠ (s.slot j).fileId
  write  : s.dispatchLaw = true
  queue  : ∀ i ∈ s.dlc.verifyQueue, (s.slot i).state = .verifying
  verify : ∀ v, s.dlc.verify = some v → (s.slot v.slot).state = .verifying

theorem all_slots (p : FileSlot → Bool) (h : s.dlc.slots.length = 4) :
    s.dlc.slots.all p = true ↔ ∀ i, i < 4 → p (s.slot i) = true := by
  rw [List.all_eq_true]
  constructor
  · intro g i hi
    exact g _ (by
      rw [State.slot, List.getD_eq_getElem?_getD, List.getElem?_eq_getElem (by omega)]
      exact List.getElem_mem _)
  · intro g f hf
    obtain ⟨i, hi, e⟩ := List.mem_iff_getElem.1 hf
    have := g i (by omega)
    rw [State.slot, List.getD_eq_getElem?_getD, List.getElem?_eq_getElem hi] at this
    exact e ▸ this

theorem fileLaw_iff (s : State) : s.fileLaw = true ↔ FilesOk s := by
  unfold State.fileLaw State.slotLaw State.idLaw State.verifyLaw
  constructor
  · intro h
    simp only [Bool.and_eq_true, beq_iff_eq] at h
    obtain ⟨⟨⟨⟨h1, h2⟩, h3⟩, h4⟩, h5, h6⟩ := h
    rw [all_slots _ h1] at h2
    refine ⟨h1, fun i hi => ?_, fun i hi => ?_, fun i j hi hj hn => ?_, h4, fun i hi => ?_, fun v hv => ?_⟩
    · have := h2 i hi
      simp only [Bool.and_eq_true] at this
      exact this.1
    · have := h2 i hi
      simp only [Bool.and_eq_true, Bool.or_eq_true, Option.isNone_iff_eq_none, beq_iff_eq] at this
      exact this.2
    · rw [List.all_eq_true] at h3
      have := h3 i (List.mem_range.2 hi)
      rw [List.all_eq_true] at this
      have := this j (List.mem_range.2 hj)
      simp only [Bool.or_eq_true, beq_iff_eq, bne_iff_ne, Option.isNone_iff_eq_none] at this
      rcases this with (h | h) | h
      · exact absurd h hn
      · exact .inl h
      · exact .inr h
    · rw [List.all_eq_true] at h5
      exact beq_iff_eq.1 (h5 i hi)
    · rw [hv] at h6
      exact beq_iff_eq.1 h6
  · rintro ⟨h1, h2, h3, h4, h5, h6, h7⟩
    simp only [Bool.and_eq_true, beq_iff_eq]
    refine ⟨⟨⟨⟨h1, ?_⟩, ?_⟩, h5⟩, ?_, ?_⟩
    · rw [all_slots _ h1]
      intro i hi
      simp only [Bool.and_eq_true, Bool.or_eq_true, Option.isNone_iff_eq_none, beq_iff_eq]
      exact ⟨h2 i hi, h3 i hi⟩
    · rw [List.all_eq_true]
      intro i hi
      rw [List.all_eq_true]
      intro j hj
      simp only [Bool.or_eq_true, beq_iff_eq, bne_iff_ne, Option.isNone_iff_eq_none]
      by_cases e : i = j
      · exact .inl (.inl e)
      · rcases h4 i j (List.mem_range.1 hi) (List.mem_range.1 hj) e with h | h
        · exact .inl (.inr h)
        · exact .inr h
    · rw [List.all_eq_true]
      exact fun i hi => beq_iff_eq.2 (h6 i hi)
    · cases hv : s.dlc.verify with
      | none => rfl
      | some v => exact beq_iff_eq.2 (h7 v hv)

/-- A dispatch that is writing, spelled out (R161, R162). -/
def Writes (d : Dispatch) (s : State) : Prop :=
  let f := s.slot d.slot
  let a := d.chunk.hdr.offset
  let b := a + d.chunk.hdr.len
  d.slot < 4 ∧ (f.state = .opened ∨ f.state = .stalled) ∧ (a < b ∧ b ≤ f.len) ∧
    f.extents.length + 1 ≤ (f.extents.filter (touches a b)).length + 16 ∧ d.fresh = extentSum (uncovered f.extents a b)

theorem dispatchLaw_iff (s : State) : s.dispatchLaw = true ↔ ∀ d, s.dlc.dispatch = some d → Writes d s := by
  unfold State.dispatchLaw
  cases h : s.dlc.dispatch with
  | none => simp
  | some d =>
    simp only [Bool.and_eq_true, Bool.or_eq_true, decide_eq_true_eq, beq_iff_eq, Option.some.injEq, forall_eq', Writes]
    constructor
    · rintro ⟨⟨⟨⟨h1, h2⟩, h3⟩, h4⟩, h5⟩
      exact ⟨h1, h2, h3, h4, h5⟩
    · rintro ⟨h1, h2, h3, h4, h5⟩
      exact ⟨⟨⟨⟨h1, h2⟩, h3⟩, h4⟩, h5⟩

/-- A dispatch stands while its slot keeps its map and is OPEN or STALLED. -/
theorem Writes.of {d : Dispatch} (w : Writes d t) (h1 : (u.slot d.slot).state = .opened ∨ (u.slot d.slot).state = .stalled)
    (h2 : (u.slot d.slot).extents = (t.slot d.slot).extents) (h3 : (u.slot d.slot).len = (t.slot d.slot).len) :
    Writes d u := by
  unfold Writes at w ⊢
  dsimp only at w ⊢
  rw [h2, h3]
  exact ⟨w.1, h1, w.2.2⟩

theorem Writes.same {d : Dispatch} (w : Writes d t) (e : u.slot d.slot = t.slot d.slot) : Writes d u :=
  w.of (e ▸ w.2.1) (by rw [e]) (by rw [e])

/-- A slot after one slot has been replaced. -/
theorem slot_set (hl : t.dlc.slots.length = 4) {i : Nat} {f : FileSlot} (hu : u.dlc.slots = t.dlc.slots.set i f) (j : Nat) :
    u.slot j = if i = j ∧ i < 4 then f else t.slot j := by
  simp only [State.slot, hu, List.getD_eq_getElem?_getD, List.getElem?_set]
  by_cases e : i = j
  · subst e
    by_cases hi : i < 4
    · simp [hl, hi]
    · simp [hl, hi]
  · simp [e]

/-- One slot replaced, and maybe the dispatch and the verify lists: what the laws of the File Table ask of the new slot. -/
theorem FilesOk.set (h : FilesOk t) {i : Nat} {f : FileSlot} (hu : u.dlc.slots = t.dlc.slots.set i f)
    (hm : i < 4 → f.mapLaw = true) (hc : i < 4 → f.claim = none ∨ f.state = .free)
    (hid : i < 4 → f.fileId = none ∨ f.fileId = (t.slot i).fileId ∨ ∀ j, j < 4 → i ≠ j → (t.slot j).fileId ≠ f.fileId)
    (hd : (∀ j, u.slot j = if i = j ∧ i < 4 then f else t.slot j) → ∀ d, u.dlc.dispatch = some d → Writes d u)
    (hq : (∀ j, u.slot j = if i = j ∧ i < 4 then f else t.slot j) → ∀ j ∈ u.dlc.verifyQueue, (u.slot j).state = .verifying)
    (hv : (∀ j, u.slot j = if i = j ∧ i < 4 then f else t.slot j) →
      ∀ v, u.dlc.verify = some v → (u.slot v.slot).state = .verifying) : FilesOk u := by
  have e := slot_set h.len hu
  refine ⟨by rw [hu, List.length_set, h.len], fun j hj => ?_, fun j hj => ?_, fun x y hx hy hn => ?_,
    (dispatchLaw_iff u).2 (hd e), hq e, hv e⟩
  · rw [e]; split
    · next g => exact hm g.2
    · exact h.map j hj
  · rw [e]; split
    · next g => exact hc g.2
    · exact h.claim j hj
  · rw [e, e]
    by_cases hi : i < 4
    · by_cases ex : i = x
      · subst ex
        rw [if_pos ⟨rfl, hi⟩, if_neg (fun g => hn g.1)]
        rcases hid hi with g | g | g
        · exact .inl g
        · rw [g]; exact h.ids i y hx hy hn
        · exact .inr (g y hy hn).symm
      · rw [if_neg (fun g => ex g.1)]
        by_cases ey : i = y
        · subst ey
          rw [if_pos ⟨rfl, hi⟩]
          rcases hid hi with g | g | g
          · rw [g]
            cases (t.slot x).fileId <;> simp
          · rw [g]; exact h.ids x i hx hy hn
          · exact .inr (g x hx ex)
        · rw [if_neg (fun g => ey g.1)]
          exact h.ids x y hx hy hn
    · rw [if_neg (fun g => hi g.2), if_neg (fun g => hi g.2)]
      exact h.ids x y hx hy hn

/-- The Download Channel replaced, with what is known of the state the effect began in. -/
theorem Keeps.table (h : Keeps k b s t) (x : Dlc)
    (e : MergesWell → FilesOk s → FilesOk t → FilesOk { t with dlc := x }) : Keeps k b s { t with dlc := x } :=
  ⟨⟨h.core.pending, h.core.mem, h.core.time, h.core.base, h.core.acked, h.core.burst, h.core.capture, h.core.settings,
    h.core.int, h.core.turns, fun m g => (fileLaw_iff _).2 (e m ((fileLaw_iff _).1 g) ((fileLaw_iff _).1 (h.core.files m g)))⟩,
    h.panel⟩

/-- A slot out of range holds nothing. -/
theorem slot_high (h : FilesOk t) {i : Nat} (hi : ¬i < 4) : t.slot i = {} := by
  rw [State.slot, List.getD_eq_getElem?_getD, List.getElem?_eq_none (by rw [h.len]; omega)]
  rfl

theorem lt_of_used (h : FilesOk t) {i : Nat} (hs : (t.slot i).state ≠ .free) : i < 4 := by
  by_contra hi
  rw [slot_high h hi] at hs
  exact hs rfl

/-- Nothing of the table is under way for slot `i`. -/
def Settled (i : Nat) (t : State) : Prop :=
  (∀ d, t.dlc.dispatch = some d → d.slot ≠ i) ∧ i ∉ t.dlc.verifyQueue ∧ ∀ v, t.dlc.verify = some v → v.slot ≠ i

/-- A slot replaced with nothing under way for it. -/
theorem FilesOk.setSettled (h : FilesOk t) {i : Nat} {f : FileSlot} (hu : u.dlc.slots = t.dlc.slots.set i f)
    (e1 : u.dlc.dispatch = t.dlc.dispatch) (e2 : u.dlc.verifyQueue = t.dlc.verifyQueue) (e3 : u.dlc.verify = t.dlc.verify)
    (hs : Settled i t)
    (hm : i < 4 → f.mapLaw = true) (hc : i < 4 → f.claim = none ∨ f.state = .free)
    (hid : i < 4 → f.fileId = none ∨ f.fileId = (t.slot i).fileId ∨ ∀ j, j < 4 → i ≠ j → (t.slot j).fileId ≠ f.fileId) :
    FilesOk u := by
  refine h.set hu hm hc hid (fun e d hd => ?_) (fun e j hj => ?_) (fun e v hv => ?_)
  · rw [e1] at hd
    have n := hs.1 d hd
    exact ((dispatchLaw_iff t).1 h.write d hd).same (by rw [e, if_neg fun g => n g.1.symm])
  · rw [e2] at hj
    rw [e, if_neg (fun g : i = j ∧ i < 4 => hs.2.1 (g.1 ▸ hj))]
    exact h.queue j hj
  · rw [e3] at hv
    rw [e, if_neg (fun g : i = v.slot ∧ i < 4 => hs.2.2 v hv g.1.symm)]
    exact h.verify v hv

theorem settled_of_free (h : FilesOk t) {i : Nat} (hf : (t.slot i).state = .free) : Settled i t := by
  refine ⟨fun d hd e => ?_, fun hq => ?_, fun v hv e => ?_⟩
  · have := ((dispatchLaw_iff t).1 h.write d hd).2.1
    rw [e, hf] at this
    rcases this with g | g <;> cases g
  · have := h.queue i hq
    rw [hf] at this
    cases this
  · have := h.verify v hv
    rw [e, hf] at this
    cases this

theorem not_verified_of (h : FilesOk t) {i : Nat} (hf : (t.slot i).state ≠ .verifying) :
    i ∉ t.dlc.verifyQueue ∧ ∀ v, t.dlc.verify = some v → v.slot ≠ i :=
  ⟨fun hq => hf (h.queue i hq), fun v hv e => hf (e ▸ h.verify v hv)⟩

theorem not_written_of (h : FilesOk t) {i : Nat} (h1 : (t.slot i).state ≠ .opened) (h2 : (t.slot i).state ≠ .stalled) :
    ∀ d, t.dlc.dispatch = some d → d.slot ≠ i := by
  intro d hd e
  have := ((dispatchLaw_iff t).1 h.write d hd).2.1
  rw [e] at this
  exact this.elim h1 h2

/-! ### Slots -/

@[simp] theorem finalize_slot (c : Chain) (r : Nat) (l : List (Nat × List Byte)) (x : Code) (s : State) (i : Nat) :
    (finalize c r l x s).slot i = s.slot i := by simp only [State.slot, finalize_dlc]
@[simp] theorem post_slot (c : Cause) (s : State) (i : Nat) : (post c s).slot i = s.slot i := by
  simp only [State.slot, post_dlc]
@[simp] theorem ask_slot (a : Area) (s : State) (i : Nat) : (ask a s).slot i = s.slot i := by
  simp only [State.slot, ask_dlc]

theorem keeps_askProgress (h : Keeps k b s t) (i : Nat) : Keeps k b s (askProgress i t) := keeps_ask h _

theorem keeps_dropChunk (h : Keeps k b s t) : Keeps k b s (dropChunk t) := h.upd

theorem keeps_reopenStop (h : Keeps k b s t) : Keeps k b s (reopenStop t) := h.upd

/-- A slot in use that settles: it becomes VERIFIED, CORRUPT or FREE, its map as it was, with nothing under way for it. -/
theorem keeps_settle (h : Keeps k b s t) (i : Nat) (f : FileSlot)
    (hf : f.state = .free ∨ f.extents = (t.slot i).extents ∧ f.len = (t.slot i).len ∧ f.received = (t.slot i).received)
    (e1 : f.claim = (t.slot i).claim) (e2 : f.file = (t.slot i).file)
    (hs : FilesOk s → FilesOk t → (t.slot i).state ≠ .free ∧ Settled i t) : Keeps k b s (t.setSlot i f) := by
  refine h.table _ fun _ g0 g => ?_
  obtain ⟨hu, hn⟩ := hs g0 g
  have hc : (t.slot i).claim = none := (g.claim i (lt_of_used g hu)).resolve_right hu
  refine g.setSettled rfl rfl rfl rfl hn (fun hi => ?_) (fun _ => .inl (e1.trans hc)) (fun _ => ?_)
  · rcases hf with hf | ⟨h1, h2, h3⟩
    · simp [FileSlot.mapLaw, hf]
    · have := g.map i hi
      simp only [FileSlot.mapLaw, Bool.or_eq_true, beq_iff_eq] at this ⊢
      rw [h1, h2, h3]
      exact .inr (this.resolve_left hu)
  · simp only [FileSlot.fileId, e1, hc, e2]
    by_cases hx : f.state = .free
    · exact .inl (if_pos hx)
    · exact .inr (.inl (by rw [if_neg hx, if_neg hu]))

theorem keeps_corruptSlot (h : Keeps k b s t) (i : Nat) (w : Word) (c : Code)
    (hs : FilesOk s → FilesOk t → (t.slot i).state ≠ .free ∧ Settled i t) : Keeps k b s (corruptSlot i w c t) := by
  unfold corruptSlot
  exact keeps_askProgress (keeps_post (keeps_finalize (keeps_settle h i { t.slot i with state := .corrupt, timer := none, computed := w } (.inr ⟨rfl, rfl, rfl⟩) rfl rfl hs) _ _ _ _) _) _

theorem keeps_freeSlot (h : Keeps k b s t) (i : Nat) (c : Bool)
    (hs : FilesOk s → FilesOk t → (t.slot i).state ≠ .free ∧ Settled i t) : Keeps k b s (freeSlot i c t) :=
  keeps_askProgress (keeps_settle h i { t.slot i with state := .free, timer := none, interrupted := c } (.inl rfl) rfl rfl hs) _

theorem keeps_acceptOpen (h : Keeps k b s t) (i : Nat) (r : OpenReq) (l : List (Nat × Nat))
    (hs : FilesOk s → FilesOk t → i < 4 ∧ (t.slot i).state = .free ∧ extentsOk r.len l = true ∧ l.length ≤ 16 ∧
      ∀ j, j < 4 → i ≠ j → (t.slot j).fileId ≠ some r.file) : Keeps k b s (acceptOpen i r l t) := by
  unfold acceptOpen
  refine keeps_askProgress (keeps_reopenStop ?_) _
  dsimp only
  refine h.table _ fun _ g0 g => ?_
  obtain ⟨hi, hf, ho, hl, hd⟩ := hs g0 g
  have hn := settled_of_free g hf
  refine g.set rfl (fun _ => ?_) (fun _ => .inl rfl) (fun _ => .inr (.inr ?_)) (fun e d hd' => ?_) (fun e j hj => ?_)
    (fun e v hv => ?_)
  · simp [FileSlot.mapLaw, ho, hl]
  · intro j hj hne
    have hu : (if (l == [(0, r.len)]) = true then SlotState.verifying else SlotState.opened) ≠ .free := by
      split <;> exact fun x => nomatch x
    simp only [FileSlot.fileId, if_neg hu]
    exact hd j hj hne
  · have n := hn.1 d hd'
    exact ((dispatchLaw_iff t).1 g.write d hd').same (by rw [e, if_neg fun x => n x.1.symm])
  · rw [e]
    by_cases hx : i = j
    · rw [if_pos ⟨hx, hi⟩]
      dsimp only at hj ⊢
      split at hj
      · next c => rw [if_pos c]
      · exact absurd (hx ▸ hj) hn.2.1
    · rw [if_neg (fun x => hx x.1)]
      dsimp only at hj
      split at hj
      · rcases List.mem_append.1 hj with m | m
        · exact g.queue j m
        · exact absurd (List.mem_singleton.1 m).symm hx
      · exact g.queue j hj
  · rw [e, if_neg (fun x : i = v.slot ∧ i < 4 => hn.2.2 v hv x.1.symm)]
    exact g.verify v hv

/-! ### OPEN and the resume reads -/

theorem keeps_kickResume (h : Keeps k b s t) : Keeps k b s (kickResume t) := by
  unfold kickResume
  repeat' split
  · exact keeps_joinStation h.upd _
  · exact h
  · exact h

theorem keeps_askResume (h : Keeps k b s t) (i : Nat) : Keeps k b s (askResume i t) := by
  unfold askResume
  dsimp only
  split
  · exact keeps_kickResume h.upd
  · exact h.upd

/-- No other slot holds the file id of an OPEN that passes R156. -/
theorem fileId_ne_of_not_taken {i : Nat} {file : Half} (h : fileTaken i file t = false) {j : Nat} (hj : j < 4) (hn : i ≠ j) :
    (t.slot j).fileId ≠ some file := by
  simp only [fileTaken, List.any_eq_false, List.mem_range] at h
  have g := h j hj
  simp only [Bool.and_eq_true, bne_iff_ne, Bool.or_eq_true, not_and, not_or, ne_eq, beq_iff_eq] at g
  obtain ⟨g1, g2⟩ := g (Ne.symm hn)
  unfold FileSlot.fileId
  cases hc : (t.slot j).claim with
  | some c =>
    rw [hc] at g2
    intro e
    exact g2 (beq_iff_eq.2 (Option.some.inj e))
  | none =>
    dsimp only
    split
    · exact nofun
    · next hf => exact fun e => g1 hf (Option.some.inj e)

theorem openFailure_none {i : Nat} {r : OpenReq} (h : openFailure i r t = none) :
    i < 4 ∧ (t.slot i).state = .free ∧ (t.slot i).claim = none ∧ fileTaken i r.file t = false := by
  unfold openFailure at h
  split at h
  · exact nomatch h
  · split at h
    · exact nomatch h
    · split at h
      · exact nomatch h
      · next hs =>
        split at h
        · exact nomatch h
        · next hf =>
          rw [not_or, not_not, not_not] at hs
          exact ⟨by omega, hs.1, hs.2, by simpa using hf⟩

theorem keeps_takeOpen (h : Keeps k b s t) (r : Nat) (l : List Byte) : Keeps k b s (takeOpen r l t) := by
  unfold takeOpen
  dsimp only
  split
  · exact keeps_finalize h _ _ _ _
  · next ho =>
    obtain ⟨hi, hf, hc, ht⟩ := openFailure_none ho
    split
    · refine keeps_askResume (keeps_reopenStop (h.table _ fun _ _ g => ?_)) _
      refine g.setSettled rfl rfl rfl rfl (settled_of_free g hf) (fun _ => by simp [FileSlot.mapLaw, hf]) (fun _ => .inr hf)
        (fun _ => .inr (.inr fun j hj hn => ?_))
      exact fileId_ne_of_not_taken ht hj hn
    · exact keeps_acceptOpen h _ _ _ fun _ _ =>
        ⟨hi, hf, rfl, by simp, fun j hj hn => fileId_ne_of_not_taken ht hj hn⟩

theorem keeps_endClaim (h : Keeps k b s t) (i : Nat) (n : Nat) (c : Code) : Keeps k b s (endClaim i n c t) := by
  unfold endClaim
  split
  · next x hx =>
    refine keeps_finalize (h.table _ fun _ _ g => ?_) _ _ _ _
    have hi : i < 4 := by
      by_contra hi
      rw [slot_high g hi] at hx
      exact nomatch hx
    have hf : (t.slot i).state = .free := (g.claim i hi).resolve_left (by rw [hx]; exact nofun)
    refine g.setSettled rfl rfl rfl rfl (settled_of_free g hf) (fun _ => by simp [FileSlot.mapLaw, hf]) (fun _ => .inl rfl)
      (fun _ => .inl ?_)
    simp [FileSlot.fileId, hf]
  · exact h

theorem progressFailure_none {l : List Byte} {r : OpenReq} (h : progressFailure l r = none) :
    extentsOk r.len (progressExtents l) = true ∧ (progressExtents l).length ≤ 16 := by
  unfold progressFailure at h
  iterate 4
    split at h
    · exact absurd h nofun
  next h4 =>
  split at h
  · exact absurd h nofun
  next h5 => exact ⟨by simpa using h5, by simp [progressExtents]; omega⟩

theorem keeps_resumeEnd (h : Keeps k b s t) (i : Nat) (ok : Bool) (l : List Byte) : Keeps k b s (resumeEnd i ok l t) := by
  unfold resumeEnd
  split
  · exact h
  · next c hc =>
    split
    · exact keeps_endClaim h _ _ _
    · split
      · exact keeps_endClaim h _ _ _
      · split
        · exact keeps_endClaim h _ _ _
        · next hp =>
          obtain ⟨h1, h2⟩ := progressFailure_none hp
          refine keeps_acceptOpen h _ _ _ fun _ g => ?_
          have hi : i < 4 := by
            by_contra hi
            rw [slot_high g hi] at hc
            exact nomatch hc
          refine ⟨hi, (g.claim i hi).resolve_left (by rw [hc]; exact nofun), h1, h2, fun j hj hn e => ?_⟩
          have ei : (t.slot i).fileId = some c.req.file := by simp [FileSlot.fileId, hc]
          rcases g.ids i j hi hj hn with x | x
          · rw [ei] at x; exact nomatch x
          · exact x (ei.trans e.symm)

theorem keeps_resumeNext (h : Keeps k b s t) (ok : Bool) (l : List Byte) : Keeps k b s (resumeNext ok l t) := by
  unfold resumeNext
  split
  · exact h
  · split
    · exact keeps_kickResume (keeps_resumeEnd h.upd _ _ _)
    · exact keeps_kickResume h.upd

/-! ### CLOSE -/

theorem keeps_dropDispatch (h : Keeps k b s t) (i : Nat) : Keeps k b s (dropDispatch i t) := by
  unfold dropDispatch
  split
  · split
    · refine keeps_giveUpBurst (h.table _ fun _ _ g => ?_) _
      exact ⟨g.len, g.map, g.claim, g.ids, (dispatchLaw_iff _).2 nofun, g.queue, g.verify⟩
    · exact h
  · exact h

@[simp] theorem giveUpBurst_dlc (c : Client) (s : State) : (giveUpBurst c s).dlc = s.dlc := by cases c <;> rfl

theorem dropDispatch_slot (i j : Nat) (s : State) : (dropDispatch i s).slot j = s.slot j := by
  unfold dropDispatch
  split
  · split
    · simp only [State.slot, giveUpBurst_dlc]
    · rfl
  · rfl

theorem dropDispatch_ne (i : Nat) (s : State) : ∀ d, (dropDispatch i s).dlc.dispatch = some d → d.slot ≠ i := by
  unfold dropDispatch
  split
  · next x hx =>
    split
    · simp only [giveUpBurst_dlc]
      exact nofun
    · next hn =>
      intro d hd
      rw [hx] at hd
      exact Option.some.inj hd ▸ hn
  · next hx => intro d hd; rw [hx] at hd; exact nomatch hd

theorem keeps_dropVerify (h : Keeps k b s t) (i : Nat) : Keeps k b s (dropVerify i t) := by
  have c : Keeps k b s { t with dlc := { t.dlc with verifyQueue := t.dlc.verifyQueue.filter (· != i) } } :=
    h.table _ fun _ _ g => ⟨g.len, g.map, g.claim, g.ids, g.write, fun j hj => g.queue j (List.mem_filter.1 hj).1, g.verify⟩
  unfold dropVerify
  dsimp only
  split
  · split
    · refine keeps_giveUpBurst (Keeps.table c _ fun _ _ g => ?_) _
      exact ⟨g.len, g.map, g.claim, g.ids, g.write, g.queue, nofun⟩
    · exact c
  · exact c

theorem dropVerify_slot (i j : Nat) (s : State) : (dropVerify i s).slot j = s.slot j := by
  unfold dropVerify
  dsimp only
  split
  · split
    · simp only [State.slot, giveUpBurst_dlc]
    · rfl
  · rfl

theorem dropVerify_gone (i : Nat) (s : State) :
    i ∉ (dropVerify i s).dlc.verifyQueue ∧ ∀ v, (dropVerify i s).dlc.verify = some v → v.slot ≠ i := by
  unfold dropVerify
  dsimp only
  split
  · next x hx =>
    split
    · simp only [giveUpBurst_dlc]
      exact ⟨by simp, nofun⟩
    · next hn =>
      refine ⟨by simp, fun v hv => ?_⟩
      rw [hx] at hv
      exact Option.some.inj hv ▸ hn
  · next hx => exact ⟨by simp, fun v hv => nomatch hx.symm.trans hv⟩

theorem keeps_closeSlot (h : Keeps k b s t) (i : Nat) : Keeps k b s (closeSlot i t) := by
  unfold closeSlot
  dsimp only
  split
  · next hf =>
    split
    · next c hc =>
      refine h.table _ fun _ _ g => ?_
      refine g.setSettled rfl rfl rfl rfl (settled_of_free g hf) (fun _ => by simp [FileSlot.mapLaw, hf]) (fun _ => .inr hf)
        (fun _ => .inr (.inl ?_))
      simp [FileSlot.fileId, hc]
    · exact h
  · next hf =>
    refine keeps_freeSlot (keeps_finalize (keeps_dropDispatch h _) _ _ _ _) _ _ fun _ g => ?_
    have e : ((finalize .fetch (t.slot i).record (openResult 0) .cancelled (dropDispatch i t)).slot i).state = .opened := by
      rw [finalize_slot, dropDispatch_slot, hf]
    refine ⟨by rw [e]; exact nofun, ?_, not_verified_of g (by rw [e]; exact nofun)⟩
    rw [finalize_dlc]
    exact dropDispatch_ne i t
  · next hf =>
    refine keeps_freeSlot (keeps_finalize (keeps_dropDispatch h _) _ _ _ _) _ _ fun _ g => ?_
    have e : ((finalize .fetch (t.slot i).record (openResult 0) .cancelled (dropDispatch i t)).slot i).state = .stalled := by
      rw [finalize_slot, dropDispatch_slot, hf]
    refine ⟨by rw [e]; exact nofun, ?_, not_verified_of g (by rw [e]; exact nofun)⟩
    rw [finalize_dlc]
    exact dropDispatch_ne i t
  · next hf =>
    refine keeps_freeSlot (keeps_finalize (keeps_dropVerify h _) _ _ _ _) _ _ fun _ g => ?_
    have e : ((finalize .fetch (t.slot i).record (openResult 0) .cancelled (dropVerify i t)).slot i).state = .verifying := by
      rw [finalize_slot, dropVerify_slot, hf]
    refine ⟨by rw [e]; exact nofun, not_written_of g (by rw [e]; exact nofun) (by rw [e]; exact nofun), ?_⟩
    rw [finalize_dlc]
    exact dropVerify_gone i t
  all_goals
    next hf =>
    refine keeps_freeSlot h _ _ fun _ g => ?_
    exact ⟨by rw [hf]; exact nofun, not_written_of g (by rw [hf]; exact nofun) (by rw [hf]; exact nofun),
      not_verified_of g (by rw [hf]; exact nofun)⟩

theorem keeps_takeClose (h : Keeps k b s t) (r : Nat) (l : List Byte) : Keeps k b s (takeClose r l t) := by
  unfold takeClose
  dsimp only
  split
  · exact keeps_finalize (keeps_takeFreeByte h) _ _ _ _
  · exact keeps_finalize (keeps_closeSlot h _) _ _ _ _

/-! ### Dispatch -/

/-- An accepted chunk's slot, OPEN or STALLED with no verify for it, is OPEN (R162). -/
theorem keeps_acceptChunk (h : Keeps k b s t) (i : Nat)
    (hs : FilesOk s → FilesOk t → (t.slot i).state = .opened ∨ (t.slot i).state = .stalled) :
    Keeps k b s (acceptChunk i t) := by
  unfold acceptChunk
  refine keeps_askProgress (h.table _ fun _ g0 g => ?_) _
  have hst := hs g0 g
  have hu : (t.slot i).state ≠ .free := by rcases hst with x | x <;> rw [x] <;> exact nofun
  have hnv : (t.slot i).state ≠ .verifying := by rcases hst with x | x <;> rw [x] <;> exact nofun
  have hi := lt_of_used g hu
  have hc : (t.slot i).claim = none := (g.claim i hi).resolve_right hu
  refine g.set rfl (fun _ => ?_) (fun _ => .inl hc) (fun _ => .inr (.inl ?_)) (fun e d hd => ?_) (fun e j hj => ?_)
    (fun e v hv => ?_)
  · have := g.map i hi
    simp only [FileSlot.mapLaw, Bool.or_eq_true, beq_iff_eq] at this ⊢
    exact .inr (this.resolve_left hu)
  · simp only [FileSlot.fileId, hc, if_neg hu]
    rfl
  · have w := (dispatchLaw_iff t).1 g.write d hd
    by_cases hx : i = d.slot
    · subst hx
      refine w.of (.inl ?_) ?_ ?_ <;> rw [e, if_pos ⟨rfl, hi⟩]
    · exact w.same (by rw [e, if_neg fun x => hx x.1])
  · rw [e, if_neg (fun x : i = j ∧ i < 4 => hnv (x.1 ▸ g.queue j hj))]
    exact g.queue j hj
  · rw [e, if_neg (fun x : i = v.slot ∧ i < 4 => hnv (x.1 ▸ g.verify v hv))]
    exact g.verify v hv

/-- Parts left uncovered lie in a range that is not empty. -/
theorem lt_of_uncovered : ∀ (m : List (Nat × Nat)) (a b : Nat), uncovered m a b ≠ [] → a < b
  | [], a, b, h => by
    by_contra hn
    exact h (by rw [uncovered, if_neg hn])
  | e :: l, a, b, h => by
    by_contra hn
    refine h ?_
    rw [uncovered, if_neg (by omega), List.nil_append]
    by_contra hx
    have := lt_of_uncovered l _ _ hx
    omega

theorem keeps_judgeMap (h : Keeps k b s t) (i : Nat) (c : Chunk) (hi : i < 4)
    (hs : (t.slot i).state = .opened ∨ (t.slot i).state = .stalled) (hl : c.hdr.offset + c.hdr.len ≤ (t.slot i).len) :
    Keeps k b s (judgeMap i c t) := by
  unfold judgeMap
  dsimp only
  split
  · exact keeps_dropChunk (keeps_countLink h _)
  · next hn =>
    split
    · refine keeps_dropChunk (keeps_acceptChunk (keeps_countLink h _) _ fun _ _ => ?_)
      have e : (countLink .duplicate t).slot i = t.slot i := by
        unfold countLink
        dsimp only
        split
        · rfl
        · split
          · rw [post_slot, ask_slot]; rfl
          · rw [ask_slot]; rfl
      rw [e]
      exact hs
    · next hp =>
      refine h.table _ fun _ _ g => ?_
      refine ⟨g.len, g.map, g.claim, g.ids, (dispatchLaw_iff _).2 fun d hd => ?_, g.queue, g.verify⟩
      obtain rfl := Option.some.inj hd
      refine ⟨hi, hs, ⟨?_, hl⟩, ?_, rfl⟩
      · exact lt_of_uncovered _ _ _ fun x => hp (by rw [x]; rfl)
      · have hu : (t.slot i).state ≠ .free := by rcases hs with x | x <;> rw [x] <;> exact nofun
        have := g.map i hi
        simp only [FileSlot.mapLaw, Bool.or_eq_true, Bool.and_eq_true, beq_iff_eq, decide_eq_true_eq] at this
        have := (this.resolve_left hu).1.2
        show (t.slot i).extents.length + 1 ≤
          ((t.slot i).extents.filter (touches c.hdr.offset (c.hdr.offset + c.hdr.len))).length + 16
        omega

theorem keeps_dispatchBegin (h : Keeps k b s t) : Keeps k b s (dispatchBegin t) := by
  unfold dispatchBegin
  split
  · next c q _ _ =>
    split
    · split
      · exact h
      · exact keeps_dropChunk (keeps_countLink h _)
    · next i hi =>
      have hlt : i < 4 := by
        have := List.mem_of_find?_eq_some hi
        exact List.mem_range.1 this
      dsimp only
      split
      · exact keeps_dropChunk (keeps_countLink h _)
      · next hl =>
        split
        · next hf => exact keeps_judgeMap h _ _ hlt (.inl hf) (by omega)
        · next hf => exact keeps_judgeMap h _ _ hlt (.inr hf) (by omega)
        all_goals exact keeps_dropChunk (keeps_countLink h _)
  · exact h

@[simp] theorem acceptChunk_slot (i : Nat) (s : State) (hl : s.dlc.slots.length = 4) (j : Nat) :
    (acceptChunk i s).slot j = if i = j ∧ i < 4 then { s.slot i with state := .opened, stamp := s.partTime, timer := s.stallTimer }
      else s.slot j := by
  unfold acceptChunk askProgress
  rw [ask_slot]
  exact slot_set hl rfl j

/-- A chunk whose writes have completed joins its slot's map (R162). -/
theorem keeps_placeChunk (d : Dispatch) (hd : t.dlc.dispatch = some d) : Keeps k b t (placeChunk d t) := by
  let map := mergeExtent (t.slot d.slot).extents d.chunk.hdr.offset (d.chunk.hdr.offset + d.chunk.hdr.len)
  let f := { t.slot d.slot with extents := map, received := (t.slot d.slot).received + d.fresh }
  let x : Dlc := { t.dlc with dispatch := none, fifo := t.dlc.fifo.tail, slots := t.dlc.slots.set d.slot f }
  have w : ∀ g : FilesOk t, Writes d t := fun g => (dispatchLaw_iff t).1 g.write d hd
  have hu : ∀ g : FilesOk t, (t.slot d.slot).state ≠ .free := by
    intro g e
    rcases (w g).2.1 with x | x <;> rw [e] at x <;> exact nomatch x
  have hnv : ∀ g : FilesOk t, (t.slot d.slot).state ≠ .verifying := by
    intro g e
    rcases (w g).2.1 with x | x <;> rw [e] at x <;> exact nomatch x
  have c1 : Keeps k b t { t with dlc := x } := by
    refine Keeps.refl.table _ fun m g _ => ?_
    obtain ⟨w1, w2, ⟨w3, w4⟩, w5, w6⟩ := w g
    have hm := g.map d.slot w1
    simp only [FileSlot.mapLaw, Bool.or_eq_true, Bool.and_eq_true, beq_iff_eq, decide_eq_true_eq] at hm
    obtain ⟨⟨h1, h2⟩, h3⟩ := hm.resolve_left (hu g)
    obtain ⟨m1, m2, m3⟩ := m _ _ _ _ h1 w3 w4
    have hc := (g.claim d.slot w1).resolve_right (hu g)
    refine g.set (f := f) rfl (fun _ => ?_) (fun _ => .inl hc) (fun _ => .inr (.inl rfl)) (fun _ => nofun) (fun e j hj => ?_)
      (fun e v hv => ?_)
    · simp only [FileSlot.mapLaw, Bool.or_eq_true, Bool.and_eq_true, beq_iff_eq, decide_eq_true_eq]
      refine .inr ⟨⟨m1, ?_⟩, ?_⟩
      · show (mergeExtent _ _ _).length ≤ 16
        rw [m2]
        omega
      · show _ = extentSum (mergeExtent _ _ _)
        rw [m3, ← h3, ← w6]
    · rw [e]
      split
      · next q => exact absurd (g.queue j hj) (q.1 ▸ hnv g)
      · exact g.queue j hj
    · rw [e]
      split
      · next q => exact absurd (g.verify v hv) (q.1 ▸ hnv g)
      · exact g.verify v hv
  have hs : ∀ g : FilesOk t, State.slot { t with dlc := x } d.slot = f := fun g => by
    rw [slot_set (u := { t with dlc := x }) g.len rfl, if_pos ⟨rfl, (w g).1⟩]
  have c2 : Keeps k b t (acceptChunk d.slot { t with dlc := x }) :=
    keeps_acceptChunk c1 _ fun g _ => by rw [hs g]; exact (w g).2.1
  have e2 : ∀ g : FilesOk t, ((acceptChunk d.slot { t with dlc := x }).slot d.slot).state = .opened := fun g => by
    rw [acceptChunk_slot _ _ (by rw [List.length_set]; exact g.len), if_pos ⟨rfl, (w g).1⟩]
  have d2 : (acceptChunk d.slot { t with dlc := x }).dlc.dispatch = none := by
    unfold acceptChunk askProgress
    rw [ask_dlc]
    rfl
  have last : ∀ v : State, placeChunk d t = (if map = [(0, (t.slot d.slot).len)] then
      let v3 := v.setSlot d.slot { v.slot d.slot with state := .verifying, timer := none }
      { v3 with dlc.verifyQueue := v3.dlc.verifyQueue ++ [d.slot] } else v) ∨ v ≠ acceptChunk d.slot { t with dlc := x } := by
    intro v
    by_cases e : v = acceptChunk d.slot { t with dlc := x }
    · exact .inl (e ▸ rfl)
    · exact .inr e
  rw [(last _).resolve_right (not_not.2 rfl)]
  revert c2 e2 d2
  generalize acceptChunk d.slot { t with dlc := x } = v
  intro c2 e2 d2
  split
  · refine Keeps.table c2 { v.dlc with
      slots := v.dlc.slots.set d.slot { v.slot d.slot with state := .verifying, timer := none }
      verifyQueue := v.dlc.verifyQueue ++ [d.slot] } fun m g0 g => ?_
    have hlt := (w g0).1
    have hv := e2 g0
    have hn : (v.slot d.slot).state ≠ .free := by rw [hv]; exact nofun
    have hc := (g.claim d.slot hlt).resolve_right hn
    refine g.set rfl (fun _ => ?_) (fun _ => .inl hc) (fun _ => .inr (.inl ?_)) (fun _ y hy => ?_) (fun e j hj => ?_)
      (fun e y hy => ?_)
    · have := g.map d.slot hlt
      simp only [FileSlot.mapLaw, Bool.or_eq_true, beq_iff_eq] at this ⊢
      exact .inr (this.resolve_left hn)
    · simp only [FileSlot.fileId, hc, if_neg hn]
      rfl
    · exact nomatch d2.symm.trans hy
    · rw [e]
      split
      · rfl
      · next q =>
        rcases List.mem_append.1 hj with m | m
        · exact g.queue j m
        · exact absurd ⟨(List.mem_singleton.1 m).symm, hlt⟩ q
    · rw [e]
      split
      · rfl
      · exact g.verify y hy
  · exact c2

theorem keeps_dispatchNext (h : Keeps k b s t) : Keeps k b s (dispatchNext t) := by
  unfold dispatchNext
  split
  · next d hd =>
    split
    · exact h.trans (keeps_placeChunk d hd)
    · exact h
  · exact h

theorem keeps_dispatchFail (h : Keeps k b s t) (c : Code) : Keeps k b s (dispatchFail c t) := by
  unfold dispatchFail
  split
  · next d hd =>
    refine h.trans ?_
    have e : ∀ j, (dropChunk { t with dlc := { t.dlc with dispatch := none } }).slot j = t.slot j := fun _ => rfl
    refine keeps_corruptSlot (keeps_dropChunk (Keeps.refl.table _ fun _ g _ => ?_)) _ _ _ fun g0 g => ?_
    · exact ⟨g.len, g.map, g.claim, g.ids, (dispatchLaw_iff _).2 nofun, g.queue, g.verify⟩
    · have w := ((dispatchLaw_iff t).1 g0.write d hd).2.1
      refine ⟨?_, nofun, not_verified_of g ?_⟩ <;>
      · rw [e]
        rcases w with x | x <;> rw [x] <;> exact nofun
  · exact h

/-! ### Stall, verify and stop -/

theorem keeps_stallExpiry (h : Keeps k b s t) (i : Nat) : Keeps k b s (stallExpiry i t) := by
  unfold stallExpiry
  dsimp only
  split
  · next hf =>
    refine keeps_askProgress (keeps_post (h.table _ fun _ _ g => ?_) _) _
    have hu : (t.slot i).state ≠ .free := by rw [hf.1]; exact nofun
    have hnv : (t.slot i).state ≠ .verifying := by rw [hf.1]; exact nofun
    have hi := lt_of_used g hu
    have hc := (g.claim i hi).resolve_right hu
    refine g.set rfl (fun _ => ?_) (fun _ => .inl hc) (fun _ => .inr (.inl ?_)) (fun e d hd => ?_) (fun e j hj => ?_)
      (fun e v hv => ?_)
    · have := g.map i hi
      simp only [FileSlot.mapLaw, Bool.or_eq_true, beq_iff_eq] at this ⊢
      exact .inr (this.resolve_left hu)
    · simp only [FileSlot.fileId, hc, if_neg hu]
      rfl
    · have w := (dispatchLaw_iff t).1 g.write d hd
      by_cases hx : i = d.slot
      · subst hx
        refine w.of (.inr ?_) ?_ ?_ <;> rw [e, if_pos ⟨rfl, hi⟩]
      · exact w.same (by rw [e, if_neg fun x => hx x.1])
    · rw [e, if_neg (fun x : i = j ∧ i < 4 => hnv (x.1 ▸ g.queue j hj))]
      exact g.queue j hj
    · rw [e, if_neg (fun x : i = v.slot ∧ i < 4 => hnv (x.1 ▸ g.verify v hv))]
      exact g.verify v hv
  · exact h

theorem keeps_verifyBegin (h : Keeps k b s t) : Keeps k b s (verifyBegin t) := by
  unfold verifyBegin
  split
  · next i q _ hq =>
    refine h.table _ fun _ _ g => ⟨g.len, g.map, g.claim, g.ids, g.write, g.queue, fun v hv => ?_⟩
    obtain rfl := Option.some.inj hv
    exact g.queue i (by rw [hq]; exact List.mem_cons_self)
  · exact h

/-- The verify pass has ended: its slot is VERIFYING still, and nothing is under way for it. -/
theorem verify_over {v : Verify} (hv : t.dlc.verify = some v) :
    let u := { t with dlc := { t.dlc with verify := none, verifyQueue := t.dlc.verifyQueue.filter (· != v.slot) } }
    Keeps k b t u ∧ ∀ w : State, w.dlc.dispatch = u.dlc.dispatch → w.dlc.verifyQueue = u.dlc.verifyQueue →
      w.dlc.verify = u.dlc.verify → w.slot v.slot = u.slot v.slot → FilesOk t → FilesOk w →
      (w.slot v.slot).state ≠ .free ∧ Settled v.slot w := by
  refine ⟨Keeps.refl.table _ fun _ g _ => ⟨g.len, g.map, g.claim, g.ids, g.write, fun j hj => g.queue j (List.mem_filter.1 hj).1,
    nofun⟩, fun w e1 e2 e3 e4 g0 g => ?_⟩
  have hs : (w.slot v.slot).state = .verifying := by
    rw [e4]
    exact g0.verify v hv
  refine ⟨by rw [hs]; exact nofun, not_written_of g (by rw [hs]; exact nofun) (by rw [hs]; exact nofun), ?_, ?_⟩
  · rw [e2]
    simp
  · rw [e3]
    exact nofun

theorem keeps_verifyNext (h : Keeps k b s t) (l : List Byte) : Keeps k b s (verifyNext l t) := by
  unfold verifyNext
  split
  · exact h
  · next v hv =>
    refine h.trans ?_
    obtain ⟨c, hs⟩ := verify_over (k := k) (b := b) hv
    dsimp only
    split
    · refine Keeps.refl.table _ fun _ g _ => ⟨g.len, g.map, g.claim, g.ids, g.write, g.queue, fun x hx => ?_⟩
      obtain rfl := Option.some.inj hx
      exact g.verify v hv
    · split
      · refine keeps_askProgress (keeps_post (keeps_finalize (keeps_settle c v.slot
          { t.slot v.slot with state := .verified, computed := ~~~ crcBytes v.crc l } (.inr ⟨rfl, rfl, rfl⟩) rfl rfl ?_) _ _ _ _) _) _
        exact hs _ rfl rfl rfl rfl
      · exact keeps_corruptSlot c _ _ _ (hs _ rfl rfl rfl rfl)

theorem keeps_verifyFail (h : Keeps k b s t) (c : Code) : Keeps k b s (verifyFail c t) := by
  unfold verifyFail
  split
  · exact h
  · next v hv =>
    obtain ⟨g, hs⟩ := verify_over (k := k) (b := b) hv
    exact h.trans (keeps_corruptSlot g _ _ _ (hs _ rfl rfl rfl rfl))

theorem keeps_stopDownloads (h : Keeps k b s t) : Keeps k b s (stopDownloads t) := keeps_enterHunt h.upd

/-- With no dispatch under way a slot is interrupted. -/
theorem keeps_interruptSlot (h : Keeps k b s t) (i : Nat) (hd : t.dlc.dispatch = none) :
    Keeps k b s (interruptSlot t i) ∧ (interruptSlot t i).dlc.dispatch = none := by
  unfold interruptSlot
  dsimp only
  split
  · next hf =>
    have e : ∀ r, ((finalize .fetch r (openResult 0) .interrupted t).slot i).state = (t.slot i).state := fun _ => by
      rw [finalize_slot]
    refine ⟨keeps_freeSlot (keeps_finalize h _ _ _ _) _ _ fun _ g => ⟨?_, ?_, not_verified_of g ?_⟩, ?_⟩
    · rw [e]; rcases hf with x | x <;> rw [x] <;> exact nofun
    · rw [finalize_dlc, hd]; exact nofun
    · rw [e]; rcases hf with x | x <;> rw [x] <;> exact nofun
    · unfold freeSlot askProgress
      rw [ask_dlc]
      simp only [State.setSlot, finalize_dlc, hd]
  · exact ⟨h, hd⟩

theorem keeps_interruptSlots : ∀ (l : List Nat) {t : State} (_ : Keeps k b s t), t.dlc.dispatch = none →
    Keeps k b s (l.foldl interruptSlot t)
  | [], _, h, _ => h
  | i :: l, _, h, hd => keeps_interruptSlots l (keeps_interruptSlot h i hd).1 (keeps_interruptSlot h i hd).2

theorem keeps_downloadsStop (h : Keeps k b s t) : Keeps k b s (downloadsStop t) := by
  unfold downloadsStop
  split
  · next hd =>
    refine (keeps_interruptSlots _ h ?_).upd
    simp only [downloadsDrained, Bool.and_eq_true, Option.isNone_iff_eq_none] at hd
    exact hd.2.1.1.2
  · exact h

end Sys2Proof.Machine
end

