-- ==== Sys2Proof/Laws/KeepsRest.lean ====
section
/-! SUPPORT. The Rest Controller's effects keep what `Keeps` says. -/

set_option Elab.async false

namespace Sys2Proof.Machine

variable {k b : Bool} {s t u : State} (h : Keeps k b s t)
include h

/-- The part state becomes one other than REST. -/
theorem keeps_setPart (p : PartState) (hp : p ≠ .rest) : Keeps k b s (setPart p t) := by
  have c : Keeps k b s { t with rsc.part := p } := by
    refine ⟨h.core.upd, fun e => ?_⟩
    have g := (panelLaw_iff t).1 (h.panel e)
    rw [panelLaw_iff]
    exact ⟨g.1, g.2.1, .inl hp⟩
  unfold setPart
  dsimp only
  split
  · exact c.upd
  · exact c.upd

theorem keeps_askContext (a1 : Phase) : Keeps k b s (askContext a1 t) := by
  unfold askContext
  try dsimp only
  repeat' first
    | rfl
    | assumption
    | with_reducible apply keeps_ask
    | split
    | with_reducible refine Keeps.upd ?_

theorem keeps_noteEntry : Keeps k b s (noteEntry t) := by
  unfold noteEntry
  try dsimp only
  repeat' first
    | rfl
    | assumption
    | split
    | with_reducible refine Keeps.upd ?_

theorem keeps_noteWake : Keeps k b s (noteWake t) := by
  unfold noteWake
  try dsimp only
  repeat' first
    | rfl
    | assumption
    | split
    | with_reducible refine Keeps.upd ?_

theorem keeps_finalizeRest (a1 : WakeCause) (a2 : Code) : Keeps k b s (finalizeRest a1 a2 t) := by
  unfold finalizeRest
  try dsimp only
  repeat' first
    | rfl
    | assumption
    | with_reducible apply keeps_finalize
    | split
    | with_reducible refine Keeps.upd ?_

theorem keeps_appendImage : Keeps k b s (appendImage t) := by
  unfold appendImage
  split
  · exact h
  · next im _ =>
    rcases e : append .rest .clear im.1 im.2 none t with ⟨a, u⟩
    have g := keeps_append_eq h _ _ _ _ _ e
    cases a
    all_goals exact g.upd

theorem keeps_clearRest (a1 : Bool) : Keeps k b s (clearRest a1 t) := by
  unfold clearRest
  try dsimp only
  repeat' first
    | rfl
    | assumption
    | split
    | with_reducible refine Keeps.upd ?_

theorem keeps_quiesceEntry (a1 : Bool) : Keeps k b s (quiesceEntry a1 t) := by
  unfold quiesceEntry
  try dsimp only
  repeat' first
    | rfl
    | assumption
    | with_reducible apply keeps_stopDownloads
    | with_reducible apply keeps_restFade
    | with_reducible apply keeps_setPart
    | with_reducible apply keeps_appendImage
    | with_reducible apply keeps_clearRest
    | with_reducible apply keeps_quiesceLimit
    | decide
    | split
    | with_reducible refine Keeps.upd ?_

theorem keeps_forcedRest : Keeps k b s (forcedRest t) := by
  unfold forcedRest
  try dsimp only
  repeat' first
    | rfl
    | assumption
    | with_reducible apply keeps_quiesceEntry
    | split
    | with_reducible refine Keeps.upd ?_

theorem keeps_beginWalk (a1 : Chain) : Keeps k b s (beginWalk a1 t) := by
  unfold beginWalk
  try dsimp only
  repeat' first
    | rfl
    | assumption
    | with_reducible apply keeps_setChain
    | with_reducible apply keeps_joinStation

theorem keeps_walkChain (a1 : Chain) : Keeps k b s (walkChain t a1) := by
  unfold walkChain
  try dsimp only
  repeat' first
    | rfl
    | assumption
    | with_reducible apply keeps_setChain
    | with_reducible apply keeps_beginWalk
    | split

theorem keeps_walkAll : Keeps k b s (walkAll t) := keeps_foldl _ (fun _ x g => keeps_walkChain g x) _ h

theorem keeps_writeLogAtRun : Keeps k b s (writeLogAtRun t) := by
  unfold writeLogAtRun
  try dsimp only
  repeat' first
    | rfl
    | assumption
    | with_reducible apply keeps_post
    | with_reducible apply keeps_writeLog
    | split

theorem keeps_enterRun (a1 : Bool) : Keeps k b s (enterRun a1 t) := by
  unfold enterRun
  try dsimp only
  repeat' first
    | rfl
    | assumption
    | with_reducible apply keeps_enterHunt
    | with_reducible apply keeps_runQueue
    | with_reducible apply keeps_setPart
    | with_reducible apply keeps_forcedRest
    | with_reducible apply keeps_walkAll
    | with_reducible apply keeps_writeLogAtRun
    | decide
    | split
    | with_reducible refine Keeps.upd ?_

theorem keeps_enterRunFromStart : Keeps k b s (enterRunFromStart t) := by
  unfold enterRunFromStart
  try dsimp only
  repeat' first
    | rfl
    | assumption
    | with_reducible apply keeps_ask
    | with_reducible apply keeps_enterRun
    | split
    | with_reducible refine Keeps.upd ?_

theorem keeps_requestMemory : Keeps k b s (requestMemory t).2 := by
  unfold requestMemory
  repeat' first
    | assumption
    | split
    | with_reducible refine Keeps.upd ?_

theorem keeps_requestMemory_eq {r : Bool} (e : requestMemory t = (r, u)) : Keeps k b s u := by
  have g := keeps_requestMemory h
  rw [e] at g
  exact g

theorem keeps_wakeWrites : Keeps k b s (wakeWrites t) := by
  unfold wakeWrites
  dsimp only
  exact keeps_askContext (keeps_ask (keeps_writeLog h).upd _) _

theorem keeps_wakeComplete : Keeps k b s (wakeComplete t) := by
  unfold wakeComplete
  try dsimp only
  repeat' first
    | rfl
    | assumption
    | with_reducible apply keeps_post
    | with_reducible apply keeps_restore
    | with_reducible apply keeps_wakeWrites
    | with_reducible apply keeps_finalizeRest
    | with_reducible apply keeps_enterRun

theorem keeps_toWaking (a1 : WakeCause) : Keeps k b s (toWaking a1 t) := by
  unfold toWaking
  try dsimp only
  repeat' first
    | rfl
    | assumption
    | with_reducible apply keeps_setPart
    | with_reducible apply keeps_noteWake
    | with_reducible refine keeps_requestMemory_eq ?_ (by assumption)
    | with_reducible apply keeps_requestMemory
    | with_reducible apply keeps_wakeComplete
    | decide
    | split
    | with_reducible refine Keeps.upd ?_

theorem keeps_restTurnEnded : Keeps k b s (restTurnEnded t) := by
  unfold restTurnEnded
  try dsimp only
  repeat' first
    | rfl
    | assumption
    | with_reducible apply keeps_toWaking
    | split
    | with_reducible refine Keeps.upd ?_

theorem keeps_turnEnd (a1 : Code) : Keeps k b s (turnEnd a1 t) := by
  unfold turnEnd
  try dsimp only
  repeat' first
    | rfl
    | assumption
    | with_reducible apply keeps_turnEndLog
    | with_reducible apply keeps_restTurnEnded

theorem keeps_turnAppend : Keeps k b s (turnAppend t) := by
  unfold turnAppend
  try dsimp only
  repeat' first
    | rfl
    | assumption
    | with_reducible refine keeps_appendTurn_eq ?_ (by assumption)
    | with_reducible apply keeps_appendTurn
    | with_reducible apply keeps_turnEnd
    | split

theorem keeps_restTurnMemory (a1 : Bool) : Keeps k b s (restTurnMemory a1 t) := by
  unfold restTurnMemory
  try dsimp only
  repeat' first
    | rfl
    | assumption
    | with_reducible apply keeps_turnEnd
    | with_reducible apply keeps_turnAppend
    | split

theorem keeps_restTurnBegin (a1 : Dir) (hl : t.ktu.log.length < 16) : Keeps k b s (restTurnBegin a1 t) := by
  have c : Keeps k b s { t with rsc.turns := t.rsc.turns + 1 } := h.upd
  have c2 := keeps_setPart c .restTurn (by decide)
  have hl2 : (setPart .restTurn { t with rsc.turns := t.rsc.turns + 1 }).ktu.log.length < 16 := by
    unfold setPart
    dsimp only
    split <;> exact hl
  have c3 := keeps_requestMemory (keeps_fillTurn c2 a1 true hl2)
  unfold restTurnBegin
  dsimp only
  split
  · exact keeps_restTurnMemory c3 _
  · exact c3

theorem keeps_pendWake (a1 : WakeCause) : Keeps k b s (pendWake a1 t) := by
  unfold pendWake
  try dsimp only
  repeat' first
    | rfl
    | assumption
    | with_reducible apply keeps_toWaking
    | split
    | with_reducible refine Keeps.upd ?_

theorem keeps_wakeCause (a1 : WakeCause) : Keeps k b s (wakeCause a1 t) := by
  unfold wakeCause
  try dsimp only
  repeat' first
    | rfl
    | assumption
    | with_reducible apply keeps_toWaking
    | with_reducible apply keeps_pendWake
    | split

theorem keeps_restPage (a1 : Dir) (a2 : Press) : Keeps k b s (restPage a1 a2 t) := by
  unfold restPage
  split
  · next c =>
    rw [Bool.and_eq_true] at c
    exact keeps_restTurnBegin h _ (turnAllowed_log c.2)
  · exact keeps_toWaking (keeps_reportPress h _) _

theorem keeps_restPress (a1 : Press) : Keeps k b s (restPress a1 t) := by
  unfold restPress
  try dsimp only
  repeat' first
    | rfl
    | assumption
    | with_reducible apply keeps_toggle
    | with_reducible apply keeps_reportPress
    | with_reducible apply keeps_toWaking
    | with_reducible apply keeps_restPage
    | split

theorem keeps_leaveQuiesce (a1 : Bool) : Keeps k b s (leaveQuiesce a1 t) := by
  unfold leaveQuiesce
  try dsimp only
  repeat' first
    | rfl
    | assumption
    | with_reducible apply keeps_restore
    | with_reducible apply keeps_askContext
    | with_reducible apply keeps_enterRun
    | split
    | with_reducible refine Keeps.upd ?_

theorem keeps_cancelQuiesce : Keeps k b s (cancelQuiesce t) := by
  unfold cancelQuiesce
  try dsimp only
  repeat' first
    | rfl
    | assumption
    | with_reducible apply keeps_finalizeRest
    | with_reducible apply keeps_leaveQuiesce

theorem keeps_quiescePress (a1 : Press) : Keeps k b s (quiescePress a1 t) := by
  unfold quiescePress
  try dsimp only
  repeat' first
    | rfl
    | assumption
    | with_reducible apply keeps_toggle
    | with_reducible apply keeps_cancelQuiesce
    | split

omit h in
theorem keeps_handleQueue : ∀ (n : Nat) {t : State} (_ : Keeps k b s t), Keeps k b s (handleQueue n t)
  | 0, _, h => h
  | n + 1, t, h => by
    unfold handleQueue
    split
    · exact h
    · next p q e =>
      have c := keeps_dequeue h p q e
      dsimp only
      split
      · exact keeps_handleQueue n (keeps_pressRun c _)
      · split
        · exact h
        · exact keeps_handleQueue n (keeps_quiescePress c _)
      · exact keeps_handleQueue n (keeps_restPress c _)
      all_goals exact h

theorem keeps_handlePresses : Keeps k b s (handlePresses t) := by
  unfold handlePresses
  try dsimp only
  repeat' first
    | rfl
    | assumption
    | with_reducible apply keeps_handleQueue

theorem keeps_forceQuiesce : Keeps k b s (forceQuiesce t) := by
  unfold forceQuiesce
  try dsimp only
  repeat' first
    | rfl
    | assumption
    | with_reducible apply keeps_restFade
    | split
    | with_reducible refine Keeps.upd ?_

theorem keeps_supplyReport : Keeps k b s (supplyReport t) := by
  unfold supplyReport
  try dsimp only
  repeat' first
    | rfl
    | assumption
    | with_reducible apply keeps_setCeiling
    | with_reducible apply keeps_forcedRest
    | with_reducible apply keeps_wakeCause
    | with_reducible apply keeps_forceQuiesce
    | split

theorem keeps_abandonTest : Keeps k b s (abandonTest t) := by
  unfold abandonTest
  try dsimp only
  repeat' first
    | rfl
    | assumption
    | with_reducible apply keeps_finalizeRest
    | with_reducible apply keeps_leaveQuiesce
    | split

theorem keeps_lockoutWake : Keeps k b s (lockoutWake t) := by
  unfold lockoutWake
  try dsimp only
  repeat' first
    | rfl
    | assumption
    | with_reducible apply keeps_toWaking
    | split

theorem keeps_drainBegin : Keeps k b s (drainBegin t) := by
  unfold drainBegin
  try dsimp only
  repeat' first
    | rfl
    | assumption
    | with_reducible apply keeps_askContext
    | with_reducible apply keeps_noteEntry
    | split
    | with_reducible refine Keeps.upd ?_

theorem keeps_contextDone (a1 : Phase) : Keeps k b s (contextDone a1 t) := by
  unfold contextDone
  try dsimp only
  repeat' first
    | rfl
    | assumption
    | split
    | with_reducible refine Keeps.upd ?_

omit h in
theorem core_railsOn (h : KeepsCore k b s t) : KeepsCore k b s (railsOn t) := by
  unfold railsOn
  exact core_idleCheck (h.upd.trans (keeps_ask Keeps.refl _).core)

omit h in
theorem core_railsRise (h : KeepsCore k b s t) : KeepsCore k b s (railsRise t) := by
  unfold railsRise
  split
  · unfold enterRising
    have c : KeepsCore k b s (ask .panel { t with pss.rail := .rising, pss.riseTimer := t.timer 20 }) :=
      h.upd.trans (keeps_ask Keeps.refl _).core
    dsimp only
    split
    · exact core_railsOn c
    · exact c
  · exact h

omit h in
theorem core_unlockAtRest (h : KeepsCore k b s t) : KeepsCore k b s (unlockAtRest t) := by
  unfold unlockAtRest
  split
  · unfold enterOff
    exact core_railsRise (h.upd.trans (keeps_ask Keeps.refl _).core)
  · exact h

omit h in
/-- With every lane FREE and the supply OFF or LOCKED, the entry to REST leaves the laws of the panel (R104, R190). -/
theorem panelLaw_unlockAtRest (hl : ∀ l ∈ t.upe.lanes, l.state = .free) (hr : t.pss.rail = .off ∨ t.pss.rail = .locked) :
    (unlockAtRest t).panelLaw = true := by
  have nd : ∀ l ∈ t.upe.lanes, l.state ≠ .driving := fun l m => by rw [hl l m]; nofun
  unfold unlockAtRest
  split
  · unfold enterOff
    refine (keeps_railsRise (k := true) (b := true) Keeps.refl).panel ?_
    rw [panelLaw_iff]
    simp only [ask_pss, ask_upe, ask_rsc]
    exact ⟨.inr nd, .inl nofun, .inr ⟨hl, trivial⟩⟩
  · next hn =>
    have ho := hr.resolve_right hn
    rw [panelLaw_iff, ho]
    exact ⟨.inr nd, .inl nofun, .inr ⟨hl, rfl⟩⟩

omit h in
theorem panelQuiet_iff (e : panelQuiet t = true) :
    (∀ l ∈ t.upe.lanes, l.state = .free) ∧ (t.pss.rail = .off ∨ t.pss.rail = .locked) := by
  simp only [panelQuiet, allLanesFree, Bool.and_eq_true, Bool.or_eq_true, List.all_eq_true, beq_iff_eq, Lane.isFree] at e
  exact ⟨e.1.1.1.2, e.2⟩

omit h in
theorem core_setPart (h : KeepsCore k b s t) (p : PartState) : KeepsCore k b s (setPart p t) := by
  unfold setPart
  dsimp only
  split <;> exact h.upd

omit h in
theorem core_askSleep (h : KeepsCore k b s t) : KeepsCore k b s (askSleep t) := by
  unfold askSleep
  split
  · split <;> exact h.upd
  · exact h

omit h in
theorem setPart_upe (p : PartState) : (setPart p t).upe = t.upe := by
  unfold setPart; dsimp only; split <;> rfl

omit h in
theorem setPart_pss (p : PartState) : (setPart p t).pss = t.pss := by
  unfold setPart; dsimp only; split <;> rfl

omit h in
theorem askSleep_upe : (askSleep t).upe = t.upe := by
  unfold askSleep; repeat' split
  all_goals rfl

omit h in
theorem askSleep_pss : (askSleep t).pss = t.pss := by
  unfold askSleep; repeat' split
  all_goals rfl

omit h in
/-- The panel's part of an entry to REST. -/
theorem keeps_sleep (q : panelQuiet t = true) (g : KeepsCore k b s u) (e1 : u.upe = t.upe) (e2 : u.pss = t.pss) :
    Keeps k b s (unlockAtRest (askSleep (setPart .rest u))) := by
  refine ⟨core_unlockAtRest (core_askSleep (core_setPart g _)), fun _ => panelLaw_unlockAtRest ?_ ?_⟩
  · rw [askSleep_upe, setPart_upe, e1]; exact (panelQuiet_iff q).1
  · rw [askSleep_pss, setPart_pss, e2]; exact (panelQuiet_iff q).2

theorem keeps_beginRest (q : panelQuiet t = true) : Keeps k b s (beginRest t) := by
  have c : Keeps k b s (unlockAtRest (askSleep (setPart .rest (noteEntry
      { t with rsc.quiesceTimer := none, rsc.drain := .waiting })))) :=
    keeps_sleep q (KeepsCore.upd (KeepsCore.upd h.core)) rfl rfl
  unfold beginRest
  dsimp only
  split
  · exact keeps_handlePresses c.upd
  · exact keeps_handlePresses c

theorem keeps_enterRest : Keeps k b s (enterRest t) := by
  unfold enterRest
  split
  · split
    · next q =>
      simp only [drained, Bool.and_eq_true] at q
      exact keeps_beginRest h q.1.1.1.1
    · exact h.upd
  · exact h

theorem keeps_restTurnSleep : Keeps k b s (restTurnSleep t) := by
  unfold restTurnSleep
  split
  · next q => exact keeps_handlePresses (keeps_sleep q.2.2.1 (KeepsCore.upd h.core) rfl rfl)
  · exact h

theorem keeps_takeRest (a1 : Nat) (a2 : List Byte) : Keeps k b s (takeRest a1 a2 t) := by
  unfold takeRest
  try dsimp only
  repeat' first
    | rfl
    | assumption
    | with_reducible apply keeps_finalize
    | with_reducible apply keeps_quiesceEntry
    | split
    | with_reducible refine Keeps.upd ?_

theorem keeps_memoryAvailable : Keeps k b s (memoryAvailable t) := by
  unfold memoryAvailable
  try dsimp only
  repeat' first
    | rfl
    | assumption
    | with_reducible apply keeps_wakeComplete
    | with_reducible apply keeps_restTurnMemory
    | split

theorem keeps_ackAsserted : Keeps k b s (ackAsserted t) := by
  unfold ackAsserted
  try dsimp only
  repeat' first
    | rfl
    | assumption
    | split
    | with_reducible refine Keeps.upd ?_

theorem keeps_ackDeasserted : Keeps k b s (ackDeasserted t) := by
  unfold ackDeasserted
  try dsimp only
  repeat' first
    | rfl
    | assumption
    | with_reducible apply keeps_memoryAvailable
    | split
    | with_reducible refine Keeps.upd ?_

theorem keeps_memoryExpiry : Keeps k b s (memoryExpiry t) := by
  unfold memoryExpiry
  try dsimp only
  repeat' first
    | rfl
    | assumption
    | with_reducible apply keeps_restTurnMemory
    | split
    | with_reducible refine Keeps.upd ?_

end Sys2Proof.Machine
end

