-- ==== Sys2Proof/Laws/KeepsPanel.lean ====
section
/-! SUPPORT. The effects on the panel keep what `Keeps` says: lanes, passes, faults and frames. -/

set_option Elab.async false

namespace Sys2Proof.Machine

variable {k b : Bool} {s t u : State} (h : Keeps k b s t)
include h

theorem keeps_endUpdate (a1 : Origin) (a2 : Nat) (a3 : List (Nat × List Byte)) (a4 : Code) : Keeps k b s (endUpdate a1 a2 a3 a4 t) := by
  unfold endUpdate
  try dsimp only
  repeat' first
    | rfl
    | assumption
    | with_reducible apply keeps_finalize
    | with_reducible apply keeps_turnEnd
    | split
    | with_reducible refine Keeps.upd ?_

theorem keeps_endWaiting (a1 : Code) (a2 : Entry) : Keeps k b s (endWaiting a1 t a2) := keeps_endUpdate h _ _ _ _

theorem keeps_endAllWaiting (a1 : Code) : Keeps k b s (endAllWaiting a1 t) := by
  unfold endAllWaiting
  exact keeps_foldl _ (fun _ x g => keeps_endWaiting g _ x) _ (keeps_foldl _ (fun _ x g => keeps_leaveList g x) _ h)

theorem keeps_freeLane (a1 : Nat) : Keeps k b s (freeLane a1 t) :=
  keeps_idleCheck (keeps_ask (keeps_releaseEntry (keeps_setLane_free h a1) _) _)

omit h in
/-- Every lane is replaced by one that is DRIVING only where the old one was, and FREE where it was. -/
theorem keeps_mapLanes {f : Lane → Lane} (h : Keeps k b s t) (c : KeepsCore k b s u) (e1 : u.upe.lanes = t.upe.lanes.map f)
    (e2 : u.pss.rail = t.pss.rail) (e3 : u.pss.idleTimer = t.pss.idleTimer) (e4 : u.rsc.part = t.rsc.part)
    (hd : ∀ l, (f l).state = .driving → l.state = .driving) (hf : ∀ l, l.state = .free → (f l).state = .free) :
    Keeps k b s u := by
  refine ⟨c, fun e => ?_⟩
  have g := (panelLaw_iff t).1 (h.panel e)
  have all : (∀ l ∈ t.upe.lanes, l.state = .free) → ∀ l ∈ t.upe.lanes.map f, l.state = .free := by
    intro a l m
    obtain ⟨l', m', rfl⟩ := List.mem_map.1 m
    exact hf l' (a l' m')
  rw [panelLaw_iff, e1, e2, e3, e4]
  refine ⟨g.1.imp id fun a l m => ?_, g.2.1.imp id (Or.imp id all), g.2.2.imp id (And.imp all id)⟩
  obtain ⟨l', m', rfl⟩ := List.mem_map.1 m
  exact fun x => a l' m' (hd l' x)

omit h in
theorem abortWith_state (c : AbortCause) (l : Lane) :
    (l.abortWith c).state = if l.state = .driving then .retiring else l.state := by
  unfold Lane.abortWith
  split <;> rfl

theorem keeps_abortLanes (a1 : AbortCause) : Keeps k b s (abortLanes a1 t) := by
  refine keeps_mapLanes (u := abortLanes a1 t) (f := Lane.abortWith a1) h (KeepsCore.upd h.core) rfl rfl rfl rfl ?_ ?_
  · intro l e
    rw [abortWith_state] at e
    split at e
    · assumption
    · assumption
  · intro l e
    rw [abortWith_state, e]
    rfl

theorem keeps_endLane (a1 : Nat) (a2 : Code) : Keeps k b s (endLane a1 a2 t) := by
  unfold endLane
  try dsimp only
  repeat' first
    | rfl
    | assumption
    | with_reducible apply keeps_scan
    | with_reducible apply keeps_endUpdate
    | with_reducible apply keeps_freeLane

theorem keeps_beginPass (a1 : PassKind) : Keeps k b s (beginPass a1 t) := by
  unfold beginPass
  try dsimp only
  repeat' first
    | rfl
    | assumption
    | split
    | with_reducible refine Keeps.upd ?_

theorem keeps_unitIdle : Keeps k b s (unitIdle t) := by
  unfold unitIdle
  try dsimp only
  repeat' first
    | rfl
    | assumption
    | with_reducible apply keeps_scan
    | split

theorem keeps_admissionEnd (a1 : Nat) : Keeps k b s (admissionEnd a1 t) := by
  unfold admissionEnd
  dsimp only
  split
  · exact keeps_endLane h _ _
  · exact keeps_unitIdle (keeps_setLane h _ _ rfl)

theorem keeps_retireFlag (a1 : Lane) : Keeps k b s (retireFlag a1 t) := by
  unfold retireFlag
  try dsimp only
  repeat' first
    | rfl
    | assumption
    | with_reducible apply keeps_ask
    | with_reducible apply keeps_setUncertain
    | split
    | with_reducible refine Keeps.upd ?_

theorem keeps_retireEnd (a1 : Nat) : Keeps k b s (retireEnd a1 t) := by
  unfold retireEnd
  try dsimp only
  repeat' first
    | rfl
    | assumption
    | with_reducible apply keeps_endLane
    | with_reducible apply keeps_retireFlag

theorem keeps_requestSweep : Keeps k b s (requestSweep t) := by
  unfold requestSweep
  try dsimp only
  repeat' first
    | rfl
    | assumption
    | with_reducible apply keeps_beginPass
    | split
    | with_reducible refine Keeps.upd ?_

theorem keeps_sweepEnd (a1 : Geometry) (a2 : Bool) : Keeps k b s (sweepEnd a1 a2 t) := by
  unfold sweepEnd
  try dsimp only
  repeat' first
    | rfl
    | assumption
    | with_reducible apply keeps_scan
    | with_reducible apply keeps_enterRunFromStart
    | with_reducible apply keeps_beginPass
    | split
    | with_reducible refine Keeps.upd ?_

theorem keeps_endPass (a1 : Pass) : Keeps k b s (endPass a1 t) := by
  unfold endPass
  try dsimp only
  repeat' first
    | rfl
    | assumption
    | with_reducible apply keeps_admissionEnd
    | with_reducible apply keeps_retireEnd
    | with_reducible apply keeps_sweepEnd
    | with_reducible apply keeps_admission
    | split
    | with_reducible refine Keeps.upd ?_

theorem keeps_nextRow (a1 : Pass) : Keeps k b s (nextRow a1 t) := by
  unfold nextRow
  try dsimp only
  repeat' first
    | rfl
    | assumption
    | with_reducible apply keeps_endPass
    | split
    | with_reducible refine Keeps.upd ?_

theorem keeps_judgeRow (a1 : Pass) : Keeps k b s (judgeRow a1 t) := by
  unfold judgeRow
  dsimp only
  split
  · next i _ =>
    have g := fun m c => keeps_setLane h i { t.lane i with marked := m, collided := c } rfl
    exact (g _ _).upd
  · exact h.upd
  · exact h.upd

theorem keeps_passOkay (a1 : List Byte) : Keeps k b s (passOkay a1 t) := by
  unfold passOkay
  try dsimp only
  repeat' first
    | rfl
    | assumption
    | with_reducible apply keeps_nextRow
    | with_reducible apply keeps_judgeRow
    | split
    | with_reducible refine Keeps.upd ?_

omit h in
theorem fail_state (e : LaneError) (l : Lane) : (Lane.fail e l).state = l.state := by
  unfold Lane.fail
  split <;> rfl

theorem keeps_passFailure (a1 : LaneError) (a2 : Pass) : Keeps k b s (passFailure a1 a2 t) := by
  unfold passFailure
  split
  · exact keeps_setLane h _ _ (fail_state _ _)
  · exact keeps_setUncertain (keeps_setLane h _ _ (fail_state _ _))
  · exact keeps_setUncertain (keeps_setLane h _ _ (fail_state _ _))
  · exact keeps_setUncertain h
  · exact keeps_setUncertain h

theorem keeps_passFail (a1 : LaneError) : Keeps k b s (passFail a1 t) := by
  unfold passFail
  try dsimp only
  repeat' first
    | rfl
    | assumption
    | with_reducible apply keeps_nextRow
    | with_reducible apply keeps_passFailure
    | split

theorem keeps_retireBegin : Keeps k b s (retireBegin t) := by
  unfold retireBegin
  try dsimp only
  repeat' first
    | rfl
    | assumption
    | with_reducible apply keeps_beginPass
    | split
    | with_reducible refine Keeps.upd ?_

theorem keeps_fullAdmission (a1 : Entry) (a2 : Mode) : Keeps k b s (fullAdmission a1 a2 t) := by
  unfold fullAdmission
  try dsimp only
  repeat' first
    | rfl
    | assumption
    | with_reducible apply keeps_turnAdmitted
    | split
    | with_reducible refine Keeps.upd ?_

omit h in
theorem leaveList_idle (i : Nat) (x : State) : ∃ y, leaveList i x = idleCheck y := ⟨_, rfl⟩

/-- A lane becomes ARMING at an admission outside REST, and the idle hold stops (R68, R99). -/
theorem keeps_admitEntry (a1 : Entry) (a2 : StoreKey) (a3 a4 : Nat) (hp : s.panelLaw = true → t.rsc.part ≠ .rest) :
    Keeps k b s (admitEntry a1 a2 a3 a4 t) := by
  have c1 : Keeps k b s (leaveList a1.id (bindEntry a3 a1.id (t.setLane a4 (armLane a1 a2 a3 t)))) := by
    have hc : KeepsCore k b s (t.setLane a4 (armLane a1 a2 a3 t)) := KeepsCore.upd h.core
    refine ⟨hc.trans (keeps_leaveList (keeps_bindEntry Keeps.refl _ _) _).core, fun e => ?_⟩
    have g := (panelLaw_iff t).1 (h.panel e)
    unfold leaveList
    have f : ∀ x : State, (clearHolder a1.id none x).pss = x.pss ∧ (clearHolder a1.id none x).rsc = x.rsc ∧
        (clearHolder a1.id none x).upe.lanes = x.upe.lanes := by
      intro x
      unfold clearHolder
      dsimp only
      split <;> exact ⟨rfl, rfl, rfl⟩
    refine panelLaw_idleCheck ?_ (.inl ?_)
    · simp only [ask_pss, ask_upe, f, bindEntry, setStore_pss, setStore_upe, setLane_pss, setLane_upe]
      refine g.1.imp id fun nd l m => ?_
      rcases List.mem_or_eq_of_mem_set m with m | m
      · exact nd l m
      · rw [m]; nofun
    · simp only [ask_rsc, f, bindEntry, setStore_rsc, setLane_rsc]
      exact hp e
  unfold admitEntry
  dsimp only
  split
  · exact keeps_abandonTest (keeps_scan (keeps_ask (keeps_beginPass (keeps_railsRise (keeps_fullAdmission c1 _ _)) _) _))
  · exact keeps_abandonTest (keeps_scan (keeps_ask (keeps_beginPass (keeps_railsRise c1) _) _))

/-! The scan leaves the Rest Controller's state, and finds an entry eligible only in a part state that admits (R67). -/

omit h in
theorem reportFree_rsc : (reportFree t).rsc = t.rsc := rfl

omit h in
theorem clearHolder_rsc (i : Nat) (x : Option StoreKey) : (clearHolder i x t).rsc = t.rsc := by
  unfold clearHolder
  dsimp only
  split <;> rfl

omit h in
theorem dropOtherHold_rsc (i : Nat) (x : StoreKey) : (dropOtherHold i x t).rsc = t.rsc := by
  unfold dropOtherHold
  dsimp only
  split <;> exact clearHolder_rsc _ _

omit h in
theorem lookup_rsc (i : Nat) (m : Mode) (n : Nat) : (lookup i m n t).2.rsc = t.rsc := by
  unfold lookup
  dsimp only
  repeat' split
  all_goals first
    | rfl
    | exact dropOtherHold_rsc _ _

omit h in
theorem lookupFor_rsc (i : Nat) (m : Mode) (n : Nat) (x : Bool) : (lookupFor i m n x t).2.rsc = t.rsc :=
  lookup_rsc i m n

omit h in
theorem selectBand_rsc (im : Image) (v : Int) : (selectBand im v t).2.rsc = t.rsc := by
  unfold selectBand
  dsimp only
  split
  · exact post_rsc _ _
  · rfl

omit h in
theorem keyOrSample_rsc (e : Entry) : (keyOrSample e t).rsc = t.rsc := by
  unfold keyOrSample chooseKey demandSample requestTemp adcKick
  dsimp only
  repeat' split
  all_goals first
    | rfl
    | exact (lookupFor_rsc _ _ _ _).trans (selectBand_rsc _ _)

omit h in
/-- What the scan leaves of the Rest Controller, and what it takes for an entry to be eligible (R67). -/
theorem eligible_rsc (e : Entry) : (eligible e t).2.rsc = t.rsc ∧ ((eligible e t).1 = true → mayAdmit t = true) := by
  unfold eligible
  split
  · exact ⟨rfl, nofun⟩
  · next x _ =>
    dsimp only
    split
    · next hm =>
      rcases c : lookupFor e.id (decideMode e t).1 x.band (decideMode e t).2 t with ⟨a, u⟩
      have g := lookupFor_rsc (t := t) e.id (decideMode e t).1 x.band (decideMode e t).2
      rw [c] at g
      cases a
      all_goals exact ⟨g, fun _ => hm⟩
    · exact ⟨rfl, nofun⟩

omit h in
theorem mayAdmit_part (e : mayAdmit t = true) : t.rsc.part ≠ .rest := by
  simp only [mayAdmit, Bool.and_eq_true, Bool.or_eq_true, beq_iff_eq] at e
  rintro x
  rw [x] at e
  exact absurd e.1.1.1.1.1 (by decide)

omit h in
theorem scanEntry_rsc (i : Nat) :
    (scanEntry i t).2.rsc = t.rsc ∧ ((scanEntry i t).1 = true → t.rsc.part ≠ .rest) := by
  unfold scanEntry
  split
  · exact ⟨rfl, nofun⟩
  · next e _ =>
    split
    · exact ⟨rfl, nofun⟩
    · dsimp only
      have hk : (if e.st = .none then keyOrSample e t else t).rsc = t.rsc := by
        split
        · exact keyOrSample_rsc e
        · rfl
      generalize (if e.st = .none then keyOrSample e t else t) = w at hk ⊢
      split
      · next e1 _ =>
        have g := eligible_rsc (t := w) e1
        split
        · exact ⟨g.1.trans hk, fun x => hk ▸ mayAdmit_part (g.2 x)⟩
        · exact ⟨g.1.trans hk, fun x => hk ▸ mayAdmit_part (g.2 x)⟩
        all_goals exact ⟨hk, nofun⟩
      · exact ⟨hk, nofun⟩

omit h in
theorem scanList_rsc : ∀ (l : List Nat) {t : State},
    (scanList l t).2.rsc = t.rsc ∧ ((scanList l t).1 ≠ none → t.rsc.part ≠ .rest)
  | [], _ => ⟨rfl, fun e => absurd rfl e⟩
  | i :: l, t => by
    have g := scanEntry_rsc (t := t) i
    unfold scanList
    rcases e : scanEntry i t with ⟨f, u⟩
    rw [e] at g
    cases f
    · have r := scanList_rsc l (t := u)
      exact ⟨r.1.trans g.1, fun x => g.1 ▸ r.2 x⟩
    · exact ⟨g.1, fun _ => g.2 rfl⟩

theorem keeps_admission : Keeps k b s (admission t) := by
  unfold admission
  rcases e : scanFor t with ⟨o, u⟩
  have c := keeps_scanFor_eq h e
  have g := scanList_rsc (t.upe.list.map Entry.id) (t := t)
  rw [show scanList (t.upe.list.map Entry.id) t = (o, u) from e] at g
  cases o with
  | none => exact h
  | some i =>
    dsimp only
    repeat' split
    all_goals first
      | exact h
      | exact keeps_admitEntry c _ _ _ _ fun _ => by rw [g.1]; exact g.2 nofun

theorem keeps_failHolder (a1 : Option Nat) (a2 : Code) : Keeps k b s (failHolder a1 a2 t) := by
  unfold failHolder
  try dsimp only
  repeat' first
    | rfl
    | assumption
    | with_reducible apply keeps_scan
    | with_reducible apply keeps_reported
    | with_reducible apply keeps_leaveList
    | with_reducible apply keeps_endWaiting
    | split

/-- The lockout is entered out of FAULT (R103). -/
theorem keeps_lockout (hr : t.pss.rail = .fault) : Keeps k b s (lockout t) := by
  unfold lockout
  refine keeps_abandonTest (keeps_lockoutWake (keeps_endAllWaiting (keeps_ask ⟨KeepsCore.upd h.core, fun e => ?_⟩ _) _))
  have g := (panelLaw_iff t).1 (h.panel e)
  rw [hr] at g
  rw [panelLaw_iff]
  exact ⟨.inr (g.1.resolve_left nofun), .inl nofun, .inl (g.2.2.resolve_right fun x => nomatch x.2)⟩

omit h in
theorem stopFrame_eqs : (stopFrame t).upe = t.upe ∧ (stopFrame t).pss = t.pss ∧ (stopFrame t).rsc = t.rsc := by
  unfold stopFrame
  split <;> exact ⟨rfl, rfl, rfl⟩

/-- A fault out of ON or RISING leaves no lane DRIVING (R100). -/
theorem keeps_fault (hr : t.pss.rail = .on ∨ t.pss.rail = .rising) : Keeps k b s (fault t) := by
  have c : ∀ x : State, x.pss.rail = .fault → x.rsc = t.rsc → KeepsCore k b s x →
      Keeps k b s (post .panel (ask .panel { abortLanes .fault (stopFrame x) with
        pss.history := addFault t.pss.history t.partTime })) := by
    intro x hx hp hc
    have hc1 : KeepsCore k b s (stopFrame x) := hc.trans (keeps_stopFrame Keeps.refl).core
    have hc2 : KeepsCore k b s (abortLanes .fault (stopFrame x)) := hc1.trans (keeps_abortLanes Keeps.refl _).core
    refine keeps_post (keeps_ask ⟨hc2.upd, fun e => ?_⟩ _) _
    have g := (panelLaw_iff t).1 (h.panel e)
    have q := stopFrame_eqs (t := x)
    rw [panelLaw_iff]
    simp only [abortLanes, q, hx, hp]
    refine ⟨.inr fun l m => ?_, .inl nofun, .inl (g.2.2.resolve_right fun y => ?_)⟩
    · obtain ⟨l', _, rfl⟩ := List.mem_map.1 m
      rw [abortWith_state]
      split
      · nofun
      · assumption
    · rcases hr with hr | hr <;> rw [hr] at y <;> exact nomatch y.2
  unfold fault
  dsimp only
  split
  · refine keeps_lockout (c _ ?_ ?_ (KeepsCore.upd h.core)) ?_
    · rfl
    · rfl
    · simp [abortLanes, stopFrame_eqs]
  · exact c _ rfl rfl (KeepsCore.upd h.core)

theorem keeps_goodAsserted : Keeps k b s (goodAsserted t) := by
  unfold goodAsserted
  dsimp only
  split
  · next hr => exact keeps_railsOn h.upd hr
  · exact h.upd

theorem keeps_goodDeasserted : Keeps k b s (goodDeasserted t) := by
  unfold goodDeasserted
  dsimp only
  split
  · next hr => exact keeps_fault h.upd (.inl hr)
  · exact h.upd

theorem keeps_riseExpiry : Keeps k b s (riseExpiry t) := by
  unfold riseExpiry
  split
  · next hr => exact keeps_fault h (.inr hr.1)
  · exact h

/-- The idle hold runs out with every lane FREE (R99). -/
theorem keeps_idleExpiry : Keeps k b s (idleExpiry t) := by
  unfold idleExpiry
  split
  · next hr =>
    refine keeps_stopFrame (keeps_ask ⟨KeepsCore.upd h.core, fun e => ?_⟩ _)
    have g := (panelLaw_iff t).1 (h.panel e)
    have hf := (g.2.1.resolve_left fun x => x hr.1).resolve_left hr.2
    rw [panelLaw_iff]
    refine ⟨.inr fun l m => by rw [hf l m]; nofun, .inl nofun, .inl (g.2.2.resolve_right fun y => ?_)⟩
    rw [hr.1] at y
    exact nomatch y.2
  · exact h

theorem keeps_fallExpiry : Keeps k b s (fallExpiry t) := by
  unfold fallExpiry
  split
  · next hr => exact keeps_enterOff h.upd (by rw [hr.1]; nofun)
  · exact h

theorem keeps_holdExpiry : Keeps k b s (holdExpiry t) := by
  unfold holdExpiry
  split
  · next hr =>
    have c : Keeps k b s { t with pss.holdTimer := none } := h.upd
    dsimp only
    split
    · refine keeps_enterRising c (by rw [hr.1]; nofun) fun e => ?_
      have g := (panelLaw_iff t).1 (h.panel e)
      rw [hr.1] at g
      exact g.2.2.resolve_right fun x => nomatch x.2
    · exact keeps_enterOff c (by rw [hr.1]; nofun)
  · exact h

theorem keeps_cancelWaitingTurn : Keeps k b s (cancelWaitingTurn t) := by
  unfold cancelWaitingTurn
  try dsimp only
  repeat' first
    | rfl
    | assumption
    | with_reducible apply keeps_turnEnd
    | split

theorem keeps_cancelWaitingImage : Keeps k b s (cancelWaitingImage t) := by
  unfold cancelWaitingImage
  try dsimp only
  repeat' first
    | rfl
    | assumption
    | split
    | with_reducible refine Keeps.upd ?_

theorem keeps_quiesceLimit : Keeps k b s (quiesceLimit t) := by
  unfold quiesceLimit
  try dsimp only
  repeat' first
    | rfl
    | assumption
    | with_reducible apply keeps_abandonTest
    | with_reducible apply keeps_endAllWaiting
    | with_reducible apply keeps_abortLanes
    | with_reducible apply keeps_cancelWaitingTurn
    | with_reducible apply keeps_cancelWaitingImage
    | split
    | with_reducible refine Keeps.upd ?_

/-! ### Scan.lean -/

omit h in
theorem keeps_assignRows : ∀ (n : Nat) {t : State} (_ : Keeps k b s t), Keeps k b s (assignRows n t)
  | 0, _, h => h
  | n + 1, t, h => by
    unfold assignRows
    split
    · exact h
    · split
      · exact keeps_assignRows n h.upd
      · split
        · exact h.upd
        · exact h

theorem keeps_assignSlots : Keeps k b s (assignSlots t) := by
  unfold assignSlots
  try dsimp only
  repeat' first
    | rfl
    | assumption
    | with_reducible apply keeps_assignRows
    | split

theorem keeps_beginLine : Keeps k b s (beginLine t) := by
  unfold beginLine
  try dsimp only
  repeat' first
    | rfl
    | assumption
    | split
    | with_reducible refine Keeps.upd ?_

theorem keeps_rowDue (a1 : Nat) : Keeps k b s (rowDue a1 t) := by
  unfold rowDue
  try dsimp only
  repeat' first
    | rfl
    | assumption
    | with_reducible apply keeps_scan
    | with_reducible apply keeps_beginLine
    | split
    | with_reducible refine Keeps.upd ?_

theorem keeps_blankLine (a1 : Nat) : Keeps k b s (blankLine a1 t) := by
  unfold blankLine
  try dsimp only
  repeat' first
    | rfl
    | assumption
    | with_reducible apply keeps_rowDue
    | split
    | with_reducible refine Keeps.upd ?_

theorem keeps_setRow (a1 : Nat) (a2 : LineSlot → LineSlot) : Keeps k b s (setRow a1 a2 t) := by
  unfold setRow
  try dsimp only
  repeat' first
    | rfl
    | assumption
    | split
    | with_reducible refine Keeps.upd ?_

theorem keeps_releaseLine (a1 : Nat) : Keeps k b s (releaseLine a1 t) := by
  unfold releaseLine
  try dsimp only
  repeat' first
    | rfl
    | assumption
    | with_reducible apply keeps_beginLine
    | split

theorem keeps_slotFilled (a1 : Nat) : Keeps k b s (slotFilled a1 t) := by
  unfold slotFilled
  try dsimp only
  repeat' first
    | rfl
    | assumption
    | with_reducible apply keeps_ask
    | with_reducible apply keeps_beginLine
    | with_reducible apply keeps_setRow
    | split
    | with_reducible refine Keeps.upd ?_

theorem keeps_giveUpRow (a1 : Nat) : Keeps k b s (giveUpRow a1 t) := by
  unfold giveUpRow
  try dsimp only
  repeat' first
    | rfl
    | assumption
    | with_reducible apply keeps_ask
    | with_reducible apply keeps_setUncertain
    | with_reducible apply keeps_assignSlots
    | with_reducible apply keeps_setRow
    | with_reducible apply keeps_releaseLine
    | split
    | with_reducible refine Keeps.upd ?_

theorem keeps_scanOkay (a1 : List Byte) : Keeps k b s (scanOkay a1 t) := by
  unfold scanOkay
  try dsimp only
  repeat' first
    | rfl
    | assumption
    | with_reducible apply keeps_assignSlots
    | with_reducible apply keeps_setRow
    | with_reducible apply keeps_slotFilled
    | split

theorem keeps_scanFail : Keeps k b s (scanFail t) := by
  unfold scanFail
  try dsimp only
  repeat' first
    | rfl
    | assumption
    | with_reducible apply keeps_giveUpRow
    | split

theorem keeps_stretchExpiry : Keeps k b s (stretchExpiry t) := by
  unfold stretchExpiry
  try dsimp only
  repeat' first
    | rfl
    | assumption
    | with_reducible apply keeps_giveUpBurst
    | with_reducible apply keeps_scan
    | with_reducible apply keeps_giveUpRow
    | split

omit h in
theorem drive_state (l : Lane) : (Lane.drive l).state = if l.armed then .driving else l.state := by
  unfold Lane.drive
  split <;> rfl

/-- A frame starts only in ON, with some lane not FREE (R87). -/
theorem keeps_frameStart : Keeps k b s (frameStart t) := by
  unfold frameStart
  split
  · next hr =>
    refine keeps_blankLine (keeps_assignSlots ⟨KeepsCore.upd h.core, fun e => ?_⟩) _
    have g := (panelLaw_iff t).1 (h.panel e)
    simp only [frameReady, Bool.and_eq_true, beq_iff_eq] at hr
    obtain ⟨l, m, hl⟩ := List.any_eq_true.1 hr.2
    have nf : ¬∀ l ∈ t.upe.lanes, l.state = .free := by
      intro a
      have := a l m
      simp [Lane.armed, this] at hl
    rw [panelLaw_iff]
    exact ⟨.inl hr.1.2, .inr (.inl ((g.2.1.resolve_left fun x => x hr.1.2).resolve_right nf)),
      .inl (g.2.2.resolve_right fun x => nf x.1)⟩
  · exact h

/-- At a frame end no lane becomes DRIVING (R71). -/
theorem keeps_frameEnd : Keeps k b s (frameEnd t) := by
  refine keeps_mapLanes (u := frameEnd t) (f := Lane.advance) h (KeepsCore.upd h.core) rfl rfl rfl rfl ?_ ?_
  · intro l e
    unfold Lane.advance at e
    split at e
    · assumption
    · exact e
  · intro l e
    unfold Lane.advance
    rw [if_neg (by rw [e]; nofun)]
    exact e

theorem keeps_rowEnd : Keeps k b s (rowEnd t) := by
  unfold rowEnd
  try dsimp only
  repeat' first
    | rfl
    | assumption
    | with_reducible apply keeps_assignSlots
    | with_reducible apply keeps_rowDue
    | with_reducible apply keeps_frameEnd
    | split
    | with_reducible refine Keeps.upd ?_

theorem keeps_lineTimeEnd : Keeps k b s (lineTimeEnd t) := by
  unfold lineTimeEnd
  try dsimp only
  repeat' first
    | rfl
    | assumption
    | with_reducible apply keeps_scan
    | with_reducible apply keeps_blankLine
    | with_reducible apply keeps_rowEnd
    | split

end Sys2Proof.Machine
end

