-- ==== Sys2Proof/Laws/KeepsStation.lean ====
section
/-! SUPPORT. The effects of the Station Interface keep what `Keeps` says, but for a BASE write and an ACK; a settings load keeps all but the settings. -/

set_option Elab.async false

namespace Sys2Proof.Machine

variable {k b : Bool} {s t u : State} (h : Keeps k b s t)
include h



theorem keeps_remember (a1 : Chain) : Keeps k b s (remember a1 t) := by
  unfold remember
  try dsimp only
  repeat' first
    | rfl
    | assumption
    | with_reducible apply keeps_setChain

theorem keeps_walkNamed (c : Chain) : Keeps k b s (walkNamed t c) := by
  unfold walkNamed
  repeat' split
  all_goals first | exact h | exact keeps_beginWalk h _ | exact keeps_remember h _

theorem keeps_writeWalk (v : Word) : Keeps k b s (writeWalk v t) := keeps_foldl _ (fun _ x g => keeps_walkNamed g x) _ h



theorem keeps_walkOn (a1 : Chain) : Keeps k b s (walkOn a1 t) := by
  unfold walkOn
  try dsimp only
  repeat' first
    | rfl
    | assumption
    | with_reducible apply keeps_setChain
    | with_reducible apply keeps_joinStation
    | split

theorem keeps_walkEnd (a1 : Chain) : Keeps k b s (walkEnd a1 t) := by
  unfold walkEnd
  try dsimp only
  repeat' first
    | rfl
    | assumption
    | with_reducible apply keeps_setChain
    | with_reducible apply keeps_beginWalk
    | split

theorem keeps_walkDecline (a1 : Chain) (a2 : Decline) : Keeps k b s (walkDecline a1 a2 t) := by
  unfold walkDecline
  try dsimp only
  repeat' first
    | rfl
    | assumption
    | with_reducible apply keeps_setChain

theorem keeps_moveCursor (a1 : Chain) (a2 : Nat) : Keeps k b s (moveCursor a1 a2 t) := by
  unfold moveCursor
  try dsimp only
  repeat' first
    | rfl
    | assumption
    | with_reducible apply keeps_setChain

theorem keeps_refuse (a1 : Chain) (a2 : Nat) (a3 : Code) : Keeps k b s (refuse a1 a2 a3 t) := by
  unfold refuse
  try dsimp only
  repeat' first
    | rfl
    | assumption
    | with_reducible apply keeps_finalize
    | with_reducible apply keeps_moveCursor

theorem keeps_linkRead (a1 : Chain) (a2 : Nat) : Keeps k b s (linkRead a1 a2 t) := by
  unfold linkRead
  try dsimp only
  repeat' first
    | rfl
    | assumption
    | with_reducible apply keeps_setChain
    | with_reducible apply keeps_joinStation
    | with_reducible apply keeps_reportWindow
    | with_reducible apply keeps_walkEnd
    | split

theorem keeps_reserve (a1 : Kind) : Keeps k b s (reserve a1 t) := by
  unfold reserve
  try dsimp only
  repeat' first
    | rfl
    | assumption
    | split
    | with_reducible refine Keeps.upd ?_

theorem keeps_unreserve (a1 : Option Kind) : Keeps k b s (unreserve a1 t) := by
  unfold unreserve
  try dsimp only
  repeat' first
    | rfl
    | assumption
    | split
    | with_reducible refine Keeps.upd ?_

theorem keeps_readBody (a1 : Chain) (a2 : Nat) (a3 : Kind) (a4 : List Byte) : Keeps k b s (readBody a1 a2 a3 a4 t) := by
  unfold readBody
  try dsimp only
  repeat' first
    | rfl
    | assumption
    | with_reducible apply keeps_setChain
    | with_reducible apply keeps_joinStation
    | split

theorem keeps_judgeRecord (a1 : Chain) (a2 : Nat) (a3 : List Byte) : Keeps k b s (judgeRecord a1 a2 a3 t) := by
  unfold judgeRecord
  try dsimp only
  repeat' first
    | rfl
    | assumption
    | with_reducible apply keeps_walkOn
    | with_reducible apply keeps_walkEnd
    | with_reducible apply keeps_walkDecline
    | with_reducible apply keeps_refuse
    | with_reducible apply keeps_reserve
    | with_reducible apply keeps_readBody
    | split

theorem keeps_bodyFail (a1 : Chain) (a2 : Nat) (a3 : List Byte) (a4 : Code) : Keeps k b s (bodyFail a1 a2 a3 a4 t) := by
  unfold bodyFail
  try dsimp only
  repeat' first
    | rfl
    | assumption
    | with_reducible apply keeps_walkOn
    | with_reducible apply keeps_refuse
    | with_reducible apply keeps_unreserve

theorem keeps_walkOkay (a1 : Chain) (a2 : List Byte) : Keeps k b s (walkOkay a1 a2 t) := by
  unfold walkOkay
  try dsimp only
  repeat' first
    | rfl
    | assumption
    | with_reducible apply keeps_setChain
    | with_reducible apply keeps_joinStation
    | with_reducible apply keeps_walkOn
    | with_reducible apply keeps_linkRead
    | with_reducible apply keeps_judgeRecord
    | split

theorem keeps_walkFail (a1 : Chain) (a2 : Code) : Keeps k b s (walkFail a1 a2 t) := by
  unfold walkFail
  try dsimp only
  repeat' first
    | rfl
    | assumption
    | with_reducible apply keeps_walkOn
    | with_reducible apply keeps_walkEnd
    | with_reducible apply keeps_bodyFail
    | split

theorem keeps_chainWalkBegin (a1 : Chain) : Keeps k b s (chainWalkBegin a1 t) := by
  unfold chainWalkBegin
  try dsimp only
  repeat' first
    | rfl
    | assumption
    | with_reducible apply keeps_chainState
    | with_reducible apply keeps_beginWalk
    | split

theorem keeps_markTaken (a1 : Chain) (a2 : Nat) : Keeps k b s (markTaken a1 a2 t) := by
  unfold markTaken
  try dsimp only
  repeat' first
    | rfl
    | assumption
    | with_reducible apply keeps_setChain
    | with_reducible apply keeps_joinStation

theorem keeps_takeRecord (c : Kind) (owner : Nat → List Byte → State → State)
    (ho : ∀ r x {t}, Keeps k b s t → Keeps k b s (owner r x t)) : Keeps k b s (takeRecord c owner t) := by
  unfold takeRecord
  split
  · exact ho _ _ (keeps_markTaken h _ _)
  · exact h

theorem keeps_takeStaged (c : Kind) (owner : Nat → List Byte → State → State)
    (ho : ∀ r x {t}, Keeps k b s t → Keeps k b s (owner r x t)) : Keeps k b s (takeStaged c owner t) := by
  unfold takeStaged
  split
  · exact keeps_walkDecline h _ _
  · exact keeps_takeRecord h _ _ ho

theorem keeps_takeAwake (c : Kind) (owner : Nat → List Byte → State → State)
    (ho : ∀ r x {t}, Keeps k b s t → Keeps k b s (owner r x t)) : Keeps k b s (takeAwake c owner t) := by
  unfold takeAwake
  split <;> first
    | exact h
    | exact keeps_takeRecord h _ _ ho

theorem keeps_takeInRun (c : Kind) (owner : Nat → List Byte → State → State)
    (ho : ∀ r x {t}, Keeps k b s t → Keeps k b s (owner r x t)) : Keeps k b s (takeInRun c owner t) := by
  unfold takeInRun
  split
  · exact keeps_takeRecord h _ _ ho
  · exact h

theorem keeps_refuseWave (a1 : Nat) (a2 : Nat) (a3 : Nat) (a4 : Code) : Keeps k b s (refuseWave a1 a2 a3 a4 t) :=
  keeps_finalize (keeps_takeFreeByte (keeps_takeFreeByte h)) _ _ _ _

theorem keeps_takeWaveform (a1 : Nat) (a2 : List Byte) : Keeps k b s (takeWaveform a1 a2 t) := by
  unfold takeWaveform
  try dsimp only
  repeat' first
    | rfl
    | assumption
    | with_reducible apply keeps_joinWave
    | with_reducible apply keeps_refuseWave
    | split
    | with_reducible refine Keeps.upd ?_

theorem keeps_judgeImage (a1 : HeaderCheck) (a2 : List Byte) : Keeps k b s (judgeImage a1 a2 t) := by
  unfold judgeImage
  try dsimp only
  repeat' first
    | rfl
    | assumption
    | with_reducible apply keeps_finalize
    | with_reducible apply keeps_acceptImage
    | with_reducible apply keeps_scan
    | with_reducible apply keeps_refuseWave
    | split

theorem keeps_headerOkay (a1 : List Byte) : Keeps k b s (headerOkay a1 t) := by
  unfold headerOkay
  try dsimp only
  repeat' first
    | rfl
    | assumption
    | with_reducible apply keeps_joinWave
    | with_reducible apply keeps_judgeImage
    | split
    | with_reducible refine Keeps.upd ?_

theorem keeps_headerFail (a1 : Bool) : Keeps k b s (headerFail a1 t) := by
  unfold headerFail
  try dsimp only
  repeat' first
    | rfl
    | assumption
    | with_reducible apply keeps_refuseWave
    | split
    | with_reducible refine Keeps.upd ?_

theorem keeps_loadSettings (a1 : LoadBy) : Keeps k b s (loadSettings a1 t) := by
  unfold loadSettings
  try dsimp only
  repeat' first
    | rfl
    | assumption
    | with_reducible apply keeps_joinStation
    | split
    | with_reducible refine Keeps.upd ?_

theorem keeps_takeSettings (a1 : Nat) (a2 : List Byte) : Keeps k b s (takeSettings a1 a2 t) := by
  unfold takeSettings
  try dsimp only
  repeat' first
    | rfl
    | assumption
    | with_reducible apply keeps_loadSettings
    | split
    | with_reducible refine Keeps.upd ?_

theorem keeps_nextLoad : Keeps k b s (nextLoad t) := by
  unfold nextLoad
  try dsimp only
  repeat' first
    | rfl
    | assumption
    | with_reducible apply keeps_loadSettings
    | split
    | with_reducible refine Keeps.upd ?_

theorem keeps_loadFailed (a1 : LoadBy) (a2 : Nat) : Keeps k b s (loadFailed a1 a2 t) := by
  unfold loadFailed
  split
  · exact keeps_setPart h.upd _ (by decide)
  · exact keeps_finalize h _ _ _ _

theorem keeps_endSettings (a1 : Nat) (a2 : Code) : Keeps k b s (endSettings a1 a2 t) :=
  keeps_finalize (keeps_takeFreeOffset h) _ _ _ _

omit h in
theorem Keeps.weaken (h : Keeps k b s t) : Keeps false b s t :=
  ⟨⟨h.core.pending, h.core.mem, h.core.time, h.core.base, h.core.acked, h.core.burst, h.core.capture, nofun, h.core.int,
    h.core.turns, h.core.files⟩, h.panel⟩

/-- New settings are held: everything but the settings is kept. -/
theorem keeps_holdSettings (n : Settings) : Keeps false b s (holdSettings n t) := by
  have c : ∀ u : State, Keeps false b { t with sif.mask := BitVec.ofNat 12 n.mask } u → Keeps false b s (evalInt u) :=
    fun u g => keeps_evalInt h.weaken (p := t.sif.posted) g
  have r : Keeps false b { t with sif.mask := BitVec.ofNat 12 n.mask } { t with sif.mask := BitVec.ofNat 12 n.mask } :=
    Keeps.refl
  unfold holdSettings
  dsimp only
  refine keeps_markAged (c _ ?_)
  split
  · exact r.upd (h1 := fun e => absurd e (by decide))
  · exact r.upd (h1 := fun e => absurd e (by decide))

theorem keeps_repolarize (a1 a2 : Settings) (i : Nat) : Keeps k b s (repolarize a1 a2 t i) := by
  unfold repolarize
  split
  · exact h
  · exact keeps_linePolarity h _

theorem keeps_resize (a1 a2 : Settings) : Keeps k b s (resize a1 a2 t) := by
  have c : Keeps k b s { t with upe.current := none, ktu.forward := [], ktu.backward := [] } := by
    refine ⟨h.core.trans ⟨rfl, rfl, rfl, rfl, rfl, fun _ => rfl, fun _ => rfl, fun _ => rfl, id, fun e => ?_, fun _ => id⟩,
      fun e => h.panel e⟩
    have g := (turnLaw_iff t).1 e
    exact (turnLaw_iff _).2 ⟨g.1, g.2.1, Nat.zero_le _, Nat.zero_le _, g.2.2.2.2⟩
  unfold resize
  dsimp only
  repeat' split
  · exact c
  · exact keeps_ask c _
  · exact h

theorem keeps_regeometry (a1 : Settings) (a2 : Settings) : Keeps k b s (regeometry a1 a2 t) := by
  unfold regeometry
  try dsimp only
  repeat' first
    | rfl
    | assumption
    | with_reducible apply keeps_setUncertain
    | with_reducible apply keeps_requestSweep
    | with_reducible apply keeps_resize
    | split

theorem keeps_leaveLocked : Keeps k b s (leaveLocked t) := by
  unfold leaveLocked
  split
  · next hr => exact keeps_forcedRest (keeps_enterOff h.upd (by rw [hr]; nofun))
  · exact h

theorem keeps_applyRequest (a1 : Nat) (a2 : Settings) : Keeps false b s (applyRequest a1 a2 t) := by
  unfold applyRequest
  dsimp only
  have c := keeps_foldl (repolarize t.cfg a2) (fun _ i g => keeps_repolarize g _ _ i) (List.range 4) (keeps_holdSettings h a2)
  refine keeps_leaveLocked (keeps_endSettings (keeps_regeometry ?_ _ _) _ _)
  split
  · exact c
  · exact keeps_setCeiling c

theorem keeps_startSweep : Keeps k b s (startSweep t) := by
  unfold startSweep
  try dsimp only
  repeat' first
    | rfl
    | assumption
    | with_reducible apply keeps_beginPass

theorem keeps_startCeiling : Keeps k b s (startCeiling t) := by
  unfold startCeiling
  try dsimp only
  repeat' first
    | rfl
    | assumption
    | with_reducible apply keeps_ask
    | split
    | with_reducible refine Keeps.upd ?_

theorem keeps_applyStart (a1 : Settings) : Keeps false b s (applyStart a1 t) :=
  keeps_startSweep (keeps_startRequester (keeps_startCeiling
    (keeps_foldl _ (fun _ i g => keeps_lineBounce g i) _ (keeps_holdSettings h a1))))

theorem keeps_judgeSettings (a1 : LoadBy) (a2 : List Byte) : Keeps false b s (judgeSettings a1 a2 t) := by
  unfold judgeSettings
  dsimp only
  repeat' split
  · exact (keeps_loadFailed h _ _).weaken
  · exact keeps_applyStart h _
  · exact (keeps_endSettings h _ _).weaken
  · exact keeps_applyRequest h _ _

theorem keeps_settingsOkay (a1 : List Byte) : Keeps false b s (settingsOkay a1 t) := by
  unfold settingsOkay
  repeat' split
  · exact h.weaken
  · exact (keeps_joinStation h.upd _).weaken
  · exact keeps_nextLoad (keeps_judgeSettings h.upd _ _)

theorem keeps_settingsFail : Keeps k b s (settingsFail t) := by
  unfold settingsFail
  try dsimp only
  repeat' first
    | rfl
    | assumption
    | with_reducible apply keeps_nextLoad
    | with_reducible apply keeps_loadFailed
    | split
    | with_reducible refine Keeps.upd ?_

theorem keeps_acceptStart : Keeps k b s (acceptStart t) := by
  unfold acceptStart
  split
  · exact keeps_loadSettings (keeps_setPart h.upd _ (by decide)) _
  · exact h

end Sys2Proof.Machine
end

