-- ==== Sys2Proof/Laws/KeepsPort.lean ====
section
/-! SUPPORT. What the port and the commands of Commands.lean keep: every completion and every grant is in `Keeps`. -/

set_option Elab.async false

namespace Sys2Proof.Machine

variable {k b : Bool} {s t u : State} (h : Keeps k b s t)
include h

theorem keeps_fillStatus (x : Burst) : Keeps k b s (fillStatus x t).2 := by
  unfold fillStatus
  dsimp only
  repeat' split
  all_goals first | exact h | exact (keeps_setWriter h _ _).upd

theorem keeps_fillStatus_eq (a1 : Burst) {r : Burst} (e : fillStatus a1 t = (r, u)) : Keeps k b s u := by
  have g := keeps_fillStatus h a1
  rw [e] at g
  exact g

theorem keeps_pumpScan : Keeps k b s (pumpScan t) := by
  unfold pumpScan
  try dsimp only
  repeat' first
    | rfl
    | assumption
    | with_reducible apply keeps_scan
    | with_reducible apply keeps_setRow
    | split
    | with_reducible refine Keeps.upd ?_

theorem keeps_pumpPixel : Keeps k b s (pumpPixel t) := by
  unfold pumpPixel
  try dsimp only
  repeat' first
    | rfl
    | assumption
    | split
    | with_reducible refine Keeps.upd ?_

theorem keeps_pumpDownload : Keeps k b s (pumpDownload t) := by
  unfold pumpDownload
  split
  · exact h
  · split
    · exact h
    · next d hd =>
      split
      · exact h
      · exact h.upd (h18 := by simp only [Dlc.table, hd, Option.map_some])

theorem keeps_pumpVerify : Keeps k b s (pumpVerify t) := by
  unfold pumpVerify
  split
  · exact h
  · split
    · exact h
    · next v hv =>
      dsimp only
      split
      · exact h
      · exact h.upd (h18 := by simp only [Dlc.table, hv, Option.map_some])

theorem keeps_pump : Keeps k b s (pump t) := by
  unfold pump
  try dsimp only
  repeat' first
    | rfl
    | assumption
    | with_reducible apply keeps_pumpScan
    | with_reducible apply keeps_pumpPixel
    | with_reducible apply keeps_pumpDownload
    | with_reducible apply keeps_pumpVerify

theorem keeps_takeWaiting (c : Client) : Keeps k b s (takeWaiting c t) := by
  cases c <;> exact h.upd

theorem keeps_loadOkay (a1 : Nat) (a2 : List Byte) : Keeps k b s (loadOkay a1 a2 t) := by
  unfold loadOkay
  try dsimp only
  repeat' first
    | rfl
    | assumption
    | with_reducible apply keeps_setStore
    | with_reducible apply keeps_reportFree
    | with_reducible apply keeps_reportLoadEnd
    | with_reducible apply keeps_reported
    | with_reducible apply keeps_joinWave
    | split

theorem keeps_loadFail (a1 : Nat) (a2 : Code) : Keeps k b s (loadFail a1 a2 t) := by
  unfold loadFail
  try dsimp only
  repeat' first
    | rfl
    | assumption
    | with_reducible apply keeps_setStore
    | with_reducible apply keeps_reportFree
    | with_reducible apply keeps_reportLoadEnd
    | with_reducible apply keeps_failHolder

theorem keeps_statusDone (a1 : StatusUser) (a2 : Bool) : Keeps k b s (statusDone a1 a2 t) := by
  unfold statusDone
  split
  · exact keeps_writerNext (keeps_contextDone h _) _ _
  · exact keeps_writerNext h _ _

/-- A user's OKAY keeps everything; only a settings load's changes the held settings. -/
theorem keeps_userOkay (a1 : User) (a2 : List Byte) (hk : k = true → a1 ≠ .settings) : Keeps k b s (userOkay a1 a2 t) := by
  unfold userOkay
  split
  · exact keeps_scanOkay h _
  · exact keeps_passOkay h _
  · exact keeps_dispatchNext h
  · exact keeps_verifyNext h _
  · exact keeps_headerOkay h _
  · exact keeps_loadOkay h _ _
  · exact keeps_walkOkay h _ _
  · cases k
    · exact keeps_settingsOkay h _
    · exact absurd rfl (hk rfl)
  · exact keeps_resumeNext h _ _
  · exact keeps_finalizerNext h
  · exact keeps_statusDone h _ _

theorem keeps_userFail (a1 : User) (a2 : Answer) : Keeps k b s (userFail a1 a2 t) := by
  unfold userFail
  try dsimp only
  repeat' first
    | rfl
    | assumption
    | with_reducible apply keeps_finalizerNext
    | with_reducible apply keeps_resumeNext
    | with_reducible apply keeps_dispatchFail
    | with_reducible apply keeps_verifyFail
    | with_reducible apply keeps_scan
    | with_reducible apply keeps_passFail
    | with_reducible apply keeps_scanFail
    | with_reducible apply keeps_walkFail
    | with_reducible apply keeps_headerFail
    | with_reducible apply keeps_settingsFail
    | with_reducible apply keeps_loadFail
    | with_reducible apply keeps_statusDone
    | split

theorem keeps_complete (a1 : Burst) (a2 : Answer) (a3 : List Byte) (hk : k = true → a2 = .okay → a1.user ≠ .settings) :
    Keeps k b s (complete a1 a2 a3 t) := by
  unfold complete
  split
  · split
    · next e => exact keeps_userOkay h _ _ fun x => hk x e
    · exact keeps_userFail h _ _
  · exact h

theorem keeps_portIdle : Keeps k b s (portIdle t) := by
  unfold portIdle
  split
  · exact keeps_enterRest h
  · exact keeps_restTurnSleep h

omit h in
/-- The grants that follow a command keep everything but the burst in flight. -/
theorem keeps_grants (n : Nat) : ∀ {t : State}, Keeps k false s t → Keeps k false s (grants n t) := by
  induction n with
  | zero => exact fun h => h
  | succ n ih =>
    intro t h
    have p := keeps_pump h
    unfold grants
    dsimp only
    repeat' split
    · exact p
    · exact ih (keeps_portIdle p)
    · exact p
    · next c _ _ _ w _ _ _ =>
      have g : Keeps k false s (fillStatus w (takeWaiting c (pump t))).2 := keeps_fillStatus (keeps_takeWaiting p c) w
      exact g.upd (h7 := fun e => absurd e (by decide))
    · next c _ _ _ w _ _ _ =>
      have g : Keeps k false s (fillStatus w (takeWaiting c (pump t))).2 := keeps_fillStatus (keeps_takeWaiting p c) w
      exact ih (keeps_complete (keeps_reportWindow g _ _ _ _) _ .window [] fun _ e => Answer.noConfusion e)
    · exact p
    · exact p

omit h in
theorem keeps_portGrants {t : State} (h : Keeps k false s t) : Keeps k false s (portGrants t) := keeps_grants _ h













theorem keeps_waitAgain (x : Burst) : Keeps k b s (waitAgain x t) := by
  unfold waitAgain
  split <;> exact h.upd



/-! ### Commands.lean -/

theorem keeps_keyLevel (a1 : Nat) (a2 : Bool) : Keeps k b s (keyLevel a1 a2 t) := by
  unfold keyLevel
  try dsimp only
  repeat' first
    | rfl
    | assumption
    | with_reducible apply keeps_setLine
    | with_reducible apply keeps_lineChanged
    | split

theorem keeps_debounceEnd (a1 : Nat) : Keeps k b s (debounceEnd a1 t) := by
  unfold debounceEnd
  try dsimp only
  repeat' first
    | rfl
    | assumption
    | with_reducible apply keeps_setLine
    | with_reducible apply keeps_confirmPress
    | with_reducible apply keeps_handlePresses
    | split

theorem keeps_temperatureEnd (a1 : Nat) : Keeps k b s (temperatureEnd a1 t) := by
  unfold temperatureEnd
  try dsimp only
  repeat' first
    | rfl
    | assumption
    | with_reducible apply keeps_askMeasure
    | with_reducible apply keeps_adcKick
    | with_reducible apply keeps_sampleDone
    | split
    | with_reducible refine Keeps.upd ?_

theorem keeps_batteryEnd (a1 : Nat) : Keeps k b s (batteryEnd a1 t) := by
  unfold batteryEnd
  try dsimp only
  repeat' first
    | rfl
    | assumption
    | with_reducible apply keeps_post
    | with_reducible apply keeps_askMeasure
    | with_reducible apply keeps_adcKick
    | with_reducible apply keeps_supplyReport
    | split
    | with_reducible refine Keeps.upd ?_

theorem keeps_conversionEnd (a1 : Nat) : Keeps k b s (conversionEnd a1 t) := by
  unfold conversionEnd
  try dsimp only
  repeat' first
    | rfl
    | assumption
    | with_reducible apply keeps_temperatureEnd
    | with_reducible apply keeps_batteryEnd
    | split

theorem keeps_batteryExpiry : Keeps k b s (batteryExpiry t) := by
  unfold batteryExpiry
  try dsimp only
  repeat' first
    | rfl
    | assumption
    | with_reducible apply keeps_requestBattery
    | split
    | with_reducible refine Keeps.upd ?_

theorem keeps_temperatureExpiry : Keeps k b s (temperatureExpiry t) := by
  unfold temperatureExpiry
  try dsimp only
  repeat' first
    | rfl
    | assumption
    | with_reducible apply keeps_requestTemp
    | split
    | with_reducible refine Keeps.upd ?_

theorem keeps_imageRetry : Keeps k b s (imageRetry t) := by
  unfold imageRetry
  try dsimp only
  repeat' first
    | rfl
    | assumption
    | with_reducible apply keeps_appendImage
    | split

theorem keeps_restExpiry : Keeps k b s (restExpiry t) := by
  unfold restExpiry
  try dsimp only
  repeat' first
    | rfl
    | assumption
    | with_reducible apply keeps_wakeCause
    | split
    | with_reducible refine Keeps.upd ?_

end Sys2Proof.Machine
end

