-- ==== Sys2Proof/Laws/Exec.lean ====
section
/-! SUPPORT. Every command but the interconnect's answers, ACK, the BASE write and the resets is in `Keeps` up to the burst in flight, and what the answers do before they complete. -/

set_option Elab.async false

namespace Sys2Proof.Machine

/-- The commands whose effect is in `Keeps` as a whole. -/
def plainCommand : Instr → Bool
  | .softReset | .powerOnReset | .baseWrite _ | .ack _ | .burstOkay _ | .burstRetry _ | .burstError _ => false
  | _ => true

theorem done_keeps {s t : State} (h : Keeps true false s t) : ∃ u, done t = .next u ∧ Keeps true false s u :=
  ⟨_, rfl, keeps_portGrants h⟩

/-- A plain command answers a next state that keeps. -/
theorem exec_keeps (c : Instr) (s : State) (hc : plainCommand c = true) :
    ∃ t, exec c s = .next t ∧ Keeps true false s t := by
  have r : Keeps true false s s := Keeps.refl
  cases c with
  | softReset | powerOnReset | baseWrite | ack | burstOkay | burstRetry | burstError => simp [plainCommand] at hc
  | start => exact done_keeps (keeps_acceptStart r)
  | walk v => exact done_keeps (keeps_writeWalk r v)
  | chainWalkBegin c => exact done_keeps (keeps_chainWalkBegin r c)
  | update => exact done_keeps (keeps_takeAwake r _ _ fun a b _ h => keeps_takeUpdate h a b)
  | stage => exact done_keeps (keeps_takeStaged r _ _ fun a b _ h => keeps_takeStage h a b)
  | unstage => exact done_keeps (keeps_takeStaged r _ _ fun a b _ h => keeps_takeUnstage h a b)
  | waveform => exact done_keeps (keeps_takeInRun r _ _ fun a b _ h => keeps_takeWaveform h a b)
  | light => exact done_keeps (keeps_takeInRun r _ _ fun a b _ h => keeps_takeLight h a b)
  | rest => exact done_keeps (keeps_takeInRun r _ _ fun a b _ h => keeps_takeRest h a b)
  | settings => exact done_keeps (keeps_takeInRun r _ _ fun a b _ h => keeps_takeSettings h a b)
  | turnsSeen => exact done_keeps (keeps_takeInRun r _ _ fun a b _ h => keeps_takeTurnsSeen h a b)
  | openFile => exact done_keeps (keeps_takeAwake r _ _ fun a b _ h => keeps_takeOpen h a b)
  | closeFile => exact done_keeps (keeps_takeRecord r _ _ fun a b _ h => keeps_takeClose h a b)
  | admission => exact done_keeps (keeps_admission r)
  | storeLookupRetry => exact done_keeps (keeps_storeRetry r)
  | retirePassBegin => exact done_keeps (keeps_retireBegin r)
  | frameStart => exact done_keeps (keeps_frameStart r)
  | lineTimeEnd => exact done_keeps (keeps_lineTimeEnd r)
  | stretchLimitExpiry => exact done_keeps (keeps_stretchExpiry r)
  | railGoodAsserted => exact done_keeps (keeps_goodAsserted r)
  | railGoodDeasserted => exact done_keeps (keeps_goodDeasserted r)
  | riseTimeout => exact done_keeps (keeps_riseExpiry r)
  | idleHoldExpiry => exact done_keeps (keeps_idleExpiry r)
  | fallTimerExpiry => exact done_keeps (keeps_fallExpiry r)
  | faultHoldExpiry => exact done_keeps (keeps_holdExpiry r)
  | keyLineChange i b => exact done_keeps (keeps_keyLevel r i b)
  | debounceExpiry i => exact done_keeps (keeps_debounceEnd r i)
  | turnAppendRetry =>
    refine done_keeps ?_
    split
    · exact keeps_turnAppend r
    · exact r
  | rampTick => exact done_keeps (keeps_rampTick r)
  | periodBoundary => exact ⟨_, rfl, r.upd⟩
  | highPhaseEnd g => cases g <;> exact ⟨_, rfl, r.upd⟩
  | chunkFrame l => exact done_keeps (keeps_recvBytes r l)
  | lselInactive => exact done_keeps (keeps_lselOff r)
  | dispatchBegin => exact done_keeps (keeps_dispatchBegin r)
  | stallTimerExpiry i => exact done_keeps (keeps_stallExpiry r i)
  | verifyPassBegin => exact done_keeps (keeps_verifyBegin r)
  | downloadsStopped => exact done_keeps (keeps_downloadsStop r)
  | adcConversionEnd n => exact done_keeps (keeps_conversionEnd r n.toNat)
  | batteryTimerExpiry => exact done_keeps (keeps_batteryExpiry r)
  | temperatureTimerExpiry => exact done_keeps (keeps_temperatureExpiry r)
  | temperatureAgedOut => exact done_keeps (keeps_markAged r)
  | restImageAppendRetry => exact done_keeps (keeps_imageRetry r)
  | quiesceLimit => exact done_keeps (keeps_quiesceLimit r)
  | drainComplete => exact done_keeps (keeps_drainBegin r)
  | enterRest => exact done_keeps (keeps_enterRest r)
  | sleepAckAsserted => exact done_keeps (keeps_ackAsserted r)
  | sleepAckDeasserted => exact done_keeps (keeps_ackDeasserted r)
  | memoryTimerExpiry => exact done_keeps (keeps_memoryExpiry r)
  | restTimerExpiry => exact done_keeps (keeps_restExpiry r)
  | restTurnSleep => exact done_keeps (keeps_restTurnSleep r)

/-! ### The answers, up to main memory and the burst in flight -/

/-- The state an answer's completion begins from: no burst in flight, and main memory as the answer leaves it. -/
def State.answered (s : State) (m : Memory) : State := { s with mpt.inflight := none, mem := m }

/-- An OKAY changes nothing, or completes from an answered state. -/
theorem answerOkay_keeps (l : List Byte) (s : State) :
    answerOkay l s = s ∨ ∃ b m, s.mpt.inflight = some b ∧
      (m = memWriteBytes s.mem b.addr b.data ∨ m = memWriteBytes s.mem b.addr (l.take b.len)) ∧
      Keeps false true (s.answered m) (answerOkay l s) ∧
      ((b.user = .settings → b.fate ≠ .live) → (answerOkay l s).settings = s.settings) := by
  unfold answerOkay
  split
  · exact .inl rfl
  · next b hb =>
    refine .inr ⟨b, ?_⟩
    have key : ∀ (m : Memory) (r : List Byte), Keeps false true (s.answered m) (complete b .okay r (s.answered m)) ∧
        ((b.user = .settings → b.fate ≠ .live) → (complete b .okay r (s.answered m)).settings = s.settings) := by
      intro m r
      refine ⟨keeps_complete Keeps.refl _ _ _ nofun, fun h => ?_⟩
      by_cases hf : b.fate = .live
      · exact (keeps_complete (k := true) (b := true) (s := s.answered m) Keeps.refl b .okay r
          fun _ _ e => h e hf).core.settings rfl
      · unfold complete
        rw [if_neg hf]
        rfl
    dsimp only
    split
    · exact ⟨_, hb, .inl rfl, key _ _⟩
    · exact ⟨_, hb, .inr rfl, key _ _⟩

/-- What an abandoned or failed write leaves is written at the burst's own addresses. -/
theorem failedWrite_eq (b : Burst) (l : List Byte) (s : State) :
    ∃ m, failedWrite b l s = { s with mem := m } ∧ (m = s.mem ∨ m = memWriteBytes s.mem b.addr (l.take b.len)) := by
  unfold failedWrite
  split
  · exact ⟨_, rfl, .inr rfl⟩
  · exact ⟨s.mem, rfl, .inl rfl⟩

/-- An ERROR changes nothing, or completes from an answered state. -/
theorem answerError_keeps (l : List Byte) (s : State) :
    answerError l s = s ∨ ∃ b m, s.mpt.inflight = some b ∧
      (m = s.mem ∨ m = memWriteBytes s.mem b.addr (l.take b.len)) ∧ Keeps true true (s.answered m) (answerError l s) := by
  unfold answerError
  split
  · exact .inl rfl
  · next b hb =>
    obtain ⟨m, e, hm⟩ := failedWrite_eq b l { s with mpt.inflight := none }
    rw [e]
    exact .inr ⟨b, m, hb, hm, keeps_complete Keeps.refl _ _ _ nofun⟩

/-- A RETRY changes nothing, or goes on from an answered state. -/
theorem answerRetry_keeps (l : List Byte) (s : State) :
    answerRetry l s = s ∨ ∃ b m, s.mpt.inflight = some b ∧
      (m = s.mem ∨ m = memWriteBytes s.mem b.addr (l.take b.len)) ∧ Keeps true true (s.answered m) (answerRetry l s) := by
  unfold answerRetry
  split
  · exact .inl rfl
  · next b hb =>
    obtain ⟨m, e, hm⟩ := failedWrite_eq b l { s with mpt.inflight := none }
    dsimp only
    rw [e]
    refine .inr ⟨b, m, hb, hm, ?_⟩
    split
    · exact Keeps.refl
    · split
      · exact keeps_waitAgain Keeps.refl _
      · exact keeps_complete Keeps.refl _ _ _ nofun

/-! ### Grants -/

theorem none_of_keeps {k : Bool} {s t : State} (h : Keeps k true s t) (e : s.mpt.inflight = none) : t.mpt.inflight = none := by
  have := h.core.burst rfl
  rw [e] at this
  exact Option.map_eq_none_iff.1 this

/-- A burst that the grants put in flight was granted with the port open, after a START load or as one of its bursts, and passed
the window check or is of the START load (R24, R25, R26). -/
theorem grants_granted (n : Nat) : ∀ {t : State} {b : Burst}, t.mpt.inflight = none →
    (grants n t).mpt.inflight = some b →
    portOpen (grants n t) = true ∧ ((grants n t).sif.live = true ∨ startLoadBurst b (grants n t) = true) ∧
      windowPasses b (grants n t) = true := by
  induction n with
  | zero => intro t b h e; rw [grants, h] at e; exact absurd e (by simp)
  | succ n ih =>
    intro t b h
    have hp : (pump t).mpt.inflight = none := by
      have := (keeps_pump (k := true) (b := true) (s := t) Keeps.refl).core.burst rfl
      rw [h] at this
      exact Option.map_eq_none_iff.1 this
    unfold grants
    dsimp only
    split
    · next ho =>
      split
      · intro e; rw [hp] at e; exact absurd e (by simp)
      · split
        · exact ih (none_of_keeps (keeps_portIdle (k := true) (b := true) (s := pump t) Keeps.refl) hp)
        · split
          · intro e; rw [hp] at e; exact absurd e (by simp)
          · next c _ _ _ w hw =>
            split
            · next hl =>
              have hf : (fillStatus w (takeWaiting c (pump t))).2.rsc = (pump t).rsc ∧
                  (fillStatus w (takeWaiting c (pump t))).2.sif.live = (pump t).sif.live ∧
                  (fillStatus w (takeWaiting c (pump t))).2.sif.load = (pump t).sif.load ∧
                  (fillStatus w (takeWaiting c (pump t))).1.user = w.user ∧
                  (fillStatus w (takeWaiting c (pump t))).2.mpt.inflight = none := by
                rw [← hp]
                unfold fillStatus
                cases c <;> (dsimp only; repeat' split) <;> exact ⟨rfl, rfl, rfl, rfl, rfl⟩
              obtain ⟨f1, f2, f3, f4, f5⟩ := hf
              split
              · next hw2 =>
                intro e
                obtain rfl := Option.some.inj e
                refine ⟨?_, ?_, ?_⟩
                · simp only [Bool.and_eq_true] at ho
                  have := ho.1
                  simpa [portOpen, f1] using this
                · rw [Bool.or_eq_true] at hl
                  simpa [startLoadBurst, f2, f3, f4] using hl
                · exact hw2
              · apply ih
                have k0 : Keeps true true (fillStatus w (takeWaiting c (pump t))).2 (fillStatus w (takeWaiting c (pump t))).2 :=
                  Keeps.refl
                have k1 := keeps_complete (keeps_reportWindow k0 (fillStatus w (takeWaiting c (pump t))).1.client
                  (fillStatus w (takeWaiting c (pump t))).1.write (fillStatus w (takeWaiting c (pump t))).1.addr
                  (fillStatus w (takeWaiting c (pump t))).1.len) (fillStatus w (takeWaiting c (pump t))).1 .window [] nofun
                have := k1.core.burst rfl
                rw [f5] at this
                exact Option.map_eq_none_iff.1 this
            · intro e; rw [hp] at e; exact absurd e (by simp)
    · intro e; rw [hp] at e; exact absurd e (by simp)

end Sys2Proof.Machine
end

