-- ==== Sys2Proof/Laws/Memory.lean ====
section
/-! SUPPORT. Main memory: what a byte reads as after a write, the bytes of a read, and the canonical form, which every write keeps. -/

set_option Elab.async false

namespace Sys2Proof.Machine

theorem memRead_nil (a : Nat) : memRead [] a = 0 := rfl

/-- The first listed cell of an address decides. -/
theorem memRead_append (m n : Memory) (a : Nat) :
    memRead (m ++ n) a = if m.any (fun c => c.1 == a) then memRead m a else memRead n a := by
  induction m with
  | nil => simp
  | cons c l ih =>
    by_cases h : c.1 = a
    · simp [memRead, h]
    · simp [memRead, h, ih]

/-- An address that no cell lists reads as 0. -/
theorem memRead_absent (m : Memory) (a : Nat) (h : m.any (fun c => c.1 == a) = false) : memRead m a = 0 := by
  induction m with
  | nil => rfl
  | cons c l ih =>
    simp only [List.any_cons, Bool.or_eq_false_iff, beq_eq_false_iff_ne] at h
    rw [memRead, if_neg h.1, ih h.2]

/-- A filter that keeps an address's cells keeps what it reads as. -/
theorem memRead_filter (p : Host.Cell → Bool) (m : Memory) (a : Nat) (h : ∀ c : Host.Cell, c.1 = a → p c = true) :
    memRead (m.filter p) a = memRead m a := by
  induction m with
  | nil => rfl
  | cons c l ih =>
    by_cases hc : c.1 = a
    · simp [h c hc, memRead, hc]
    · by_cases hp : p c = true
      · simp [hp, memRead, hc, ih]
      · simp [hp, memRead, hc, ih]

theorem any_filter_absent (p : Host.Cell → Bool) (m : Memory) (a : Nat) (h : ∀ c : Host.Cell, c.1 = a → p c = false) :
    (m.filter p).any (fun c => c.1 == a) = false := by
  rw [List.any_eq_false]
  intro c hc
  have := (List.mem_filter.1 hc).2
  intro he
  rw [h c (beq_iff_eq.1 he)] at this
  exact absurd this (by decide)

/-- The cells of a written range: the byte at its place. -/
theorem memRead_cellsOf (l : List Byte) : ∀ a x : Nat,
    memRead (cellsOf a l) x = if a ≤ x ∧ x < a + l.length then l.getD (x - a) 0 else 0 := by
  induction l with
  | nil => intro a x; simp [cellsOf, memRead]
  | cons b l ih =>
    intro a x
    rw [cellsOf]
    by_cases hx : a = x
    · subst hx
      by_cases hb : b = 0
      · rw [if_pos hb, ih, if_neg (by omega)]
        simp [hb]
      · rw [if_neg hb, memRead, if_pos rfl, if_pos ⟨Nat.le_refl _, by simp⟩]
        simp
    · have e : memRead (if b = 0 then cellsOf (a + 1) l else (a, b) :: cellsOf (a + 1) l) x = memRead (cellsOf (a + 1) l) x := by
        split
        · rfl
        · rw [memRead, if_neg hx]
      rw [e, ih]
      by_cases h : a + 1 ≤ x ∧ x < a + 1 + l.length
      · rw [if_pos h, if_pos ⟨by omega, by simp; omega⟩]
        obtain ⟨k, rfl⟩ : ∃ k, x = a + 1 + k := ⟨x - (a + 1), by omega⟩
        rw [show a + 1 + k - a = k + 1 by omega, show a + 1 + k - (a + 1) = k by omega, List.getD_cons_succ]
      · rw [if_neg h, if_neg]
        intro g
        exact h ⟨by omega, by simp at g; omega⟩

theorem cellsOf_bounds (l : List Byte) : ∀ (a : Nat), ∀ c ∈ cellsOf a l, a ≤ c.1 ∧ c.1 < a + l.length ∧ c.2 ≠ 0 := by
  induction l with
  | nil => intro a c h; simp [cellsOf] at h
  | cons b l ih =>
    intro a c h
    rw [cellsOf] at h
    simp only [List.length_cons]
    split at h
    · obtain ⟨h1, h2, h3⟩ := ih _ _ h
      exact ⟨by omega, by omega, h3⟩
    · next hb =>
      rcases List.mem_cons.1 h with rfl | h
      · exact ⟨Nat.le_refl _, by omega, hb⟩
      · obtain ⟨h1, h2, h3⟩ := ih _ _ h
        exact ⟨by omega, by omega, h3⟩

/-- An address outside the cells of a written range is absent from them. -/
theorem cellsOf_absent (l : List Byte) (a x : Nat) (h : ¬(a ≤ x ∧ x < a + l.length)) :
    (cellsOf a l).any (fun c => c.1 == x) = false := by
  rw [List.any_eq_false]
  intro c hc he
  obtain ⟨h1, h2, -⟩ := cellsOf_bounds l a c hc
  rw [beq_iff_eq.1 he] at h1 h2
  exact h ⟨h1, h2⟩

/-- What two joined lists read as when the first has no cell of the address. -/
theorem memRead_append_absent (m n : Memory) (a : Nat) (h : m.any (fun c => c.1 == a) = false) :
    memRead (m ++ n) a = memRead n a := by
  rw [memRead_append, h]
  rfl

/-- What two joined lists read as when the second has no cell of the address. -/
theorem memRead_append_left (m n : Memory) (a : Nat) (h : n.any (fun c => c.1 == a) = false) :
    memRead (m ++ n) a = memRead m a := by
  rw [memRead_append]
  by_cases hm : m.any (fun c => c.1 == a) = true
  · rw [if_pos hm]
  · rw [if_neg hm, memRead_absent n a h, memRead_absent m a (Bool.eq_false_iff.2 hm)]

/-- A byte after a write: the byte written at it, or what it read as before. -/
theorem memRead_write (m : Memory) (a : Nat) (l : List Byte) (x : Nat) :
    memRead (memWriteBytes m a l) x = if a ≤ x ∧ x < a + l.length then l.getD (x - a) 0 else memRead m x := by
  have low : ¬x < a → (m.filter fun c => decide (c.1 < a)).any (fun c => c.1 == x) = false := fun h =>
    any_filter_absent _ _ _ fun c hc => by rw [hc]; exact decide_eq_false h
  have high : x < a + l.length → (m.filter fun c => decide (a + l.length ≤ c.1)).any (fun c => c.1 == x) = false := fun h =>
    any_filter_absent _ _ _ fun c hc => by rw [hc]; exact decide_eq_false (by omega)
  unfold memWriteBytes
  by_cases h1 : x < a
  · rw [if_neg (by omega), memRead_append_left _ _ _ (high (by omega)),
      memRead_append_left _ _ _ (cellsOf_absent _ _ _ (by omega))]
    exact memRead_filter _ _ _ fun c hc => by rw [hc]; exact decide_eq_true h1
  · by_cases h2 : x < a + l.length
    · rw [if_pos ⟨by omega, h2⟩, memRead_append_left _ _ _ (high h2), memRead_append_absent _ _ _ (low h1),
        memRead_cellsOf, if_pos ⟨by omega, h2⟩]
    · rw [if_neg (by omega), List.append_assoc, memRead_append_absent _ _ _ (low h1),
        memRead_append_absent _ _ _ (cellsOf_absent _ _ _ (by omega))]
      exact memRead_filter _ _ _ fun c hc => by rw [hc]; exact decide_eq_true (by omega)

/-- A read of `n` bytes gives each byte of the range. -/
theorem memReadBytes_eq (m : Memory) (a n : Nat) : memReadBytes m a n = (List.range n).map fun i => memRead m (a + i) := by
  unfold memReadBytes
  apply List.map_congr_left
  intro i hi
  exact memRead_filter _ _ _ fun c hc => by
    have := List.mem_range.1 hi
    simp [hc, this]

theorem cellsOf_pairwise (l : List Byte) : ∀ a : Nat, (cellsOf a l).Pairwise fun c d => c.1 < d.1 := by
  induction l with
  | nil => intro a; exact List.Pairwise.nil
  | cons b l ih =>
    intro a
    rw [cellsOf]
    split
    · exact ih _
    · refine List.Pairwise.cons (fun d hd => ?_) (ih _)
      have := (cellsOf_bounds l (a + 1) d hd).1
      exact this

/-- Every write keeps the canonical form. -/
theorem memWriteBytes_wf (m : Memory) (a : Nat) (l : List Byte) (h : Memory.wf m = true) :
    Memory.wf (memWriteBytes m a l) = true := by
  simp only [Memory.wf, Bool.and_eq_true, List.all_eq_true, decide_eq_true_eq, bne_iff_ne] at h ⊢
  unfold memWriteBytes
  refine ⟨fun c hc => ?_, ?_⟩
  · rcases List.mem_append.1 hc with hc | hc
    · rcases List.mem_append.1 hc with hc | hc
      · exact h.1 c (List.mem_filter.1 hc).1
      · exact (cellsOf_bounds l a c hc).2.2
    · exact h.1 c (List.mem_filter.1 hc).1
  · rw [List.pairwise_append, List.pairwise_append]
    refine ⟨⟨h.2.filter _, cellsOf_pairwise l a, fun c hc d hd => ?_⟩, h.2.filter _, fun c hc d hd => ?_⟩
    · have h1 := (List.mem_filter.1 hc).2
      have h2 := (cellsOf_bounds l a d hd).1
      simp only [decide_eq_true_eq] at h1
      exact Nat.lt_of_lt_of_le h1 h2
    · have h2 := (List.mem_filter.1 hd).2
      simp only [decide_eq_true_eq] at h2
      rcases List.mem_append.1 hc with hc | hc
      · have h1 := (List.mem_filter.1 hc).2
        simp only [decide_eq_true_eq] at h1
        omega
      · have h1 := (cellsOf_bounds l a c hc).2.1
        omega

/-- The memory at reset has the canonical form. -/
theorem reset_mem_wf : Memory.wf State.reset.mem = true := by decide

end Sys2Proof.Machine
end

