-- ==== Sys2Proof/WellFormed.lean ====
section
/-! DEFINITION. Which commands are well formed: the byte lists a command carries fit what they stand for. -/

namespace Sys2Proof

/-- The longest burst in bytes (section 2.1). -/
def maxBurst : Nat := 64

/-- The longest chunk frame in bytes (section 8.1). -/
def maxFrame : Nat := 1038

/-- A command's operands are in range. Lines, slots, chains, generators, codes and register values are in range by their
types; the bytes of an interconnect answer are at most one burst (section 2.1), and the bytes of a link stretch are at
least one and at most one longest chunk frame (section 8.1). -/
def Instr.wellFormed : Instr → Bool
  | .burstOkay data => decide (data.length ≤ maxBurst)
  | .burstRetry left => decide (left.length ≤ maxBurst)
  | .burstError left => decide (left.length ≤ maxBurst)
  | .chunkFrame bytes => decide (1 ≤ bytes.length) && decide (bytes.length ≤ maxFrame)
  | .start | .softReset | .powerOnReset | .baseWrite _ | .walk _ | .ack _ | .chainWalkBegin _ | .update | .stage
  | .unstage | .waveform | .light | .rest | .settings | .turnsSeen | .openFile | .closeFile | .admission
  | .storeLookupRetry | .retirePassBegin | .frameStart | .lineTimeEnd | .stretchLimitExpiry | .railGoodAsserted
  | .railGoodDeasserted | .riseTimeout | .idleHoldExpiry | .fallTimerExpiry | .faultHoldExpiry | .keyLineChange _ _
  | .debounceExpiry _ | .turnAppendRetry | .rampTick | .periodBoundary | .highPhaseEnd _ | .lselInactive
  | .dispatchBegin | .stallTimerExpiry _ | .verifyPassBegin | .downloadsStopped | .adcConversionEnd _
  | .batteryTimerExpiry | .temperatureTimerExpiry | .temperatureAgedOut | .restImageAppendRetry | .quiesceLimit
  | .drainComplete | .enterRest | .sleepAckAsserted | .sleepAckDeasserted | .memoryTimerExpiry | .restTimerExpiry
  | .restTurnSleep => true

end Sys2Proof
end

