-- ==== Sys2Proof/Laws/PerInstr.lean ====
section
/-! SUPPORT. What holds of every command as syntax: when it is well formed, and that no word spells it. -/

set_option Elab.async false

namespace Sys2Proof.Laws.Admissible

/-- The byte lists a command may carry: any, for a command without one. -/
def fits : Instr → Prop
  | .burstOkay l | .burstRetry l | .burstError l => l.length ≤ 64
  | .chunkFrame l => 1 ≤ l.length ∧ l.length ≤ 1038
  | _ => True

/-- A command is well formed exactly when its bytes fit, and no word spells it (entry 39). -/
def Statement (i : Instr) : Prop := (i.wellFormed = true ↔ fits i) ∧ ∀ nbits w : Nat, decodeTableWord nbits w ≠ some i

theorem start : Statement (.start) :=
  ⟨⟨fun _ => trivial, fun _ => rfl⟩, fun _ _ => nofun⟩

theorem softReset : Statement (.softReset) :=
  ⟨⟨fun _ => trivial, fun _ => rfl⟩, fun _ _ => nofun⟩

theorem powerOnReset : Statement (.powerOnReset) :=
  ⟨⟨fun _ => trivial, fun _ => rfl⟩, fun _ _ => nofun⟩

theorem baseWrite (value : Word) : Statement (.baseWrite value) :=
  ⟨⟨fun _ => trivial, fun _ => rfl⟩, fun _ _ => nofun⟩

theorem walk (value : Word) : Statement (.walk value) :=
  ⟨⟨fun _ => trivial, fun _ => rfl⟩, fun _ _ => nofun⟩

theorem ack (value : Word) : Statement (.ack value) :=
  ⟨⟨fun _ => trivial, fun _ => rfl⟩, fun _ _ => nofun⟩

theorem burstOkay (data : List Byte) : Statement (.burstOkay data) :=
  ⟨decide_eq_true_iff, fun _ _ => nofun⟩

theorem burstRetry (left : List Byte) : Statement (.burstRetry left) :=
  ⟨decide_eq_true_iff, fun _ _ => nofun⟩

theorem burstError (left : List Byte) : Statement (.burstError left) :=
  ⟨decide_eq_true_iff, fun _ _ => nofun⟩

theorem chainWalkBegin (chain : Chain) : Statement (.chainWalkBegin chain) :=
  ⟨⟨fun _ => trivial, fun _ => rfl⟩, fun _ _ => nofun⟩

theorem update : Statement (.update) :=
  ⟨⟨fun _ => trivial, fun _ => rfl⟩, fun _ _ => nofun⟩

theorem stage : Statement (.stage) :=
  ⟨⟨fun _ => trivial, fun _ => rfl⟩, fun _ _ => nofun⟩

theorem unstage : Statement (.unstage) :=
  ⟨⟨fun _ => trivial, fun _ => rfl⟩, fun _ _ => nofun⟩

theorem waveform : Statement (.waveform) :=
  ⟨⟨fun _ => trivial, fun _ => rfl⟩, fun _ _ => nofun⟩

theorem light : Statement (.light) :=
  ⟨⟨fun _ => trivial, fun _ => rfl⟩, fun _ _ => nofun⟩

theorem rest : Statement (.rest) :=
  ⟨⟨fun _ => trivial, fun _ => rfl⟩, fun _ _ => nofun⟩

theorem settings : Statement (.settings) :=
  ⟨⟨fun _ => trivial, fun _ => rfl⟩, fun _ _ => nofun⟩

theorem turnsSeen : Statement (.turnsSeen) :=
  ⟨⟨fun _ => trivial, fun _ => rfl⟩, fun _ _ => nofun⟩

theorem openFile : Statement (.openFile) :=
  ⟨⟨fun _ => trivial, fun _ => rfl⟩, fun _ _ => nofun⟩

theorem closeFile : Statement (.closeFile) :=
  ⟨⟨fun _ => trivial, fun _ => rfl⟩, fun _ _ => nofun⟩

theorem admission : Statement (.admission) :=
  ⟨⟨fun _ => trivial, fun _ => rfl⟩, fun _ _ => nofun⟩

theorem storeLookupRetry : Statement (.storeLookupRetry) :=
  ⟨⟨fun _ => trivial, fun _ => rfl⟩, fun _ _ => nofun⟩

theorem retirePassBegin : Statement (.retirePassBegin) :=
  ⟨⟨fun _ => trivial, fun _ => rfl⟩, fun _ _ => nofun⟩

theorem frameStart : Statement (.frameStart) :=
  ⟨⟨fun _ => trivial, fun _ => rfl⟩, fun _ _ => nofun⟩

theorem lineTimeEnd : Statement (.lineTimeEnd) :=
  ⟨⟨fun _ => trivial, fun _ => rfl⟩, fun _ _ => nofun⟩

theorem stretchLimitExpiry : Statement (.stretchLimitExpiry) :=
  ⟨⟨fun _ => trivial, fun _ => rfl⟩, fun _ _ => nofun⟩

theorem railGoodAsserted : Statement (.railGoodAsserted) :=
  ⟨⟨fun _ => trivial, fun _ => rfl⟩, fun _ _ => nofun⟩

theorem railGoodDeasserted : Statement (.railGoodDeasserted) :=
  ⟨⟨fun _ => trivial, fun _ => rfl⟩, fun _ _ => nofun⟩

theorem riseTimeout : Statement (.riseTimeout) :=
  ⟨⟨fun _ => trivial, fun _ => rfl⟩, fun _ _ => nofun⟩

theorem idleHoldExpiry : Statement (.idleHoldExpiry) :=
  ⟨⟨fun _ => trivial, fun _ => rfl⟩, fun _ _ => nofun⟩

theorem fallTimerExpiry : Statement (.fallTimerExpiry) :=
  ⟨⟨fun _ => trivial, fun _ => rfl⟩, fun _ _ => nofun⟩

theorem faultHoldExpiry : Statement (.faultHoldExpiry) :=
  ⟨⟨fun _ => trivial, fun _ => rfl⟩, fun _ _ => nofun⟩

theorem keyLineChange (line : Fin 4) (high : Bool) : Statement (.keyLineChange line high) :=
  ⟨⟨fun _ => trivial, fun _ => rfl⟩, fun _ _ => nofun⟩

theorem debounceExpiry (line : Fin 4) : Statement (.debounceExpiry line) :=
  ⟨⟨fun _ => trivial, fun _ => rfl⟩, fun _ _ => nofun⟩

theorem turnAppendRetry : Statement (.turnAppendRetry) :=
  ⟨⟨fun _ => trivial, fun _ => rfl⟩, fun _ _ => nofun⟩

theorem rampTick : Statement (.rampTick) :=
  ⟨⟨fun _ => trivial, fun _ => rfl⟩, fun _ _ => nofun⟩

theorem periodBoundary : Statement (.periodBoundary) :=
  ⟨⟨fun _ => trivial, fun _ => rfl⟩, fun _ _ => nofun⟩

theorem highPhaseEnd (gen : Generator) : Statement (.highPhaseEnd gen) :=
  ⟨⟨fun _ => trivial, fun _ => rfl⟩, fun _ _ => nofun⟩

theorem chunkFrame (bytes : List Byte) : Statement (.chunkFrame bytes) :=
  ⟨(Bool.and_eq_true _ _).to_iff.trans (and_congr decide_eq_true_iff decide_eq_true_iff), fun _ _ => nofun⟩

theorem lselInactive : Statement (.lselInactive) :=
  ⟨⟨fun _ => trivial, fun _ => rfl⟩, fun _ _ => nofun⟩

theorem dispatchBegin : Statement (.dispatchBegin) :=
  ⟨⟨fun _ => trivial, fun _ => rfl⟩, fun _ _ => nofun⟩

theorem stallTimerExpiry (slot : Fin 4) : Statement (.stallTimerExpiry slot) :=
  ⟨⟨fun _ => trivial, fun _ => rfl⟩, fun _ _ => nofun⟩

theorem verifyPassBegin : Statement (.verifyPassBegin) :=
  ⟨⟨fun _ => trivial, fun _ => rfl⟩, fun _ _ => nofun⟩

theorem downloadsStopped : Statement (.downloadsStopped) :=
  ⟨⟨fun _ => trivial, fun _ => rfl⟩, fun _ _ => nofun⟩

theorem adcConversionEnd (code : BitVec 12) : Statement (.adcConversionEnd code) :=
  ⟨⟨fun _ => trivial, fun _ => rfl⟩, fun _ _ => nofun⟩

theorem batteryTimerExpiry : Statement (.batteryTimerExpiry) :=
  ⟨⟨fun _ => trivial, fun _ => rfl⟩, fun _ _ => nofun⟩

theorem temperatureTimerExpiry : Statement (.temperatureTimerExpiry) :=
  ⟨⟨fun _ => trivial, fun _ => rfl⟩, fun _ _ => nofun⟩

theorem temperatureAgedOut : Statement (.temperatureAgedOut) :=
  ⟨⟨fun _ => trivial, fun _ => rfl⟩, fun _ _ => nofun⟩

theorem restImageAppendRetry : Statement (.restImageAppendRetry) :=
  ⟨⟨fun _ => trivial, fun _ => rfl⟩, fun _ _ => nofun⟩

theorem quiesceLimit : Statement (.quiesceLimit) :=
  ⟨⟨fun _ => trivial, fun _ => rfl⟩, fun _ _ => nofun⟩

theorem drainComplete : Statement (.drainComplete) :=
  ⟨⟨fun _ => trivial, fun _ => rfl⟩, fun _ _ => nofun⟩

theorem enterRest : Statement (.enterRest) :=
  ⟨⟨fun _ => trivial, fun _ => rfl⟩, fun _ _ => nofun⟩

theorem sleepAckAsserted : Statement (.sleepAckAsserted) :=
  ⟨⟨fun _ => trivial, fun _ => rfl⟩, fun _ _ => nofun⟩

theorem sleepAckDeasserted : Statement (.sleepAckDeasserted) :=
  ⟨⟨fun _ => trivial, fun _ => rfl⟩, fun _ _ => nofun⟩

theorem memoryTimerExpiry : Statement (.memoryTimerExpiry) :=
  ⟨⟨fun _ => trivial, fun _ => rfl⟩, fun _ _ => nofun⟩

theorem restTimerExpiry : Statement (.restTimerExpiry) :=
  ⟨⟨fun _ => trivial, fun _ => rfl⟩, fun _ _ => nofun⟩

theorem restTurnSleep : Statement (.restTurnSleep) :=
  ⟨⟨fun _ => trivial, fun _ => rfl⟩, fun _ _ => nofun⟩

end Sys2Proof.Laws.Admissible
end

