-- ==== Sys2Proof/Laws/Requests.lean ====
section
/-! SUPPORT. The shared operations through the comparisons of Safety.lean: what is apart from status writes, posts and requests stands, the finalizer's writes, and what taking and finalizing a record does. -/

set_option Elab.async false

namespace Sys2Proof.Machine

/-! ### Apart from status writes -/

@[simp] theorem sansStatus_ask (a : Area) (s : State) : (ask a s).sansStatus = s.sansStatus := by
  obtain ⟨w, q, e⟩ := ask_eq a s
  rw [e]
  rfl

@[simp] theorem sansPosts_ask (a : Area) (s : State) : (ask a s).sansPosts = s.sansPosts := by
  obtain ⟨w, q, e⟩ := ask_eq a s
  rw [e]
  rfl

@[simp] theorem sansRequests_ask (a : Area) (s : State) : (ask a s).sansRequests = s.sansRequests := by
  obtain ⟨w, q, e⟩ := ask_eq a s
  rw [e]
  rfl

@[simp] theorem sansPosts_post (c : Cause) (s : State) : (post c s).sansPosts = s.sansPosts := by
  obtain ⟨w, q, e⟩ := post_eq c s
  rw [e]
  rfl

@[simp] theorem sansRequests_post (c : Cause) (s : State) : (post c s).sansRequests = s.sansRequests := by
  obtain ⟨w, q, e⟩ := post_eq c s
  rw [e]
  rfl

@[simp] theorem sansRequests_setChain (c : Chain) (x : ChainCtl) (s : State) : (s.setChain c x).sansRequests = s.sansRequests := by
  cases c <;> rfl

@[simp] theorem sansRequests_finalize (c : Chain) (r : Nat) (l : List (Nat × List Byte)) (x : Code) (s : State) :
    (finalize c r l x s).sansRequests = s.sansRequests := by
  obtain ⟨f, y, w, q, e⟩ := finalize_eq c r l x s
  rw [e]
  cases c <;> rfl

@[simp] theorem sansRequests_markTaken (c : Chain) (r : Nat) (s : State) : (markTaken c r s).sansRequests = s.sansRequests := by
  cases c <;> rfl

/-! ### The finalizer's writes -/

theorem finalWrites_join (b : Burst) (s : State) (h : (b.user == .finalizer) = false) :
    (joinStation b s).finalWrites = s.finalWrites := by
  simp [State.finalWrites, joinStation, List.filter_append, h]

theorem finalWrites_congr {s t : State} (h1 : t.mpt.stationQueue = s.mpt.stationQueue) (h2 : t.sif.finals = s.sif.finals) :
    t.finalWrites = s.finalWrites := by
  simp [State.finalWrites, h1, h2]

@[simp] theorem finalWrites_setWriter (u : StatusUser) (w : Writer) (s : State) : (s.setWriter u w).finalWrites = s.finalWrites := rfl

@[simp] theorem finalWrites_setChain (c : Chain) (x : ChainCtl) (s : State) : (s.setChain c x).finalWrites = s.finalWrites := by
  cases c <;> rfl

@[simp] theorem finalWrites_ask (a : Area) (s : State) : (ask a s).finalWrites = s.finalWrites := by
  unfold ask
  dsimp only
  split
  · rfl
  · split
    · exact finalWrites_join _ _ rfl
    · rfl

@[simp] theorem finalWrites_post (c : Cause) (s : State) : (post c s).finalWrites = s.finalWrites := by
  unfold post
  dsimp only
  split
  · exact (finalWrites_congr rfl rfl).trans (finalWrites_ask _ _)
  · rfl

@[simp] theorem finalWrites_countFinal (c : Chain) (s : State) : (countFinal c s).finalWrites = s.finalWrites := by
  rw [countFinal, finalWrites_post, finalWrites_ask, countRetired_eq, finalWrites_setChain]

/-- A write of the finalizer joins behind its others in the queue. -/
theorem finalWrites_joinFinal (d : Nat × List Byte) (s : State) :
    (joinFinal d s).finalWrites = ((s.mpt.stationQueue.filter fun b => b.user == .finalizer).map fun b => (b.addr, b.data)) ++
      d :: s.sif.finals.flatMap fun f => f.writes ++ [f.status] := by
  simp [State.finalWrites, joinFinal, joinStation, stationBurst, List.filter_append]

/-- The finalizer presents its next write without losing or adding one. -/
@[simp] theorem finalWrites_kick (s : State) : (kickFinalizer s).finalWrites = s.finalWrites := by
  rcases kickFinalizer_cases s with ⟨_, e⟩ | ⟨f, l, d, w, _, hf, hw, e⟩ | ⟨f, l, _, hf, hw, e⟩
  · rw [e]
  · rw [e, finalWrites_joinFinal]
    simp [State.finalWrites, hf, hw]
  · have c : (kickFinalizer s).finalWrites =
        (joinFinal f.status { s with sif.finals := l, sif.finalBusy := true }).finalWrites := by
      rw [e, finalJoined]
      split
      · rfl
      · exact finalWrites_countFinal _ _
    rw [c, finalWrites_joinFinal]
    simp [State.finalWrites, hf, hw]

/-- A finalization adds its result, stamp and status writes (R10). -/
theorem finalWrites_finalize (c : Chain) (r : Nat) (l : List (Nat × List Byte)) (x : Code) (s : State) :
    (finalize c r l x s).finalWrites = s.finalWrites ++ finalBytes r l x.num s := by
  have g : ∀ f : Final,
      (if s.sif.finals.isEmpty then kickFinalizer { s with sif.finals := s.sif.finals ++ [f] }
        else { s with sif.finals := s.sif.finals ++ [f] }).finalWrites = s.finalWrites ++ (f.writes ++ [f.status]) := by
    intro f
    have e : ({ s with sif.finals := s.sif.finals ++ [f] } : State).finalWrites = s.finalWrites ++ (f.writes ++ [f.status]) := by
      simp [State.finalWrites]
    split
    · rw [finalWrites_kick, e]
    · exact e
  unfold finalize
  dsimp only
  split
  · rw [g, finalBytes, List.append_assoc]
    rfl
  · rw [finalWrites_countFinal, g, finalBytes, List.append_assoc]
    rfl

/-! ### The finalizations that wait to be counted -/

@[simp] theorem finalJobs_setChain (c : Chain) (x : ChainCtl) (s : State) : (s.setChain c x).finalJobs = s.finalJobs := by
  cases c <;> rfl

@[simp] theorem finalJobs_ask (a : Area) (s : State) : (ask a s).finalJobs = s.finalJobs := by
  obtain ⟨w, q, e⟩ := ask_eq a s
  rw [e]
  rfl

@[simp] theorem finalJobs_post (c : Cause) (s : State) : (post c s).finalJobs = s.finalJobs := by
  obtain ⟨w, q, e⟩ := post_eq c s
  rw [e]
  rfl

@[simp] theorem finalJobs_countFinal (c : Chain) (s : State) : (countFinal c s).finalJobs = s.finalJobs := by
  rw [countFinal, finalJobs_post, finalJobs_ask, countRetired_eq, finalJobs_setChain]

/-- A finalization joins those that wait, counted already or not (R10, R146). -/
theorem finalJobs_finalize (c : Chain) (r : Nat) (l : List (Nat × List Byte)) (x : Code) (s : State) :
    (finalize c r l x s).finalJobs = s.finalJobs ++ [(c, !portOpen s)] := by
  have g : ∀ (f : Final) (d : Nat × List Byte) (w : List (Nat × List Byte)), f.writes = d :: w →
      (if s.sif.finals.isEmpty then kickFinalizer { s with sif.finals := s.sif.finals ++ [f] }
        else { s with sif.finals := s.sif.finals ++ [f] }).finalJobs = s.finalJobs ++ [(f.chain, f.counted)] := by
    intro f d w hf
    have e : ({ s with sif.finals := s.sif.finals ++ [f] } : State).finalJobs = s.finalJobs ++ [(f.chain, f.counted)] := by
      simp [State.finalJobs]
    split
    · next hn =>
      rw [List.isEmpty_iff] at hn
      rw [← e]
      rcases kickFinalizer_cases { s with sif.finals := s.sif.finals ++ [f] } with ⟨_, k⟩ | ⟨h, m, b, v, _, hh, _, k⟩ |
        ⟨h, m, _, hh, hw, _⟩
      · rw [k]
      · rw [k]
        simp only [hn, List.nil_append, List.cons.injEq] at hh
        simp [State.finalJobs, joinFinal, joinStation, hn, ← hh.1, ← hh.2]
      · simp only [hn, List.nil_append, List.cons.injEq] at hh
        rw [← hh.1, hf] at hw
        exact absurd hw (by simp)
    · exact e
  unfold finalize
  dsimp only
  cases hw : l.map (fun p => (r + p.1, p.2)) ++ [(r + 0xC, le32 s.partTime.toNat)] with
  | nil => simp at hw
  | cons d w =>
    split
    · exact g ⟨c, !portOpen s, d :: w, (r + 5, le8 x.num)⟩ d w rfl
    · rw [finalJobs_countFinal]
      exact g ⟨c, !portOpen s, d :: w, (r + 5, le8 x.num)⟩ d w rfl

/-- A finalization counts and posts at once exactly with the port closed (R10, R146). -/
theorem countedBy_finalize (c : Chain) (r : Nat) (l : List (Nat × List Byte)) (x : Code) (s : State) :
    countedBy c 1 s (finalize c r l x s) := by
  refine ⟨⟨finalJobs_finalize c r l x s, ?_⟩, ?_⟩
  · rw [finalize_chain, if_pos rfl]
    rfl
  · rw [finalize_sif_posted]
    rfl

/-! ### Records -/

/-- Marking a record TAKEN is the taking of it (R8 case 5). -/
theorem takenAt_markTaken (c : Chain) (r : Nat) (s : State) : takenAt c r s (markTaken c r s) := by
  refine ⟨?_, fun d h => ?_, ⟨[], ?_⟩, ?_, ?_, ?_⟩
  · cases c <;> rfl
  · cases c <;> cases d <;> first | rfl | exact absurd rfl h
  · cases c <;> rfl
  · exact (finalWrites_join _ _ rfl).trans (finalWrites_setChain _ _ _)
  · cases c <;> rfl
  · cases c <;> rfl

/-- A record taken and then finalized is taken and finalized. -/
theorem finalizedAt_finalize {c : Chain} {r : Nat} {s u : State} (h : takenAt c r s u) (ht : u.partTime = s.partTime)
    (hp : portOpen u = portOpen s) (l : List (Nat × List Byte)) (x : Code) :
    finalizedAt c r l x.num s (finalize c r l x u) := by
  obtain ⟨h1, h2, ⟨q, h3⟩, h4, h5, h6⟩ := h
  refine ⟨?_, fun d hd => ?_, ?_, ?_, ?_⟩
  · rw [finalize_chain, if_pos rfl, h1]
  · rw [finalize_chain, if_neg hd, h2 d hd]
  · obtain ⟨f, y, w, p, e⟩ := finalize_eq c r l x u
    refine ⟨q ++ p, ?_⟩
    rw [e]
    simp [h3]
  · rw [finalWrites_finalize, h4]
    simp [finalBytes, ht]
  · obtain ⟨⟨g1, g2⟩, g3⟩ := countedBy_finalize c r l x u
    refine ⟨⟨?_, ?_⟩, ?_⟩
    · rw [g1, h5, hp]
    · rw [g2, hp, h1]
    · rw [g3, State.postedBy, State.postedBy, hp, h6]

end Sys2Proof.Machine
end

