-- ==== Sys2Proof/Laws/Scan.lean ====
section
/-! SUPPORT. Everything the admission scan can change: the relation `ScanOnly`, and that the scan and what it is made of are in it (R63, R65, R67). -/

set_option Elab.async false

namespace Sys2Proof.Machine

variable {s t u : State}

@[simp] theorem modify_same (l : List Half) (n : Nat) : l.modify n (fun x => x) = l := List.modify_id n l

theorem ScanOnly.refl : ScanOnly s s :=
  ⟨rfl, s.upe.demand, s.upe.rescan, s.meu.adc, s.meu.tempPlace, s.meu.batteryPlace, s.wfs.entries, s.wfs.history, [], [], 0, s.sif.int,
    s.sif.writers, by simp, by simp⟩

theorem ScanOnly.trans (h : ScanOnly s t) (g : ScanOnly t u) : ScanOnly s u := by
  obtain ⟨h1, d, r, a, tp, bp, en, hi, wq, sq, k, i, w, hb, e⟩ := h
  obtain ⟨g1, d', r', a', tp', bp', en', hi', wq', sq', k', i', w', gb, e'⟩ := g
  refine ⟨g1.trans h1, d', r', a', tp', bp', en', hi', wq ++ wq', sq ++ sq', k + k', i', w', ?_, ?_⟩
  · intro b hm
    exact (List.mem_append.mp hm).elim (hb b) (gb b)
  · rw [e'] at *
    rw [e]
    have : (fun x : Half => x + k + k') = fun x => x + (k + k') := by funext x; exact BitVec.add_assoc x k k'
    simp [List.append_assoc, List.modify_modify_eq, Function.comp_def, this]

/-- The fields that a scan may set, set. -/
theorem scanOnly_fields (d r : Bool) (a : Option AdcInput) (tp bp : Bool) (en : List StoreEntry) (hi : Option Nat) (s : State) :
    ScanOnly s { s with
      upe.demand := d, upe.rescan := r, meu.adc := a, meu.tempPlace := tp, meu.batteryPlace := bp, wfs.entries := en, wfs.history := hi } :=
  ⟨rfl, d, r, a, tp, bp, en, hi, [], [], 0, s.sif.int, s.sif.writers, by simp, by simp⟩

/-- A burst that joins the waveform queue. -/
theorem scanOnly_joinWave (b : Burst) (s : State) : ScanOnly s (joinWave b s) :=
  ⟨rfl, s.upe.demand, s.upe.rescan, s.meu.adc, s.meu.tempPlace, s.meu.batteryPlace, s.wfs.entries, s.wfs.history, [b], [], 0, s.sif.int,
    s.sif.writers, by simp, by simp [joinWave]⟩

/-- A post of TEMPERATURE is one of the scan's changes. -/
theorem scanOnly_post (s : State) : ScanOnly s (post .temperature s) := by
  obtain ⟨w, q, e⟩ := post_eq .temperature s
  obtain ⟨p, ep, hp⟩ := post_queue .temperature s
  rw [e] at ep
  obtain rfl := List.append_cancel_left ep
  rw [e]
  exact ⟨rfl, s.upe.demand, s.upe.rescan, s.meu.adc, s.meu.tempPlace, s.meu.batteryPlace, s.wfs.entries, s.wfs.history, [], q, 1,
    intOf s.sif.mask (s.sif.posted.modify Cause.temperature.num (· + 1)) s.sif.acked, w, hp, by simp⟩

/-- A change of entries that keeps their numbers and requests. -/
theorem scanOnly_entries {f : Entry → Entry} (h : ∀ e, (f e).request = e.request)
    (s : State) : ScanOnly s { s with upe.list := s.upe.list.map f } := by
  refine ⟨?_, s.upe.demand, s.upe.rescan, s.meu.adc, s.meu.tempPlace, s.meu.batteryPlace, s.wfs.entries, s.wfs.history, [], [], 0, s.sif.int,
    s.sif.writers, by simp, by simp⟩
  simp only [List.map_map]
  congr 1
  funext e
  exact h e

theorem scanOnly_reportFree (s : State) : ScanOnly s (reportFree s) :=
  scanOnly_entries (fun e => by split <;> rfl) s

theorem scanOnly_clearHolder (id : Nat) (k : Option StoreKey) (s : State) : ScanOnly s (clearHolder id k s) := by
  have h : ∀ en, ScanOnly s { s with wfs.entries := en } := fun _ => scanOnly_fields _ _ _ _ _ _ _ s
  unfold clearHolder
  dsimp only
  split
  · exact (h _).trans (scanOnly_reportFree _)
  · exact h _

theorem scanOnly_dropOtherHold (id : Nat) (k : StoreKey) (s : State) : ScanOnly s (dropOtherHold id k s) := by
  have h := scanOnly_clearHolder id (some k) s
  unfold dropOtherHold
  dsimp only
  split
  · exact h.trans (scanOnly_fields _ _ _ _ _ _ _ _)
  · exact h

theorem scanOnly_selectBand (im : Image) (x : Int) (s : State) : ScanOnly s (selectBand im x s).2 := by
  have h : ScanOnly s { s with wfs.history := some (chooseBand im s.wfs.history x) } :=
    scanOnly_fields _ _ _ _ _ _ _ s
  unfold selectBand
  dsimp only
  split
  · exact h.trans (scanOnly_post _)
  · exact h

theorem scanOnly_lookup (id : Nat) (m : Mode) (b : Nat) (s : State) : ScanOnly s (lookup id m b s).2 := by
  unfold lookup
  split
  · exact ScanOnly.refl
  · have h := scanOnly_dropOtherHold id ⟨s.wfs.generation, m, b⟩ s
    dsimp only
    split
    · exact h
    · split
      · exact h
      · split
        · exact (h.trans (scanOnly_fields _ _ _ _ _ _ _ _)).trans (scanOnly_joinWave _ _)
        · exact h

theorem scanOnly_setEntry {f : Entry → Entry} (h : ∀ e, (f e).request = e.request)
    (id : Nat) (s : State) : ScanOnly s (setEntry id f s) :=
  scanOnly_entries (fun e => by split <;> first | exact h e | rfl) s

theorem scanOnly_lookupFor (id : Nat) (m : Mode) (b : Nat) (n : Bool) (s : State) : ScanOnly s (lookupFor id m b n s).2 :=
  (scanOnly_lookup id m b s).trans (scanOnly_setEntry (fun _ => by simp [Entry.request]) _ _)

theorem scanOnly_chooseKey (e : Entry) (s : State) : ScanOnly s (chooseKey e s) := by
  unfold chooseKey
  split
  · exact (scanOnly_selectBand _ _ _).trans (scanOnly_lookupFor _ _ _ _ _)
  · exact ScanOnly.refl

theorem scanOnly_adcKick (s : State) : ScanOnly s (adcKick s) := by
  unfold adcKick
  split
  · exact ScanOnly.refl
  · split
    · exact scanOnly_fields _ _ _ _ _ _ _ s
    · split
      · exact scanOnly_fields _ _ _ _ _ _ _ s
      · exact ScanOnly.refl

theorem scanOnly_demandSample (s : State) : ScanOnly s (demandSample s) := by
  have h : ScanOnly s { s with upe.demand := true } := scanOnly_fields _ _ _ _ _ _ _ s
  unfold demandSample
  split
  · exact ScanOnly.refl
  · unfold requestTemp
    split
    · exact h
    · exact (h.trans (scanOnly_fields _ _ _ _ _ _ _ _)).trans (scanOnly_adcKick _)

theorem scanOnly_keyOrSample (e : Entry) (s : State) : ScanOnly s (keyOrSample e s) := by
  unfold keyOrSample
  split
  · exact scanOnly_chooseKey e s
  · exact (scanOnly_setEntry (fun _ => by simp [Entry.request]) _ _).trans (scanOnly_demandSample _)

theorem scanOnly_eligible (e : Entry) (s : State) : ScanOnly s (eligible e s).2 := by
  unfold eligible
  split
  · exact ScanOnly.refl
  · next k _ =>
    split
    · have h := scanOnly_lookupFor e.id (decideMode e s).1 k.band (decideMode e s).2 s
      dsimp only
      split <;> next g => rw [g] at h; exact h
    · exact ScanOnly.refl

theorem scanOnly_scanEntry (id : Nat) (s : State) : ScanOnly s (scanEntry id s).2 := by
  unfold scanEntry
  split
  · exact ScanOnly.refl
  · next e _ =>
    split
    · exact ScanOnly.refl
    · dsimp only
      have h : ScanOnly s (if e.st = .none then keyOrSample e s else s) := by
        split
        · exact scanOnly_keyOrSample e s
        · exact ScanOnly.refl
      split
      · split
        · exact h.trans (scanOnly_eligible _ _)
        · exact h.trans (scanOnly_eligible _ _)
        all_goals exact h
      · exact h

theorem scanOnly_scanList : ∀ (l : List Nat) (s : State), ScanOnly s (scanList l s).2
  | [], _ => ScanOnly.refl
  | id :: l, s => by
    have h := scanOnly_scanEntry id s
    unfold scanList
    split <;> next g => rw [g] at h; first | exact h | exact h.trans (scanOnly_scanList l _)

/-- The scan for an eligible entry changes no more than `ScanOnly` says. -/
theorem scanOnly_scanFor (s : State) : ScanOnly s (scanFor s).2 := scanOnly_scanList _ s

/-- The admission scan changes no more than `ScanOnly` says. -/
theorem scanOnly_scan (s : State) : ScanOnly s (scan s) :=
  (scanOnly_fields s.upe.demand false s.meu.adc s.meu.tempPlace s.meu.batteryPlace s.wfs.entries s.wfs.history s).trans
    (scanOnly_scanFor _)

/-- The lookups made again change no more than `ScanOnly` says (R66). -/
theorem scanOnly_relookList : ∀ (l : List Nat) (s : State), ScanOnly s (relookList l s)
  | [], _ => ScanOnly.refl
  | id :: l, s => by
    unfold relookList
    split
    · split
      · exact (scanOnly_lookupFor _ _ _ _ _).trans (scanOnly_relookList l _)
      · exact scanOnly_relookList l s
    · exact scanOnly_relookList l s

/-- A report that has arrived either leaves the scan to the lookups made again, or lets it run (R67). -/
theorem scanOnly_reported (s : State) : ScanOnly s (reported s) := by
  unfold reported
  split
  · exact ScanOnly.refl
  · exact scanOnly_scan s

/-- The lookups made again and the scan that follows (R66, R67). -/
theorem scanOnly_storeRetry (s : State) : ScanOnly s (storeRetry s) := by
  unfold storeRetry
  split
  · exact (scanOnly_relookList _ s).trans (scanOnly_scan _)
  · exact ScanOnly.refl

end Sys2Proof.Machine
end

