-- ==== Sys2Proof/Tests/Slice0.lean ====
section
/-! SUPPORT. Tests: the well-formedness smoke tests, worked examples of the manual, and for every statement with hypotheses a state and operands that meet them. -/

set_option Elab.async false

namespace Sys2Proof.Tests

open Sys2Proof Sys2Proof.Machine

/-! ### Well-formedness and decoding -/

/-- A longest burst's bytes are accepted, one byte more is refused (section 2.1). -/
theorem test_burst_bytes : (Instr.burstOkay (List.replicate 64 0)).wellFormed = true ∧
    (Instr.burstOkay (List.replicate 65 0)).wellFormed = false ∧ (Instr.burstRetry (List.replicate 65 0)).wellFormed = false ∧
    (Instr.burstError (List.replicate 65 0)).wellFormed = false := by decide

/-- No bytes on the link, or more than the longest frame, are refused (section 8.1). -/
theorem test_frame_bytes : (Instr.chunkFrame []).wellFormed = false ∧
    (Instr.chunkFrame (List.replicate 1039 0)).wellFormed = false ∧
    (Instr.chunkFrame (List.replicate 1038 0)).wellFormed = true := by decide +kernel

/-- No word spells a command: the table gives no row bits. -/
theorem test_decode_none : decodeTableWord 32 0 = none ∧ State.reset.withFetchWord 32 1 = State.reset := ⟨rfl, rfl⟩

/-! ### States to test on -/

/-- The default gamma table (section 7.1): G[i] = floor((4095 i² + 512) / 1024). -/
def gamma : List Nat := (List.range 33).map fun i => (4095 * i * i + 512) / 1024

/-- Settings: one window over [0x1000, 0x100000), the smallest panel, and the manual's defaults where a test rests on them. -/
def cfg : Settings :=
  { windows := [⟨0x1000, 0x100000⟩], width := 256, height := 256, buffer := 0x20000, cadence := 2, linePeriod := 100
    stretchLimit := 10, idleHold := 100, vscale := 6000, tslope := 180, toffset := -40, tempMaxAge := 60
    batteryInterval := 1000, restBatteryInterval := 10000, lowThreshold := 3500, criticalThreshold := 3300, hysteresis := 100
    keys := [⟨1, 0, 20⟩, ⟨2, 0, 20⟩, ⟨3, 0, 20⟩, ⟨4, 0, 20⟩], quickTurn := 1, lowCeiling := 400, ceilingFade := 500
    keyFade := 250, keyDefaultLevel := 300, gamma := gamma, marker0 := 0x7E, marker1 := 0xC3, stallLimit := 30
    restFade := 1000, quiesceLimit := 10, memoryTimeout := 10 }

/-- A part in a part state, its settings loaded, its station block at 0x1000. -/
def inPart (p : PartState) : State :=
  { settings := some cfg, sif := { base := 0x1000, live := true }, rsc := { part := p }, meu := { requester := true } }

/-- The part in RUN. -/
def run : State := inPart .run

/-- A request record without its link: kind, flags and body. -/
def record (kind flags : Nat) (body : List Byte) : List Byte :=
  zeros 4 ++ le8 kind ++ le8 0 ++ le16 flags ++ zeros 8 ++ body

/-- The part in RUN, the PAGE walk having read a record at 0x3000. -/
def onPage (bytes : List Byte) : State := { run with sif.page.walk := .ready 0x3000 bytes }

/-- The same for the CONTROL chain. -/
def onControl (bytes : List Byte) : State := { run with sif.control.walk := .ready 0x3000 bytes }

/-- The same for the FETCH chain. -/
def onFetch (bytes : List Byte) : State := { run with sif.fetch.walk := .ready 0x3000 bytes }

/-- A burst of 64 bytes. -/
def burst (c : Client) (u : User) (write : Bool) : Burst :=
  { client := c, user := u, write := write, addr := 0x4000, len := 64, data := if write then List.replicate 64 1 else [] }

/-- The part in RUN with a burst in flight. -/
def flying (b : Burst) : State := { run with mpt.inflight := some b }

/-- An image with the bounds of the manual's worked case (chapter 3). -/
def image : Image := ⟨0x10000, [0, 20, 40, 60], 90, List.replicate 36 (384, 40)⟩

/-- An UPDATE of 8 by 8 pixels at (x, 0) with a mode and a source address. -/
def updateRecord (x mode source : Nat) : List Byte :=
  record 1 0 (le16 x ++ le16 0 ++ le16 8 ++ le16 8 ++ le32 source ++ le32 4 ++ le8 mode ++ zeros 15)

/-- A list entry over the whole panel with a key. -/
def fullEntry : Entry :=
  { id := 0, origin := .record 0x3000, rect := ⟨0, 0, 256, 256⟩, source := 0x50000, stride := 128, mode := .gray, policy := .wait
    tag := some 7, st := .keyed, key := some ⟨1, .clear, 1⟩ }

/-- The part in RUN with an active image, a fresh temperature, a READY table and an entry to admit. -/
def admissible : State :=
  { run with
    upe.list := [fullEntry], upe.nextId := 1, wfs.active := some image, wfs.generation := 1
    meu.temperature := some ⟨25, 0, false⟩
    wfs.entries := [{ state := .ready, key := some ⟨1, .clear, 1⟩, frames := 40 }, {}, {}, {}] }

/-- The part in RUN with one lane in a state. -/
def withLane (st : LaneState) (finished : Bool) : State :=
  { run with upe.lanes := { state := st, finished := finished, rect := ⟨0, 0, 8, 8⟩, frames := 1 } :: List.replicate 31 {} }

/-! ### Worked examples of the manual -/

/-- The worked example of chapter 1: counts 0xFFFE and 0x0003, three ACK counts in turn. -/
theorem test_ack_wraps : ackCount 0x0003 0xFFFE 0x0001 = 0x0001 ∧ ackCount 0x0003 0x0001 0x0010 = 0x0003 ∧
    ackCount 0x0003 0x0003 0xFFFF = 0x0003 := by decide

/-- The check sum of the nine digits (R150). -/
theorem test_crc : crc32 [0x31, 0x32, 0x33, 0x34, 0x35, 0x36, 0x37, 0x38, 0x39] = 0xCBF43926 := by decide +kernel

/-- The worked case of chapter 3: nine selections in turn. -/
theorem test_bands :
    chooseBand image none 25 = 1 ∧ chooseBand image (some 1) 41 = 1 ∧ chooseBand image (some 1) 42 = 2 ∧
    chooseBand image (some 2) 39 = 2 ∧ chooseBand image (some 2) 38 = 2 ∧ chooseBand image (some 2) 37 = 1 ∧
    chooseBand image (some 1) (-3) = 0 ∧ chooseBand image (some 0) 95 = 3 ∧ chooseBand image (some 3) 88 = 3 := by decide

/-- The table of section 7.5. -/
theorem test_luminance : luminance gamma 12 = 2 ∧ luminance gamma 300 = 370 ∧ luminance gamma 400 = 656 ∧
    luminance gamma 600 = 1475 ∧ luminance gamma 1000 = 4095 ∧ luminance gamma 0 = 0 := by decide +kernel

/-- The worked computation of chapter 7: steps of the fade up and of the ceiling drop, and their duties. -/
theorem test_ramp : rampSteps 400 = 50 ∧ rampValue 0 600 25 50 = 300 ∧ rampValue 0 600 40 50 = 480 ∧ rampSteps 500 = 63 ∧
    rampValue 600 400 1 63 = 597 ∧ rampValue 600 400 32 63 = 498 ∧ dutySplit 370 30 = (111, 259) ∧
    dutySplit 945 30 = (284, 661) ∧ dutySplit 1475 30 = (443, 1032) ∧ (Gen.begin 111).load = 110 ∧
    (Gen.begin 111).fall.load = 3984 := by decide +kernel

/-- The conversions of R178 with the defaults. -/
theorem test_conversions : batteryMv cfg 2458 = 3600 ∧ batteryMv cfg 2356 = 3451 ∧ temperatureOf cfg 2048 = 50 ∧
    temperatureOf cfg 0 = -40 ∧ temperatureOf cfg 4095 = 139 := by decide

/-- The worked sequence of chapter 9: samples 7, 13, 16 and 19, and the deep fall from NORMAL. -/
theorem test_supply :
    (judgeSample cfg 3451 { down := 2 }).supply = .low ∧ (judgeSample cfg 3250 { supply := .low, down := 2 }).supply = .critical ∧
    (judgeSample cfg 3580 { supply := .critical, up := 2, high := true }).supply = .low ∧
    (judgeSample cfg 3660 { supply := .low, up := 2 }).supply = .normal ∧
    (judgeSample cfg 3230 { down := 2, deep := true }).supply = .critical := by decide

/-- The worked sequence of chapter 5: lockout at 70,200 after stamps 12,000 and 41,500, none at 73,000. -/
theorem test_lockout : lockoutDue [12000, 41500, 70200] = true ∧ lockoutDue [12000, 41500, 73000] = false := by decide

/-- The worked sequence of chapter 8: the chunk [512, 1536) against [0, 1024), and piece 1 after it. -/
theorem test_extents : uncovered [(0, 1024), (2048, 3072)] 512 1536 = [(1024, 1536)] ∧
    mergeExtent [(0, 1024), (2048, 3072)] 512 1536 = [(0, 1536), (2048, 3072)] ∧
    mergeExtent [(0, 1536), (2048, 3072)] 1024 2048 = [(0, 3072)] := by decide

/-- The worked sequence of chapter 2: after VERIFY was served, STATION goes before DOWNLOAD. -/
theorem test_rotation : pick { run with
    mpt.stationQueue := [burst .station .finalizer true], mpt.downWait := some (burst .download .download true) } =
    some .station := by decide

/-- A power-on reset's CTRL: identity 0x0640, revision 1, everything else 0 (section 11.2). -/
theorem test_ctrl : readCtrl State.reset = 0x06404000 := by decide

/-- The register writes of section 11.2. -/
theorem test_writes : busWrite 0 1 = some .start ∧ busWrite 0 0xA5 = some .softReset ∧ busWrite 0 2 = none := by decide

/-! ### The statements' hypotheses are met -/

/-- A queue with a command, and an empty one. -/
theorem witness_StepRunsFrontCommand : (State.reset.withPending [.start]).pending = [.start] ∧ State.reset.pending = [] := by
  decide

/-- A WALK value that is no CTRL command. -/
theorem witness_RegisterWindowReadsAndWrites : (2 : Word) ≠ 1 ∧ (2 : Word) ≠ 0xA5 := by decide

/-- A state in the laws, and a step from it. -/
theorem witness_StepKeepsSoundAndAligned : run.sound = true ∧ run.baseAligned = true ∧ step run = .next run.tick :=
  ⟨by decide, by decide, rfl⟩

/-- The same for the panel. -/
theorem witness_StepKeepsPanelLaw : run.panelLaw = true ∧ step run = .next run.tick := ⟨by decide, rfl⟩

/-- The same for the Key and Turn Unit. -/
theorem witness_StepKeepsTurnLaw : run.turnLaw = true ∧ step run = .next run.tick := ⟨by decide, rfl⟩

/-- A write burst in flight is answered. -/
theorem witness_MemoryChangesOnlyUnderBurst : ∃ t, exec (.burstOkay []) (flying (burst .station .finalizer true)) = .next t :=
  ⟨_, rfl⟩

/-- A full capture under a command that is neither an ACK nor a reset; and a settings burst that is not answered OKAY. -/
theorem witness_OnlyTheirCommandsChangeThem : { run with mpt.capture.full := true }.mpt.capture.full = true ∧
    (∃ t, exec .light { run with mpt.capture.full := true } = .next t) ∧
    (∀ v, Instr.light ≠ .ack v) ∧ (∀ v, Instr.light ≠ .baseWrite v) ∧ (∀ l, Instr.light ≠ .burstOkay l) :=
  ⟨rfl, ⟨_, rfl⟩, nofun, nofun, nofun⟩

/-- A queued burst that is granted: nothing was in flight before, a burst is after. A closed port, and a busy one. -/
theorem witness_GrantedBurstPassed :
    { run with mpt.stationQueue := [burst .station .finalizer true] }.mpt.inflight = none ∧
    (match exec .update { run with mpt.stationQueue := [burst .station .finalizer true] } with
      | .next t => t.mpt.inflight.isSome
      | _ => false) = true ∧
    (flying (burst .scan .scan false)).mpt.inflight.isSome = true ∧ portOpen { run with rsc.handshake := .asleep } = false := by
  decide +kernel

/-- A waiting SCAN burst; a PIXEL one without SCAN; neither with a served client; a grant, of a burst that ends at the window's last
byte; a burst that begins past it, of STATION and of WAVEFORM; and a burst that waits when a quiesce or a rest turn may close the
port. Each unit with a burst to make, its client free, and with none; a verify pass at the file's last byte and past it. -/
theorem witness_ArbiterPicksInOrder :
    { run with mpt.scanWait := some (burst .scan .scan false) }.mpt.scanWait ≠ none ∧
    { run with mpt.pixelWait := some (burst .pixel .pixel false) }.mpt.scanWait = none ∧
    { run with mpt.pixelWait := some (burst .pixel .pixel false) }.mpt.pixelWait ≠ none ∧
    run.mpt.scanWait = none ∧ run.mpt.pixelWait = none ∧ 2 ≤ run.mpt.last.num ∧
    (let s := { run with mpt.scanWait := some (burst .scan .scan false) }
     portOpen s = true ∧ s.mpt.inflight = none ∧ s.sif.live = true ∧ pick (pump s) = some .scan ∧
     awaitsIdle s = false ∧ waiting .scan (pump s) = some (burst .scan .scan false) ∧
     windowPasses { burst .scan .scan false with addr := 0xFFFC0 } s = true) ∧
    (∀ u, (burst .scan .scan false).user ≠ .status u) ∧
    (let b := { burst .station .finalizer true with addr := 0x100000 }
     let w := { burst .waveform .header false with addr := 0x100000 }
     let s := { run with mpt.stationQueue := [b, b] }
     let h := { run with mpt.waveQueue := [w] }
     pick (pump s) = some .station ∧ waiting .station (pump s) = some b ∧ windowPasses b s = false ∧
     pick (pump h) = some .waveform ∧ waiting .waveform (pump h) = some w ∧ windowPasses w h = false) ∧
    (let b := burst .station .finalizer true
     let s := { inPart .quiesce with mpt.stationQueue := [b], rsc.drain := .written }
     let r := { inPart .restTurn with mpt.stationQueue := [b], rsc.turnOver := true }
     portOpen s = true ∧ s.mpt.inflight = none ∧ pick (pump s) ≠ none ∧ mayRest s = true ∧
     pick (pump r) ≠ none ∧ r.rsc.turnOver = true ∧ panelQuiet r = true) ∧
    (let l := LineSlot.mk 4 0 8 [(0x20400, 16)] [] false false
     let p := Pass.mk (.admission 0) ⟨256, 256, 0x20000⟩ 6 .source [(0x50000, 4)] [] [] [] 0
     let w := Pass.mk (.admission 0) ⟨256, 256, 0x20000⟩ 6 .writeBack [] [(0x20C00, [1, 2])] [] [] 0
     let d := Dispatch.mk 0 ⟨⟨7, 0, 1⟩, [5]⟩ [(0x60000, [5])] 1
     let s := fun (pos : Nat) => { run with
       fsc.slots := [l], upe.pass := some p, dlc.dispatch := some d, dlc.verify := some ⟨0, pos, 0⟩
       dlc.slots := [{ state := .verifying, len := 9 }, {}, {}, {}] }
     (∀ c ∈ [Client.scan, .pixel, .download, .verify], waiting c (s 8) = none) ∧ (s 8).mpt.inflight = none ∧
     (s 8).fsc.slots.find? (fun q => !q.filled && !q.givenUp) = some l ∧ l.left = (0x20400, 16) :: [] ∧
     (s 8).upe.pass = some p ∧ p.left = (0x50000, 4) :: [] ∧ { s 8 with upe.pass := some w }.upe.pass = some w ∧ w.left = [] ∧
     w.out = (0x20C00, [1, 2]) :: [] ∧ (s 8).dlc.dispatch = some d ∧ d.out = (0x60000, [5]) :: [] ∧
     (s 8).dlc.verify = some ⟨0, 8, 0⟩ ∧ 8 < ((s 8).slot 0).len ∧ ((s 9).slot 0).len ≤ 9 ∧ { d with out := [] }.out = [] ∧
     { s 8 with mpt.inflight := some (burst .scan .scan false) }.mpt.inflight = some (burst .scan .scan false)) := by
  refine ⟨by decide, by decide, by decide, by decide, by decide, by decide, by decide, nofun, by decide, by decide, by decide⟩

/-- Each command with its condition not holding: no burst, no record, no timer and nothing listed in RUN; and the part states in
which it does not act. -/
theorem witness_EveryCommandCompletes :
    (run.rsc.part ≠ .stopped ∧ run.mpt.inflight = none ∧ (∀ c, (run.chain c).remembered = false ∧ (run.chain c).declined = none) ∧
     (∀ k, readyRecord k run = none) ∧ run.upe.list = [] ∧ run.upe.retireQueue = [] ∧ frameReady run = false ∧
     run.fsc.inLine = false ∧ run.fsc.held = none ∧ run.pss.riseTimer = none ∧ run.pss.idleTimer = none ∧
     run.pss.fallTimer = none ∧ run.pss.holdTimer = none ∧ (run.line 3).timer = none ∧ run.ktu.turn ≠ .waitPlace) ∧
    (run.dlc.fifo = [] ∧ (run.slot 3).timer = none ∧ run.dlc.verifyQueue = [] ∧ run.dlc.stop ≠ .stopping ∧ run.meu.adc = none ∧
     run.meu.batteryTimer = none ∧ run.meu.tempTimer = none ∧ run.meu.temperature = none ∧ run.rsc.part ≠ .quiesce ∧
     run.rsc.quiesceTimer = none ∧ run.rsc.restTimer = none ∧ run.rsc.memTimer = none ∧ run.rsc.part ≠ .restTurn) ∧
    State.reset.rsc.part ≠ .run ∧ (inPart .rest).rsc.part = .rest ∧ (inPart .waking).rsc.part = .waking := by
  refine ⟨⟨by decide, by decide, ?_, ?_, by decide⟩, by decide⟩
  · intro c; cases c <;> decide
  · intro k; cases k <;> decide

/-- START's two cases. -/
theorem witness_StartBeginsTheLoad : State.reset.rsc.part = .stopped ∧ run.rsc.part ≠ .stopped := by decide

/-- Causes 11 and 12. -/
theorem witness_AckMovesTheCount : (0x000B0001 : Word).toNat / 65536 % 16 ≤ 11 ∧ 11 < (0x000C0001 : Word).toNat / 65536 % 16 := by
  decide

/-- A burst in flight; a write of the finalizer with nothing left, with a result left, and with the status left, of a finalization
that is counted and of one that is not. -/
theorem witness_OkayCompletesTheBurst :
    (flying (burst .station .finalizer true)).mpt.inflight = some (burst .station .finalizer true) ∧
    (burst .station .finalizer true).user = .finalizer ∧ (burst .station .finalizer true).fate = .live ∧ run.sif.finals = [] ∧
    run.sif.writers.length = 8 ∧
    (Final.mk .page true [] (0x3005, [16])).counted = true ∧
    (let f := fun (w : List (Nat × List Byte)) => Final.mk .page false w (0x3005, [16])
     (f []).counted = false ∧ { run with sif.finals := [f [(0x300C, [0])]] }.sif.finals = f [(0x300C, [0])] :: [] ∧ (f [(0x300C, [0])]).writes = (0x300C, [0]) :: [] ∧
     { run with sif.finals := [f []] }.sif.finals = f [] :: [] ∧ (f []).writes = []) := by decide

/-- A burst in flight, before its eighth RETRY and at it. -/
theorem witness_RetryAndErrorOfTheBurst :
    (flying (burst .station .finalizer true)).mpt.inflight = some (burst .station .finalizer true) ∧
    (burst .station .finalizer true).fate ≠ .dropped ∧ (burst .station .finalizer true).retries + 1 < 8 ∧
    ¬{ burst .station .finalizer true with retries := 7 }.retries + 1 < 8 := by decide

/-- A capture that is armed and one that is full. -/
theorem witness_WindowFailureIsCaptured : run.mpt.capture.full = false ∧
    { run with mpt.capture.full := true }.mpt.capture.full = true := by decide

/-- An aligned BASE and twelve counts; a writer's burst that is granted; one that completes with a burst left, with an area queued and
with neither; and the ENTERED context's. -/
theorem witness_StatusAreasHoldTheValues :
    run.baseAligned = true ∧ run.sif.posted.length = 12 ∧
    (let b := stationBurst (.status .counts) true 0x1240 0 []
     let s := { run.setWriter .counts ⟨some .mirror, false, [], []⟩ with mpt.stationQueue := [b] }
     portOpen s = true ∧ s.mpt.inflight = none ∧ s.sif.live = true ∧ awaitsIdle s = false ∧ pick (pump s) = some .station ∧
     s.mpt.stationQueue = b :: [] ∧ b.user = .status .counts ∧ s.sif.writers.length = 8 ∧ (s.writer .counts).cur = some .mirror ∧
     (s.writer .counts).granted = false ∧ areaWrites .mirror s = (0x1240, zeros 24) :: [] ∧ s.rangeOk 0x1240 (zeros 24).length = true) ∧
    (let b := stationBurst (.status .keys) true 0x1300 64 (zeros 64)
     let s := fun (l : List (Nat × List Byte)) (q : List Area) => run.setWriter .keys ⟨some .turnLog, true, l, q⟩
     b.user = .status .keys ∧ b.fate = .live ∧ (s [] []).sif.wakeOrder = .none ∧ (s [] []).sif.writers.length = 8 ∧
     ((s [(0x1340, [0])] []).writer .keys).left = (0x1340, [0]) :: [] ∧ ((s [] []).writer .keys).left = [] ∧
     ((s [] []).writer .keys).queued = [] ∧ ((s [] [.keyReport]).writer .keys).queued = .keyReport :: [] ∧
     Area.keyReport.user = .keys ∧ Answer.error ≠ .okay) ∧
    (let s := { (inPart .quiesce).setWriter .rest ⟨some (.context .entered (zeros 64)), true, [], []⟩ with rsc.drain := .writing }
     (s.writer .rest).cur = some (.context .entered (zeros 64)) ∧ s.rsc.drain = .writing ∧ (s.writer .rest).queued = []) := by
  decide +kernel

/-- A remembered walk to begin; links 0, misaligned, outside and good; headers: a status that is not 0, another chain's kind, an
UPDATE met by a full list, a STAGE met by a turn, a body outside the window, a record without a body and one with. A walk's burst in
each phase: link, header, body with a burst left and without, TAKEN; and a part that holds its walks. -/
theorem witness_ChainsWalk :
    (let s := { run with sif.page.remembered := true }
     s.rsc.part = .run ∧ chainState s .page = .idle ∧ (s.chain .page).remembered = true) ∧
    (0x3008 % 16 ≠ 0) ∧ run.rangeOk 0x200000 16 = false ∧ (0x3000 % 16 = 0 ∧ run.rangeOk 0x3000 16 = true) ∧
    u8 (zeros 4 ++ [1, 16]) 5 ≠ 0 ∧ u8 (record 16 0 []) 5 = 0 ∧ (∀ k, kindOf (record 16 0 []) = some k → k.chain ≠ .page) ∧
    (kindOf (record 1 0 []) = some .update ∧ Kind.update.chain = .page ∧
      16 ≤ run.upe.list.length + { run with upe.reservations := 16 }.upe.reservations ∧
      ¬16 ≤ run.upe.list.length + { run with upe.reservations := 15 }.upe.reservations) ∧
    (kindOf (record 2 0 []) = some .stage ∧ turnHolds { run with ktu.turn := .listed } = true ∧ turnHolds run = false) ∧
    (run.rangeOk 0xFFFD0 48 = true ∧ run.rangeOk 0xFFFE0 48 = false ∧ kindOf (record 3 0 []) = some .unstage ∧
      run.rangeOk 0xFFFF0 16 = true) ∧
    (let s := fun (w : WalkPhase) => { run with sif.page.walk := w }
     (burst .station (.walk .page) false).user = .walk .page ∧ (burst .station (.walk .page) false).fate = .live ∧
     ((s .link).chain .page).walk = .link ∧ ((s (.header 0x3000)).chain .page).walk = .header 0x3000 ∧
     ((s (.body 0x3000 [] [])).chain .page).walk = .body 0x3000 [] [] ∧
     ((s (.body 0x3000 [(0x3040, 8)] [])).chain .page).walk = .body 0x3000 ((0x3040, 8) :: []) [] ∧
     ((s .taking).chain .page).walk = .taking ∧ Answer.window ≠ .okay ∧ partHolds run = false ∧
     partHolds (inPart .quiesce) = true) := by
  refine ⟨by decide, by decide, by decide, by decide, by decide, by decide, ?_, by decide, by decide, by decide, by decide⟩
  intro k h
  obtain rfl : Kind.light = k := Option.some.inj ((show kindOf (record 16 0 []) = some Kind.light by decide).symm.trans h)
  decide

/-- An UPDATE that is refused without an image, and one that joins; a part that rests. -/
theorem witness_UpdateIsTaken :
    readyRecord .update (onPage (updateRecord 0 1 0x50000)) = some (0x3000, updateRecord 0 1 0x50000) ∧
    updateFailure (parseUpdate (updateRecord 0 1 0x50000)) (onPage (updateRecord 0 1 0x50000)) = some .refusedFormat ∧
    updateFailure (parseUpdate (updateRecord 0 1 0x50000))
      { onPage (updateRecord 0 1 0x50000) with wfs.active := some image } = none ∧
    (run.rsc.part ≠ .rest ∧ run.rsc.part ≠ .restTurn ∧ run.rsc.part ≠ .waking) ∧ (inPart .rest).rsc.part = .rest := by decide

/-- Each check of an UPDATE failing alone, and all passing: mode 3; x = 4; stride 2; a tag on a small rectangle; a source and a
buffer outside the window; a locked panel. -/
theorem witness_UpdateChecksInOrder :
    (let s := { run with wfs.active := some image }
     let q := parseUpdate (updateRecord 0 1 0x50000)
     let good := q.rect.x % 8 = 0 ∧ q.rect.w % 8 = 0 ∧ 8 ≤ q.rect.w ∧ 1 ≤ q.rect.h ∧ q.rect.x + q.rect.w ≤ s.cfg.width ∧
       q.rect.y + q.rect.h ≤ s.cfg.height
     good ∧ q.mode ≤ 2 ∧ q.stride % 4 = 0 ∧ q.rect.w / 2 ≤ q.stride ∧ updateFailure q s = none ∧
     updateFailure { q with mode := 3 } s = some .refusedFormat ∧
     updateFailure { q with rect := ⟨4, 0, 8, 8⟩ } s = some .refusedRange ∧
     updateFailure { q with stride := 2 } s = some .refusedRange ∧
     updateFailure { q with tagged := true } s = some .refusedFormat ∧
     updateFailure { q with source := 0 } s = some .window ∧
     updateFailure q { s with settings := some { cfg with buffer := 0x200000 } } = some .window ∧
     updateFailure q { s with pss.rail := .locked } = some .panelFault) := by decide

/-- STAGE: a direction 2; a bad stride; an image outside; a full list; a page that joins. STAGE and UNSTAGE met by a turn. -/
theorem witness_StageIsTaken :
    (let ok := record 2 0 (le32 0x50000 ++ le32 128 ++ zeros 8)
     let s := onPage ok
     readyRecord .stage s = some (0x3000, ok) ∧ turnHolds s = false ∧ flagsOf ok % 4 = 0 ∧
     u32 ok 0x14 % 4 = 0 ∧ s.cfg.width / 2 ≤ u32 ok 0x14 ∧
     s.rangeOk (u32 ok 0x10) ((s.cfg.height - 1) * u32 ok 0x14 + s.cfg.width / 2) = true ∧ s.ktu.forward.length < 8 ∧
     8 ≤ { s with ktu.forward := List.replicate 8 ⟨0, 0, 0⟩ }.ktu.forward.length) ∧
    2 ≤ flagsOf (record 2 2 []) % 4 ∧ u32 (record 2 0 (le32 0x50000 ++ le32 2)) 0x14 % 4 ≠ 0 ∧
    run.rangeOk 0x200000 (255 * 128 + 128) = false ∧
    turnHolds { run with ktu.turn := .listed } = true ∧
    (let s := { onPage (record 3 0 []) with ktu.turn := .waitPlace }
     readyRecord .unstage s = some (0x3000, record 3 0 []) ∧ turnHolds s = true) := by decide

/-- UNSTAGE with direction BOTH and full lists. -/
theorem witness_UnstageTaken :
    (let s := { onPage (record 3 2 []) with
       ktu.forward := List.replicate 8 ⟨0, 0, 0⟩, ktu.backward := List.replicate 4 ⟨0, 0, 0⟩ }
     readyRecord .unstage s = some (0x3000, record 3 2 []) ∧ turnHolds s = false ∧ s.turnLaw = true ∧
     flagsOf (record 3 2 []) % 4 = 2 ∧ flagsOf (record 3 3 []) % 4 = 3) := by decide

/-- WAVEFORM: one under check; a misaligned address; one outside the window; a good one. -/
theorem witness_WaveformTaken :
    (let ok := record 4 0 (le32 0x50000 ++ zeros 12)
     let s := onPage ok
     readyRecord .waveform s = some (0x3000, ok) ∧ s.rsc.part = .run ∧ s.wfs.check = none ∧
     u32 ok 0x10 % 64 = 0 ∧ s.rangeOk (u32 ok 0x10) 352 = true ∧ s.rangeOk 0x200000 352 = false ∧
     u32 (record 4 0 (le32 0x50001)) 0x10 % 64 ≠ 0 ∧
     { s with wfs.check := some ⟨0, 0, [], []⟩ }.wfs.check ≠ none) := by decide

/-- A header with one band from 0 to 90 half-degrees; its six checks failing, its used entry 24 without frames, and misplaced; a used
table outside the window; and a header read before its last burst and at it. -/
theorem witness_WaveformIsJudged :
    (let l := fun (magic : Nat) (m n : Byte) (b f p : Nat) => le32 magic ++ [m, n] ++ zeros 2 ++ le16 0 ++ le16 b ++ zeros 36 ++
       (List.range 36).flatMap fun e => le32 (if e = 24 then p else 384) ++ le8 (if e = 24 then f else 40) ++ zeros 3
     let ok := l 0x57460601 3 1 90 40 384
     u32 (l 0 3 1 90 40 384) 0 ≠ 0x57460601 ∧ u8 (l 0x57460601 2 1 90 40 384) 4 ≠ 3 ∧ u8 (l 0x57460601 3 0 90 40 384) 5 = 0 ∧
     u8 (l 0x57460601 3 13 90 40 384) 5 = 13 ∧ ¬s16 (l 0x57460601 3 1 0 40 384) 8 < s16 (l 0x57460601 3 1 0 40 384) 10 ∧
     headerFailure (l 0x57460601 3 1 90 0 384) = some (6, 24) ∧ headerFailure (l 0x57460601 3 1 90 40 320) = some (7, 24) ∧
     headerFailure ok = none ∧ tableFailure ok run.windows 0x10000 = none ∧ tableFailure ok run.windows 0x200000 = some 0 ∧
     (let s := { run with wfs.check := some ⟨0x3000, 0x10000, [], ok⟩ }
      let b := burst .waveform .header false
      b.user = .header ∧ b.fate = .live ∧ s.wfs.check = some ⟨0x3000, 0x10000, [], ok⟩ ∧
      { run with wfs.check := some ⟨0x3000, 0x10000, [(0x10000, 64)], []⟩ }.wfs.check =
        some ⟨0x3000, 0x10000, (0x10000, 64) :: [], []⟩)) := by decide +kernel

/-- A store entry at its last burst, before it, and stale; without a holder, with one that has left the list, and with one that
waits. Its end with a KEYED entry in the list, which no report marks, and with a NO_ROOM entry, which the report marks. -/
theorem witness_LoadBurstFillsTheEntry :
    (let s := { run with wfs.entries := [{ state := .loading, loadLeft := 1 }, {}, {}, {}] }
     0 < s.wfs.entries.length ∧ (burst .waveform (.load 0) false).fate = .live ∧
     (burst .waveform (.load 0) false).user = .load 0 ∧ (s.store 0).stale = false ∧ 0 < (s.store 0).loadLeft ∧
     (s.store 1).loadLeft = 0 ∧ (s.store 0).holder = none ∧
     ({ s with wfs.entries := [{ state := .loading, stale := true }] }.store 0).stale = true) ∧
    (let s := { admissible with wfs.entries := [{ state := .loading, holder := some 0 }, { holder := some 1 }, {}, {}] }
     (s.store 0).holder = some 0 ∧ s.upe.list.find? (fun z => z.id == 0) = some fullEntry ∧ fullEntry.origin = .record 0x3000 ∧
     (s.store 1).holder = some 1 ∧ ∀ y ∈ s.upe.list, y.id ≠ 1) ∧
    (∀ x ∈ (reportFree admissible).upe.list, x.again = false) ∧
    (∃ x ∈ (reportFree { run with upe.list := [{ fullEntry with st := .noRoom }] }).upe.list, x.again = true) := by decide

/-- A LIGHT in RUN. -/
theorem witness_LightTaken : readyRecord .light (onControl (record 16 0 (zeros 16))) = some (0x3000, record 16 0 (zeros 16)) ∧
    (onControl (record 16 0 (zeros 16))).rsc.part = .run := by decide

/-- A REST with an image of stride 2, one outside the window, and one that passes; its image joining, refused and waiting; with the
light kept, and under CRITICAL. -/
theorem witness_RestTaken :
    (let rec' := fun (a st : Nat) => record 17 7 (le32 a ++ le32 st ++ le32 60 ++ zeros 4)
     let s := onControl (rec' 0x50000 128)
     readyRecord .rest s = some (0x3000, rec' 0x50000 128) ∧ s.rsc.part = .run ∧ flagsOf (rec' 0 0) / 4 % 2 = 1 ∧
     u32 (rec' 0x50000 2) 0x14 % 4 ≠ 0 ∧ u32 (rec' 0x200000 128) 0x14 % 4 = 0 ∧ s.cfg.width / 2 ≤ u32 (rec' 0x200000 128) 0x14 ∧
     s.rangeOk (u32 (rec' 0x200000 128) 0x10) ((s.cfg.height - 1) * 128 + s.cfg.width / 2) = false ∧
     s.rangeOk (u32 (rec' 0x50000 128) 0x10) ((s.cfg.height - 1) * 128 + s.cfg.width / 2) = true ∧ s.meu.supply ≠ .critical ∧
     flagsOf (rec' 0 0) % 2 = 1 ∧ s.wfs.active = none ∧ { s with wfs.active := some image }.wfs.active ≠ none ∧
     s.pss.rail ≠ .locked ∧ s.upe.list.length + s.upe.reservations < 16 ∧
     { s with meu.supply := .critical }.meu.supply = .critical) := by decide

/-- A SETTINGS with no load under way, and with one. -/
theorem witness_SettingsTaken : readyRecord .settings (onControl (record 18 0 [])) = some (0x3000, record 18 0 []) ∧
    (onControl (record 18 0 [])).rsc.part = .run ∧ (onControl (record 18 0 [])).sif.load = none ∧
    { onControl (record 18 0 []) with sif.load := some ⟨.request 0, [], []⟩ }.sif.load ≠ none := by decide

/-- A settings area whose checks pass and one that fails at the panel width; a load at its last burst and before it, of START and of
a request; a new geometry with an idle panel and with a busy one; a locked panel. -/
theorem witness_SettingsLoadIsJudged :
    (let l := fun (w : Nat) => zeros 16 ++ le32 0x1000 ++ le32 0x100000 ++ zeros 24 ++ le16 w ++ le16 256 ++ le32 0x20000 ++ [8, 1] ++
       le16 100 ++ le16 10 ++ le16 100 ++ le16 6000 ++ le16 180 ++ le16 65496 ++ le16 60 ++ le16 1000 ++ le16 10000 ++ le16 3500 ++
       le16 3300 ++ le16 100 ++ zeros 14 ++ [1, 0, 20, 0, 2, 0, 20, 0, 3, 0, 20, 0, 4, 0, 20, 0] ++ [1] ++ zeros 15 ++ le16 400 ++
       le16 500 ++ le16 250 ++ le16 300 ++ gamma.flatMap le16 ++ zeros 6 ++ [0x7E, 0xC3] ++ le16 30 ++ zeros 12 ++ le16 1000 ++ [10, 10]
     settingsFailure (parseSettings (l 256)) 0x1000 = none ∧ settingsFailure (parseSettings (l 260)) 0x1000 = some 0x30 ∧
     (let d := SettingsLoad.mk .start [] (l 256)
      let s := { inPart .starting with sif.load := some d }
      let b := burst .station .settings false
      b.user = .settings ∧ b.fate = .live ∧ s.sif.load = some d ∧ s.sif.loadQueue = [] ∧ s.rsc.part = .starting ∧
      s.ktu.lines.length = 4 ∧ s.baseAddr = 0x1000 ∧ d.left = [] ∧
      (SettingsLoad.mk (.request 0x3000) [(0x1040, 64)] []).left = (0x1040, 64) :: []) ∧
     run.cfg.width = (parseSettings (l 256)).width ∧ run.cfg.width ≠ (parseSettings (l 264)).width ∧
     settingsFailure (parseSettings (l 264)) 0x1000 = none ∧
     admissible.upe.list ≠ [] ∧ (¬∃ q ∈ run.upe.lanes, q.state ≠ .free) ∧ run.upe.list = [] ∧ run.pss.rail ≠ .locked ∧
     { run with pss.rail := .locked }.pss.rail = .locked ∧ ¬(run.rsc.part = .run ∧ run.meu.supply = .critical)) := by
  decide +kernel

/-- A TURNS SEEN in RUN. -/
theorem witness_TurnsSeenTaken : readyRecord .turnsSeen (onControl (record 19 3 [])) = some (0x3000, record 19 3 []) ∧
    (onControl (record 19 3 [])).rsc.part = .run := by decide

/-- An OPEN of slot 3 with RESUME and without, and one of slot 4; lengths 0 and 2^28; a slot in use; a file id another slot holds; destination outside; REST; a resume read before its last burst and at it, with a record that passes, and with another one asked for. -/
theorem witness_OpenTaken :
    (let body := fun (i n : Nat) => le8 i ++ zeros 1 ++ le16 7 ++ le32 0x60000 ++ le32 n ++ le32 0
     let s := onFetch (record 32 0 (body 3 1024))
     readyRecord .openFile s = some (0x3000, record 32 0 (body 3 1024)) ∧ s.rsc.part ≠ .rest ∧ s.rsc.part ≠ .restTurn ∧
     s.rsc.part ≠ .waking ∧ u8 (record 32 0 (body 3 1024)) 0x10 = 3 ∧ 3 < u8 (record 32 0 (body 4 1024)) 0x10 ∧
     u32 (record 32 0 (body 3 0)) 0x18 = 0 ∧ u32 (record 32 0 (body 3 268435456)) 0x18 = 268435456 ∧
     (s.slot 3).state = .free ∧ (s.slot 3).claim = none ∧
     ({ s with dlc.slots := [{}, {}, {}, { state := .corrupt }] }.slot 3).state ≠ .free ∧
     ({ s with dlc.slots := [{ state := .opened, file := 7 }, {}, {}, {}] }.slot 0).file = 7 ∧ (∀ j, j < 4 → (s.slot j).state = .free) ∧
     (∀ j, j < 4 → (s.slot j).claim = none) ∧
     s.rangeOk 0x60000 1024 = true ∧ s.rangeOk 0x60000 268435456 = false ∧
     flagsOf (record 32 0 (body 3 1024)) % 2 = 0 ∧ flagsOf (record 32 1 (body 3 1024)) % 2 = 1) ∧
    (inPart .rest).rsc.part = .rest ∧
    (let c : Claim := { req := ⟨0x3000, 7, 0x60000, 1024, 0⟩, cancelled := false }
     let l := [1, 1] ++ le16 7 ++ le32 1024 ++ zeros 8 ++ le32 1024 ++ zeros 12 ++ le32 0 ++ le32 1024
     let d := Resume.mk 3 [] l
     let s := { run with dlc.slots := [{}, {}, {}, { claim := some c }], dlc.resumes := [d] }
     (burst .station .resume false).user = .resume ∧ (burst .station .resume false).fate = .live ∧ s.dlc.resumes = [d] ∧
     d.slot < s.dlc.slots.length ∧ (s.slot d.slot).claim = some c ∧ d.left = [] ∧ c.cancelled = false ∧
     { c with cancelled := true }.cancelled = true ∧ (Resume.mk 3 [(0x1700, 64)] []).left = (0x1700, 64) :: [] ∧
     { s with dlc.resumes := [d, Resume.mk 0 [(0x1500, 64), (0x1540, 64)] []] }.dlc.resumes =
       d :: ⟨0, (0x1500, 64) :: [(0x1540, 64)], []⟩ :: [] ∧
     progressFailure l c.req = none ∧ u8 ([7, 1] ++ zeros 4) 0 = 7 ∧ u8 ([1, 17] ++ zeros 4) 1 = 17) := by decide +kernel

/-- A CLOSE of slot 3 and of a slot above it, for each state of the slot. -/
theorem witness_CloseTaken :
    (let s := fun (st : SlotState) =>
       { onFetch (record 33 3 []) with dlc.slots := [{}, {}, {}, { state := st }] }
     readyRecord .closeFile (s .free) = some (0x3000, record 33 3 []) ∧ flagsOf (record 33 3 []) / 4 % 2 = 0 ∧
     flagsOf (record 33 4 []) / 4 % 2 = 1 ∧ ((s .free).slot 3).state = .free ∧ ((s .verified).slot 3).state = .verified ∧
     ((s .corrupt).slot 3).state = .corrupt ∧ ((s .opened).slot 3).state = .opened ∧
     ((s .stalled).slot 3).state = .stalled ∧ ((s .verifying).slot 3).state = .verifying) := by decide

/-- A full-screen entry that is admitted; a state with none; a keyed, a waiting and a sampled entry in the list; an older entry that
overlaps, and one that does not; rectangles of at least one pixel. An entry without a key, the temperature fresh to the last
millisecond and stale after it, with an image and without. -/
theorem witness_EligibleEntryIsAdmitted :
    (let r := scanFor admissible
     let e : Entry := { fullEntry with note := true }
     r.1 = some 0 ∧ findListed 0 r.2 = some e ∧ e.key = some ⟨1, .clear, 1⟩ ∧ freeLaneNumber r.2 = some 0 ∧
     findEntry (StoreEntry.holds .ready ⟨1, .clear, 1⟩) r.2 = some 0) ∧ (scanFor run).1 = none ∧
    (findListed fullEntry.id admissible = some fullEntry ∧ fullEntry.st = .keyed) ∧
    (let e : Entry := { fullEntry with st := .none, key := none }
     let s := { run with upe.list := [e] }
     findListed e.id s = some e ∧ isBlocked s.upe.list e = false ∧ tempFresh s = false) ∧
    (let e : Entry := { fullEntry with st := .loading }
     findListed e.id { run with upe.list := [e] } = some e) ∧
    (let e : Entry := { fullEntry with st := .none, key := none }
     let s := fun (n : Word) => { admissible with upe.list := [e], partTime := n }
     findListed e.id (s 60000) = some e ∧ e.st = .none ∧ isBlocked (s 60000).upe.list e = false ∧ tempFresh (s 60000) = true ∧
     tempFresh (s 60001) = false ∧ (s 60000).wfs.active = some image ∧ (s 60000).meu.temperature = some ⟨25, 0, false⟩ ∧
     { s 60000 with wfs.active := none }.wfs.active = none) ∧
    (∀ o ∈ [{ fullEntry with id := 5 }], o.id ≠ fullEntry.id) ∧ 1 ≤ fullEntry.rect.w ∧ 1 ≤ fullEntry.rect.h := by decide +kernel

/-- An entry marked to look again, with a key, one without the mark, and none. A store whose entry 3 holds the key READY; one that
holds it LOADING; one with an EMPTY entry; one with an unused entry 1 as old as entry 2; one with none; and one with a holder to
clear. A report noted in a scan, and none. -/
theorem witness_WaitingUpdatesAreLookedAt :
    (let e : Entry := { fullEntry with again := true }
     let s := { run with upe.list := [e] }
     (∃ e ∈ s.upe.list, e.again = true) ∧ findListed 0 s = some e ∧ e.again = true ∧ e.key = some ⟨1, .clear, 1⟩) ∧
    (∀ e ∈ admissible.upe.list, e.again = false) ∧ findListed 0 admissible = some fullEntry ∧ fullEntry.again = false ∧
    { admissible with upe.rescan := true }.upe.rescan = true ∧ admissible.upe.rescan = false ∧
    (let k := fun (b : Nat) => some (StoreKey.mk 1 .gray b)
     let full : StoreEntry := { state := .ready, key := k 5, refs := 1 }
     let old : StoreEntry := { state := .ready, key := k 6 }
     let s := fun (a b c d : StoreEntry) => { admissible with wfs.entries := [a, b, c, d], partTime := 9 }
     (s full full full { full with key := k 1 }).wfs.active = some image ∧ run.wfs.active = none ∧
     (lookup 9 .gray 1 (s full full full { full with key := k 1 })).1 = .found 3 ∧
     (lookup 9 .gray 1 (s full full { full with state := .loading, key := k 1 } full)).1 = .loading ∧
     (let u := (lookup 9 .gray 1 (s full old {} {})).2
      (u.store 2).state = .loading ∧ (u.store 3).state = .empty ∧ (u.store 1).key = k 6) ∧
     (let u := (lookup 9 .gray 1 (s { old with stamp := 1 } old old full)).2
      (u.store 0).key = k 6 ∧ (u.store 1).key = k 1 ∧ (u.store 2).key = k 6) ∧
     (lookup 9 .gray 1 (s full full full full)).1 = .noRoom ∧
     (∃ e ∈ (s full full full { old with holder := some 9 }).wfs.entries,
       e.holder = some 9 ∧ e.key ≠ k 1 ∧ e.state = .ready ∧ e.refs = 0)) := by decide +kernel

/-- A retire pass that waits. A write-back of the last row of an admission pass, with pixels marked and without, of a retire pass and
of a sweep, for each origin; and a failed access in a row before it. -/
theorem witness_PassesBeginAndEnd :
    ({ run with upe.retireQueue := [3] }.upe.pass = none ∧ { run with upe.retireQueue := [3] }.upe.retireQueue = 3 :: []) ∧
    (let p := fun (k : PassKind) (row : Nat) => Pass.mk k ⟨256, 256, 0x20000⟩ row .writeBack [] [] [] [] 0
     let s := fun (k : PassKind) (o : Origin) (row marked : Nat) =>
       { withLane .arming false with
         upe.lanes := { state := .arming, rect := ⟨0, 0, 8, 8⟩, origin := o, marked := marked } :: List.replicate 31 {}
         upe.pass := some (p k row), ktu.turnRec := some ⟨.forward, ⟨7, 0x50000, 128⟩, false, none⟩, rsc.imageId := some 0 }
     let a := s (.admission 0) (.record 0x3000) 7 5
     (burst .pixel .pixel true).user = .pixel ∧ (burst .pixel .pixel true).fate = .live ∧
     a.upe.pass = some (p (.admission 0) 7) ∧ (p (.admission 0) 7).phase = .writeBack ∧ (p (.admission 0) 7).out = [] ∧
     (a.lane 0).rect.y + (a.lane 0).rect.h ≤ 7 + 1 ∧ 0 < (a.lane 0).marked ∧ ((s (.retire 0) .turn 7 0).lane 0).marked = 0 ∧
     (a.lane 0).origin = .record 0x3000 ∧ ((s (.retire 0) .turn 7 0).lane 0).origin = .turn ∧
     ((s (.retire 0) .rest 7 0).lane 0).origin = .rest ∧ a.rsc.imageId = some (a.lane 0).id ∧
     a.ktu.turnRec = some ⟨.forward, ⟨7, 0x50000, 128⟩, false, none⟩ ∧ a.rsc.part ≠ .restTurn ∧
     (let r := { s (.retire 0) .turn 7 0 with rsc.part := .restTurn }
      r.rsc.part = .restTurn ∧ (r.lane 0).origin = .turn ∧ r.rsc.pendingWake = none ∧
      { r with rsc.pendingWake := some .alarm }.rsc.pendingWake = some .alarm ∧ r.rsc.handshake = .awake ∧ r.ktu.queue = [] ∧
      r.meu.supply ≠ .critical) ∧ a.upe.sweepWaiting = false ∧
     (p (.sweep true true) 255).geom.h ≤ 255 + 1 ∧ (p (.sweep true true) 254).row + 1 < (p (.sweep true true) 254).geom.h ∧
     (Pass.mk (.admission 0) ⟨256, 256, 0x20000⟩ 6 .source [] [] [] [] 0).phase = .source ∧
     6 + 1 < (a.lane 0).rect.y + (a.lane 0).rect.h ∧ 0 < a.upe.lanes.length ∧ Answer.window ≠ .okay) := by decide

/-- A finished ARMING lane with the rails ON, and a held line. A SCAN burst of a row before its last one and at it, the row's line being
held, and another one; a row of the line FIFO with a pixel to drive, and one without a slot. A fetch order with rows passed over before row 8, at the last
row, and past the rectangle; a line FIFO of three slots and of four, and one with a slot FETCHING. -/
theorem witness_FramesStartAndRowsAreGivenUp :
    (let s := { withLane .arming true with pss.rail := .on }
     s.fsc.frame = .still ∧ s.pss.rail = .on ∧ ∃ l ∈ s.upe.lanes, l.state = .driving ∨ l.state = .arming ∧ l.finished = true) ∧
    { run with fsc.held := some ⟨0, 10⟩ }.fsc.held ≠ none ∧
    (let l := fun (left : List (Nat × Nat)) => LineSlot.mk 4 0 8 left [] false false
     let s := fun (left : List (Nat × Nat)) (line : Nat) =>
       { run with fsc := { frame := .scan, line := line, held := some ⟨0, 10⟩, slots := [LineSlot.mk 3 0 8 [] [] true false, l left] } }
     (burst .scan .scan false).user = .scan ∧ (burst .scan .scan false).fate = .live ∧
     (s [] 4).fsc.slots.find? (fun q => !q.filled && !q.givenUp) = some (l []) ∧
     (s [(0x20040, 64)] 4).fsc.slots.find? (fun q => !q.filled && !q.givenUp) = some (l [(0x20040, 64)]) ∧
     ((s [] 4).fsc.held ≠ none ∧ (s [] 4).fsc.line = (l []).row) ∧ ¬((s [] 3).fsc.held ≠ none ∧ (s [] 3).fsc.line = (l []).row) ∧
     Answer.error ≠ .okay) ∧
    (let l := LineSlot.mk 7 0 8 [] (pixBytes [mkPixel 1 2 0 true]) true false
     let s := { withLane .driving false with fsc.width := 256, fsc.slots := [l] }
     0 < s.fsc.width ∧ 255 < s.fsc.width ∧ s.fsc.slots.find? (fun q => q.row == 6) = none ∧
     s.fsc.slots.find? (fun q => q.row == 7) = some l ∧ pixMarked (pixAt l.got 0) = true ∧
     (s.lane (pixLane (pixAt l.got 0)).toNat).state = .driving) ∧
    (let q := LineSlot.mk 0 0 8 [] [] true false
     let s := fun (row : Nat) (l : List LineSlot) => { run with
       upe.lanes := { state := .driving, rect := ⟨16, 8, 8, 2⟩ } :: List.replicate 31 {}
       fsc := { frame := .scan, height := 16, laneSet := [0], fetchRow := row, slots := l } }
     (s 3 []).fsc.frame ≠ .still ∧ (∀ r, r < 16 → 10 ≤ r → ∀ i ∈ (s 10 []).fsc.laneSet, ¬r < ((s 10 []).lane i).rect.y + ((s 10 []).lane i).rect.h) ∧
     (∀ r, r < 8 → 3 ≤ r → ∀ i ∈ (s 3 []).fsc.laneSet, ¬((s 3 []).lane i).rect.y ≤ r) ∧
     (∃ i ∈ (s 3 []).fsc.laneSet, ((s 3 []).lane i).rect.y ≤ 8 ∧ 9 < ((s 3 []).lane i).rect.y + ((s 3 []).lane i).rect.h) ∧
     (s 3 [q, q, q]).fsc.slots.length < 4 ∧ ¬(s 3 [q, q, q, q]).fsc.slots.length < 4 ∧
     (∀ x ∈ (s 3 [q, q, q]).fsc.slots, x.filled = true ∨ x.givenUp = true) ∧
     ¬∀ x ∈ (s 3 [{ q with filled := false }]).fsc.slots, x.filled = true ∨ x.givenUp = true) := by decide +kernel

/-- The last row, the row before it, and the two blank lines of a frame; a row 0 that is still being fetched, and one that is
filled. -/
theorem witness_LineTimeEnds :
    (let s := fun (f : FrameState) (n : Nat) => { run with fsc := { frame := f, line := n, inLine := true, height := 256, blank := 2 } }
     let slot := fun (filled : Bool) => LineSlot.mk 0 0 8 [] [] filled false
     (s .scan 255).fsc.inLine = true ∧ (s .scan 255).fsc.height ≤ (s .scan 255).fsc.line + 1 ∧
     (s .scan 254).fsc.line + 1 < (s .scan 254).fsc.height ∧ (s .blank 0).fsc.line + 1 < (s .blank 0).fsc.blank ∧
     (s .blank 1).fsc.blank ≤ (s .blank 1).fsc.line + 1 ∧
     (∃ l ∈ { s .blank 1 with fsc.slots := [slot false] }.fsc.slots, l.row = 0 ∧ l.filled = false ∧ l.givenUp = false) ∧
     ¬∃ l ∈ { s .blank 1 with fsc.slots := [slot true] }.fsc.slots, l.row = 0 ∧ l.filled = false ∧ l.givenUp = false) := by decide

/-- A first fault by each command, and a third one, 59,999 ms and 60,000 ms after the first: in RUN with a waiting record and with a
waiting turn, in QUIESCE with a waiting rest image, and past the limit of a quiesce with an ARMING lane; in REST_TURN with the turn's update
waiting, a wake cause pending and not, and with its lane ARMING. -/
theorem witness_FaultIsTaken :
    lockoutDue [(0 : Word)] = false ∧ { run with pss.rail := .on }.pss.rail = .on ∧
    { run with pss.rail := .rising, pss.riseTimer := some ⟨0, 20⟩ }.pss.riseTimer ≠ none ∧
    (let s := { run with pss.rail := .on, pss.history := [12000, 41500], partTime := 71999 }
     s.pss.history = [12000, 41500] ∧ (s.partTime - 12000).toNat < 60000 ∧ ¬((72000 : Word) - 12000).toNat < 60000 ∧
     s.rsc.part = .run ∧ { s with pss.history := [0, 12000, 41500] }.pss.history = [0, 12000, 41500] ∧
     (∀ e ∈ { s with upe.list := [fullEntry] }.upe.list, e.origin = .record 0x3000) ∧
     (let e := { fullEntry with origin := .turn }
      let r := TurnRec.mk .forward ⟨7, 0x50000, 128⟩ false none
      { s with upe.list := [e], ktu.turn := .listed, ktu.turnRec := some r }.upe.list = [e] ∧ e.origin = .turn ∧
      { s with ktu.turnRec := some r }.ktu.turnRec = some r)) ∧
    (let e := { fullEntry with origin := .rest }
     let q := { withLane .arming false with rsc.part := .quiesce, pss.rail := .on, rsc.record := some 0x3000 }
     q.rsc.part = .quiesce ∧ q.rsc.limit = false ∧ { q with upe.list := [e] }.upe.list = [e] ∧ e.origin = .rest ∧
     { q with rsc.imageId := some e.id }.rsc.imageId = some e.id ∧ { q with rsc.limit := true }.rsc.limit = true ∧
     (∃ l ∈ q.upe.lanes, l.state = .arming) ∧ q.upe.lanes.length = 32 ∧ q.upe.list = [] ∧ q.ktu.queue = [] ∧
     q.rsc.record = some 0x3000) ∧
    (let e := { fullEntry with origin := .turn }
     let r := TurnRec.mk .forward ⟨7, 0x50000, 128⟩ true none
     let s := { inPart .restTurn with
       pss.rail := .rising, pss.riseTimer := some ⟨0, 20⟩, pss.history := [12000, 41500], partTime := 71999, ktu.turnRec := some r }
     s.pss.rail = .rising ∧ s.pss.riseTimer ≠ none ∧ s.pss.history = [12000, 41500] ∧ s.rsc.part = .restTurn ∧
     (¬∃ l ∈ s.upe.lanes, l.state = .arming) ∧ { s with upe.list := [e] }.upe.list = [e] ∧ e.origin = .turn ∧
     s.ktu.turnRec = some r ∧ s.rsc.pendingWake = none ∧ { s with rsc.pendingWake := some .supply }.rsc.pendingWake = some .supply ∧
     s.upe.list = [] ∧ s.rsc.handshake = .awake ∧ s.ktu.queue = [] ∧ s.meu.supply ≠ .critical) := by decide

/-- The rails RISING, and OFF; the idle-hold, fall and fault-hold timers, with an ARMING lane and without, with RAIL_GOOD and
without. -/
theorem witness_RailsFollowPinAndTimers :
    { run with pss.rail := .rising }.pss.rail = .rising ∧ run.pss.rail ≠ .rising ∧ run.pss.rail ≠ .on ∧
    { run with pss.rail := .on, pss.idleTimer := some ⟨0, 100⟩ }.pss.idleTimer ≠ none ∧
    { run with pss.rail := .falling, pss.fallTimer := some ⟨0, 5⟩ }.pss.fallTimer ≠ none ∧
    { run with pss.rail := .fault, pss.holdTimer := some ⟨0, 100⟩ }.pss.holdTimer ≠ none ∧
    (∃ l ∈ (withLane .arming false).upe.lanes, l.state = .arming) ∧ (¬∃ l ∈ run.upe.lanes, l.state = .arming) ∧
    run.pss.railGood = false ∧ { run with pss.railGood := true }.pss.railGood = true := by decide

/-- Lane 31; a pixel of another live lane, one to be marked, one left; a lane's own pixel and one without a mark. A row of a pass of
each kind in each phase, with a burst left and without, the last row but one, and its last write-back. -/
theorem witness_PixelRules :
    (let live := fun (n : Nat) => n == 3
     (decidePixel live 31 .gray 5 (mkPixel 1 2 3 true)).1 = .collided ∧ (decidePixel live 31 .gray 5 (mkPixel 1 2 3 false)).1 = .marked ∧
     (decidePixel live 31 .gray 1 (mkPixel 1 2 3 false)).1 = .left ∧ (decidePixel live 31 .clear 1 (mkPixel 1 2 3 false)).1 = .marked ∧
     pixMarked (mkPixel 1 2 31 true) = true ∧ (pixLane (mkPixel 1 2 31 true)).toNat = 31) ∧
    (let p := fun (k : PassKind) (ph : PassPhase) (row : Nat) => Pass.mk k ⟨256, 256, 0x20000⟩ row ph [] [] [] [] 0
     let s := fun (q : Pass) => { withLane .arming false with upe.pass := some q }
     (burst .pixel .pixel false).user = .pixel ∧ (burst .pixel .pixel false).fate = .live ∧
     (s (p (.admission 0) .source 6)).upe.pass = some (p (.admission 0) .source 6) ∧
     (p (.admission 0) .source 6).phase ≠ .writeBack ∧ { p (.admission 0) .source 6 with left := [(0x50000, 4)] }.left ≠ [] ∧
     (p (.admission 0) .source 6).left = [] ∧ (p (.retire 0) .segment 6).phase = .segment ∧
     (p (.retire 0) .segment 6).kind = .retire 0 ∧ (p (.sweep false true) .segment 254).kind = .sweep false true ∧
     (p (.sweep true true) .writeBack 254).kind = .sweep true true ∧ (p (.retire 0) .writeBack 6).out = [] ∧
     { p (.retire 0) .writeBack 6 with out := [(0x20000, [0])] }.out ≠ [] ∧
     6 + 1 < ((s (p (.retire 0) .writeBack 6)).lane 0).rect.y + ((s (p (.retire 0) .writeBack 6)).lane 0).rect.h ∧
     254 + 1 < 0 + (p (.sweep true true) .writeBack 254).geom.h) := by decide

/-- A header with one band from 0 to 90 half-degrees that passes R37, without history and with history 0. -/
theorem witness_BandIsSelected :
    (let l := le32 0x57460601 ++ [3, 1] ++ zeros 2 ++ le16 0 ++ le16 90 ++ zeros 36 ++
       (List.range 36).flatMap fun _ => le32 384 ++ le8 40 ++ zeros 3
     headerFailure l = none ∧ boundAt l 0 = 0 ∧ boundAt l 1 = 90 ∧ run.wfs.history = none ∧
     { run with wfs.history := some 0 }.wfs.history = some 0 ∧ (0 : Nat) < u8 l 5) := by decide +kernel

/-- A level that changes. -/
theorem witness_KeyLineChanges : (run.line 3).level ≠ false := by decide

/-- A debounced release; a press held with room, without room, and without a role; a WAKE press in RUN. -/
theorem witness_PressesAreDebounced :
    (let s := fun (p : PartState) (k : KeyLine) => { inPart p with ktu.lines := [{}, {}, {}, k] }
     ((s .run ⟨true, .pressed, some ⟨0, 20⟩⟩).line 3).timer ≠ none ∧ keyActive 0 true = false ∧ keyActive 0 false = true ∧
     ((s .waking ⟨false, .bouncing, some ⟨0, 20⟩⟩).line 3).state = .bouncing ∧ (s .waking {}).rsc.part = .waking ∧
     Role.ofNum (cfg.keys.getD 3 {}).role ≠ .none ∧ Role.ofNum 0 = .none ∧ (s .waking {}).ktu.queue.length < 4 ∧
     4 ≤ { s .waking {} with ktu.queue := List.replicate 4 ⟨.wake, 0⟩ }.ktu.queue.length ∧ (cfg.keys.getD 3 {}).role = 4 ∧
     (s .run {}).ktu.queue = []) := by decide

/-- Key line `i` about to confirm a press, in a part state. -/
def pressing (i : Fin 4) (p : PartState) : State :=
  { inPart p with ktu.lines := (List.replicate 4 {}).set i ⟨false, .bouncing, some ⟨0, 20⟩⟩ }

/-- FORWARD and BACK with a page and without, quick-turn in force, the log at 15 and at 16 entries; the four answers of an append.
LIGHT in RUN and where a rest keeps the light: dark for rest, off, unset, lit, and under a ceiling of 0. -/
theorem witness_PressesActInRun :
    (let s := { pressing 1 .run with ktu.backward := [⟨7, 0x50000, 128⟩], ktu.log := List.replicate 15 ⟨.back, 0, 0, .done, none, false⟩ }
     (s.line 1).timer ≠ none ∧ (s.line 1).state = .bouncing ∧ keyActive (s.cfg.keys.getD 1 {}).polarity (s.line 1).level = true ∧
     s.ktu.queue = [] ∧ s.rsc.part = .run ∧ Role.ofNum (s.roleOf 1) = Dir.back.role ∧ Role.ofNum (s.roleOf 0) = Dir.forward.role ∧
     s.cfg.quickTurn = 1 ∧ s.staged .back = ⟨7, 0x50000, 128⟩ :: [] ∧ s.staged .forward = [] ∧ s.meu.supply ≠ .critical ∧
     s.ktu.turn = .idle ∧ s.ktu.log.length = 15 ∧ s.wfs.active = none ∧ { s with wfs.active := some image }.wfs.active ≠ none ∧
     s.pss.rail ≠ .locked ∧ { s with pss.rail := .locked }.pss.rail = .locked ∧
     16 ≤ s.upe.list.length + { s with upe.reservations := 16 }.upe.reservations ∧
     { s with upe.reservations := 15 }.upe.list.length + 15 < 16) ∧
    (let s := pressing 2 .run
     (s.line 2).timer ≠ none ∧ (s.line 2).state = .bouncing ∧ keyActive (s.cfg.keys.getD 2 {}).polarity (s.line 2).level = true ∧
     s.ktu.queue = [] ∧ s.roleOf 2 = 3 ∧ s.rsc.part = .run ∧ s.ltu.restDark = false ∧ s.ltu.keyOff = false ∧ s.ltu.lr = 0 ∧
     s.ltu.ceiling = 1000 ∧ { s with ltu.restDark := true }.ltu.restDark = true ∧ { s with ltu.keyOff := true }.ltu.keyOff = true ∧
     0 < { s with ltu.lr := 1 }.ltu.lr ∧ { s with ltu.ceiling := 0 }.ltu.ceiling = 0 ∧
     (let r := { pressing 2 .rest with rsc.keepLight := true }
      r.rsc.keepLight = true ∧ r.rsc.forced = false ∧ r.rsc.part = .rest ∧ r.meu.supply ≠ .critical)) := by decide

/-- A turn waiting for a place in QUIESCE, in RUN and in REST_TURN, there with a wake cause pending and not: without an image, with a
locked panel, with a full list, and with a place. -/
theorem witness_TurnsAppendAndMove :
    (let s := { inPart .quiesce with ktu.turn := .waitPlace, ktu.turnRec := some ⟨.forward, ⟨7, 0x50000, 128⟩, false, none⟩ }
     s.ktu.turn = .waitPlace ∧ s.ktu.turnRec = some ⟨.forward, ⟨7, 0x50000, 128⟩, false, none⟩ ∧ s.rsc.part = .quiesce ∧
     s.wfs.active = none ∧ { s with wfs.active := some image }.wfs.active ≠ none ∧ { s with pss.rail := .locked }.pss.rail = .locked ∧
     16 ≤ s.upe.list.length + { s with upe.reservations := 16 }.upe.reservations ∧
     s.upe.list.length + s.upe.reservations < 16) ∧
    (let r := TurnRec.mk .back ⟨7, 0x50000, 128⟩ true (some 5)
     let s := fun (p : PartState) => { inPart p with ktu.turn := .waitPlace, ktu.turnRec := some r }
     let w := { s .restTurn with rsc.pendingWake := some .supply }
     (s .run).ktu.turn = .waitPlace ∧ (s .run).ktu.turnRec = some r ∧ (s .run).rsc.part = .run ∧ (s .run).sif.writers.length = 8 ∧
     (s .restTurn).rsc.part = .restTurn ∧ (s .restTurn).rsc.pendingWake = none ∧ w.rsc.pendingWake = some .supply ∧
     w.rsc.handshake = .awake ∧ w.ktu.queue = [] ∧ w.meu.supply ≠ .critical ∧ w.wfs.active = none) := by decide

/-- A ramp before its last step and at it, with a LIGHT in progress, attached and left behind, and without; with the port closed; no
ramp. A LIGHT left behind meets the premise of one of two clauses, whichever way the free value falls. -/
theorem witness_RampTickIsTaken :
    (let s := fun (k : Nat) => { run with ltu.ramp := some ⟨0, 30, 600, 30, 50, k, .light⟩ }
     (s 24).sif.live = true ∧ (s 24).ltu.ramp = some ⟨0, 30, 600, 30, 50, 24, .light⟩ ∧ 24 + 1 < 50 ∧ 50 ≤ 49 + 1 ∧
     (s 49).ltu.light = none ∧ { s 49 with ltu.light := some 0x3000 }.ltu.light = some 0x3000 ∧ (s 49).ltu.detached = false ∧
     { s 49 with ltu.light := some 0x3000, ltu.detached := true }.ltu.detached = true ∧ run.ltu.ramp = none ∧
     portOpen { s 49 with rsc.handshake := .asleep } = false ∧ (s 49).sif.writers.length = 8) ∧
    (Config.restoreEndsLight = true ∨ Config.restoreEndsLight = false) :=
  ⟨by decide, by cases Config.restoreEndsLight <;> decide⟩

/-- The default gamma table rises and ends at 4095; ramps and warmths at their bounds. -/
theorem witness_LightArithmeticAndPhases : (∀ i, i < 32 → gamma.getD i 0 ≤ gamma.getD (i + 1) 0) ∧ gamma.getD 32 0 ≤ 4095 ∧
    (12 ≤ 1000 ∧ 1000 ≤ 1000) ∧ (1 ≤ 1 ∧ 1 ≤ 1) ∧ 100 ≤ 100 := by decide +kernel

/-- A running receiver in HUNT with room; a frame of one byte; a wrong check sum. Lengths 0, 1, 1024 and 1025, with room for one byte
too few; a discard of one byte and of more. -/
theorem witness_FramesAreChecked :
    (let hdr : List Byte := [0x31, 0, 0, 0, 0, 0, 1, 0]
     receiverRuns run = true ∧ run.dlc.recv = .hunt 0 ∧ hdr.length = 8 ∧ u16 hdr 6 = [(5 : Byte)].length ∧
     8 + [(5 : Byte)].length ≤ freeSpace run ∧ u32 (zeros 4) 0 ≠ (crc32 (hdr ++ [5])).toNat ∧ (zeros 4).length = 4 ∧
     (run.dlc.counters.getD 1 0).toNat < 65535) ∧
    (let s := { run with dlc.fifo := List.replicate 3 ⟨⟨7, 0, 1016⟩, []⟩ ++ [⟨⟨7, 0, 1009⟩, []⟩] }
     u16 (zeros 8) 6 = 0 ∧ u16 (zeros 6 ++ le16 1025) 6 = 1025 ∧ u16 (zeros 6 ++ le16 1024) 6 = 1024 ∧ u16 (zeros 6 ++ le16 1) 6 = 1 ∧
     receiverRuns s = true ∧ s.dlc.recv = .hunt 0 ∧ freeSpace s = 7 ∧ freeSpace s < 8 + 1) ∧
    (let s := fun (k : Nat) => { run with dlc.recv := .discard k }
     receiverRuns (s 5) = true ∧ (s 5).dlc.recv = .discard 5 ∧ (zeros 4).length < 5 ∧ 1 ≤ 1 ∧ (zeros 1).length = 1) := by
  decide +kernel

/-- A receiver that is not watched, one outside RUN, and one that runs. -/
theorem witness_LinkSelectIsFollowed : State.reset.sif.live = false ∧ (inPart .rest).rsc.part ≠ .run ∧ receiverRuns run = true := by
  decide

/-- Chunks: for a claimed file, for no slot, past the length, for a settled slot; a seventeenth extent, a covered chunk, a new one. A
dispatch with a write left and without, whose map becomes whole and does not. -/
theorem witness_ChunksAreDispatched :
    (let chunk : Chunk := ⟨⟨7, 1024, 1024⟩, List.replicate 1024 0⟩
     let s := fun (f : FileSlot) => { run with dlc.fifo := [chunk], dlc.slots := [f, {}, {}, {}] }
     let claim : FileSlot := { claim := some { req := ⟨0x3000, 7, 0x60000, 4096, 0⟩ } }
     let opened := fun (len : Nat) (x : List (Nat × Nat)) => ({ state := .opened, file := 7, dest := 0x60000, len := len, extents := x } : FileSlot)
     (s {}).dlc.dispatch = none ∧ (s {}).dlc.fifo = chunk :: [] ∧ slotOf 7 (s {}) = none ∧ claimedFile 7 (s {}) = false ∧
     claimedFile 7 (s claim) = true ∧ slotOf 7 (s (opened 1024 [])) = some 0 ∧ ((s (opened 1024 [])).slot 0).len < 1024 + 1024 ∧
     1024 + 1024 ≤ ((s (opened 4096 [])).slot 0).len ∧
     slotOf 7 (s { opened 4096 [] with state := .verified }) = some 0 ∧
     uncovered [(0, 4096)] 1024 2048 = [] ∧ uncovered [] 1024 2048 ≠ [] ∧
     (List.replicate 16 (8192, 8193)).length + 1 =
       ((List.replicate 16 (8192, 8193)).filter fun e => decide (e.1 ≤ 2048) && decide (1024 ≤ e.2)).length + 17 ∧
     (let d := Dispatch.mk 0 chunk [] 1024
      (burst .download .download true).user = .download ∧ (burst .download .download true).fate = .live ∧
      { s (opened 2048 [(0, 1024)]) with dlc.dispatch := some d }.dlc.dispatch = some d ∧ d.out = [] ∧
      { d with out := [(0x60400, [0])] }.out ≠ [] ∧ mergeExtent [(0, 1024)] 1024 (1024 + 1024) = [(0, 2048)] ∧
      mergeExtent [] 1024 (1024 + 1024) ≠ [(0, 2048)])) := by decide +kernel

/-- A table in its laws and a step from it; two slots in use with different files; a map in order and a chunk that bridges its
extents. -/
theorem witness_FileTableKeepsItsLaws :
    (let s := { run with dlc.slots :=
       [{ state := .opened, file := 7, len := 4096, extents := [(0, 1024), (2048, 3072)], received := 2048 }, { state := .corrupt }, {}, {}] }
     s.fileLaw = true ∧ step s = .next s.tick ∧ (s.slot 0).state ≠ .free ∧ (s.slot 1).state ≠ .free) ∧
    extentsOk 4096 [(0, 1024), (2048, 3072)] = true ∧ 1024 < 2048 ∧ 2048 ≤ 4096 :=
  ⟨⟨by decide, rfl, by decide, by decide⟩, by decide⟩

/-- A stall timer that runs and one that does not; a verify queue with a slot and without; a verify read before the last and at it,
with the file's check sum and another; a download stop to end. -/
theorem witness_SlotsStallVerifyAndStop :
    (let s := { run with dlc.slots := [{ state := .opened, timer := some ⟨0, 30000⟩ }, {}, {}, {}], dlc.stop := .stopping }
     (s.slot 0).state = .opened ∧ (s.slot 0).timer ≠ none ∧ (s.slot 1).state ≠ .opened ∧ s.dlc.stop = .stopping ∧
     downloadsDrained s = true ∧ s.dlc.slots.length = 4 ∧ s.dlc.verify = none ∧ s.dlc.verifyQueue = [] ∧
     { s with dlc.verifyQueue := [2] }.dlc.verifyQueue = 2 :: []) ∧
    (let s := fun (pos : Nat) (crc : Word) =>
       { run with dlc.slots := [{ state := .verifying, len := 9, crc := crc }, {}, {}, {}], dlc.verify := some ⟨0, pos, 4294967295⟩ }
     let digits : List Byte := [0x31, 0x32, 0x33, 0x34, 0x35, 0x36, 0x37, 0x38, 0x39]
     (burst .verify .verify false).user = .verify ∧ (burst .verify .verify false).fate = .live ∧
     (s 9 0).dlc.verify = some ⟨0, 9, 4294967295⟩ ∧ 8 < ((s 8 0).slot 0).len ∧ ((s 9 0).slot 0).len ≤ 9 ∧
     ~~~crcBytes 4294967295 digits = ((s 9 0xCBF43926).slot 0).crc ∧ ~~~crcBytes 4294967295 digits ≠ ((s 9 0).slot 0).crc) := by
  decide +kernel

/-- Conversions that end: battery without a change, battery with one in STARTING, temperature, with no request waiting and with one
of each kind. -/
theorem witness_SamplesAreTaken :
    (let s := { inPart .starting with meu.adc := some .battery, meu.down := 2 }
     s.meu.adc = some .battery ∧ s.meu.tempPlace = false ∧ s.meu.batteryPlace = false ∧
     supplyAfter (countSample s.cfg ((2458 : BitVec 12).toNat * s.cfg.vscale / 4096) s.meu) = s.meu.supply ∧
     s.rsc.part = .starting ∧
     supplyAfter (countSample s.cfg ((2356 : BitVec 12).toNat * s.cfg.vscale / 4096) s.meu) ≠ s.meu.supply ∧
     { s with meu.adc := some .temperature }.meu.adc = some .temperature ∧ s.upe.list = [] ∧ s.meu.requester = true ∧
     { s with meu.tempPlace := true }.meu.tempPlace = true ∧ { s with meu.batteryPlace := true }.meu.batteryPlace = true ∧
     { s with meu.requester := false }.meu.requester = false) := by decide

/-- A conversion that ends a run of falls, at 3450 mV and at 3298 mV, in each part state the statement names, and of rises. -/
theorem witness_SupplyChangesAct :
    (let s := fun (p : PartState) (deep : Bool) => { inPart p with meu.adc := some .battery, meu.down := 2, meu.deep := deep }
     (s .run false).meu.adc = some .battery ∧ (s .run false).meu.batteryPlace = false ∧ (s .run false).meu.tempPlace = false ∧
     supplyAfter (countSample cfg ((2356 : BitVec 12).toNat * cfg.vscale / 4096) (s .run false).meu) = .low ∧
     supplyAfter (countSample cfg ((2252 : BitVec 12).toNat * cfg.vscale / 4096) (s .run true).meu) = .critical ∧
     (s .run false).meu.supply = .normal ∧ (s .starting false).rsc.part = .starting ∧ (s .quiesce true).rsc.part = .quiesce ∧
     (s .quiesce true).rsc.forced = false ∧ { s .quiesce true with rsc.keepLight := true }.rsc.keepLight = true ∧
     (let r := { s .rest false with rsc.handshake := .asleep, rsc.sleepAck := true }
      r.rsc.part = .rest ∧ r.rsc.handshake = .asleep ∧ r.rsc.sleepAck = true) ∧
     (s .restTurn false).rsc.turnOver = false ∧ { s .restTurn false with rsc.turnOver := true }.rsc.turnOver = true) := by decide

/-- LOW with thresholds in order, and a change of state. Timers that run with a working requester; a sample older than a minute, one of
exactly a minute, and none. -/
theorem witness_SupplyDebounceAndTimers :
    (cfg.criticalThreshold < cfg.lowThreshold + cfg.hysteresis ∧ (judgeSample cfg 3451 { down := 2 }).supply ≠ .normal) ∧
    (let s := { run with
       meu.batteryTimer := some ⟨0, 1000⟩, meu.tempTimer := some ⟨0, 60000⟩, meu.temperature := some ⟨25, 0, false⟩
       partTime := 60001 }
     s.meu.requester = true ∧ s.meu.adc = none ∧ s.meu.batteryPlace = false ∧ s.meu.tempPlace = false ∧
     s.meu.batteryTimer ≠ none ∧ s.meu.tempTimer ≠ none ∧ s.meu.temperature = some ⟨25, 0, false⟩ ∧
     s.cfg.tempMaxAge * 1000 < (s.partTime - 0).toNat ∧ ((60000 : Word) - 0).toNat ≤ s.cfg.tempMaxAge * 1000 ∧
     run.meu.temperature = none) := by decide

/-- A part in QUIESCE whose downloads have stopped and whose panel is quiet. -/
def quiet : State := { inPart .quiesce with dlc.stop := .stopped }

/-- The quiesce limit with nothing waiting, with a record, a turn and a rest image, and with a locked panel and an ARMING lane; a
waiting rest image and the four answers of its append; the drain; the entry to REST,
and drain conditions that are gone. -/
theorem witness_QuiesceAdvances :
    (let s := { quiet with rsc.quiesceTimer := some ⟨0, 10000⟩ }
     s.rsc.part = .quiesce ∧ s.rsc.quiesceTimer ≠ none ∧ s.upe.list = [] ∧ s.ktu.turn ≠ .waitPlace ∧
     s.rsc.imageState ≠ .waitPlace ∧ s.pss.rail ≠ .locked ∧
     (∀ e ∈ { s with upe.list := [fullEntry, { fullEntry with id := 1, origin := .rest }] }.upe.list, e.origin ≠ .turn) ∧
     { s with rsc.imageState := .waitPlace }.rsc.imageState = .waitPlace ∧
     (let r := TurnRec.mk .forward ⟨7, 0x50000, 128⟩ false none
      let w := { s with ktu.turn := .waitPlace, ktu.turnRec := some r }
      w.ktu.turn = .waitPlace ∧ w.ktu.turnRec = some r) ∧
     (let a := { s with pss.rail := .locked, upe.lanes := (withLane .arming false).upe.lanes }
      a.pss.rail = .locked ∧ (∃ l ∈ a.upe.lanes, l.state = .arming) ∧ a.upe.lanes.length = 32 ∧ a.upe.list = [] ∧
      a.ktu.turn ≠ .waitPlace ∧ a.rsc.imageState ≠ .waitPlace ∧ a.ktu.queue = [] ∧ a.sif.writers.length = 8)) ∧
    (let s := { quiet with rsc.imageState := .waitPlace, rsc.image := some (0x50000, 128) }
     s.rsc.imageState = .waitPlace ∧ s.rsc.image = some (0x50000, 128) ∧ s.wfs.active = none ∧ s.pss.rail ≠ .locked ∧
     { s with wfs.active := some image }.wfs.active ≠ none ∧ { s with pss.rail := .locked }.pss.rail = .locked ∧
     s.upe.list.length + s.upe.reservations < 16 ∧
     16 ≤ s.upe.list.length + { s with upe.reservations := 16 }.upe.reservations) ∧
    (quiet.rsc.drain = .waiting ∧ drained quiet = true) ∧
    (let s := { quiet with rsc.drain := .written, rsc.wakeAfter := 60 }
     s.rsc.drain = .written ∧ s.mpt.inflight = none ∧ writesWait s = false ∧ reservationOpen s = false ∧
     writesWait (s.setWriter .download ⟨some .link, true, [], [.progress 3]⟩) = true ∧
     writesWait (s.setWriter .counts ⟨some .retired, true, [], [.mirror]⟩) = true ∧
     writesWait (s.setWriter .keys ⟨some .turnLog, true, [(0x1340, [0])], []⟩) = true ∧
     reservationOpen { s with upe.reservations := 1 } = true ∧ reservationOpen { s with sif.page.walk := .header 0x3000 } = true ∧
     drained s = true ∧ s.ktu.queue = [] ∧ s.rsc.handshake = .awake ∧
     0 < s.rsc.wakeAfter ∧ s.rsc.forcedStart = false ∧ s.meu.requester = true ∧
     drained { s with dlc.stop := .stopping } = false) := by decide

/-- Presses of each role in QUIESCE, forced and not; in REST with memory asleep: a page that may turn, one that may not, LIGHT and
WAKE. -/
theorem witness_PressesActInRest :
    (let s := fun (i : Fin 4) => pressing i .quiesce
     ((s 3).line 3).timer ≠ none ∧ ((s 3).line 3).state = .bouncing ∧
     keyActive ((s 3).cfg.keys.getD 3 {}).polarity ((s 3).line 3).level = true ∧ (s 3).ktu.queue = [] ∧ (s 3).rsc.part = .quiesce ∧
     (s 0).roleOf 0 = 1 ∧ (s 1).roleOf 1 = 2 ∧ (s 2).roleOf 2 = 3 ∧ (s 3).roleOf 3 = 4 ∧ (s 3).rsc.forced = false ∧
     (s 2).rsc.keepLight = false ∧ (s 3).meu.supply ≠ .critical ∧ { s 3 with rsc.forced := true }.rsc.forced = true) ∧
    (let s := { pressing 0 .rest with
       rsc.handshake := .asleep, rsc.sleepAck := true, rsc.turnsEnabled := true, ktu.forward := [⟨7, 0x50000, 128⟩]
       ktu.log := List.replicate 15 ⟨.back, 0, 0, .done, none, false⟩ }
     (s.line 0).timer ≠ none ∧ (s.line 0).state = .bouncing ∧ keyActive (s.cfg.keys.getD 0 {}).polarity (s.line 0).level = true ∧
     s.ktu.queue = [] ∧ s.rsc.part = .rest ∧ s.rsc.handshake = .asleep ∧ s.rsc.sleepAck = true ∧
     Role.ofNum (s.roleOf 0) = Dir.forward.role ∧ Role.ofNum (s.roleOf 1) = Dir.back.role ∧ s.roleOf 2 = 3 ∧ s.roleOf 3 = 4 ∧
     s.rsc.keepLight = false ∧ s.rsc.turnsEnabled = true ∧ s.rsc.forced = false ∧ s.staged .forward = ⟨7, 0x50000, 128⟩ :: [] ∧
     s.meu.supply ≠ .critical ∧ s.ktu.log.length = 15 ∧ s.ktu.turn = .idle ∧ s.staged .back = []) := by decide

/-- A wake whose memory comes, with the supply CRITICAL and not; a rest turn's memory that comes and that does not; the memory timer
in ENTERING and LEAVING; the alarm in REST and in REST_TURN; a rest turn that is over. -/
theorem witness_HandshakeAndWaking :
    (let s := { inPart .waking with rsc.handshake := .leaving, rsc.memTimer := some ⟨0, 10⟩ }
     s.rsc.handshake = .leaving ∧ s.rsc.part = .waking ∧ s.meu.supply ≠ .critical ∧
     { s with meu.supply := .critical }.meu.supply = .critical ∧ s.ktu.queue = [] ∧ s.rsc.record = none ∧
     { s with rsc.record := some 0x3000 }.rsc.record = some 0x3000 ∧ s.rsc.memTimer ≠ none ∧ run.rsc.handshake ≠ .leaving ∧
     run.rsc.memTimer = none ∧ { s with rsc.handshake := .entering }.rsc.handshake = .entering ∧
     { s with rsc.part := .restTurn }.ktu.turn ≠ .waitMemory) ∧
    (let r := TurnRec.mk .forward ⟨7, 0x50000, 128⟩ true none
     let s := { inPart .restTurn with
       rsc.handshake := .leaving, rsc.memTimer := some ⟨0, 10⟩, rsc.sleepAck := true, ktu.turn := .waitMemory, ktu.turnRec := some r }
     s.rsc.handshake = .leaving ∧ s.rsc.part = .restTurn ∧ s.ktu.turn = .waitMemory ∧ s.ktu.turnRec = some r ∧ s.wfs.active = none ∧
     { s with wfs.active := some image }.wfs.active ≠ none ∧ s.pss.rail ≠ .locked ∧ { s with pss.rail := .locked }.pss.rail = .locked ∧
     s.upe.list.length + s.upe.reservations < 16 ∧ 16 ≤ s.upe.list.length + { s with upe.reservations := 16 }.upe.reservations ∧
     s.rsc.pendingWake = none ∧ { s with rsc.pendingWake := some .alarm }.rsc.pendingWake = some .alarm ∧ s.rsc.memTimer ≠ none ∧
     s.rsc.sleepAck = true) ∧
    (let s := { inPart .rest with rsc.restTimer := some ⟨0, 60000⟩, rsc.handshake := .asleep, rsc.sleepAck := true }
     s.rsc.restTimer ≠ none ∧ s.rsc.part = .rest ∧ s.rsc.handshake = .asleep ∧ s.rsc.sleepAck = true ∧ s.meu.requester = true ∧
     { s with rsc.part := .restTurn }.rsc.turnOver = false) ∧
    (let s := { inPart .restTurn with rsc.turnOver := true }
     s.rsc.part = .restTurn ∧ s.rsc.turnOver = true ∧ panelQuiet s = true ∧ s.mpt.inflight = none ∧ s.ktu.queue = [] ∧
     s.rsc.handshake = .awake) := by decide

end Sys2Proof.Tests
end

section
/-! The acknowledge register of the station block (R5): what a write of ACK leaves, and `Obligations.AckMovesTheCount`. -/

namespace Sys2Proof.Machine

/-! ### The acknowledged count -/

/-- How far `acked` moves to reach `count`, modulo 65536. -/
theorem half_sub_toNat (count acked : Half) :
    (count - acked).toNat = (count.toNat + 65536 - acked.toNat) % 65536 := by
  rw [BitVec.toNat_sub]
  have := acked.isLt
  omega

/-- R5's comparison, in numbers. -/
theorem ackCount_toNat (posted acked count : Half) :
    (ackCount posted acked count).toNat =
      if (count.toNat + 65536 - acked.toNat) % 65536 ≤ (posted.toNat + 65536 - acked.toNat) % 65536 then count.toNat
      else posted.toNat := by
  unfold ackCount
  simp only [BitVec.le_def, half_sub_toNat]
  split <;> rfl

/-- R5: the write never moves the acknowledged count past the posted count. -/
theorem ackCount_not_past (posted acked count : Half) :
    ((ackCount posted acked count).toNat + 65536 - acked.toNat) % 65536 ≤
      (posted.toNat + 65536 - acked.toNat) % 65536 := by
  rw [ackCount_toNat]
  split
  · next notPast => exact notPast
  · exact le_rfl

/-! ### The fields of an ACK value (R5) -/

/-- The cause an ACK value names. -/
theorem ackCause_toNat (v : Word) : (v.extractLsb' 16 4).toNat = v.toNat / 65536 % 16 := by
  simp [Nat.shiftRight_eq_div_pow]

/-- The count an ACK value carries. -/
theorem ackValue_toNat (v : Word) : (v.setWidth 16 : Half).toNat = v.toNat % 65536 := by
  simp

/-! ### The capture -/

/-- Asking for the capture's write changes only the status writers and the STATION queue. -/
theorem askCapture_eq (s : State) :
    ∃ w q, askCapture s = { s with sif.writers := w, mpt.stationQueue := s.mpt.stationQueue ++ q } := by
  unfold askCapture
  split
  · exact ask_eq .capture s
  · exact ⟨s.sif.writers, [], by simp⟩

/-- Re-arming empties the capture (R30) and changes nothing else but the status writers and the STATION queue. -/
theorem rearm_eq (s : State) :
    ∃ w q, rearm s = { s with
      sif.writers := w, mpt.stationQueue := s.mpt.stationQueue ++ q
      mpt.capture := { s.mpt.capture with full := false, further := 0 } } :=
  askCapture_eq { s with mpt.capture.full := false, mpt.capture.further := 0 }

/-! ### The write of ACK -/

/-- The acknowledged counts a write of ACK leaves for a cause that exists (R5). -/
def ackedAfter (v : Word) (s : State) : List Half :=
  let n := v.toNat / 65536 % 16
  s.sif.acked.set n (ackCount (s.sif.posted.getD n 0) (s.sif.acked.getD n 0) (v.setWidth 16))

/-- A write of ACK for a cause that does not exist is ignored (R5). -/
theorem writeAck_of_no_cause {v : Word} (s : State) (h : 11 < v.toNat / 65536 % 16) : writeAck v s = s := by
  simp only [writeAck, ackCause_toNat, if_pos h]

/-- A write of ACK for a cause that exists leaves `ackedAfter` with INT evaluated on it; the capture re-arms when the cause
is WINDOW and its counts are then equal; nothing else changes but the status writers and the STATION queue (R5, R14, R30). -/
theorem writeAck_eq {v : Word} (s : State) (h : v.toNat / 65536 % 16 ≤ 11) :
    ∃ w q, writeAck v s = { s with
      sif.acked := ackedAfter v s
      sif.int := intOf s.sif.mask s.sif.posted (ackedAfter v s)
      sif.writers := w, mpt.stationQueue := s.mpt.stationQueue ++ q
      mpt.capture :=
        if v.toNat / 65536 % 16 = 8 ∧ s.sif.posted.getD 8 0 = (ackedAfter v s).getD 8 0 then
          { s.mpt.capture with full := false, further := 0 }
        else s.mpt.capture } := by
  let s1 := evalInt { s with sif.acked := ackedAfter v s }
  have rearms : (v.toNat / 65536 % 16 = Cause.window.num ∧ nothingOutstanding .window s1 = true) ↔
      v.toNat / 65536 % 16 = 8 ∧ s.sif.posted.getD 8 0 = (ackedAfter v s).getD 8 0 := by
    simp [s1, nothingOutstanding, Cause.num, evalInt]
  have unfolded : writeAck v s =
      if v.toNat / 65536 % 16 = Cause.window.num ∧ nothingOutstanding .window s1 = true then rearm s1 else s1 := by
    simp only [writeAck, ackCause_toNat, if_neg (Nat.not_lt.mpr h)]
    rfl
  rw [unfolded]
  by_cases equal : v.toNat / 65536 % 16 = 8 ∧ s.sif.posted.getD 8 0 = (ackedAfter v s).getD 8 0
  · obtain ⟨w, q, e⟩ := rearm_eq s1
    exact ⟨w, q, by rw [if_pos (rearms.mpr equal), if_pos equal, e]; rfl⟩
  · exact ⟨s.sif.writers, [], by rw [if_neg (mt rearms.mp equal), if_neg equal, List.append_nil]; rfl⟩

/-- ACK is taken in every part state: the command is its write and the port's grants (R5, R23). -/
theorem exec_ack (v : Word) (s : State) : exec (.ack v) s = .next (portGrants (writeAck v s)) := rfl

/-- Settles O15: `ackCount_not_past` is the bound, and `writeAck_eq` the counts, INT, the capture and the frame. -/
theorem ackMovesTheCount : Obligations.AckMovesTheCount := by
  unfold Obligations.AckMovesTheCount
  intro v s
  refine ⟨fun noCause => ?_, fun cause => ⟨writeAck v s, exec_ack v s, ?_⟩, rfl⟩
  · rw [exec_ack, writeAck_of_no_cause s noCause]
  · obtain ⟨w, q, e⟩ := writeAck_eq s cause
    let posted := s.sif.posted.getD (v.toNat / 65536 % 16) 0
    let acked := s.sif.acked.getD (v.toNat / 65536 % 16) 0
    have moved := ackCount_toNat posted acked (v.setWidth 16)
    have notPast := ackCount_not_past posted acked (v.setWidth 16)
    rw [moved] at notPast
    rw [ackValue_toNat] at moved notPast
    rw [e]
    refine ⟨⟨?_, notPast, rfl⟩, rfl, rfl⟩
    show ackedAfter v s = _
    rw [← moved, BitVec.ofNat_toNat, BitVec.setWidth_eq]
    rfl

end Sys2Proof.Machine
end

section
/-! Band selection over an image that passes R37 (R48, R49), and `Obligations.BandIsSelected`. -/

namespace Sys2Proof.Machine

/-! ### What a header that passes R37 holds -/

/-- A header that passes R37 has at least one band and bounds that rise (checks 3 and 4). -/
theorem bandChecks_of_headerFailure_none {l : List Byte} (passes : headerFailure l = none) :
    1 ≤ u8 l 5 ∧ boundsRise l (u8 l 5) = true := by
  unfold headerFailure at passes
  split at passes
  · cases passes
  split at passes
  · cases passes
  split at passes
  · cases passes
  next count =>
    split at passes
    · cases passes
    next rise =>
      have counted : 1 ≤ u8 l 5 ∧ u8 l 5 ≤ 12 := by simpa [inRange, Nat.one_le_iff_ne_zero] using count
      exact ⟨counted.1, by simpa using rise⟩

/-- Bounds that rise stay at or above the first one, up to the upper limit. -/
theorem first_le_boundAt {l : List Byte} {b : Nat} (rise : boundsRise l b = true) {i : Nat} (inside : i ≤ b) :
    boundAt l 0 ≤ boundAt l i := by
  induction i with
  | zero => exact le_rfl
  | succ i ih =>
    have step : boundAt l i < boundAt l (i + 1) := by
      simpa using List.all_eq_true.mp rise i (List.mem_range.mpr inside)
    exact (ih (by omega)).trans step.le

/-- The image has one bound for each band of its header. -/
@[simp] theorem parseImage_bands_length (l : List Byte) (a : Nat) : (parseImage l a).bands.length = u8 l 5 := by
  simp [parseImage]

/-- The image's bounds are the header's. -/
theorem parseImage_bound (l : List Byte) (a : Nat) {i : Nat} (band : i < u8 l 5) :
    (parseImage l a).bands.getD i 0 = boundAt l i := by
  simp [parseImage, band]

/-! ### The plain lookup (R48) -/

/-- The largest of a list with 0 is one of them, and none of the list is larger. -/
theorem foldl_max_zero (l : List Nat) : (l.foldl max 0 = 0 ∨ l.foldl max 0 ∈ l) ∧ ∀ i ∈ l, i ≤ l.foldl max 0 := by
  have largest : (0 :: l).max? = some (l.foldl max 0) := rfl
  obtain ⟨member, bound⟩ := List.max?_eq_some_iff.mp largest
  exact ⟨List.mem_cons.mp member, fun i hi => bound i (List.mem_cons_of_mem 0 hi)⟩

/-- At or above the upper limit the last band is chosen. -/
theorem plainBand_of_upper_le {bands : List Int} {upper t : Int} (above : upper ≤ t) :
    plainBand bands upper t = bands.length - 1 := if_pos above

/-- Below the upper limit the largest band whose bound is at most `t` is chosen, and band 0 where there is none. -/
theorem plainBand_of_lt_upper {bands : List Int} {upper t : Int} (below : t < upper) :
    (plainBand bands upper t = 0 ∨
      plainBand bands upper t < bands.length ∧ bands.getD (plainBand bands upper t) 0 ≤ t) ∧
    ∀ i, i < bands.length → bands.getD i 0 ≤ t → i ≤ plainBand bands upper t := by
  have unfolded : plainBand bands upper t =
      ((List.range bands.length).filter fun i => decide (bands.getD i 0 ≤ t)).foldl max 0 :=
    if_neg (not_le.mpr below)
  rw [unfolded]
  simpa only [List.mem_filter, List.mem_range, decide_eq_true_eq, and_imp] using
    foldl_max_zero ((List.range bands.length).filter fun i => decide (bands.getD i 0 ≤ t))

/-- Below every bound band 0 is chosen. -/
theorem plainBand_below {bands : List Int} {upper t : Int} (below : t < upper)
    (under : ∀ i, i < bands.length → t < bands.getD i 0) : plainBand bands upper t = 0 := by
  obtain ⟨zero | ⟨band, reached⟩, -⟩ := plainBand_of_lt_upper (bands := bands) below
  · exact zero
  · exact absurd reached (not_le.mpr (under _ band))

/-- From the first bound up to the upper limit the largest band whose bound is at most `t` is chosen. -/
theorem plainBand_inside {bands : List Int} {upper t : Int} (anyBand : 0 < bands.length)
    (reached : bands.getD 0 0 ≤ t) (below : t < upper) :
    plainBand bands upper t < bands.length ∧ bands.getD (plainBand bands upper t) 0 ≤ t ∧
      ∀ i, i < bands.length → bands.getD i 0 ≤ t → i ≤ plainBand bands upper t := by
  obtain ⟨zero | ⟨band, le⟩, largest⟩ := plainBand_of_lt_upper (bands := bands) below
  · exact ⟨zero ▸ anyBand, zero ▸ reached, largest⟩
  · exact ⟨band, le, largest⟩

/-! ### The margins of the band before, and the history (R49) -/

/-- `t` leaves band `j` two half-degrees below its bound or, below the last band, two above the next one. -/
theorem leavesBand_iff (bands : List Int) (t : Int) (j : Nat) :
    leavesBand bands t j = true ↔
      t < bands.getD j 0 - 2 ∨ (j + 1 < bands.length ∧ bands.getD (j + 1) 0 + 2 ≤ t) := by
  simp [leavesBand]

/-- The margins of a band of an image, in the header's bounds. -/
theorem leavesBand_parseImage (l : List Byte) (a : Nat) (t : Int) {j : Nat} (band : j < u8 l 5) :
    leavesBand (parseImage l a).bands t j = true ↔
      t < boundAt l j - 2 ∨ (j < u8 l 5 - 1 ∧ boundAt l (j + 1) + 2 ≤ t) := by
  rw [leavesBand_iff, parseImage_bands_length, parseImage_bound l a band, ← Nat.lt_sub_iff_add_lt]
  refine or_congr_right (and_congr_right fun notLast => ?_)
  rw [parseImage_bound l a (by omega)]

/-- With history `j` the plain lookup decides once `t` has left band `j`. -/
theorem chooseBand_some (im : Image) (j : Nat) (t : Int) :
    chooseBand im (some j) t = if leavesBand im.bands t j = true then chooseBand im none t else j := rfl

/-- The band selected is the one chosen with the history the state holds. -/
theorem selectBand_fst (im : Image) (t : Int) (s : State) : (selectBand im t s).1 = chooseBand im s.wfs.history t := rfl

/-- The selected band becomes the history, TEMPERATURE posted or not. -/
theorem selectBand_history (im : Image) (t : Int) (s : State) :
    (selectBand im t s).2.wfs.history = some (selectBand im t s).1 := by
  unfold selectBand
  split
  · rw [post_wfs]
  · rfl

/-- Settles O43: the `plainBand` lemmas are the lookup without history, `leavesBand_parseImage` the margins with it and
`selectBand_history` the history left; R37's rising bounds put every bound above a `t` below the first. -/
theorem bandIsSelected : Obligations.BandIsSelected := by
  unfold Obligations.BandIsSelected
  intro l a t s passes
  obtain ⟨one_le, rise⟩ := bandChecks_of_headerFailure_none passes
  have len := parseImage_bands_length l a
  have bound : ∀ i, i < u8 l 5 → (parseImage l a).bands.getD i 0 = boundAt l i := fun i => parseImage_bound l a
  refine ⟨⟨len.symm, one_le, bound, rfl⟩, fun above => ?_, fun under => ?_, fun reached below => ?_,
    fun noHistory => ?_, fun j history band => ?_, selectBand_history _ t s⟩
  · rw [← len]
    exact plainBand_of_upper_le above
  · refine plainBand_below (under.trans_le (first_le_boundAt rise le_rfl)) fun i band => ?_
    rw [len] at band
    rw [bound i band]
    exact under.trans_le (first_le_boundAt rise band.le)
  · obtain ⟨band, le, largest⟩ :=
      plainBand_inside (len.symm ▸ one_le) ((bound 0 one_le).symm ▸ reached) below
    rw [len] at band
    exact ⟨band, bound _ band ▸ le, fun i hi hle => largest i (len.symm ▸ hi) ((bound i hi).symm ▸ hle)⟩
  · rw [selectBand_fst, noHistory]
  · rw [selectBand_fst, history, chooseBand_some]
    simp only [leavesBand_parseImage l a t band]

end Sys2Proof.Machine
end

section
/-! What a command can do to the whole part (`exec_effect`), and with it the laws every step keeps and what changes main memory, BASE, the counts, the settings, the clock and the burst in flight. -/

set_option Elab.async false

namespace Sys2Proof.Machine

/-! ### What a command can do -/

/-- The interconnect's answers. -/
def Instr.answers (c : Instr) : Prop := (∃ l, c = .burstOkay l) ∨ (∃ l, c = .burstRetry l) ∨ ∃ l, c = .burstError l

/-- The command completes the live read of a settings burst. -/
def settingsRead (c : Instr) (s : State) : Prop :=
  ∃ l b, c = .burstOkay l ∧ s.mpt.inflight = some b ∧ b.user = .settings ∧ b.fate = .live

/-- What a command makes of the state: an effect of the units', a reset, a register write, or the completion of the burst in flight
from the memory the answer leaves; all but the resets and the write of BASE are followed by the port's grants, or make no burst. -/
inductive Effect (c : Instr) (s t : State) : Prop
  | kept (u : State) (keeps : Keeps true true s u) (idle : Instr.answers c → u.mpt.inflight = none) (e : t = u ∨ t = portGrants u)
  | soft (isSoft : c = .softReset) (e : t = softReset s)
  | power (isPower : c = .powerOnReset) (e : t = powerOn s)
  | base (v : Word) (isBase : c = .baseWrite v) (e : t = writeBase v s)
  | ack (v : Word) (isAck : c = .ack v) (e : t = portGrants (writeAck v s))
  | answer (b : Burst) (m : Memory) (u : State) (isAnswer : Instr.answers c) (flying : s.mpt.inflight = some b)
      (mem : m = s.mem ∨ ∃ l, l.length ≤ max b.len b.data.length ∧ m = memWriteBytes s.mem b.addr l)
      (keeps : Keeps false true (s.answered m) u) (settings : ¬settingsRead c s → u.settings = s.settings) (e : t = portGrants u)

theorem granted_of_keeps {s t : State} (h : Keeps true true s t) :
    ∃ u, Keeps true true s u ∧ (done t = .next u ∨ done t = .next (portGrants u)) := ⟨t, h, .inr rfl⟩

/-- A plain command's effect is in `Keeps`, the burst in flight among it, before the grants that follow. -/
theorem exec_plain (c : Instr) (s : State) (hc : plainCommand c = true) :
    ∃ u, Keeps true true s u ∧ (exec c s = .next u ∨ exec c s = .next (portGrants u)) := by
  have r : Keeps true true s s := Keeps.refl
  cases c with
  | softReset | powerOnReset | baseWrite | ack | burstOkay | burstRetry | burstError => simp [plainCommand] at hc
  | start => exact granted_of_keeps (keeps_acceptStart r)
  | walk v => exact granted_of_keeps (keeps_writeWalk r v)
  | chainWalkBegin c => exact granted_of_keeps (keeps_chainWalkBegin r c)
  | update => exact granted_of_keeps (keeps_takeAwake r _ _ fun a b _ h => keeps_takeUpdate h a b)
  | stage => exact granted_of_keeps (keeps_takeStaged r _ _ fun a b _ h => keeps_takeStage h a b)
  | unstage => exact granted_of_keeps (keeps_takeStaged r _ _ fun a b _ h => keeps_takeUnstage h a b)
  | waveform => exact granted_of_keeps (keeps_takeInRun r _ _ fun a b _ h => keeps_takeWaveform h a b)
  | light => exact granted_of_keeps (keeps_takeInRun r _ _ fun a b _ h => keeps_takeLight h a b)
  | rest => exact granted_of_keeps (keeps_takeInRun r _ _ fun a b _ h => keeps_takeRest h a b)
  | settings => exact granted_of_keeps (keeps_takeInRun r _ _ fun a b _ h => keeps_takeSettings h a b)
  | turnsSeen => exact granted_of_keeps (keeps_takeInRun r _ _ fun a b _ h => keeps_takeTurnsSeen h a b)
  | openFile => exact granted_of_keeps (keeps_takeAwake r _ _ fun a b _ h => keeps_takeOpen h a b)
  | closeFile => exact granted_of_keeps (keeps_takeRecord r _ _ fun a b _ h => keeps_takeClose h a b)
  | admission => exact granted_of_keeps (keeps_admission r)
  | storeLookupRetry => exact granted_of_keeps (keeps_storeRetry r)
  | retirePassBegin => exact granted_of_keeps (keeps_retireBegin r)
  | frameStart => exact granted_of_keeps (keeps_frameStart r)
  | lineTimeEnd => exact granted_of_keeps (keeps_lineTimeEnd r)
  | stretchLimitExpiry => exact granted_of_keeps (keeps_stretchExpiry r)
  | railGoodAsserted => exact granted_of_keeps (keeps_goodAsserted r)
  | railGoodDeasserted => exact granted_of_keeps (keeps_goodDeasserted r)
  | riseTimeout => exact granted_of_keeps (keeps_riseExpiry r)
  | idleHoldExpiry => exact granted_of_keeps (keeps_idleExpiry r)
  | fallTimerExpiry => exact granted_of_keeps (keeps_fallExpiry r)
  | faultHoldExpiry => exact granted_of_keeps (keeps_holdExpiry r)
  | keyLineChange i b => exact granted_of_keeps (keeps_keyLevel r i b)
  | debounceExpiry i => exact granted_of_keeps (keeps_debounceEnd r i)
  | turnAppendRetry =>
    refine granted_of_keeps ?_
    split
    · exact keeps_turnAppend r
    · exact r
  | rampTick => exact granted_of_keeps (keeps_rampTick r)
  | periodBoundary => exact ⟨_, r.upd, .inl rfl⟩
  | highPhaseEnd g => cases g <;> exact ⟨_, r.upd, .inl rfl⟩
  | chunkFrame l => exact granted_of_keeps (keeps_recvBytes r l)
  | lselInactive => exact granted_of_keeps (keeps_lselOff r)
  | dispatchBegin => exact granted_of_keeps (keeps_dispatchBegin r)
  | stallTimerExpiry i => exact granted_of_keeps (keeps_stallExpiry r i)
  | verifyPassBegin => exact granted_of_keeps (keeps_verifyBegin r)
  | downloadsStopped => exact granted_of_keeps (keeps_downloadsStop r)
  | adcConversionEnd n => exact granted_of_keeps (keeps_conversionEnd r n.toNat)
  | batteryTimerExpiry => exact granted_of_keeps (keeps_batteryExpiry r)
  | temperatureTimerExpiry => exact granted_of_keeps (keeps_temperatureExpiry r)
  | temperatureAgedOut => exact granted_of_keeps (keeps_markAged r)
  | restImageAppendRetry => exact granted_of_keeps (keeps_imageRetry r)
  | quiesceLimit => exact granted_of_keeps (keeps_quiesceLimit r)
  | drainComplete => exact granted_of_keeps (keeps_drainBegin r)
  | enterRest => exact granted_of_keeps (keeps_enterRest r)
  | sleepAckAsserted => exact granted_of_keeps (keeps_ackAsserted r)
  | sleepAckDeasserted => exact granted_of_keeps (keeps_ackDeasserted r)
  | memoryTimerExpiry => exact granted_of_keeps (keeps_memoryExpiry r)
  | restTimerExpiry => exact granted_of_keeps (keeps_restExpiry r)
  | restTurnSleep => exact granted_of_keeps (keeps_restTurnSleep r)


/-- After an answer no burst is in flight. -/
theorem answerOkay_inflight (l : List Byte) (s : State) : (answerOkay l s).mpt.inflight = none := by
  unfold answerOkay
  split
  · next none => exact none
  · dsimp only
    split
    · exact none_of_keeps (keeps_complete (k := false) (b := true) Keeps.refl _ _ _ nofun) rfl
    · exact none_of_keeps (keeps_complete (k := false) (b := true) Keeps.refl _ _ _ nofun) rfl

theorem answerError_inflight (l : List Byte) (s : State) : (answerError l s).mpt.inflight = none := by
  unfold answerError
  split
  · next none => exact none
  · next b _ =>
    obtain ⟨m, e, -⟩ := failedWrite_eq b l { s with mpt.inflight := none }
    rw [e]
    exact none_of_keeps (keeps_complete (k := true) (b := true) Keeps.refl _ _ _ nofun) rfl

theorem answerRetry_inflight (l : List Byte) (s : State) : (answerRetry l s).mpt.inflight = none := by
  unfold answerRetry
  split
  · next none => exact none
  · next b _ =>
    obtain ⟨m, e, -⟩ := failedWrite_eq b l { s with mpt.inflight := none }
    dsimp only
    rw [e]
    split
    · rfl
    · split
      · exact none_of_keeps (keeps_waitAgain (k := true) (b := true) Keeps.refl _) rfl
      · exact none_of_keeps (keeps_complete (k := true) (b := true) Keeps.refl _ _ _ nofun) rfl

/-- What an answer writes is no longer than the burst. -/
theorem take_short (b : Burst) (l : List Byte) : (l.take b.len).length ≤ max b.len b.data.length :=
  (List.length_take_le _ _).trans (le_max_left _ _)

/-- Every command completes, and does one of the things `Effect` lists. -/
theorem exec_effect (c : Instr) (s : State) : ∃ t, exec c s = .next t ∧ Effect c s t := by
  have still : ∀ {u : State}, u.mpt.inflight = none → u = s → Effect c s (portGrants u) := fun {u} none e =>
    .kept u (e ▸ Keeps.refl) (fun _ => none) (.inr rfl)
  by_cases plain : plainCommand c = true
  · have noAnswer : ¬Instr.answers c := by
      rintro (⟨l, rfl⟩ | ⟨l, rfl⟩ | ⟨l, rfl⟩) <;> exact Bool.noConfusion plain
    obtain ⟨u, keeps, e | e⟩ := exec_plain c s plain
    · exact ⟨_, e, .kept u keeps (fun h => absurd h noAnswer) (.inl rfl)⟩
    · exact ⟨_, e, .kept u keeps (fun h => absurd h noAnswer) (.inr rfl)⟩
  · cases c with
    | softReset => exact ⟨_, rfl, .soft rfl rfl⟩
    | powerOnReset => exact ⟨_, rfl, .power rfl rfl⟩
    | baseWrite v => exact ⟨_, rfl, .base v rfl rfl⟩
    | ack v => exact ⟨_, rfl, .ack v rfl rfl⟩
    | burstOkay l =>
      refine ⟨_, rfl, ?_⟩
      rcases answerOkay_keeps l s with same | ⟨b, m, hb, hm, hk, hs⟩
      · exact still (answerOkay_inflight l s) same
      · refine .answer b m _ (.inl ⟨l, rfl⟩) hb (.inr ?_) hk (fun no => hs fun user live => no ⟨l, b, rfl, hb, user, live⟩) rfl
        exact hm.elim (fun e => ⟨_, le_max_right _ _, e⟩) fun e => ⟨_, take_short b l, e⟩
    | burstRetry l =>
      refine ⟨_, rfl, ?_⟩
      rcases answerRetry_keeps l s with same | ⟨b, m, hb, hm, hk⟩
      · exact still (answerRetry_inflight l s) same
      · exact .answer b m _ (.inr (.inl ⟨l, rfl⟩)) hb (hm.imp_right fun e => ⟨_, take_short b l, e⟩) hk.weaken
          (fun _ => hk.core.settings rfl) rfl
    | burstError l =>
      refine ⟨_, rfl, ?_⟩
      rcases answerError_keeps l s with same | ⟨b, m, hb, hm, hk⟩
      · exact still (answerError_inflight l s) same
      · exact .answer b m _ (.inr (.inr ⟨l, rfl⟩)) hb (hm.imp_right fun e => ⟨_, take_short b l, e⟩) hk.weaken
          (fun _ => hk.core.settings rfl) rfl
    | _ => exact absurd rfl plain

theorem effect_of_exec {c : Instr} {s t : State} (e : exec c s = .next t) : Effect c s t := by
  obtain ⟨u, eu, h⟩ := exec_effect c s
  cases eu.symm.trans e
  exact h

/-- What is kept with the burst in flight and the settings is kept without them. -/
theorem Keeps.bare {k b : Bool} {s t : State} (h : Keeps k b s t) : Keeps false false s t :=
  ⟨{ h.core with burst := nofun, settings := nofun }, h.panel⟩

theorem keeps_grants_of {k : Bool} {u : State} : Keeps k false u (portGrants u) := keeps_portGrants Keeps.refl

/-- What an effect of the units' and the grants that may follow keep. -/
theorem keeps_kept {s t u : State} (keeps : Keeps true true s u) (e : t = u ∨ t = portGrants u) : Keeps true false s t := by
  have bare : Keeps true false s u := ⟨{ keeps.core with burst := nofun }, keeps.panel⟩
  rcases e with rfl | rfl
  · exact bare
  · exact keeps_portGrants bare

/-- What the completion of a burst and the grants that follow keep. -/
theorem keeps_answer {s u : State} (keeps : Keeps false true s u) : Keeps false false s (portGrants u) :=
  keeps_portGrants keeps.bare

/-- What a write of ACK leaves of everything but the acknowledged counts, INT, the capture and the status writers. -/
theorem writeAck_frame (v : Word) (s : State) :
    ∃ a i w q c, writeAck v s = { s with
      sif.acked := a, sif.int := i, sif.writers := w, mpt.stationQueue := q, mpt.capture := c } := by
  by_cases cause : v.toNat / 65536 % 16 ≤ 11
  · obtain ⟨w, q, e⟩ := writeAck_eq s cause
    exact ⟨_, _, _, _, _, e⟩
  · exact ⟨_, _, _, _, _, writeAck_of_no_cause s (Nat.lt_of_not_le cause)⟩

theorem writeBase_eq (v : Word) (s : State) :
    writeBase v s = { s with sif.base := if s.rsc.part = .stopped then v &&& 0xFFFFF000 else s.sif.base } := by
  unfold writeBase
  split <;> rfl

/-- A predicate that the units' effects, the resets, the two register writes and the writes of answers keep is kept by every
command. -/
theorem exec_preserves {P : State → Prop} (kept : ∀ {s t}, Keeps false false s t → P s → P t)
    (soft : ∀ s, P s → P (softReset s)) (power : ∀ s, P s → P (powerOn s)) (base : ∀ v s, P s → P (writeBase v s))
    (ack : ∀ v s, P s → P (writeAck v s))
    (answered : ∀ s m, (m = s.mem ∨ ∃ a l, m = memWriteBytes s.mem a l) → P s → P (s.answered m))
    {c : Instr} {s t : State} (e : exec c s = .next t) (h : P s) : P t := by
  cases effect_of_exec e with
  | kept u keeps idle e => exact kept (keeps_kept keeps e).bare h
  | soft _ e => exact e ▸ soft s h
  | power _ e => exact e ▸ power s h
  | base v _ e => exact e ▸ base v s h
  | ack v _ e => exact e ▸ kept keeps_grants_of (ack v s h)
  | answer b m u _ _ mem keeps _ e =>
    exact e ▸ kept (keeps_answer keeps) (answered s m (mem.imp_right fun ⟨l, _, e⟩ => ⟨_, l, e⟩) h)

/-- A step is the idle millisecond or the front command on the queue's rest. -/
theorem step_cases {s t : State} (e : step s = .next t) :
    t = s.tick ∨ ∃ c l, s.pending = c :: l ∧ exec c (s.withPending l) = .next t := by
  unfold step at e
  split at e
  · cases e
    exact .inl rfl
  · next c l hp => exact .inr ⟨c, l, hp, e⟩

/-- A predicate on what neither the queue nor the clock is part of is kept by a step when every command keeps it. -/
theorem step_preserves {P : State → Prop} (tick : ∀ s, P s → P s.tick) (queue : ∀ s l, P s → P (s.withPending l))
    (command : ∀ {c s t}, exec c s = .next t → P s → P t) {s t : State} (e : step s = .next t) (h : P s) : P t := by
  rcases step_cases e with rfl | ⟨c, l, -, e⟩
  · exact tick s h
  · exact command e (queue s l h)

/-! ### INT, main memory and BASE -/

theorem intLaw_writeAck (v : Word) (s : State) (h : s.intLaw = true) : (writeAck v s).intLaw = true := by
  by_cases cause : v.toNat / 65536 % 16 ≤ 11
  · obtain ⟨w, q, e⟩ := writeAck_eq s cause
    rw [e]
    exact beq_self_eq_true _
  · rw [writeAck_of_no_cause s (Nat.lt_of_not_le cause)]
    exact h

theorem sound_iff (s : State) : s.sound = true ↔ Memory.wf s.mem = true ∧ s.intLaw = true := by
  simp [State.sound]

/-- At reset INT follows the counts and the mask. -/
theorem reset_intLaw : State.reset.intLaw = true := by decide

/-- Every command keeps main memory in canonical form and INT following the counts and the mask. -/
theorem exec_sound {c : Instr} {s t : State} (e : exec c s = .next t) (h : s.sound = true) : t.sound = true := by
  refine exec_preserves (P := fun s => s.sound = true) (fun hk h => ?_) (fun s h => ?_) (fun s h => ?_) (fun v s h => ?_)
    (fun v s h => ?_) (fun s m hm h => ?_) e h <;> rw [sound_iff] at h ⊢
  · exact ⟨hk.core.mem ▸ h.1, hk.core.int h.2⟩
  · exact ⟨h.1, reset_intLaw⟩
  · exact ⟨h.1, reset_intLaw⟩
  · rw [writeBase_eq]
    exact h
  · refine ⟨?_, intLaw_writeAck v s h.2⟩
    obtain ⟨a, i, w, q, c, e⟩ := writeAck_frame v s
    rw [e]
    exact h.1
  · refine ⟨?_, h.2⟩
    rcases hm with rfl | ⟨a, l, rfl⟩
    · exact h.1
    · exact memWriteBytes_wf _ _ _ h.1

/-- A write of BASE discards the low twelve bits (R3). -/
theorem baseMask_toNat (v : Word) : (v &&& 0xFFFFF000).toNat = v.toNat / 4096 * 4096 := by
  have shifted : v &&& (0xFFFFF000 : Word) = (v >>> 12) <<< 12 := by
    ext i hi
    interval_cases i <;> simp [BitVec.getLsbD, BitVec.getElem_eq_testBit_toNat v]
  rw [shifted, BitVec.toNat_shiftLeft, BitVec.toNat_ushiftRight, Nat.shiftLeft_eq, Nat.shiftRight_eq_div_pow]
  omega

/-- Every command keeps BASE aligned. -/
theorem exec_baseAligned {c : Instr} {s t : State} (e : exec c s = .next t) (h : s.baseAligned = true) :
    t.baseAligned = true := by
  refine exec_preserves (P := fun s => s.baseAligned = true) (fun hk h => ?_) (fun s h => h) (fun s h => rfl) (fun v s h => ?_)
    (fun v s h => ?_) (fun s m hm h => h) e h
  · simp only [State.baseAligned, hk.core.base]
    exact h
  · rw [writeBase_eq]
    unfold State.baseAligned
    dsimp only
    split
    · rw [beq_iff_eq, baseMask_toNat, Nat.mul_mod_left]
    · exact h
  · obtain ⟨a, i, w, q, c, e⟩ := writeAck_frame v s
    rw [e]
    exact h

/-- Settles O5: `exec_sound` and `exec_baseAligned`, the idle millisecond and the queue being no part of the laws. -/
theorem stepKeepsSoundAndAligned : Obligations.StepKeepsSoundAndAligned :=
  ⟨fun _ _ h e => step_preserves (P := fun s => s.sound = true) (fun _ h => h) (fun _ _ h => h) exec_sound e h,
   fun _ _ h e => step_preserves (P := fun s => s.baseAligned = true) (fun _ h => h) (fun _ _ h => h) exec_baseAligned e h⟩

/-! ### The panel and the turn unit -/

theorem exec_panelLaw {c : Instr} {s t : State} (e : exec c s = .next t) (h : s.panelLaw = true) : t.panelLaw = true := by
  refine exec_preserves (P := fun s => s.panelLaw = true) (fun hk h => hk.panel h) (fun s h => rfl) (fun s h => rfl)
    (fun v s h => ?_) (fun v s h => ?_) (fun s m hm h => h) e h
  · rw [writeBase_eq]
    exact h
  · obtain ⟨a, i, w, q, c, e⟩ := writeAck_frame v s
    rw [e]
    exact h

/-- Settles O6: the laws of the panel are part of what `Keeps` says, and both resets leave every lane FREE and the supply OFF. -/
theorem stepKeepsPanelLaw : Obligations.StepKeepsPanelLaw := fun _ _ h e =>
  step_preserves (P := fun s => s.panelLaw = true) (fun _ h => h) (fun _ _ h => h) exec_panelLaw e h

theorem exec_turnLaw {c : Instr} {s t : State} (e : exec c s = .next t) (h : s.turnLaw = true) : t.turnLaw = true := by
  refine exec_preserves (P := fun s => s.turnLaw = true) (fun hk h => hk.core.turns h) (fun s h => rfl) (fun s h => rfl)
    (fun v s h => ?_) (fun v s h => ?_) (fun s m hm h => h) e h
  · rw [writeBase_eq]
    exact h
  · obtain ⟨a, i, w, q, c, e⟩ := writeAck_frame v s
    rw [e]
    exact h

/-- Settles O7: the capacities are part of what `Keeps` says, and both resets empty the log, the lists and the queue. -/
theorem stepKeepsTurnLaw : Obligations.StepKeepsTurnLaw := fun _ _ h e =>
  step_preserves (P := fun s => s.turnLaw = true) (fun _ h => h) (fun _ _ h => h) exec_turnLaw e h

/-! ### Main memory under an answer -/

/-- A write of at most the burst's bytes at its address leaves the addresses outside. -/
theorem memRead_outside {m : Memory} {b : Burst} {l : List Byte} (short : l.length ≤ max b.len b.data.length) {a : Nat}
    (outside : a < b.addr ∨ b.addr + max b.len b.data.length ≤ a) : memRead (memWriteBytes m b.addr l) a = memRead m a := by
  rw [memRead_write, if_neg (by omega)]

/-- Settles O8: only the completion of the burst in flight begins from another memory, which the answer has written at the burst's
own bytes. -/
theorem memoryChangesOnlyUnderBurst : Obligations.MemoryChangesOnlyUnderBurst := by
  intro c s t e
  cases effect_of_exec e with
  | kept u keeps idle e => exact .inl (keeps_kept keeps e).core.mem
  | soft _ e => exact .inl (e ▸ rfl)
  | power _ e => exact .inl (e ▸ rfl)
  | base v _ e => exact .inl (by rw [e, writeBase_eq])
  | ack v _ e =>
    obtain ⟨a, i, w, q, c, frame⟩ := writeAck_frame v s
    exact .inl (by rw [e, keeps_grants_of (k := true).core.mem, frame])
  | answer b m u isAnswer flying mem keeps _ e =>
    refine .inr ⟨b, flying, isAnswer, fun a outside => ?_⟩
    rw [e, (keeps_answer keeps).core.mem]
    rcases mem with rfl | ⟨l, short, rfl⟩
    · rfl
    · exact memRead_outside short outside

/-! ### The capture, BASE, the acknowledged counts, the settings and the clock -/

theorem capture_of_fixed {c d : Capture} (h : c.fixed = d.fixed) : { c with further := d.further } = d := by
  cases c
  cases d
  simp_all [Capture.fixed]

/-- Settles O9: the fields are part of what `Keeps` says, and the remaining effects are read off their equations. -/
theorem onlyTheirCommandsChangeThem : Obligations.OnlyTheirCommandsChangeThem := by
  refine ⟨fun c s t full notAck notSoft notPower e => ?_, fun c s t e notPower => ?_⟩
  · cases effect_of_exec e with
    | kept u keeps idle e => exact capture_of_fixed ((keeps_kept keeps e).core.capture full)
    | soft isSoft _ => exact absurd isSoft notSoft
    | power isPower _ => exact absurd isPower notPower
    | base v _ e => rw [e, writeBase_eq]
    | ack v isAck _ => exact absurd isAck (notAck v)
    | answer b m u _ _ _ keeps _ e => exact e ▸ capture_of_fixed ((keeps_answer keeps).core.capture full)
  · cases effect_of_exec e with
    | kept u keeps idle e =>
      have h := (keeps_kept keeps e).core
      exact ⟨fun _ => h.base, fun _ _ => h.acked, h.time, fun _ => h.settings rfl⟩
    | soft isSoft e =>
      subst e
      exact ⟨fun _ => rfl, fun _ notSoft => absurd isSoft notSoft, rfl, fun _ => rfl⟩
    | power isPower _ => exact absurd isPower notPower
    | base v isBase e =>
      rw [e, writeBase_eq]
      exact ⟨fun notBase => absurd isBase (notBase v), fun _ _ => rfl, rfl, fun _ => rfl⟩
    | ack v isAck e =>
      obtain ⟨a, i, w, q, c, frame⟩ := writeAck_frame v s
      have h := (keeps_grants_of (k := true) (u := writeAck v s)).core
      rw [← e, frame] at h
      exact ⟨fun _ => h.base, fun notAck => absurd isAck (notAck v), h.time, fun _ => h.settings rfl⟩
    | answer b m u _ flying _ keeps settings e =>
      subst e
      have h := (keeps_answer keeps).core
      refine ⟨fun _ => h.base, fun _ _ => h.acked, h.time, fun other => ?_⟩
      rw [keeps_grants_of (k := true).core.settings rfl]
      exact settings fun ⟨l, b, isOkay, flying, user, live⟩ => other l isOkay b flying user live

/-! ### Grants -/

/-- What the units make changes only the waiting bursts and their lists of bursts still to make (R21). -/
theorem pumpScan_sansBursts (s : State) : (pumpScan s).sansBursts = s.sansBursts ∧ (pumpScan s).mpt.inflight = s.mpt.inflight := by
  unfold pumpScan
  repeat' split
  all_goals exact ⟨rfl, rfl⟩

theorem pumpPixel_sansBursts (s : State) : (pumpPixel s).sansBursts = s.sansBursts ∧ (pumpPixel s).mpt.inflight = s.mpt.inflight := by
  unfold pumpPixel
  repeat' split
  all_goals exact ⟨rfl, rfl⟩

theorem pumpDownload_sansBursts (s : State) :
    (pumpDownload s).sansBursts = s.sansBursts ∧ (pumpDownload s).mpt.inflight = s.mpt.inflight := by
  unfold pumpDownload
  repeat' split
  all_goals exact ⟨rfl, rfl⟩

theorem pumpVerify_sansBursts (s : State) : (pumpVerify s).sansBursts = s.sansBursts ∧ (pumpVerify s).mpt.inflight = s.mpt.inflight := by
  unfold pumpVerify
  split
  · exact ⟨rfl, rfl⟩
  · split
    · exact ⟨rfl, rfl⟩
    · dsimp only
      split <;> exact ⟨rfl, rfl⟩

theorem pump_sansBursts (s : State) : (pump s).sansBursts = s.sansBursts ∧ (pump s).mpt.inflight = s.mpt.inflight :=
  have h1 := pumpScan_sansBursts s
  have h2 := pumpPixel_sansBursts (pumpScan s)
  have h3 := pumpDownload_sansBursts (pumpPixel (pumpScan s))
  have h4 := pumpVerify_sansBursts (pumpDownload (pumpPixel (pumpScan s)))
  ⟨h4.1.trans (h3.1.trans (h2.1.trans h1.1)), h4.2.trans (h3.2.trans (h2.2.trans h1.2))⟩

theorem pump_portOpen (s : State) : portOpen (pump s) = portOpen s := by
  have same : portOpen (pump s).sansBursts = portOpen s.sansBursts := congrArg portOpen (pump_sansBursts s).1
  exact same

/-- The port's grants, unfolded once. -/
theorem portGrants_eq (s : State) : portGrants s = grants (65535 + 1) s := rfl

/-- With the port closed or a burst in flight the grants are what the units make (R21, R24). -/
theorem portGrants_closed {s : State} (h : s.mpt.inflight.isSome = true ∨ portOpen s = false) : portGrants s = pump s := by
  rw [portGrants_eq, grants]
  dsimp only
  rw [if_neg]
  rw [pump_portOpen, (pump_sansBursts s).2]
  rcases h with h | h
  · simp [Option.isNone_eq_false_iff.mpr h]
  · simp [h]

/-- Settles O10: a command begins its grants without a burst in flight, or leaves the one there was, and `grants_granted` says what
the grants put in flight; with the port busy or closed they are the units' making of bursts alone. -/
theorem grantedBurstPassed : Obligations.GrantedBurstPassed := by
  refine ⟨fun c s t b run flies fresh => ?_, fun s h => ?_⟩
  · have stood : ¬Instr.answers c → s.mpt.inflight = none := fun h => fresh.resolve_right h
    cases effect_of_exec run with
    | kept u keeps idle e =>
      have none : u.mpt.inflight = none := fresh.elim (none_of_keeps keeps) idle
      rcases e with rfl | rfl
      · cases none.symm.trans flies
      · exact grants_granted _ none flies
    | soft isSoft e =>
      subst isSoft e
      rw [softReset, stood (by simp [Instr.answers])] at flies
      cases flies
    | power isPower e =>
      subst e
      cases flies
    | base v isBase e =>
      subst isBase e
      rw [writeBase_eq] at flies
      cases (stood (by simp [Instr.answers])).symm.trans flies
    | ack v isAck e =>
      subst isAck e
      obtain ⟨a, i, w, q, c, frame⟩ := writeAck_frame v s
      refine grants_granted _ ?_ flies
      rw [frame]
      exact stood (by simp [Instr.answers])
    | answer b m u isAnswer flying mem keeps settings e =>
      subst e
      exact grants_granted _ (none_of_keeps keeps rfl) flies
  · rw [portGrants_closed h]
    exact pump_sansBursts s

end Sys2Proof.Machine
end

section
/-! Extent maps: what merging a chunk does to a map in order (R161, R162), and `Obligations.FileTableKeepsItsLaws`. -/

set_option Elab.async false

namespace Sys2Proof.Machine

/-! ### Maps in order -/

/-- Extents that are not empty and ascend with gaps (R162). -/
def Ascending (m : List (Nat × Nat)) : Prop := (∀ e ∈ m, e.1 < e.2) ∧ m.Pairwise fun e f => e.2 < f.1

theorem ascending_cons {e : Nat × Nat} {l : List (Nat × Nat)} :
    Ascending (e :: l) ↔ e.1 < e.2 ∧ (∀ f ∈ l, e.2 < f.1) ∧ Ascending l := by
  simp only [Ascending, List.forall_mem_cons, List.pairwise_cons]
  tauto

/-- A map in order: every extent lies in the file, and they ascend with gaps. -/
theorem extentsOk_iff (len : Nat) (m : List (Nat × Nat)) : extentsOk len m = true ↔
    (∀ e ∈ m, e.1 < e.2 ∧ e.2 ≤ len) ∧ m.Pairwise fun e f => e.2 < f.1 := by
  induction m with
  | nil => simp [extentsOk]
  | cons e l ih =>
    cases l with
    | nil => simp [extentsOk]
    | cons f l =>
      rw [extentsOk, Bool.and_eq_true, ih]
      simp only [Bool.and_eq_true, decide_eq_true_eq, List.forall_mem_cons, List.pairwise_cons]
      constructor
      · rintro ⟨⟨⟨h1, h2⟩, h3⟩, ⟨h4, h5⟩, h6, h7⟩
        exact ⟨⟨⟨h1, h2⟩, h4, h5⟩, ⟨h3, fun g hg => h3.trans (h4.1.trans (h6 g hg))⟩, h6, h7⟩
      · rintro ⟨⟨⟨h1, h2⟩, h4, h5⟩, ⟨h3, -⟩, h6, h7⟩
        exact ⟨⟨⟨h1, h2⟩, h3⟩, ⟨h4, h5⟩, h6, h7⟩

theorem ascending_of_ok {len : Nat} {m : List (Nat × Nat)} (ok : extentsOk len m = true) : Ascending m :=
  have h := (extentsOk_iff len m).mp ok
  ⟨fun e he => (h.1 e he).1, h.2⟩

/-- A map in order is what lies below a range, what touches it and what lies above it, in this order. -/
theorem split_by_range {a b : Nat} (ab : a < b) {m : List (Nat × Nat)} (asc : Ascending m) :
    m = m.filter (fun e => decide (e.2 < a)) ++ m.filter (touches a b) ++ m.filter fun e => decide (b < e.1) := by
  induction m with
  | nil => rfl
  | cons e l ih =>
    obtain ⟨he, gap, asc⟩ := ascending_cons.mp asc
    have full := asc.1
    specialize ih asc
    by_cases below : e.2 < a
    · have notTouching : touches a b e = false := by simp [touches]; omega
      have notAbove : ¬ b < e.1 := by omega
      simpa [below, notTouching, notAbove] using ih
    · have noneBelow : l.filter (fun f => decide (f.2 < a)) = [] := by
        refine List.filter_eq_nil_iff.mpr fun f hf => ?_
        have := gap f hf
        have := full f hf
        simp only [decide_eq_true_eq]
        omega
      rw [noneBelow] at ih
      by_cases above : b < e.1
      · have noneTouching : l.filter (touches a b) = [] := by
          refine List.filter_eq_nil_iff.mpr fun f hf => ?_
          have := gap f hf
          simp [touches]
          omega
        have notTouching : touches a b e = false := by simp [touches]; omega
        rw [noneTouching] at ih
        simpa [below, above, notTouching, noneBelow, noneTouching] using ih
      · have touching : touches a b e = true := by simp [touches]; omega
        simpa [below, above, touching, noneBelow] using ih

/-! ### The range a merge makes -/

theorem foldl_min_le (l : List Nat) (a : Nat) :
    l.foldl min a ≤ a ∧ (∀ x ∈ l, l.foldl min a ≤ x) ∧ (l.foldl min a = a ∨ l.foldl min a ∈ l) := by
  have least : (a :: l).min? = some (l.foldl min a) := rfl
  obtain ⟨member, bound⟩ := List.min?_eq_some_iff.mp least
  exact ⟨bound a List.mem_cons_self, fun x hx => bound x (List.mem_cons_of_mem a hx), List.mem_cons.mp member⟩

theorem le_foldl_max (l : List Nat) (a : Nat) :
    a ≤ l.foldl max a ∧ (∀ x ∈ l, x ≤ l.foldl max a) ∧ (l.foldl max a = a ∨ l.foldl max a ∈ l) := by
  have largest : (a :: l).max? = some (l.foldl max a) := rfl
  obtain ⟨member, bound⟩ := List.max?_eq_some_iff.mp largest
  exact ⟨bound a List.mem_cons_self, fun x hx => bound x (List.mem_cons_of_mem a hx), List.mem_cons.mp member⟩

/-- The extent that a merge of [a, b) with the extents it touches makes. -/
def merged (a b : Nat) (t : List (Nat × Nat)) : Nat × Nat :=
  ((t.map Prod.fst).foldl min a, (t.map Prod.snd).foldl max b)

theorem mergeExtent_eq (m : List (Nat × Nat)) (a b : Nat) : mergeExtent m a b =
    m.filter (fun e => decide (e.2 < a)) ++ merged a b (m.filter (touches a b)) :: m.filter fun e => decide (b < e.1) := by
  simp [mergeExtent, merged]

theorem merged_fst_le (a b : Nat) (t : List (Nat × Nat)) : (merged a b t).1 ≤ a := (foldl_min_le _ a).1

theorem le_merged_snd (a b : Nat) (t : List (Nat × Nat)) : b ≤ (merged a b t).2 := (le_foldl_max _ b).1

theorem merged_fst_le_of_mem {a b : Nat} {t : List (Nat × Nat)} {e : Nat × Nat} (he : e ∈ t) : (merged a b t).1 ≤ e.1 :=
  (foldl_min_le _ a).2.1 e.1 (List.mem_map_of_mem he)

theorem le_merged_snd_of_mem {a b : Nat} {t : List (Nat × Nat)} {e : Nat × Nat} (he : e ∈ t) : e.2 ≤ (merged a b t).2 :=
  (le_foldl_max _ b).2.1 e.2 (List.mem_map_of_mem he)

theorem merged_fst_cases (a b : Nat) (t : List (Nat × Nat)) : (merged a b t).1 = a ∨ ∃ e ∈ t, (merged a b t).1 = e.1 :=
  (foldl_min_le (t.map Prod.fst) a).2.2.imp_right fun h => by
    obtain ⟨e, he, same⟩ := List.mem_map.mp h
    exact ⟨e, he, same.symm⟩

theorem merged_snd_cases (a b : Nat) (t : List (Nat × Nat)) : (merged a b t).2 = b ∨ ∃ e ∈ t, (merged a b t).2 = e.2 :=
  (le_foldl_max (t.map Prod.snd) b).2.2.imp_right fun h => by
    obtain ⟨e, he, same⟩ := List.mem_map.mp h
    exact ⟨e, he, same.symm⟩

/-- The made extent covers the range and what it touches, and nothing else. -/
theorem covers_merged {a b : Nat} {t : List (Nat × Nat)} (touching : ∀ e ∈ t, e.1 ≤ b ∧ a ≤ e.2) (x : Nat) :
    (merged a b t).1 ≤ x ∧ x < (merged a b t).2 ↔ (a ≤ x ∧ x < b) ∨ ∃ e ∈ t, e.1 ≤ x ∧ x < e.2 := by
  have lo := merged_fst_le a b t
  have hi := le_merged_snd a b t
  constructor
  · rintro ⟨h1, h2⟩
    by_cases low : x < a
    · obtain same | ⟨e, he, same⟩ := merged_fst_cases a b t
      · omega
      · exact .inr ⟨e, he, same ▸ h1, low.trans_le (touching e he).2⟩
    · by_cases high : x < b
      · exact .inl ⟨Nat.le_of_not_lt low, high⟩
      · obtain same | ⟨e, he, same⟩ := merged_snd_cases a b t
        · omega
        · exact .inr ⟨e, he, (touching e he).1.trans (Nat.le_of_not_lt high), same ▸ h2⟩
  · rintro (h | ⟨e, he, h1, h2⟩)
    · omega
    · exact ⟨(merged_fst_le_of_mem he).trans h1, h2.trans_le (le_merged_snd_of_mem he)⟩

theorem touching_of_mem {a b : Nat} {m : List (Nat × Nat)} : ∀ e ∈ m.filter (touches a b), e.1 ≤ b ∧ a ≤ e.2 := fun e he => by
  simpa [touches] using (List.mem_filter.mp he).2

/-- Merging keeps a map in order. -/
theorem extentsOk_merge {len a b : Nat} {m : List (Nat × Nat)} (ok : extentsOk len m = true) (ab : a < b) (inside : b ≤ len) :
    extentsOk len (mergeExtent m a b) = true := by
  obtain ⟨each, apart⟩ := (extentsOk_iff len m).mp ok
  have parts := split_by_range ab (ascending_of_ok ok)
  rw [mergeExtent_eq, extentsOk_iff]
  rw [parts, List.pairwise_append, List.pairwise_append] at apart
  obtain ⟨⟨apartA, -, gapAT⟩, apartB, gapB⟩ := apart
  have lo := merged_fst_le a b (m.filter (touches a b))
  have hi := le_merged_snd a b (m.filter (touches a b))
  refine ⟨fun e he => ?_, List.pairwise_append.mpr ⟨apartA, List.pairwise_cons.mpr ⟨fun f hf => ?_, apartB⟩, fun e he f hf => ?_⟩⟩
  · rcases List.mem_append.mp he with he | he
    · exact each e (List.mem_of_mem_filter he)
    · rcases List.mem_cons.mp he with rfl | he
      · refine ⟨by omega, ?_⟩
        obtain same | ⟨f, hf, same⟩ := merged_snd_cases a b (m.filter (touches a b))
        · omega
        · exact same.trans_le (each f (List.mem_of_mem_filter hf)).2
      · exact each e (List.mem_of_mem_filter he)
  · obtain same | ⟨g, hg, same⟩ := merged_snd_cases a b (m.filter (touches a b))
    · have := (List.mem_filter.mp hf).2
      simp only [decide_eq_true_eq] at this
      omega
    · exact same.trans_lt (gapB g (List.mem_append_right _ hg) f hf)
  · rcases List.mem_cons.mp hf with rfl | hf
    · obtain same | ⟨g, hg, same⟩ := merged_fst_cases a b (m.filter (touches a b))
      · have := (List.mem_filter.mp he).2
        simp only [decide_eq_true_eq] at this
        omega
      · exact (gapAT e he g hg).trans_eq same.symm
    · exact gapB e (List.mem_append_left _ he) f hf

/-- Merging leaves the extents it does not touch and one more. -/
theorem length_mergeExtent {a b : Nat} (ab : a < b) {m : List (Nat × Nat)} (asc : Ascending m) :
    (mergeExtent m a b).length = m.length + 1 - (m.filter (touches a b)).length := by
  have parts := congrArg List.length (split_by_range ab asc)
  rw [mergeExtent_eq]
  simp only [List.length_append, List.length_cons] at parts ⊢
  omega

/-- A merged map covers what was covered or lies in the range. -/
theorem covers_mergeExtent {a b : Nat} (ab : a < b) {m : List (Nat × Nat)} (asc : Ascending m) (x : Nat) :
    (∃ e ∈ mergeExtent m a b, e.1 ≤ x ∧ x < e.2) ↔ (a ≤ x ∧ x < b) ∨ ∃ e ∈ m, e.1 ≤ x ∧ x < e.2 := by
  conv_rhs => rw [split_by_range ab asc]
  rw [mergeExtent_eq]
  simp only [List.mem_append, List.mem_cons, or_and_right, exists_or, exists_eq_left, covers_merged touching_of_mem,
    or_assoc]
  exact or_left_comm

/-! ### The uncovered parts -/

/-- From the range's end on nothing is uncovered. -/
theorem uncovered_past : ∀ (m : List (Nat × Nat)) {a b : Nat}, b ≤ a → uncovered m a b = []
  | [], a, b, h => if_neg (by omega)
  | e :: l, a, b, h => by rw [uncovered, if_neg (by omega), uncovered_past l (by omega), List.nil_append]

/-- Extents below the range cover nothing of it. -/
theorem uncovered_below (m : List (Nat × Nat)) {a b : Nat} (n : List (Nat × Nat)) (below : ∀ e ∈ m, e.1 < e.2 ∧ e.2 < a) :
    uncovered (m ++ n) a b = uncovered n a b := by
  induction m with
  | nil => rfl
  | cons e l ih =>
    obtain ⟨he, below⟩ := List.forall_mem_cons.mp below
    rw [List.cons_append, uncovered, if_neg (by omega), List.nil_append, max_eq_left (by omega)]
    exact ih below

/-- Extents above the range cover nothing of it. -/
theorem uncovered_above (m : List (Nat × Nat)) {b : Nat} (n : List (Nat × Nat)) (above : ∀ e ∈ n, b < e.1 ∧ e.1 < e.2) :
    ∀ a, uncovered (m ++ n) a b = uncovered m a b := by
  induction m with
  | nil =>
    intro a
    cases n with
    | nil => rfl
    | cons e l =>
      have := above e List.mem_cons_self
      have cut : uncovered (e :: l) a b = (if a < min e.1 b then [(a, min e.1 b)] else []) ++ uncovered l (max a e.2) b := rfl
      rw [List.nil_append, cut, uncovered_past l (by omega), List.append_nil, min_eq_right (by omega)]
      rfl
  | cons e l ih =>
    intro a
    rw [List.cons_append, uncovered, uncovered, ih]

theorem extentSum_append (m n : List (Nat × Nat)) : extentSum (m ++ n) = extentSum m + extentSum n := by
  simp [extentSum]

theorem extentSum_cons (e : Nat × Nat) (l : List (Nat × Nat)) : extentSum (e :: l) = e.2 - e.1 + extentSum l := by
  simp [extentSum]

/-- From a point on, extents that begin at or after it and at most at `b`: their farthest end or `b`, whichever is farther, is as
far away as the bytes they cover and those they leave uncovered up to `b`. -/
theorem farthest_eq {b : Nat} : ∀ (t : List (Nat × Nat)) (p : Nat), Ascending t → (∀ e ∈ t, p ≤ e.1 ∧ e.1 ≤ b) →
    (t.map Prod.snd).foldl max (max p b) = p + extentSum t + extentSum (uncovered t p b)
  | [], p, _, _ => by
    simp only [List.map_nil, List.foldl_nil, uncovered, extentSum]
    split <;> simp <;> omega
  | e :: l, p, asc, after => by
    obtain ⟨he, gap, asc⟩ := ascending_cons.mp asc
    obtain ⟨⟨pe, eb⟩, after⟩ := List.forall_mem_cons.mp after
    have ih := farthest_eq l e.2 asc fun f hf => ⟨(gap f hf).le, (after f hf).2⟩
    rw [uncovered, extentSum_append, extentSum_cons, List.map_cons, List.foldl_cons, max_eq_right (pe.trans he.le),
      show max (max p b) e.2 = max e.2 b by omega, ih, min_eq_left eb]
    split <;> simp [extentSum] <;> omega

/-- What a merge makes of the extents it touches: its length is what they cover and what they leave uncovered. -/
theorem merged_length {a b : Nat} (ab : a < b) {t : List (Nat × Nat)} (asc : Ascending t)
    (touching : ∀ e ∈ t, e.1 ≤ b ∧ a ≤ e.2) :
    (merged a b t).2 - (merged a b t).1 = extentSum t + extentSum (uncovered t a b) := by
  by_cases early : ∃ e l, t = e :: l ∧ e.1 < a
  · obtain ⟨e, l, rfl, early⟩ := early
    obtain ⟨he, gap, asc⟩ := ascending_cons.mp asc
    obtain ⟨⟨-, ae⟩, touching⟩ := List.forall_mem_cons.mp touching
    have far := farthest_eq l e.2 asc fun f hf => ⟨(gap f hf).le, (touching f hf).1⟩
    have lo : (merged a b (e :: l)).1 = e.1 := by
      refine le_antisymm (merged_fst_le_of_mem List.mem_cons_self) ?_
      obtain same | ⟨f, hf, same⟩ := merged_fst_cases a b (e :: l)
      · omega
      · rcases List.mem_cons.mp hf with rfl | hf
        · exact same.ge
        · have := gap f hf
          omega
    have hi : (merged a b (e :: l)).2 = (l.map Prod.snd).foldl max (max e.2 b) := by
      rw [max_comm]
      rfl
    rw [lo, hi, far, extentSum_cons, uncovered, if_neg (by omega), List.nil_append, max_eq_right ae]
    omega
  · have after : ∀ e ∈ t, a ≤ e.1 ∧ e.1 ≤ b := by
      cases t with
      | nil => nofun
      | cons e l =>
        have ae : a ≤ e.1 := Nat.le_of_not_lt fun h => early ⟨e, l, rfl, h⟩
        obtain ⟨he, gap, -⟩ := ascending_cons.mp asc
        refine List.forall_mem_cons.mpr ⟨⟨ae, (touching e List.mem_cons_self).1⟩, fun f hf => ?_⟩
        have := gap f hf
        exact ⟨by omega, (touching f (List.mem_cons_of_mem e hf)).1⟩
    have far := farthest_eq t a asc after
    rw [max_eq_right ab.le] at far
    have lo : (merged a b t).1 = a := by
      obtain same | ⟨f, hf, same⟩ := merged_fst_cases a b t
      · exact same
      · exact le_antisymm (merged_fst_le a b t) (same ▸ (after f hf).1)
    have hi : (merged a b t).2 = (t.map Prod.snd).foldl max b := rfl
    rw [lo, hi, far]
    omega

/-- Merging adds to the sum of the extents exactly the uncovered bytes. -/
theorem extentSum_mergeExtent {a b : Nat} (ab : a < b) {m : List (Nat × Nat)} (asc : Ascending m) :
    extentSum (mergeExtent m a b) = extentSum m + extentSum (uncovered m a b) := by
  have parts := split_by_range ab asc
  have whole := asc
  rw [parts] at whole
  have ascT : Ascending (m.filter (touches a b)) :=
    ⟨fun e he => asc.1 e (List.mem_of_mem_filter he), asc.2.filter _⟩
  have below : ∀ e ∈ m.filter (fun e => decide (e.2 < a)), e.1 < e.2 ∧ e.2 < a := fun e he =>
    ⟨asc.1 e (List.mem_of_mem_filter he), by simpa using (List.mem_filter.mp he).2⟩
  have above : ∀ e ∈ m.filter (fun e => decide (b < e.1)), b < e.1 ∧ e.1 < e.2 := fun e he =>
    ⟨by simpa using (List.mem_filter.mp he).2, asc.1 e (List.mem_of_mem_filter he)⟩
  have unc : uncovered m a b = uncovered (m.filter (touches a b)) a b := by
    conv_lhs => rw [parts, List.append_assoc, uncovered_below _ _ below, uncovered_above _ _ above]
  have sum : extentSum m = _ := congrArg extentSum parts
  rw [unc, sum, mergeExtent_eq, extentSum_append, extentSum_append, extentSum_append, extentSum_cons,
    merged_length ab ascT touching_of_mem]
  omega

/-- The uncovered parts are what of the range no extent covers. -/
theorem covers_uncovered {b : Nat} : ∀ {m : List (Nat × Nat)} (a x : Nat), Ascending m →
    ((∃ e ∈ uncovered m a b, e.1 ≤ x ∧ x < e.2) ↔ (a ≤ x ∧ x < b) ∧ ¬∃ e ∈ m, e.1 ≤ x ∧ x < e.2)
  | [], a, x, _ => by
    by_cases ab : a < b
    · simp [uncovered, ab]
    · simp [uncovered, ab]
      omega
  | e :: l, a, x, asc => by
    obtain ⟨he, gap, asc⟩ := ascending_cons.mp asc
    have later : (∃ f ∈ l, f.1 ≤ x ∧ x < f.2) → e.2 < x := fun ⟨f, hf, h1, _⟩ => (gap f hf).trans_le h1
    have rest := covers_uncovered (b := b) (max a e.2) x asc
    have first : (∃ f ∈ (if a < min e.1 b then [(a, min e.1 b)] else []), f.1 ≤ x ∧ x < f.2) ↔ a ≤ x ∧ x < min e.1 b := by
      split
      · simp
      · simp
        omega
    rw [uncovered]
    simp only [List.mem_append, List.mem_cons, or_and_right, exists_or, exists_eq_left, first, rest]
    by_cases covered : ∃ f ∈ l, f.1 ≤ x ∧ x < f.2
    · have := later covered
      simp only [covered, not_true, and_false, or_false, or_true, iff_false]
      omega
    · simp only [covered, not_false_eq_true, and_true, or_false]
      omega

/-- What the keeping of the File Table's laws rests on holds. -/
theorem mergesWell : MergesWell := fun _ _ _ _ ok ab inside =>
  ⟨extentsOk_merge ok ab inside, length_mergeExtent ab (ascending_of_ok ok), extentSum_mergeExtent ab (ascending_of_ok ok)⟩

/-! ### The laws of the File Table -/

theorem fileLaw_reset : State.reset.fileLaw = true := by decide

/-- Every command keeps the laws of the File Table. -/
theorem exec_fileLaw {c : Instr} {s t : State} (e : exec c s = .next t) (h : s.fileLaw = true) : t.fileLaw = true := by
  refine exec_preserves (P := fun s => s.fileLaw = true) (fun hk h => hk.core.files mergesWell h) (fun s h => fileLaw_reset)
    (fun s h => fileLaw_reset) (fun v s h => ?_) (fun v s h => ?_) (fun s m hm h => h) e h
  · rw [writeBase_eq]
    exact h
  · obtain ⟨a, i, w, q, c, e⟩ := writeAck_frame v s
    rw [e]
    exact h

/-- The map law of a slot in use, spelled out (R162). -/
theorem mapLaw_inUse {f : FileSlot} (used : f.state ≠ .free) (law : f.mapLaw = true) :
    extentsOk f.len f.extents = true ∧ f.extents.length ≤ 16 ∧ f.received = extentSum f.extents := by
  simpa [FileSlot.mapLaw, used, and_assoc] using law

/-- A slot in use holds its own file id: no claim can stand on it (R156). -/
theorem fileId_inUse {f : FileSlot} (used : f.state ≠ .free) (claim : f.claim = none ∨ f.state = .free) :
    f.fileId = some f.file := by
  simp [FileSlot.fileId, claim.resolve_right used, used]

/-- Settles O53: `exec_fileLaw` is the step, and the merge lemmas above are the arithmetic of the maps. -/
theorem fileTableKeepsItsLaws : Obligations.FileTableKeepsItsLaws := by
  refine ⟨fun s t h e => step_preserves (P := fun s => s.fileLaw = true) (fun _ h => h) (fun _ _ h => h) exec_fileLaw e h,
    extentsOk_iff, fun s h => ?_, fun len a b m ok ab inside => ?_⟩
  · have files := (fileLaw_iff s).mp h
    refine ⟨fun i hi used => mapLaw_inUse used (files.map i hi), fun i j hi hj hn usedI usedJ same => ?_⟩
    have idI := fileId_inUse usedI (files.claim i hi)
    have idJ := fileId_inUse usedJ (files.claim j hj)
    rcases files.ids i j hi hj hn with none | differ
    · exact absurd (idI.symm.trans none) (by simp)
    · exact differ (by rw [idI, idJ, same])
  · obtain ⟨order, length, sum⟩ := mergesWell len a b m ok ab inside
    have asc := ascending_of_ok ok
    exact ⟨order, length, sum, covers_mergeExtent ab asc, fun x => covers_uncovered a x asc⟩

end Sys2Proof.Machine
end

section
/-! The step, the registers, the resets, START and WALK. -/

set_option Elab.async false

namespace Sys2Proof.Machine

/-! ### The step and the queue -/

/-- Settles O1: the two cases of `step`. -/
theorem stepRunsFrontCommand : Obligations.StepRunsFrontCommand := by
  refine ⟨fun c l s front => ?_, fun s empty => ⟨s.tick, ?_, ?_, rfl⟩⟩
  · rw [step, front]
    rfl
  · rw [step, empty]
  · rw [tick_partTime, BitVec.toNat_add]
    rfl

/-! ### Register reads and writes -/

/-- A value made of two parts, in numbers. -/
theorem toNat_append_eq {m n : Nat} (x : BitVec m) (y : BitVec n) : (x ++ y).toNat = x.toNat * 2 ^ n + y.toNat := by
  rw [BitVec.toNat_append, ← Nat.shiftLeft_add_eq_or_of_lt y.isLt, Nat.shiftLeft_eq]

theorem partState_num_lt (p : PartState) : p.num < 8 := by cases p <;> decide

/-- The fields of CTRL in numbers (R2, section 11.2). -/
theorem readCtrl_toNat (s : State) :
    (readCtrl s).toNat = 0x0640 * 65536 + 1 * 16384 + s.sif.errOffset.toNat * 16 + bit s.sif.err * 8 + s.rsc.part.num := by
  have err : (BitVec.ofBool s.sif.err).toNat = bit s.sif.err := by cases s.sif.err <;> rfl
  have part : (BitVec.ofNat 3 s.rsc.part.num).toNat = s.rsc.part.num := by
    rw [BitVec.toNat_ofNat, Nat.mod_eq_of_lt (partState_num_lt _)]
  unfold readCtrl
  simp only [toNat_append_eq, err, part, BitVec.toNat_ofNat]
  omega

/-- Settles O3. -/
theorem registerWindowReadsAndWrites : Obligations.RegisterWindowReadsAndWrites := by
  refine ⟨fun s => ⟨readCtrl_toNat s, rfl, rfl, rfl⟩, fun v => ⟨⟨rfl, rfl, rfl⟩, ?_, ?_, fun notStart notReset => ?_⟩,
    fun v s => ⟨writeBase v s, rfl, ?_, ?_⟩⟩
  · simp only [busWrite]
    split_ifs with start reset <;> simp_all
  · simp only [busWrite]
    split_ifs with start reset <;> simp_all
  · exact (if_neg notStart).trans (if_neg notReset)
  · rw [writeBase_eq]
    dsimp only
    split
    · exact baseMask_toNat v
    · rfl
  · rw [writeBase_eq]

/-! ### Resets -/

/-- Settles O4: each law evaluated on the reset state. -/
theorem resetMeetsInvariants : Obligations.ResetMeetsInvariants :=
  ⟨by decide, by decide, by decide, by decide, fileLaw_reset⟩

/-- Settles O13: the resets are written out field by field in the model; only the test for a lane in use is spelled otherwise. -/
theorem resetsLeave : Obligations.ResetsLeave := by
  refine ⟨fun s => ⟨softReset s, rfl, ⟨rfl, rfl, rfl, rfl, rfl⟩, rfl, rfl, rfl, rfl, ⟨rfl, rfl, rfl, rfl, rfl⟩, ?_, rfl, rfl, rfl,
    rfl, rfl⟩, fun s => ⟨powerOn s, rfl, rfl, rfl, rfl, rfl, rfl, rfl, rfl, ?_⟩⟩
  · have inUse : (!allLanesFree s) = s.upe.lanes.any fun l => l.state != .free := by
      rw [allLanesFree, List.not_all_eq_any_not]
      rfl
    rw [← inUse]
    rfl
  · exact ⟨rfl, rfl, rfl, rfl, rfl, rfl, rfl, rfl, rfl, rfl, rfl, rfl, rfl, rfl, rfl, rfl, rfl, rfl⟩

/-! ### Bursts of an access (section 2.1) -/

/-- A bound on the number of bursts that the access cannot reach does not matter. -/
theorem blocksFrom_fuel : ∀ (f g a n : Nat), n ≤ f → n ≤ g → blocksFrom f a n = blocksFrom g a n
  | 0, 0, _, _, _, _ => rfl
  | 0, g + 1, a, n, hf, _ => by rw [blocksFrom, blocksFrom, if_pos (by omega)]
  | f + 1, 0, a, n, _, hg => by rw [blocksFrom, blocksFrom, if_pos (by omega)]
  | f + 1, g + 1, a, n, hf, hg => by
    rw [blocksFrom, blocksFrom]
    split
    · rfl
    · have := Nat.mod_lt a (show 64 > 0 by decide)
      rw [blocksFrom_fuel f g _ _ (by omega) (by omega)]

/-- An access is cut at the next 64-byte block, or at its end. -/
theorem blocks_eq (a n : Nat) : blocks a n =
    if n = 0 then [] else (a, min (64 - a % 64) n) :: blocks (a + min (64 - a % 64) n) (n - min (64 - a % 64) n) := by
  cases n with
  | zero => rfl
  | succ n =>
    have := Nat.mod_lt a (show 64 > 0 by decide)
    rw [blocks, blocksFrom, if_neg (by omega), if_neg (by omega), blocks]
    rw [blocksFrom_fuel n (n + 1 - min (64 - a % 64) (n + 1)) _ _ (by omega) le_rfl]

theorem blocks_pos (a : Nat) {n : Nat} (pos : n ≠ 0) : blocks a n =
    (a, min (64 - a % 64) n) :: blocks (a + min (64 - a % 64) n) (n - min (64 - a % 64) n) := by
  rw [blocks_eq, if_neg pos]

/-! ### START -/

/-- The first burst of the settings load (R16). -/
def settingsBurst (s : State) : Burst := stationBurst .settings false s.baseAddr (min (64 - s.baseAddr % 64) 512) []

/-- The bursts of the settings load after the first. -/
def settingsLeft (s : State) : List (Nat × Nat) :=
  blocks (s.baseAddr + min (64 - s.baseAddr % 64) 512) (512 - min (64 - s.baseAddr % 64) 512)

theorem loadSettings_eq (source : LoadBy) (s : State) :
    loadSettings source s = joinStation (settingsBurst s) { s with sif.load := some ⟨source, settingsLeft s, []⟩ } := by
  rw [loadSettings, blocks_pos s.baseAddr (show 512 ≠ 0 by decide)]
  rfl

/-- The battery timer's period in a part state (R176). -/
def periodIn (p : PartState) (s : State) : Nat := if p.restRow then s.cfg.restBatteryInterval else s.cfg.batteryInterval

/-- A change of the part state, with the battery and temperature timers it starts and stops (R176, R177). -/
theorem setPart_eq (p : PartState) (s : State) : setPart p s = { s with
    rsc.part := p
    meu.batteryTimer :=
      if s.rsc.part.restRow = p.restRow ∨ s.meu.requester = false then s.meu.batteryTimer else s.timer (periodIn p s)
    meu.tempTimer := if p = .run then s.timer (s.cfg.tempMaxAge * 1000) else none } := by
  unfold setPart
  by_cases same : s.rsc.part.restRow = p.restRow ∨ s.meu.requester = false
  · simp only [if_pos same]
    rfl
  · simp only [if_neg same]
    rfl

/-- Settles O12. -/
theorem startBeginsTheLoad : Obligations.StartBeginsTheLoad := by
  intro s
  refine ⟨fun stopped => ?_, fun running => ?_⟩
  · have accepted : acceptStart s = loadSettings .start (setPart .starting { s with sif.err := false, sif.errOffset := 0 }) :=
      if_pos stopped
    refine ⟨acceptStart s, settingsLeft s, rfl, ?_⟩
    rw [accepted, loadSettings_eq, setPart_eq]
    exact ⟨rfl, rfl, rfl, rfl, (blocks_pos s.baseAddr (by decide)).symm, rfl, rfl⟩
  · have ignored : acceptStart s = s := if_neg running
    show done (acceptStart s) = _
    rw [ignored]
    rfl

/-! ### WALK -/



/-- What a write of WALK makes of a chain it names (R4). -/
def walkedChain (s : State) (c : Chain) : ChainCtl :=
  if s.rsc.part = .stopped ∨ s.rsc.part = .starting then s.chain c
  else if s.rsc.part = .run ∧ chainState s c = .idle then { s.chain c with walk := .link, remembered := false, declined := none }
  else { s.chain c with remembered := true }

/-- The link read a write of WALK makes for a chain it names. -/
def walkReads (s : State) (c : Chain) : List Burst :=
  if s.rsc.part = .run ∧ chainState s c = .idle then [stationBurst (.walk c) false (s.chain c).cursor 4 []] else []

theorem setChain_self (s : State) (c : Chain) : s.setChain c (s.chain c) = s := by cases c <;> rfl

theorem walkNamed_eq (s : State) (c : Chain) : walkNamed s c =
    { s.setChain c (walkedChain s c) with mpt.stationQueue := s.mpt.stationQueue ++ walkReads s c } := by
  have remembered : remember c s =
      { s.setChain c { s.chain c with remembered := true } with mpt.stationQueue := s.mpt.stationQueue ++ [] } := by
    rw [List.append_nil]
    cases c <;> rfl
  unfold walkNamed walkedChain walkReads
  cases part : s.rsc.part with
  | stopped => simp [setChain_self]
  | starting => simp [setChain_self]
  | run =>
    cases state : chainState s c with
    | idle => simp; cases c <;> rfl
    | walking => simpa using remembered
    | held => simpa using remembered
  | quiesce => simpa using remembered
  | rest => simpa using remembered
  | restTurn => simpa using remembered
  | waking => simpa using remembered

/-- A chain's state reads its own control, the part state, the waiting list and the turn (R6, R9). -/
theorem chainState_congr {s t : State} {c : Chain} (hc : t.chain c = s.chain c) (hr : t.rsc = s.rsc) (hu : t.upe = s.upe)
    (hk : t.ktu = s.ktu) : chainState t c = chainState s c := by
  have stands : ∀ d, declineStands t d = declineStands s d := fun d => by
    have count : listCount t = listCount s := by simp only [listCount, hu]
    cases d with
    | listFull => exact congrArg (fun n => decide (16 ≤ n)) count
    | turnBegun => simp only [declineStands, turnHolds, hk]
  simp [chainState, chainHeld, partHolds, hc, hr, stands]

/-- A named chain's walk leaves the others as WALK meets them. -/
theorem walkNamed_other {s : State} {c d : Chain} (h : d ≠ c) :
    (walkNamed s c).chain d = s.chain d ∧ walkedChain (walkNamed s c) d = walkedChain s d ∧
      walkReads (walkNamed s c) d = walkReads s d := by
  have stands : (walkNamed s c).chain d = s.chain d := by
    rw [walkNamed_eq]
    exact setChain_chain_ne s _ h
  have part : (walkNamed s c).rsc = s.rsc := by rw [walkNamed_eq]; exact setChain_rsc s c _
  have state : chainState (walkNamed s c) d = chainState s d :=
    chainState_congr stands part (by rw [walkNamed_eq]; exact setChain_upe s c _) (by rw [walkNamed_eq]; exact setChain_ktu s c _)
  refine ⟨stands, ?_, ?_⟩
  · rw [walkedChain, walkedChain, stands, part, state]
  · rw [walkReads, walkReads, stands, part, state]

/-- Several chains named at once, each once: each is as it is named alone, their link reads joining in order (R4). -/
theorem foldl_walkNamed : ∀ (l : List Chain) (s : State), l.Nodup →
    (∀ d, (l.foldl walkNamed s).chain d = if d ∈ l then walkedChain s d else s.chain d) ∧
    (l.foldl walkNamed s).mpt.stationQueue = s.mpt.stationQueue ++ l.flatMap (walkReads s) ∧
    ∃ p c f q, l.foldl walkNamed s = { s with sif.page := p, sif.control := c, sif.fetch := f, mpt.stationQueue := q }
  | [], s, _ => ⟨fun d => by simp, by simp, _, _, _, _, rfl⟩
  | c :: l, s, nodup => by
    obtain ⟨notIn, nodup⟩ := List.nodup_cons.mp nodup
    obtain ⟨chains, queue, p, cc, f, q, e⟩ := foldl_walkNamed l (walkNamed s c) nodup
    have other : ∀ d ∈ l, d ≠ c := fun d hd same => notIn (same ▸ hd)
    have reads : l.flatMap (walkReads (walkNamed s c)) = l.flatMap (walkReads s) :=
      List.flatMap_congr fun d hd => (walkNamed_other (other d hd)).2.2
    refine ⟨fun d => ?_, ?_, p, cc, f, q, ?_⟩
    · rw [List.foldl_cons, chains]
      by_cases same : d = c
      · subst same
        rw [if_neg notIn, if_pos List.mem_cons_self, walkNamed_eq]
        exact setChain_chain s d _
      · obtain ⟨stands, walked, -⟩ := walkNamed_other (s := s) same
        rw [walked, stands]
        simp [same]
    · rw [List.foldl_cons, queue, reads, List.flatMap_cons, ← List.append_assoc]
      congr 1
      rw [walkNamed_eq]
    · rw [List.foldl_cons, e, walkNamed_eq]
      cases c <;> rfl

theorem maskChains_nodup (v : Word) : (maskChains v).Nodup := by
  unfold maskChains
  cases v.getLsbD 0 <;> cases v.getLsbD 1 <;> cases v.getLsbD 2 <;> decide

theorem mem_maskChains (v : Word) : (Chain.page ∈ maskChains v ↔ v.getLsbD 0 = true) ∧
    (Chain.control ∈ maskChains v ↔ v.getLsbD 1 = true) ∧ (Chain.fetch ∈ maskChains v ↔ v.getLsbD 2 = true) := by
  simp [maskChains]

theorem getLsbD_iff (v : Word) (i : Nat) : v.getLsbD i = true ↔ v.toNat / 2 ^ i % 2 = 1 := by
  rw [BitVec.getLsbD, Nat.testBit_eq_decide_div_mod_eq, decide_eq_true_eq]

theorem flatMap_walkReads (s : State) (l : List Chain) : l.flatMap (walkReads s) =
    (l.filter fun c => decide (s.rsc.part = .run ∧ chainState s c = .idle)).map
      fun c => stationBurst (.walk c) false (s.chain c).cursor 4 [] := by
  induction l with
  | nil => rfl
  | cons c l ih =>
    rw [List.flatMap_cons, ih, walkReads]
    by_cases begins : s.rsc.part = .run ∧ chainState s c = .idle <;> simp [begins]

/-- Settles O14: `foldl_walkNamed` over the chains of the mask. -/
theorem walkNamesChains : Obligations.WalkNamesChains := by
  refine ⟨fun v s => ⟨writeWalk v s, rfl, ?_⟩, fun v => ?_⟩
  · obtain ⟨chains, queue, p, c, f, q, e⟩ := foldl_walkNamed (maskChains v) s (maskChains_nodup v)
    refine ⟨fun d => ?_, ?_, ?_⟩
    · show ((maskChains v).foldl walkNamed s).chain d = _
      rw [chains, walkedChain]
      by_cases named : d ∈ maskChains v <;> simp [named]
    · exact queue.trans (by rw [flatMap_walkReads])
    · rw [writeWalk, e]
  · have control : v.getLsbD 1 = true ↔ v.toNat / 2 % 2 = 1 := getLsbD_iff v 1
    have fetch : v.getLsbD 2 = true ↔ v.toNat / 4 % 2 = 1 := getLsbD_iff v 2
    have page := getLsbD_iff v 0
    rw [pow_zero, Nat.div_one] at page
    rw [← page, ← control, ← fetch]
    exact mem_maskChains v

end Sys2Proof.Machine
end

section
/-! Commands whose condition does not hold change nothing (entry 5), and `Obligations.EveryCommandCompletes`. -/

set_option Elab.async false

namespace Sys2Proof.Machine

variable {s : State}

/-! ### Records that are not taken -/

theorem takeRecord_none {k : Kind} {owner : Nat → List Byte → State → State} (h : readyRecord k s = none) :
    takeRecord k owner s = s := by
  rw [takeRecord, h]

theorem takeStaged_none {k : Kind} {owner : Nat → List Byte → State → State} (h : readyRecord k s = none) :
    takeStaged k owner s = s := by
  rw [takeStaged, h]
  exact takeRecord_none h

theorem takeInRun_none {k : Kind} {owner : Nat → List Byte → State → State} (h : readyRecord k s = none) :
    takeInRun k owner s = s := by
  unfold takeInRun
  split
  · exact takeRecord_none h
  · rfl

theorem takeAwake_none {k : Kind} {owner : Nat → List Byte → State → State} (h : readyRecord k s = none) :
    takeAwake k owner s = s := by
  unfold takeAwake
  split
  · rfl
  · rfl
  · rfl
  all_goals exact takeRecord_none h

/-- A record taken in RUN alone waits in every other part state (entry 7). -/
theorem takeInRun_waits {k : Kind} {owner : Nat → List Byte → State → State} (h : s.rsc.part ≠ .run) :
    takeInRun k owner s = s := if_neg h

/-- An UPDATE or OPEN waits at rest (entry 7). -/
theorem takeAwake_waits {k : Kind} {owner : Nat → List Byte → State → State}
    (h : s.rsc.part = .rest ∨ s.rsc.part = .restTurn ∨ s.rsc.part = .waking) : takeAwake k owner s = s := by
  unfold takeAwake
  rcases h with h | h | h <;> rw [h]

/-! ### Events that do not arise -/

theorem chainWalkBegin_still {c : Chain}
    (h : s.rsc.part ≠ .run ∨ (s.chain c).remembered = false ∧ (s.chain c).declined = none) : chainWalkBegin c s = s := by
  refine if_neg ?_
  rintro ⟨run, -, begins⟩
  rcases h with h | ⟨notRemembered, notDeclined⟩
  · exact h run
  · simp [notRemembered, notDeclined] at begins

theorem admission_empty (h : s.upe.list = []) : admission s = s := by
  have none : scanFor s = (none, s) := by rw [scanFor, h]; rfl
  rw [admission, none]

theorem storeRetry_empty (h : s.upe.list = []) (noReport : s.upe.rescan = false) : storeRetry s = s := by
  rw [storeRetry, h, noReport]
  rfl

theorem retireBegin_still (h : s.upe.pass ≠ none ∨ s.upe.retireQueue = []) : retireBegin s = s := by
  unfold retireBegin
  split
  · next noPass waiting => simp [noPass, waiting] at h
  · rfl

theorem dispatchBegin_still (h : s.dlc.dispatch ≠ none ∨ s.dlc.fifo = []) : dispatchBegin s = s := by
  unfold dispatchBegin
  split
  · next noDispatch stored => simp [noDispatch, stored] at h
  · rfl

theorem verifyBegin_still (h : s.dlc.verify ≠ none ∨ s.dlc.verifyQueue = []) : verifyBegin s = s := by
  unfold verifyBegin
  split
  · next noPass queued => simp [noPass, queued] at h
  · rfl

theorem lineTimeEnd_still (h : s.fsc.inLine = false) : lineTimeEnd s = s := by
  rw [lineTimeEnd, h]
  rfl

theorem mayRest_part (h : mayRest s = true) : s.rsc.part = .quiesce := by
  simp only [mayRest, Bool.and_eq_true, beq_iff_eq] at h
  exact h.1.1.1

theorem answer_still (h : s.mpt.inflight = none) (l : List Byte) :
    answerOkay l s = s ∧ answerRetry l s = s ∧ answerError l s = s := by
  refine ⟨?_, ?_, ?_⟩
  · rw [answerOkay, h]
  · rw [answerRetry, h]
  · rw [answerError, h]

/-! ### Every command completes -/

theorem exec_pending {c : Instr} {s t : State} (e : exec c s = .next t) : t.pending = s.pending := by
  cases effect_of_exec e with
  | kept u keeps _ e => exact (keeps_kept keeps e).core.pending
  | soft _ e => rw [e]; rfl
  | power _ e => rw [e]; rfl
  | base v _ e => rw [e, writeBase_eq]
  | ack v _ e =>
    obtain ⟨a, i, w, q, c, frame⟩ := writeAck_frame v s
    rw [e, keeps_grants_of (k := true).core.pending, frame]
  | answer b m u _ _ _ keeps _ e => exact e ▸ (keeps_answer keeps).core.pending

/-- Settles O2: `exec_effect` answers every command, and each condition that does not hold is the test the command begins with. -/
theorem everyCommandCompletes : Obligations.EveryCommandCompletes := by
  refine ⟨fun c s => ?_, fun s => ?_⟩
  · obtain ⟨t, e, -⟩ := exec_effect c s
    exact ⟨t, e, exec_pending e⟩
  · intro still
    have unchanged : ∀ {u : State}, u = s → done u = .next (portGrants s) := fun e => by rw [e]; rfl
    refine ⟨fun h => unchanged (if_neg h), fun h l => ?_, fun c h => unchanged (chainWalkBegin_still h), fun c k mem none => ?_,
      fun h => ?_, fun h => ⟨unchanged (takeAwake_waits h), unchanged (takeAwake_waits h)⟩,
      fun h => ⟨unchanged (admission_empty h), fun h2 => unchanged (storeRetry_empty h h2)⟩,
      fun h => unchanged (retireBegin_still h), fun h => unchanged (if_neg (by simp [h])),
      fun h => unchanged (lineTimeEnd_still h), fun h => unchanged (if_neg (by simp [h])),
      fun h => unchanged (if_neg (by simp [h])), fun h => unchanged (if_neg (by simp [h])),
      fun h => unchanged (if_neg (by simp [h])), fun h => unchanged (if_neg (by simp [h])),
      fun i h => unchanged (if_pos h), fun h => unchanged (if_neg h),
      fun h => unchanged (dispatchBegin_still h), fun i h => unchanged (if_neg (by simp [h])),
      fun h => unchanged (verifyBegin_still h), fun h => unchanged (if_neg (by simp [h])),
      fun h n => unchanged (by rw [conversionEnd, h]), fun h => unchanged (if_pos h), fun h => unchanged (if_pos h),
      fun h => unchanged (by rw [markAged, h]),
      fun h => ⟨unchanged (if_neg (by simp [h])), unchanged (if_neg (by simp [h])), unchanged (if_neg (by simp [h])),
        unchanged (if_neg fun rests => h (mayRest_part rests.1))⟩,
      fun h => unchanged (if_neg (by simp [h])), fun h => unchanged (if_pos h), fun h => unchanged (if_pos h),
      fun h => unchanged (if_neg (by simp [h]))⟩
    · obtain ⟨okay, retry, error⟩ := answer_still h l
      exact ⟨unchanged okay, unchanged retry, unchanged error⟩
    · simp only [List.mem_cons, Prod.mk.injEq, List.not_mem_nil, or_false] at mem
      rcases mem with ⟨rfl, rfl⟩ | ⟨rfl, rfl⟩ | ⟨rfl, rfl⟩ | ⟨rfl, rfl⟩ | ⟨rfl, rfl⟩ | ⟨rfl, rfl⟩ | ⟨rfl, rfl⟩ | ⟨rfl, rfl⟩ |
        ⟨rfl, rfl⟩ | ⟨rfl, rfl⟩
      · exact unchanged (takeAwake_none none)
      · exact unchanged (takeStaged_none none)
      · exact unchanged (takeStaged_none none)
      · exact unchanged (takeInRun_none none)
      · exact unchanged (takeInRun_none none)
      · exact unchanged (takeInRun_none none)
      · exact unchanged (takeInRun_none none)
      · exact unchanged (takeInRun_none none)
      · exact unchanged (takeAwake_none none)
      · exact unchanged (takeRecord_none none)
    · exact ⟨unchanged (takeInRun_waits h), unchanged (takeInRun_waits h), unchanged (takeInRun_waits h),
        unchanged (takeInRun_waits h), unchanged (takeInRun_waits h)⟩

end Sys2Proof.Machine
end

section
/-! The status writers (R22): what a writer holds after a write is asked for, and that a write asked for stays asked for until it is granted. -/

set_option Elab.async false

namespace Sys2Proof.Machine

theorem StatusUser.num_inj {u v : StatusUser} (h : u.num = v.num) : u = v := by
  cases u <;> cases v <;> first | rfl | exact absurd h (by decide)

theorem StatusUser.num_lt (u : StatusUser) : u.num < 8 := by cases u <;> decide

/-- Another writer stands when one is replaced. -/
theorem writer_setWriter_ne {u v : StatusUser} (h : v ≠ u) (w : Writer) (s : State) : (s.setWriter u w).writer v = s.writer v := by
  have other : u.num ≠ v.num := fun e => h (StatusUser.num_inj e.symm)
  simp [State.writer, State.setWriter, List.getD_eq_getElem?_getD, other]

/-- A writer replaced. -/
theorem writer_setWriter_same {s : State} (u : StatusUser) (w : Writer) (h : s.sif.writers.length = 8) :
    (s.setWriter u w).writer u = w := by
  have := u.num_lt
  simp [State.writer, State.setWriter, List.getD_eq_getElem?_getD, h, this]

/-- A writer is replaced, or, past the table, as it was. -/
theorem writer_setWriter_or (u : StatusUser) (w : Writer) (s : State) :
    (s.setWriter u w).writer u = w ∨ (s.setWriter u w).writer u = s.writer u := by
  by_cases inside : u.num < s.sif.writers.length
  · exact .inl (by simp [State.writer, State.setWriter, List.getD_eq_getElem?_getD, inside])
  · exact .inr (by simp [State.writer, State.setWriter, List.set_eq_of_length_le (Nat.le_of_not_lt inside)])

@[simp] theorem writer_joinStation (b : Burst) (s : State) (u : StatusUser) : (joinStation b s).writer u = s.writer u := rfl

@[simp] theorem setWriter_writers_length (u : StatusUser) (w : Writer) (s : State) :
    (s.setWriter u w).sif.writers.length = s.sif.writers.length := List.length_set

/-- What asking for a write can do: nothing, begin it, or put it behind the write under way. -/
theorem ask_cases (a : Area) (s : State) :
    (s.asked a ∧ ask a s = s) ∨
    (¬s.asked a ∧ (s.writer a.user).cur = none ∧ writerHeld a.user s = false ∧ ask a s = beginArea a (s.writer a.user) s) ∨
    (¬s.asked a ∧ ((s.writer a.user).cur ≠ none ∨ writerHeld a.user s = true) ∧
      ask a s = s.setWriter a.user { s.writer a.user with queued := (s.writer a.user).queued ++ [a] }) := by
  unfold ask
  dsimp only
  split
  · next asked => exact .inl ⟨asked, rfl⟩
  · next notAsked =>
    split
    · next idle => exact .inr (.inl ⟨notAsked, idle.1, idle.2, rfl⟩)
    · next busy =>
      refine .inr (.inr ⟨notAsked, ?_, rfl⟩)
      by_cases cur : (s.writer a.user).cur = none
      · exact .inr (Bool.eq_true_of_not_eq_false fun free => busy ⟨cur, free⟩)
      · exact .inl cur

@[simp] theorem ask_writers_length (a : Area) (s : State) : (ask a s).sif.writers.length = s.sif.writers.length := by
  rcases ask_cases a s with ⟨-, e⟩ | ⟨-, -, -, e⟩ | ⟨-, -, e⟩ <;> rw [e]
  · exact List.length_set
  · exact List.length_set

@[simp] theorem post_writers_length (c : Cause) (s : State) : (post c s).sif.writers.length = s.sif.writers.length := by
  unfold post
  dsimp only
  split
  · exact ask_writers_length _ _
  · rfl

/-- A write that has been asked for is asked for. -/
theorem asked_ask (a : Area) {s : State} (h : s.sif.writers.length = 8) : (ask a s).asked a := by
  rcases ask_cases a s with ⟨asked, e⟩ | ⟨-, -, -, e⟩ | ⟨-, -, e⟩ <;> rw [e]
  · exact asked
  · refine .inl ?_
    rw [beginArea, writer_joinStation, writer_setWriter_same _ _ h]
    exact ⟨rfl, rfl⟩
  · refine .inr ?_
    rw [writer_setWriter_same _ _ h]
    exact List.mem_append_right _ (List.mem_singleton_self a)

/-- A write asked for stays asked for when others are. -/
theorem asked_ask_of_asked {a : Area} (b : Area) {s : State} (h : s.asked a) : (ask b s).asked a := by
  rcases ask_cases b s with ⟨-, e⟩ | ⟨-, idle, -, e⟩ | ⟨-, -, e⟩ <;> rw [e]
  · exact h
  · by_cases same : a.user = b.user
    · rw [State.asked, beginArea, writer_joinStation, same]
      rcases writer_setWriter_or b.user { s.writer b.user with cur := some b, granted := false, left := [] } s with w | w <;>
        rw [w]
      · rw [State.asked, same, idle] at h
        exact .inr (h.resolve_left nofun)
      · rwa [State.asked, same] at h
    · rw [State.asked, beginArea, writer_joinStation, writer_setWriter_ne same]
      exact h
  · by_cases same : a.user = b.user
    · rw [State.asked, same]
      rcases writer_setWriter_or b.user { s.writer b.user with queued := (s.writer b.user).queued ++ [b] } s with w | w <;>
        rw [w]
      · rw [State.asked, same] at h
        exact h.imp_right fun queued => List.mem_append_left _ queued
      · rwa [State.asked, same] at h
    · rw [State.asked, writer_setWriter_ne same]
      exact h

theorem asked_post_of_asked {a : Area} (c : Cause) {s : State} (h : s.asked a) : (post c s).asked a := by
  unfold post
  dsimp only
  split
  · exact asked_ask_of_asked (s := { s with sif.posted := s.sif.posted.modify c.num (· + 1) }) .mirror h
  · exact h

end Sys2Proof.Machine
end

section
/-! The interconnect's answers, the finalizer's writes and the window capture (chapter 2). -/

set_option Elab.async false

namespace Sys2Proof.Machine

/-! ### What the answers leave of main memory -/

/-- A byte after others' bytes have been put at a burst's addresses. -/
theorem memRead_overlay (m : Memory) (p n : Nat) (d : List Byte) (a : Nat) : memRead (memWriteBytes m p (d.take n)) a =
    if p ≤ a ∧ a < p + min n d.length then d.getD (a - p) 0 else memRead m a := by
  rw [memRead_write, List.length_take]
  split
  · next inside =>
    rw [List.getD_eq_getElem?_getD, List.getElem?_take_of_lt (by omega), List.getD_eq_getElem?_getD]
  · rfl

/-- What an OKAY leaves in main memory: a write's bytes, or others' bytes at a read's addresses (entry 1). -/
def okayMemory (b : Burst) (d : List Byte) (m : Memory) : Memory :=
  if b.write then memWriteBytes m b.addr b.data else memWriteBytes m b.addr (d.take b.len)

/-- What a RETRY or ERROR leaves in main memory (entry 2). -/
def failedMemory (b : Burst) (d : List Byte) (m : Memory) : Memory :=
  if b.write then memWriteBytes m b.addr (d.take b.len) else m

theorem answerOkay_eq {s : State} {b : Burst} (flying : s.mpt.inflight = some b) (d : List Byte) :
    answerOkay d s = complete b .okay
      (if b.write = true then [] else (List.range b.len).map fun i => memRead (okayMemory b d s.mem) (b.addr + i))
      (s.answered (okayMemory b d s.mem)) := by
  rw [answerOkay, flying]
  unfold okayMemory
  dsimp only
  split
  · rfl
  · rw [← memReadBytes_eq]
    rfl

theorem failedWrite_eq_answered (b : Burst) (d : List Byte) (s : State) :
    failedWrite b d { s with mpt.inflight := none } = s.answered (failedMemory b d s.mem) := by
  unfold failedWrite failedMemory
  split <;> rfl

theorem memRead_failedMemory (b : Burst) (d : List Byte) (m : Memory) (a : Nat) : memRead (failedMemory b d m) a =
    if b.write = true ∧ b.addr ≤ a ∧ a < b.addr + min b.len d.length then d.getD (a - b.addr) 0 else memRead m a := by
  unfold failedMemory
  split
  · next write => simp only [write, true_and, memRead_overlay]
  · next read => rw [if_neg fun h => read h.1]

/-! ### The finalizer -/

/-- A completed write of the finalizer leads to its next one, whatever the answer (R10). -/
theorem complete_finalizer {b : Burst} (user : b.user = .finalizer) (live : b.fate = .live) (a : Answer) (d : List Byte) (s : State) :
    complete b a d s = finalizerNext s := by
  rw [complete, if_pos live, user]
  split <;> rfl

/-- What the counting of a finalization makes of the chains (R12). -/
theorem countFinal_chain (c d : Chain) (s : State) : (countFinal c s).chain d = { s.chain d with
    retired := if d = c then (s.chain d).retired + 1 else (s.chain d).retired } := by
  obtain ⟨w, q, e⟩ := countFinal_eq c s
  rw [e]
  cases c <;> cases d <;> rfl

theorem countFinal_queue (c : Chain) (s : State) : ∃ q, (countFinal c s).mpt.stationQueue = s.mpt.stationQueue ++ q := by
  obtain ⟨w, q, e⟩ := countFinal_eq c s
  exact ⟨q, by rw [e]⟩

@[simp] theorem countFinal_posted (c : Chain) (s : State) : (countFinal c s).sif.posted = s.postedOnce (doneCause c) := by
  obtain ⟨w, q, e⟩ := countFinal_eq c s
  rw [e]
  rfl

@[simp] theorem sansRequests_countFinal (c : Chain) (s : State) : (countFinal c s).sansRequests = s.sansRequests := by
  rw [countFinal, sansRequests_post, sansRequests_ask, countRetired_eq, sansRequests_setChain]

@[simp] theorem countFinal_finals (c : Chain) (s : State) :
    (countFinal c s).sif.finals = s.sif.finals ∧ (countFinal c s).sif.finalBusy = s.sif.finalBusy := by
  obtain ⟨w, q, e⟩ := countFinal_eq c s
  rw [e]
  cases c <;> exact ⟨rfl, rfl⟩

/-- Counting asks for the write of the retired counts (R12). -/
theorem asked_countFinal (c : Chain) {s : State} (h : s.sif.writers.length = 8) : (countFinal c s).asked .retired :=
  asked_post_of_asked _ (asked_ask .retired (s := countRetired c s) (by rw [countRetired_eq, setChain_sif_writers, h]))

/-- Settles O16: `answerOkay_eq` is the answer, and the three cases of the finalizer follow `kickFinalizer`'s. -/
theorem okayCompletesTheBurst : Obligations.OkayCompletesTheBurst := by
  refine ⟨fun d s b flying => ⟨okayMemory b d s.mem, _, ?_, fun a => ?_, rfl⟩, fun a d s b user live => ?_⟩
  · show done (answerOkay d s) = _
    rw [answerOkay_eq flying]
    rfl
  · unfold okayMemory
    split
    · exact memRead_write _ _ _ _
    · exact memRead_overlay _ _ _ _ _
  · intro t
    have e : t = finalizerNext s := complete_finalizer user live a d s
    clear_value t
    subst e
    refine ⟨fun none => ?_, fun f l w ws jobs writes => ?_, fun f l jobs writes => ?_⟩
    · rw [finalizerNext, kickFinalizer, none]
    · rw [finalizerNext, kickFinalizer, jobs]
      dsimp only
      rw [writes]
      rfl
    · let u : State := joinFinal f.status { s with sif.finals := l, sif.finalBusy := true }
      have e : finalizerNext s = if f.counted then u else countFinal f.chain u := by
        rw [finalizerNext, kickFinalizer, jobs]
        dsimp only
        rw [writes]
        rfl
      have chains : ∀ c, u.chain c = s.chain c := fun c => by cases c <;> rfl
      rw [e]
      cases counted : f.counted with
      | true => exact ⟨rfl, rfl, ⟨[], rfl⟩, nofun, fun c => by simp [chains], rfl, rfl⟩
      | false =>
        obtain ⟨q, queue⟩ := countFinal_queue f.chain u
        refine ⟨(countFinal_finals f.chain u).2, (countFinal_finals f.chain u).1, ⟨q, ?_⟩, fun _ h => asked_countFinal f.chain h,
          fun c => ?_, (countFinal_posted f.chain u).trans (by cases f.chain <;> rfl), sansRequests_countFinal f.chain u⟩
        · rw [if_neg nofun, queue]
          exact List.append_assoc _ _ _
        · rw [if_neg nofun, countFinal_chain, chains]
          simp

/-- Settles O17: what a write leaves is `failedMemory`, and the three outcomes of RETRY are the model's. -/
theorem retryAndErrorOfTheBurst : Obligations.RetryAndErrorOfTheBurst := by
  refine ⟨fun d s b flying => ⟨failedMemory b d s.mem, memRead_failedMemory b d s.mem, ?_, ?_⟩,
    fun d s b flying => ⟨failedMemory b d s.mem, ?_, memRead_failedMemory b d s.mem⟩⟩
  · show done (answerRetry d s) = _
    rw [answerRetry, flying]
    dsimp only
    rw [failedWrite_eq_answered]
    rfl
  · cases client : b.client <;> simp [waitAgain, waiting]
  · show done (answerError d s) = _
    rw [answerError, flying]
    dsimp only
    rw [failedWrite_eq_answered]
    rfl

/-! ### The window check and the capture -/

/-- The range check of R27. -/
theorem rangeIn_iff (ws : List Window) (a n : Nat) :
    rangeIn ws a n = true ↔ ∃ w ∈ ws, w.base < w.limit ∧ w.base ≤ a ∧ a + n ≤ w.limit := by
  simp [rangeIn, Window.used, and_assoc]

/-- Asking for the capture's write leaves what the comparisons look at. -/
theorem askCapture_frame (s : State) :
    (askCapture s).mpt.capture = s.mpt.capture ∧ (askCapture s).sif.posted = s.sif.posted ∧ (askCapture s).sansPosts = s.sansPosts := by
  obtain ⟨w, q, e⟩ := askCapture_eq s
  rw [e]
  exact ⟨rfl, rfl, rfl⟩

/-- An armed capture takes a window failure, and WINDOW is posted (R28). -/
theorem reportWindow_armed {s : State} (armed : s.mpt.capture.full = false) (c : Client) (w : Bool) (a n : Nat) :
    (reportWindow c w a n s).mpt.capture = ⟨true, a, n, c, w, s.partTime, 0⟩ ∧
    (reportWindow c w a n s).sif.posted = s.postedOnce .window ∧
    ({ reportWindow c w a n s with mpt.capture := s.mpt.capture }).sansPosts = s.sansPosts := by
  let u : State := { s with mpt.capture := ⟨true, a, n, c, w, s.partTime, 0⟩ }
  have e : reportWindow c w a n s = askCapture (post .window u) := if_neg (by simp [armed])
  obtain ⟨capture, posted, frame⟩ := askCapture_frame (post .window u)
  rw [sansPosts_post] at frame
  rw [e]
  exact ⟨capture.trans (post_mpt_capture _ _), posted.trans (post_sif_posted _ _),
    congrArg (fun x : State => ({ x with mpt.capture := s.mpt.capture } : State)) frame⟩

/-- A full capture counts a window failure as further, up to 65535 (R28). -/
theorem reportWindow_full {s : State} (full : s.mpt.capture.full = true) (c : Client) (w : Bool) (a n : Nat) :
    (reportWindow c w a n s).mpt.capture =
      { s.mpt.capture with further := BitVec.ofNat 16 (min 65535 (s.mpt.capture.further.toNat + 1)) } ∧
    (reportWindow c w a n s).sif.posted = s.sif.posted ∧
    ({ reportWindow c w a n s with mpt.capture := s.mpt.capture }).sansPosts = s.sansPosts := by
  rw [reportWindow, if_pos full]
  by_cases last : s.mpt.capture.further = 65535
  · rw [if_pos last, last]
    exact ⟨by rw [show BitVec.ofNat 16 (min 65535 (BitVec.toNat (65535 : Half) + 1)) = 65535 by decide, ← last], rfl, rfl⟩
  · rw [if_neg last]
    obtain ⟨capture, posted, frame⟩ := askCapture_frame { s with mpt.capture.further := s.mpt.capture.further + 1 }
    have below : s.mpt.capture.further.toNat < 65535 := by
      have bound := s.mpt.capture.further.isLt
      have : s.mpt.capture.further.toNat ≠ 65535 := fun e => last (BitVec.eq_of_toNat_eq e)
      omega
    have next : BitVec.ofNat 16 (min 65535 (s.mpt.capture.further.toNat + 1)) = s.mpt.capture.further + 1 := by
      rw [min_eq_right (by omega)]
      exact BitVec.eq_of_toNat_eq (by simp)
    rw [next]
    exact ⟨capture, posted, congrArg (fun x : State => ({ x with mpt.capture := s.mpt.capture } : State)) frame⟩

/-- Settles O18. -/
theorem windowFailureIsCaptured : Obligations.WindowFailureIsCaptured := by
  refine ⟨rangeIn_iff, fun c w a n s => ?_⟩
  cases full : s.mpt.capture.full with
  | false =>
    obtain ⟨capture, posted, frame⟩ := reportWindow_armed full c w a n
    exact ⟨fun _ => ⟨capture, posted⟩, nofun, frame⟩
  | true =>
    obtain ⟨capture, posted, frame⟩ := reportWindow_full full c w a n
    exact ⟨nofun, fun _ => ⟨capture, posted⟩, frame⟩

end Sys2Proof.Machine
end

section
/-! Records taken and finalized: the relation `Ends` between the state before and after finalizations, how each shared operation adds to it, and the taking of a record that its walk has read in full (R8, R10, R146). -/

set_option Elab.async false

namespace Sys2Proof.Machine

/-! ### The chains of a state -/

@[simp] theorem ask_chain (a : Area) (s : State) (c : Chain) : (ask a s).chain c = s.chain c := by
  obtain ⟨w, q, e⟩ := ask_eq a s
  rw [e]
  cases c <;> rfl

@[simp] theorem post_chain (x : Cause) (s : State) (c : Chain) : (post x s).chain c = s.chain c := by
  obtain ⟨w, q, e⟩ := post_eq x s
  rw [e]
  cases c <;> rfl

/-! ### Finalizations one after another -/

/-- From `s` to `t` the records `ends` of chain `c` have been finalized, in order, in one event: part time and port stand, and
what waits in the STATION queue stays at its head. Whatever else is posted is left open. -/
structure Ends (c : Chain) (ends : List (Nat × List (Nat × List Byte) × Nat)) (s t : State) : Prop where
  time   : t.partTime = s.partTime
  port   : portOpen t = portOpen s
  writes : t.finalWrites = s.finalWrites ++ ends.flatMap fun e => finalBytes e.1 e.2.1 e.2.2 s
  jobs   : t.finalJobs = s.finalJobs ++ List.replicate ends.length (c, !portOpen s)
  count  : (t.chain c).retired =
    if portOpen s = true then (s.chain c).retired else (s.chain c).retired + BitVec.ofNat 32 ends.length
  queue  : ∃ q, t.mpt.stationQueue = s.mpt.stationQueue ++ q

/-- From `s` to `t` the chains stand but for their retired counts, and chain `c` alone counts. -/
def ChainsStand (c : Chain) (s t : State) : Prop :=
  t.chain c = { s.chain c with retired := (t.chain c).retired } ∧ ∀ d, d ≠ c → t.chain d = s.chain d

variable {c : Chain} {s t u : State} {ends more : List (Nat × List (Nat × List Byte) × Nat)}

theorem Ends.refl : Ends c [] s s := ⟨rfl, rfl, by simp, by simp, by simp, [], by simp⟩

theorem Ends.trans (h : Ends c ends s t) (g : Ends c more t u) : Ends c (ends ++ more) s u := by
  obtain ⟨p, hp⟩ := h.queue
  obtain ⟨q, hq⟩ := g.queue
  refine ⟨g.time.trans h.time, g.port.trans h.port, ?_, ?_, ?_, p ++ q, by rw [hq, hp, List.append_assoc]⟩
  · have same : ∀ e : Nat × List (Nat × List Byte) × Nat, finalBytes e.1 e.2.1 e.2.2 t = finalBytes e.1 e.2.1 e.2.2 s := fun e => by
      simp [finalBytes, h.time]
    rw [g.writes, h.writes, List.flatMap_append, List.append_assoc]
    simp only [same]
  · rw [g.jobs, h.jobs, h.port, List.append_assoc, List.replicate_append_replicate, List.length_append]
  · rw [g.count, h.count, h.port]
    split
    · rfl
    · rw [List.length_append, BitVec.ofNat_add, BitVec.add_assoc]

/-- What a later comparison reads stands. -/
theorem Ends.congr (h : Ends c ends s t) (time : u.partTime = t.partTime := by rfl)
    (shake : u.rsc.handshake = t.rsc.handshake := by rfl) (finals : u.sif.finals = t.sif.finals := by rfl)
    (queue : u.mpt.stationQueue = t.mpt.stationQueue := by rfl) (chain : (u.chain c).retired = (t.chain c).retired := by rfl) :
    Ends c ends s u where
  time := time.trans h.time
  port := (show (_ == _) = (_ == _) by rw [shake]).trans h.port
  writes := (finalWrites_congr queue finals).trans h.writes
  jobs := (congrArg _ finals).trans h.jobs
  count := chain.trans h.count
  queue := h.queue.imp fun _ e => queue.trans e

theorem Ends.join (h : Ends c ends s t) (b : Burst) (other : (b.user == .finalizer) = false) : Ends c ends s (joinStation b t) := by
  obtain ⟨q, e⟩ := h.queue
  refine ⟨h.time, h.port, (finalWrites_join b t other).trans h.writes, h.jobs, ?_, q ++ [b], ?_⟩
  · rw [joinStation_chain, h.count]
  · simp [e]

theorem Ends.ask (h : Ends c ends s t) (a : Area) : Ends c ends s (ask a t) := by
  obtain ⟨q, e⟩ := h.queue
  obtain ⟨p, e2, -⟩ := ask_queue a t
  refine ⟨by simp [h.time], ?_, by rw [finalWrites_ask, h.writes], by rw [finalJobs_ask, h.jobs], ?_, q ++ p, by simp [e, e2]⟩
  · rw [← h.port, portOpen, portOpen, ask_rsc]
  · rw [ask_chain, h.count]

theorem Ends.post (h : Ends c ends s t) (x : Cause) : Ends c ends s (post x t) := by
  obtain ⟨q, e⟩ := h.queue
  obtain ⟨p, e2, -⟩ := post_queue x t
  refine ⟨by simp [h.time], ?_, by rw [finalWrites_post, h.writes], by rw [finalJobs_post, h.jobs], ?_, q ++ p, by simp [e, e2]⟩
  · rw [← h.port, portOpen, portOpen, post_rsc]
  · rw [post_chain, h.count]

theorem portOpen_finalize (d : Chain) (r : Nat) (l : List (Nat × List Byte)) (x : Code) (s : State) :
    portOpen (finalize d r l x s) = portOpen s := by rw [portOpen, portOpen, finalize_rsc]

theorem finalize_queue (d : Chain) (r : Nat) (l : List (Nat × List Byte)) (x : Code) (s : State) :
    ∃ q, (finalize d r l x s).mpt.stationQueue = s.mpt.stationQueue ++ q := by
  obtain ⟨f, y, w, q, e⟩ := finalize_eq d r l x s
  exact ⟨q, by rw [e]⟩

/-- One finalization. -/
theorem ends_finalize (c : Chain) (r : Nat) (l : List (Nat × List Byte)) (x : Code) (s : State) :
    Ends c [(r, l, x.num)] s (finalize c r l x s) := by
  obtain ⟨⟨jobs, count⟩, -⟩ := countedBy_finalize c r l x s
  exact ⟨finalize_partTime _ _ _ _ _, portOpen_finalize _ _ _ _ _, by rw [finalWrites_finalize]; simp, jobs, count,
    finalize_queue _ _ _ _ _⟩

theorem Ends.finalize (h : Ends c ends s t) (r : Nat) (l : List (Nat × List Byte)) (x : Code) :
    Ends c (ends ++ [(r, l, x.num)]) s (finalize c r l x t) := h.trans (ends_finalize c r l x t)

theorem Ends.endsBy (h : Ends c ends s t) : endsBy c ends s t := ⟨h.writes, h.jobs, h.count⟩

/-! ### The posts of finalizations -/

theorem postedBy_zero (c : Chain) (s : State) : s.postedBy c 0 = s.sif.posted := by
  unfold State.postedBy
  split
  · rfl
  · rw [show (fun x : Half => x + BitVec.ofNat 16 0) = id from funext fun x => BitVec.add_zero x]
    exact List.modify_id _ _

/-- The posts of finalizations one after another. -/
theorem postedBy_add {n : Nat} (posted : t.sif.posted = s.postedBy c n) (port : portOpen t = portOpen s) (m : Nat) :
    t.postedBy c m = s.postedBy c (n + m) := by
  unfold State.postedBy at *
  rw [port, posted]
  split
  · rfl
  · rw [List.modify_modify_eq]
    congr 1
    funext x
    simp [BitVec.ofNat_add, BitVec.add_assoc]

theorem finalize_postedBy (c : Chain) (r : Nat) (l : List (Nat × List Byte)) (x : Code) (s : State) :
    (finalize c r l x s).sif.posted = s.postedBy c 1 := finalize_sif_posted c r l x s

/-! ### The chains of finalizations -/

theorem ChainsStand.refl : ChainsStand c s s := ⟨rfl, fun _ _ => rfl⟩

theorem ChainsStand.trans (h : ChainsStand c s t) (g : ChainsStand c t u) : ChainsStand c s u :=
  ⟨by rw [g.1, h.1], fun d hd => (g.2 d hd).trans (h.2 d hd)⟩

theorem chainsStand_finalize (c : Chain) (r : Nat) (l : List (Nat × List Byte)) (x : Code) (s : State) :
    ChainsStand c s (finalize c r l x s) :=
  ⟨by rw [finalize_chain, if_pos rfl], fun d hd => by rw [finalize_chain, if_neg hd]⟩

theorem chainsStand_of_chain (h : ∀ d, t.chain d = s.chain d) : ChainsStand c s t := ⟨by rw [h], fun d _ => h d⟩

/-- A record taken, and then other blocks' fields changed. -/
theorem takenAt_congr {r : Nat} (h : takenAt c r s t) (chain : ∀ d, u.chain d = t.chain d := by exact fun _ => rfl)
    (queue : ∃ l, u.mpt.stationQueue = t.mpt.stationQueue ++ l := by exact ⟨[], (List.append_nil _).symm⟩)
    (writes : u.finalWrites = t.finalWrites := by rfl) (jobs : u.finalJobs = t.finalJobs := by rfl)
    (posted : u.sif.posted = t.sif.posted := by rfl) : takenAt c r s u := by
  obtain ⟨h1, h2, ⟨q, h3⟩, h4, h5, h6⟩ := h
  obtain ⟨l, e⟩ := queue
  exact ⟨(chain c).trans h1, fun d hd => (chain d).trans (h2 d hd), ⟨q ++ l, by simp [e, h3]⟩, writes.trans h4, jobs.trans h5,
    posted.trans h6⟩

theorem takenAt_ask {r : Nat} (h : takenAt c r s t) (a : Area) : takenAt c r s (ask a t) :=
  takenAt_congr h (ask_chain a t) ((ask_queue a t).imp fun _ => And.left) (finalWrites_ask a t) (finalJobs_ask a t)
    (ask_sif_posted a t)

theorem portOpen_congr (h : t.rsc.handshake = s.rsc.handshake) : portOpen t = portOpen s := by rw [portOpen, portOpen, h]

/-- A record taken, and then finalized, perhaps after a change of other blocks' fields. -/
theorem finalizedAt_take {r : Nat} (taken : takenAt c r s t) (l : List (Nat × List Byte)) (x : Code)
    (time : t.partTime = s.partTime := by rfl) (shake : t.rsc.handshake = s.rsc.handshake := by rfl) :
    finalizedAt c r l x.num s (finalize c r l x t) := finalizedAt_finalize taken time (portOpen_congr shake) l x

/-- A record taken, and then finalizations made with nothing else posted. -/
theorem takenEnding_of {r : Nat} (taken : takenAt c r s t) (h : Ends c ends t u) (chains : ChainsStand c t u)
    (posted : u.sif.posted = t.postedBy c ends.length) (time : t.partTime = s.partTime := by rfl)
    (shake : t.rsc.handshake = s.rsc.handshake := by rfl) : takenEnding c r ends s u := by
  have port := portOpen_congr shake
  obtain ⟨t1, t2, ⟨p, t3⟩, t4, t5, t6⟩ := taken
  obtain ⟨q, e⟩ := h.queue
  refine ⟨by rw [chains.1, t1], fun d hd => (chains.2 d hd).trans (t2 d hd), ⟨p ++ q, by simp [e, t3]⟩, ⟨?_, ?_, ?_⟩, ?_⟩
  · have same : ∀ e : Nat × List (Nat × List Byte) × Nat, finalBytes e.1 e.2.1 e.2.2 t = finalBytes e.1 e.2.1 e.2.2 s := fun e => by
      simp [finalBytes, time]
    rw [h.writes, t4]
    simp only [same]
  · rw [h.jobs, t5, port]
  · rw [h.count, port, t1]
  · rw [posted, State.postedBy, State.postedBy, port, t6]

/-! ### The taking of a record -/

theorem takeRecord_ready {k : Kind} {r : Nat} {bytes : List Byte} (ready : readyRecord k s = some (r, bytes))
    (owner : Nat → List Byte → State → State) : takeRecord k owner s = owner r bytes (markTaken k.chain r s) := by
  rw [takeRecord, ready]

theorem takeInRun_ready {k : Kind} {r : Nat} {bytes : List Byte} (ready : readyRecord k s = some (r, bytes))
    (run : s.rsc.part = .run) (owner : Nat → List Byte → State → State) :
    takeInRun k owner s = owner r bytes (markTaken k.chain r s) := by
  rw [takeInRun, if_pos run, takeRecord_ready ready]

theorem takeAwake_ready {k : Kind} {r : Nat} {bytes : List Byte} (ready : readyRecord k s = some (r, bytes))
    (rest : s.rsc.part ≠ .rest) (turn : s.rsc.part ≠ .restTurn) (waking : s.rsc.part ≠ .waking)
    (owner : Nat → List Byte → State → State) : takeAwake k owner s = owner r bytes (markTaken k.chain r s) := by
  rw [takeAwake]
  split
  · next e => exact absurd e rest
  · next e => exact absurd e turn
  · next e => exact absurd e waking
  all_goals exact takeRecord_ready ready owner

theorem takeStaged_ready {k : Kind} {r : Nat} {bytes : List Byte} (ready : readyRecord k s = some (r, bytes))
    (free : turnHolds s = false) (owner : Nat → List Byte → State → State) :
    takeStaged k owner s = owner r bytes (markTaken k.chain r s) := by
  rw [takeStaged, if_neg (by simp [free]), takeRecord_ready ready]

/-! What the taking of a record leaves as it was. -/

@[simp] theorem markTaken_partTime (c : Chain) (r : Nat) (s : State) : (markTaken c r s).partTime = s.partTime := by cases c <;> rfl
@[simp] theorem markTaken_settings (c : Chain) (r : Nat) (s : State) : (markTaken c r s).settings = s.settings := by cases c <;> rfl
@[simp] theorem markTaken_fresh (c : Chain) (r : Nat) (s : State) : (markTaken c r s).fresh = s.fresh := by cases c <;> rfl
@[simp] theorem markTaken_mem (c : Chain) (r : Nat) (s : State) : (markTaken c r s).mem = s.mem := by cases c <;> rfl
@[simp] theorem markTaken_meu (c : Chain) (r : Nat) (s : State) : (markTaken c r s).meu = s.meu := by cases c <;> rfl
@[simp] theorem markTaken_wfs (c : Chain) (r : Nat) (s : State) : (markTaken c r s).wfs = s.wfs := by cases c <;> rfl
@[simp] theorem markTaken_upe (c : Chain) (r : Nat) (s : State) : (markTaken c r s).upe = s.upe := by cases c <;> rfl
@[simp] theorem markTaken_pss (c : Chain) (r : Nat) (s : State) : (markTaken c r s).pss = s.pss := by cases c <;> rfl
@[simp] theorem markTaken_ktu (c : Chain) (r : Nat) (s : State) : (markTaken c r s).ktu = s.ktu := by cases c <;> rfl
@[simp] theorem markTaken_ltu (c : Chain) (r : Nat) (s : State) : (markTaken c r s).ltu = s.ltu := by cases c <;> rfl
@[simp] theorem markTaken_dlc (c : Chain) (r : Nat) (s : State) : (markTaken c r s).dlc = s.dlc := by cases c <;> rfl
@[simp] theorem markTaken_rsc (c : Chain) (r : Nat) (s : State) : (markTaken c r s).rsc = s.rsc := by cases c <;> rfl
@[simp] theorem markTaken_live (c : Chain) (r : Nat) (s : State) : (markTaken c r s).sif.live = s.sif.live := by cases c <;> rfl
@[simp] theorem markTaken_base (c : Chain) (r : Nat) (s : State) : (markTaken c r s).sif.base = s.sif.base := by cases c <;> rfl
@[simp] theorem markTaken_load (c : Chain) (r : Nat) (s : State) : (markTaken c r s).sif.load = s.sif.load := by cases c <;> rfl
@[simp] theorem markTaken_loadQueue (c : Chain) (r : Nat) (s : State) : (markTaken c r s).sif.loadQueue = s.sif.loadQueue := by
  cases c <;> rfl
@[simp] theorem markTaken_writers (c : Chain) (r : Nat) (s : State) : (markTaken c r s).sif.writers = s.sif.writers := by
  cases c <;> rfl
@[simp] theorem markTaken_cfg (c : Chain) (r : Nat) (s : State) : (markTaken c r s).cfg = s.cfg := by simp [State.cfg]
@[simp] theorem markTaken_rangeOk (c : Chain) (r : Nat) (s : State) (a n : Nat) : (markTaken c r s).rangeOk a n = s.rangeOk a n := by
  simp [State.rangeOk, State.windows]
@[simp] theorem markTaken_pages (c : Chain) (r : Nat) (s : State) (d : Dir) : (markTaken c r s).pages d = s.pages d := by
  simp [State.pages]
@[simp] theorem markTaken_portOpen (c : Chain) (r : Nat) (s : State) : portOpen (markTaken c r s) = portOpen s := by simp [portOpen]

end Sys2Proof.Machine
end

section
/-! The records of the PAGE chain that one owner judges and answers at once: UPDATE, STAGE, UNSTAGE, WAVEFORM (sections 4.2, 6.3 and 3.2). -/

set_option Elab.async false

namespace Sys2Proof.Machine

/-! ### UPDATE (R57, R58) -/

/-- The checks of R57 read the settings, the window table, the active image and the panel supply alone. -/
theorem updateFailure_congr (q : UpdateReq) {s t : State} (settings : t.settings = s.settings) (live : t.sif.live = s.sif.live)
    (wfs : t.wfs = s.wfs) (pss : t.pss = s.pss) : updateFailure q t = updateFailure q s := by
  simp only [updateFailure, State.cfg, State.rangeOk, State.windows, State.geom, settings, live, wfs, pss]
  rfl

theorem noLaneResults_eq (m : Nat) :
    noLaneResults m = [(0x21, le8 m ++ [0xFF, 0xFF]), (0x28, [0, 0, 0, 0, 0, 0, 0, 0])] := rfl

theorem takeUpdate_refused {bytes : List Byte} {s : State} {code : Code} (fails : updateFailure (parseUpdate bytes) s = some code)
    (r : Nat) : takeUpdate r bytes s = finalize .page r (noLaneResults (parseUpdate bytes).mode) code
      { s with upe.reservations := s.upe.reservations - 1 } := by
  have same := updateFailure_congr (parseUpdate bytes) (s := s) (t := { s with upe.reservations := s.upe.reservations - 1 })
    rfl rfl rfl rfl
  rw [takeUpdate]
  dsimp only
  rw [same, fails]

/-- The entry an UPDATE record joins the list with (R60). -/
def UpdateReq.entry (q : UpdateReq) (r id : Nat) : Entry :=
  { id := id, origin := .record r, rect := q.rect, source := q.source, stride := q.stride
    mode := (Mode.ofNum q.mode).getD .clear, policy := if q.policy = 0 then .wait else .overlap
    tag := if q.tagged = true then some q.tag else none, st := .none, key := none, note := false, again := false }

theorem takeUpdate_joins {bytes : List Byte} {s : State} (passes : updateFailure (parseUpdate bytes) s = none) (r : Nat) :
    takeUpdate r bytes s = scan (idleCheck (ask .panel { s with
      upe.list := s.upe.list ++ [(parseUpdate bytes).entry r s.upe.nextId], upe.nextId := s.upe.nextId + 1
      upe.reservations := s.upe.reservations - 1 })) := by
  have same := updateFailure_congr (parseUpdate bytes) (s := s) (t := { s with upe.reservations := s.upe.reservations - 1 })
    rfl rfl rfl rfl
  rw [takeUpdate]
  dsimp only
  rw [same, passes]
  rfl

/-- Settles O21: `takeUpdate` on the record taken, whose checks read nothing that the taking or the reservation changes. -/
theorem updateIsTaken : Obligations.UpdateIsTaken := by
  refine ⟨fun s r bytes code ready rest turn waking fails => ?_, fun s r bytes ready rest turn waking passes => ?_,
    fun s asleep => ?_⟩
  · have fails := (updateFailure_congr (parseUpdate bytes) (markTaken_settings .page r s) (markTaken_live .page r s)
      (markTaken_wfs .page r s) (markTaken_pss .page r s)).trans fails
    refine ⟨_, congrArg done ((takeAwake_ready ready rest turn waking takeUpdate).trans (takeUpdate_refused fails r)), ?_, ?_⟩
    · rw [← noLaneResults_eq]
      exact finalizedAt_take (takenAt_congr (takenAt_markTaken .page r s)) _ code
    · rw [sansRequests_finalize]
      rfl
  · have passes := (updateFailure_congr (parseUpdate bytes) (markTaken_settings .page r s) (markTaken_live .page r s)
      (markTaken_wfs .page r s) (markTaken_pss .page r s)).trans passes
    exact ⟨_, congrArg done ((takeAwake_ready ready rest turn waking takeUpdate).trans (takeUpdate_joins passes r)),
      takenAt_congr (takenAt_markTaken .page r s), rfl⟩
  · have stays : takeAwake .update takeUpdate s = s := by
      rcases asleep with e | e | e <;> rw [takeAwake, e]
    exact congrArg done stays

theorem modeOfNum_eq_none (m : Nat) : Mode.ofNum m = none ↔ 2 < m := by
  match m with
  | 0 => simp [Mode.ofNum]
  | 1 => simp [Mode.ofNum]
  | 2 => simp [Mode.ofNum]
  | n + 3 => simp [Mode.ofNum]

/-- The checks of R57 on a request. -/
theorem updateFailure_eq (q : UpdateReq) (s : State) : updateFailure q s =
    if 2 < q.mode then some .refusedFormat
    else if ¬(q.rect.x % 8 = 0 ∧ q.rect.w % 8 = 0 ∧ 8 ≤ q.rect.w ∧ 1 ≤ q.rect.h ∧ q.rect.x + q.rect.w ≤ s.cfg.width ∧
        q.rect.y + q.rect.h ≤ s.cfg.height) then some .refusedRange
    else if ¬(q.stride % 4 = 0 ∧ q.rect.w / 2 ≤ q.stride) then some .refusedRange
    else if q.tagged = true ∧ q.rect ≠ ⟨0, 0, s.cfg.width, s.cfg.height⟩ then some .refusedFormat
    else if s.wfs.active = none then some .refusedFormat
    else if ¬s.rangeOk q.source ((q.rect.h - 1) * q.stride + q.rect.w / 2) = true then some .window
    else if ¬s.rangeOk (s.cfg.buffer + 2 * (q.rect.y * s.cfg.width + q.rect.x))
        (2 * ((q.rect.h - 1) * s.cfg.width + q.rect.w)) = true then some .window
    else if s.pss.rail = .locked then some .panelFault
    else none := by
  unfold updateFailure
  simp only [Option.isNone_iff_eq_none, modeOfNum_eq_none, Rect.isFull, State.geom, Geometry.pixelAddr, Bool.not_and, Bool.or_eq_true,
    Bool.and_eq_true, Bool.not_eq_true', beq_eq_false_iff_ne, decide_eq_false_iff_not, ne_eq, not_and_or, Bool.not_eq_true, or_assoc]

/-- Settles O22: each clause takes `updateFailure_eq` to its branch. -/
theorem updateChecksInOrder : Obligations.UpdateChecksInOrder := by
  intro q s w h fits strides source buffer
  refine ⟨fun m => ?_, fun m f => ?_, fun m f st => ?_, fun m f st bad => ?_, fun m f st tag img bad => ?_,
    fun m f st tag img so bu => ?_⟩ <;> rw [updateFailure_eq]
  · rw [if_pos m]
  all_goals rw [if_neg (Nat.not_lt.mpr m)]
  · rw [if_pos f]
  · rw [if_neg (not_not_intro f), if_pos st]
  · rw [if_neg (not_not_intro f), if_neg (not_not_intro st)]
    rcases bad with tag | img
    · rw [if_pos tag]
    · rw [if_pos img, ite_self]
  all_goals rw [if_neg (not_not_intro f), if_neg (not_not_intro st), if_neg fun g => g.2 (tag g.1), if_neg img]
  · by_cases so : source
    · rw [if_neg (not_not_intro so), if_pos fun bu => bad ⟨so, bu⟩]
    · rw [if_pos so]
  · rw [if_neg (not_not_intro so), if_neg (not_not_intro bu)]

/-! ### STAGE and UNSTAGE (R116, R117) -/

/-- A page put at the far end of its direction's list, or refused (R116), for the direction of a STAGE. -/
theorem takeStage_eq {bytes : List Byte} {d : Dir} (dir : flagsOf bytes % 4 = match d with
      | .forward => 0
      | .back => 1) (r : Nat) (s : State) :
    let page : Page := ⟨BitVec.ofNat 32 (u32 bytes 0x18), u32 bytes 0x10, u32 bytes 0x14⟩
    let n := (s.pages d).length
    let fin := fun (k : Nat) (code : Code) (u : State) => finalize .page r [(0x1C, le8 k)] code u
    takeStage r bytes s =
      if ¬(page.stride % 4 = 0 ∧ s.cfg.width / 2 ≤ page.stride) then fin n .refusedRange s
      else if ¬s.rangeOk page.addr ((s.cfg.height - 1) * page.stride + s.cfg.width / 2) = true then fin n .window s
      else if d.capacity ≤ n then fin n .full s
      else fin (n + 1) .done (s.setPages d (s.pages d ++ [page])) := by
  cases d <;>
    simp only [takeStage, dir, strideOk, imageExtent, Bool.not_and, Bool.or_eq_true, Bool.not_eq_true', beq_eq_false_iff_ne,
      decide_eq_false_iff_not, ne_eq, not_and_or, Bool.not_eq_true]

theorem takeStage_refused {bytes : List Byte} (dir : 2 ≤ flagsOf bytes % 4) (r : Nat) (s : State) :
    takeStage r bytes s = finalize .page r [(0x1C, le8 0)] .refusedFormat s := by
  unfold takeStage
  dsimp only
  split
  · next e => omega
  · next e => omega
  · rfl

/-- A STAGE or UNSTAGE met by a waiting turn is declined, and holds its chain (R118). -/
theorem declined_held {s : State} (turn : turnHolds s = true) :
    chainState (walkDecline .page .turnBegun s) .page = .held := by
  have held : chainHeld (walkDecline .page .turnBegun s) .page = true := by
    show (partHolds s || turnHolds s) = true
    rw [turn, Bool.or_true]
  rw [chainState, if_neg (fun walks => walks rfl), if_pos held]

/-- Settles O23: `takeStage_eq` on the record taken, and the decline. -/
theorem stageIsTaken : Obligations.StageIsTaken := by
  refine ⟨fun s r bytes ready free => ?_, fun c k s r bytes command ready turn => ?_⟩
  · intro d dir page n cap strideOkay inside out
    have done_take := takeStaged_ready ready free takeStage
    have finish : ∀ (k : Nat) (code : Code) (u v : State), takenAt .page r s v → v.partTime = s.partTime →
        v.rsc.handshake = s.rsc.handshake → v.sansRequests = u.sansRequests →
        takeStage r bytes (markTaken .page r s) = finalize .page r [(0x1C, le8 k)] code v → out k code.num u := by
      intro k code u v taken time shake frame e
      exact ⟨_, congrArg done (done_take.trans e), finalizedAt_take taken _ code time shake,
        (sansRequests_finalize _ _ _ _ _).trans frame⟩
    have here : ∀ (k : Nat) (code : Code),
        takeStage r bytes (markTaken .page r s) = finalize .page r [(0x1C, le8 k)] code (markTaken .page r s) → out k code.num s :=
      fun k code e => finish k code s _ (takenAt_markTaken .page r s) rfl rfl (sansRequests_markTaken .page r s) e
    refine ⟨fun high => here 0 .refusedFormat (takeStage_refused high r _), ?_⟩
    have judged : d < 2 → takeStage r bytes (markTaken .page r s) =
        if ¬strideOkay then finalize .page r [(0x1C, le8 n)] .refusedRange (markTaken .page r s)
        else if ¬inside then finalize .page r [(0x1C, le8 n)] .window (markTaken .page r s)
        else if cap ≤ n then finalize .page r [(0x1C, le8 n)] .full (markTaken .page r s)
        else finalize .page r [(0x1C, le8 (n + 1))] .done ((markTaken .page r s).setPages dir (s.pages dir ++ [page])) := by
      intro low
      have two : flagsOf bytes % 4 = match dir with
          | .forward => 0
          | .back => 1 := by
        show d = _
        by_cases zero : d = 0
        · simp only [dir, if_pos zero, zero]
        · simp only [dir, if_neg zero]
          omega
      have capacity : dir.capacity = cap := by
        by_cases zero : d = 0 <;> simp [dir, cap, zero, Dir.capacity]
      rw [takeStage_eq two, capacity, markTaken_rangeOk, markTaken_cfg, markTaken_pages]
    refine ⟨fun low stride => here n .refusedRange ?_, fun low stride range => here n .window ?_,
      fun low stride range full => here n .full ?_, fun low stride range room => ?_⟩
    · rw [judged low, if_pos stride]
    · rw [judged low, if_neg (not_not_intro stride), if_pos range]
    · rw [judged low, if_neg (not_not_intro stride), if_neg (not_not_intro range), if_pos full]
    · refine finish (n + 1) .done _ ((markTaken .page r s).setPages dir (s.pages dir ++ [page])) ?_ ?_ ?_ ?_ ?_
      · cases dir <;> exact takenAt_congr (takenAt_markTaken .page r s)
      · cases dir <;> rfl
      · cases dir <;> rfl
      · cases dir <;> rfl
      · rw [judged low, if_neg (not_not_intro stride), if_neg (not_not_intro range), if_neg (Nat.not_le.mpr room)]
  · have declined : ∀ owner, takeStaged k owner s = walkDecline .page .turnBegun s := fun owner => by
      rw [takeStaged, ready, turn]
      rfl
    refine ⟨walkDecline .page .turnBegun s, ?_, rfl, declined_held turn⟩
    rcases command with e | e <;> cases e <;> exact congrArg done (declined _)

/-- What an UNSTAGE leaves of the lists, and how many pages it removes (R117). -/
theorem takeUnstage_eq (r : Nat) (bytes : List Byte) (s : State) :
    let d := flagsOf bytes % 4
    takeUnstage r bytes s = finalize .page r
      [(7, le8 ((if d = 0 ∨ d = 2 then s.ktu.forward.length else 0) + if d = 1 ∨ d = 2 then s.ktu.backward.length else 0))]
      (if d = 3 then .refusedFormat else .done) { s with
        ktu.forward := if d = 0 ∨ d = 2 then [] else s.ktu.forward
        ktu.backward := if d = 1 ∨ d = 2 then [] else s.ktu.backward } := by
  have four : flagsOf bytes % 4 < 4 := Nat.mod_lt _ (by decide)
  unfold takeUnstage
  dsimp only
  generalize flagsOf bytes % 4 = d at *
  match d, four with
  | 0, _ => rfl
  | 1, _ => simp
  | 2, _ => rfl
  | 3, _ => rfl

/-- Settles O24 by `takeUnstage_eq`; the capacities of the lists bound the count. -/
theorem unstageTaken : Obligations.UnstageTaken := by
  intro s r bytes ready free d f b
  refine ⟨rfl, rfl, _, congrArg done ((takeStaged_ready ready free takeUnstage).trans (takeUnstage_eq r bytes _)), ?_, ?_, ?_, ?_, ?_⟩
  · have code : (if d = 3 then 32 else 16) = (if d = 3 then Code.refusedFormat else Code.done).num := by split <;> rfl
    rw [code]
    exact finalizedAt_take (takenAt_congr (takenAt_markTaken .page r s)) _ _
  · intro three
    simp [f, b, three]
  · intro law
    obtain ⟨-, -, forward, backward, -⟩ := (turnLaw_iff s).mp law
    have hf : f ≤ 8 := by unfold f; split <;> omega
    have hb : b ≤ 4 := by unfold b; split <;> omega
    omega
  · rw [finalize_upe]
    rfl
  · rw [sansRequests_finalize]
    rfl

/-! ### WAVEFORM (R35) -/

theorem headerBlocks {a : Nat} (aligned : a % 64 = 0) : blocks a headerSize =
    [(a, 64), (a + 64, 64), (a + 128, 64), (a + 192, 64), (a + 256, 64), (a + 320, 32)] := by
  simp [headerSize, blocks, blocksFrom, aligned]

/-- Settles O25: the four outcomes of `takeWaveform`. -/
theorem waveformTaken : Obligations.WaveformTaken := by
  intro s r bytes ready run a refused
  have taken := takeInRun_ready ready run takeWaveform
  have refuse : ∀ (reason : Nat) (code : Code),
      takeWaveform r bytes (markTaken .page r s) = refuseWave r reason 0 code (markTaken .page r s) → refused reason code.num :=
    fun reason code e => ⟨_, _, _, congrArg done (taken.trans e),
      finalizedAt_take (takenAt_congr (takenAt_markTaken .page r s)) _ code, by rw [refuseWave, sansRequests_finalize]; rfl⟩
  have judged : takeWaveform r bytes (markTaken .page r s) =
      if s.wfs.check ≠ none then refuseWave r 0 0 .busy (markTaken .page r s)
      else if a % 64 ≠ 0 then refuseWave r 1 0 .refusedFormat (markTaken .page r s)
      else if s.rangeOk a headerSize = false then refuseWave r 8 0 .window (markTaken .page r s)
      else match blocks a headerSize with
        | b :: l => joinWave (headerBurst b) { markTaken .page r s with wfs.check := some ⟨r, a, l, []⟩ }
        | [] => markTaken .page r s := by
    rw [takeWaveform, markTaken_rangeOk, markTaken_wfs]
    rfl
  refine ⟨fun busy => refuse 0 .busy ?_, fun idle odd => refuse 1 .refusedFormat ?_, fun idle aligned (outside : s.rangeOk a headerSize = false) =>
      refuse 8 .window ?_, fun idle aligned (inside : s.rangeOk a headerSize = true) => ?_⟩
  · rw [judged, if_pos busy]
  · rw [judged, if_neg (not_not_intro idle), if_pos odd]
  · rw [judged, if_neg (not_not_intro idle), if_neg (not_not_intro aligned), if_pos outside]
  · have begins : takeWaveform r bytes (markTaken .page r s) = joinWave (headerBurst (a, 64)) { markTaken .page r s with
        wfs.check := some ⟨r, a, [(a + 64, 64), (a + 128, 64), (a + 192, 64), (a + 256, 64), (a + 320, 32)], []⟩ } := by
      rw [judged, if_neg (not_not_intro idle), if_neg (not_not_intro aligned),
        if_neg (Bool.not_eq_false _ ▸ inside), headerBlocks aligned]
    exact ⟨_, congrArg done (taken.trans begins), takenAt_congr (takenAt_markTaken .page r s), rfl⟩

end Sys2Proof.Machine
end

section
/-! The records of the CONTROL chain that are answered at once: LIGHT, SETTINGS, TURNS SEEN; and the LIGHT in progress (sections 7.2, 1.6 and 6.5). -/

set_option Elab.async false

namespace Sys2Proof.Machine

/-! ### The LIGHT in progress (R131) -/

/-- The Light Unit once the LIGHT in progress has been finalized. -/
def Ltu.unlit (l : Ltu) : Ltu := { l with light := none, detached := if l.light = none then l.detached else false }

/-- The end of the LIGHT in progress leaves the Light Unit as `Ltu.unlit` says. -/
theorem finalizeLight_ltu (code : Code) (s : State) : (finalizeLight code s).ltu = s.ltu.unlit := by
  unfold finalizeLight Ltu.unlit
  split
  · next r e => rw [finalize_ltu, e]; rfl
  · next e => simp [← e]

theorem finalizeLight_sansRequests (code : Code) (s : State) :
    (finalizeLight code s).sansRequests = ({ s with ltu := s.ltu.unlit } : State).sansRequests := by
  unfold finalizeLight Ltu.unlit
  split
  · next r e => rw [sansRequests_finalize, e]; rfl
  · next e => simp [← e]

theorem ends_finalizeLight (code : Code) (s : State) :
    Ends .control (lightEnds code.num s) s (finalizeLight code s) := by
  unfold finalizeLight lightEnds
  cases s.ltu.light with
  | some r => exact (Ends.refl.congr (u := { s with ltu.light := none, ltu.detached := false })).finalize r _ code
  | none => exact Ends.refl

theorem chainsStand_finalizeLight (code : Code) (s : State) : ChainsStand .control s (finalizeLight code s) := by
  unfold finalizeLight
  split
  · exact (chainsStand_of_chain (t := { s with ltu.light := none, ltu.detached := false }) fun _ => rfl).trans
      (chainsStand_finalize _ _ _ _ _)
  · exact ChainsStand.refl

theorem finalizeLight_posted (code : Code) (s : State) :
    (finalizeLight code s).sif.posted = s.postedBy .control (lightEnds code.num s).length := by
  unfold finalizeLight lightEnds
  split
  · next r e => rw [finalize_postedBy, e]; rfl
  · next e => rw [e]; exact (postedBy_zero _ _).symm

/-! ### LIGHT (R130) -/

/-- The Light Unit after a LIGHT's fields have been taken. -/
def Ltu.ramped (l : Ltu) (r lv wm d : Nat) : Ltu :=
  { l with
    lr := lv, mr := wm, keyOff := false, light := some r, detached := false
    ramp := some ⟨l.level, l.warmth, min lv l.ceiling, wm, fadeSteps d, 0, .light⟩ }

theorem takeLight_eq (r : Nat) (bytes : List Byte) (s : State) :
    takeLight r bytes s = ask .light { finalizeLight .cancelled s with
      ltu := s.ltu.ramped r (min (u16 bytes 0x10) 1000) (min (u16 bytes 0x12) 100) (min (u16 bytes 0x14) 10000) } := by
  have h := finalizeLight_ltu .cancelled s
  simp only [takeLight, startRamp, litLevel, h]
  rfl

/-- Settles O28: `takeLight_eq` on the record taken, with and without a LIGHT in progress. -/
theorem lightTaken : Obligations.LightTaken := by
  intro s r bytes ready run lv wm d
  have marked := takenAt_markTaken .control r s
  have light : (markTaken .control r s).ltu.light = s.ltu.light := rfl
  refine ⟨_, congrArg done ((takeInRun_ready ready run takeLight).trans (takeLight_eq r bytes _)), ?_, fun none => ?_,
    fun old some => ?_⟩
  · rw [sansRequests_ask]
    exact congrArg (fun x : State => ({ x with ltu := s.ltu.ramped r lv wm d } : State))
      (finalizeLight_sansRequests .cancelled (markTaken .control r s))
  · have same : finalizeLight .cancelled (markTaken .control r s) = markTaken .control r s := by
      rw [finalizeLight, light, none]
    refine takenAt_ask ?_ .light
    rw [Kind.chain, same]
    exact takenAt_congr marked
  · have ends := ends_finalizeLight .cancelled (markTaken .control r s)
    have posted := finalizeLight_posted .cancelled (markTaken .control r s)
    have chains := chainsStand_finalizeLight .cancelled (markTaken .control r s)
    have one : lightEnds 48 (markTaken .control r s) =
        [(old, [(0x18, le16 s.ltu.lr ++ le16 s.ltu.mr ++ le16 s.ltu.level ++ le16 s.ltu.ceiling)], 48)] := by
      rw [lightEnds, light, some]
      rfl
    rw [show Code.cancelled.num = 48 from rfl, one] at ends posted
    exact takenEnding_of marked (ends.congr.ask .light) (chains.trans (chainsStand_of_chain fun d => ask_chain _ _ d))
      ((ask_sif_posted _ _).trans posted)

/-! ### SETTINGS (R17) -/

/-- Settles O30. -/
theorem settingsTaken : Obligations.SettingsTaken := by
  intro s r bytes ready run
  have taken := takeInRun_ready ready run takeSettings
  have marked := takenAt_markTaken .control r s
  by_cases idle : s.sif.load = none
  · have begins : takeSettings r bytes (markTaken .control r s) = loadSettings (.request r) (markTaken .control r s) := if_pos idle
    refine ⟨_, congrArg done (taken.trans (begins.trans (loadSettings_eq _ _))), ?_, fun busy => absurd idle busy,
      fun _ => ⟨settingsLeft s, (blocks_pos s.baseAddr (by decide)).symm, rfl, ?_⟩⟩
    · exact takenAt_congr marked (fun d => by cases d <;> rfl) ⟨_, rfl⟩ (finalWrites_join _ _ rfl)
    · simp only [joinStation_mpt, List.getLast?_append, List.getLast?_singleton, Option.some_or]
      rfl
  · have waits : takeSettings r bytes (markTaken .control r s) =
        { markTaken .control r s with sif.loadQueue := (markTaken .control r s).sif.loadQueue ++ [r] } := if_neg idle
    exact ⟨_, congrArg done (taken.trans waits), takenAt_congr marked (fun d => by cases d <;> rfl), fun _ => rfl,
      fun none => absurd none idle⟩

/-! ### TURNS SEEN (R127) -/

/-- Settles O32. -/
theorem turnsSeenTaken : Obligations.TurnsSeenTaken := by
  intro s r bytes ready run n
  obtain ⟨v, taken, marked, time, rsc, log, frame⟩ : ∃ v, takeInRun .turnsSeen takeTurnsSeen s =
      finalize .control r [(7, le8 n)] .done v ∧ takenAt .control r s v ∧ v.partTime = s.partTime ∧ v.rsc = s.rsc ∧
      v.ktu.log = s.ktu.log.drop n ∧
      v.sansRequests = ({ s with ktu.log := s.ktu.log.drop n, ktu.logDirty := false } : State).sansRequests :=
    ⟨writeLog { markTaken .control r s with ktu.log := s.ktu.log.drop n }, takeInRun_ready ready run takeTurnsSeen,
      takenAt_ask (takenAt_congr (takenAt_markTaken .control r s)) .turnLog, ask_partTime _ _, ask_rsc _ _,
      congrArg Ktu.log (ask_ktu _ _), sansRequests_ask _ _⟩
  rw [← log] at frame
  refine ⟨_, congrArg done taken, finalizedAt_take marked _ .done time (congrArg Rsc.handshake rsc), ?_, ?_, ?_⟩
  · rw [finalize_ktu, log, List.length_drop]
    omega
  · rw [finalize_ktu, log, List.take_append_drop]
  · rw [finalize_ktu, sansRequests_finalize, frame]

end Sys2Proof.Machine
end

section
/-! The records of the FETCH chain: CLOSE, OPEN, and the read that resumes a download (section 8.5). -/

set_option Elab.async false

namespace Sys2Proof.Machine

/-! ### Completions -/

theorem complete_okay {b : Burst} (live : b.fate = .live) (data : List Byte) (s : State) :
    complete b .okay data s = userOkay b.user data s := by rw [complete, if_pos live, if_pos rfl]

theorem complete_fail {b : Burst} (live : b.fate = .live) {a : Answer} (bad : a ≠ .okay) (data : List Byte) (s : State) :
    complete b a data s = userFail b.user a s := by rw [complete, if_pos live, if_neg bad]

/-! ### A slot freed -/

/-- Giving up a client's burst changes the Memory Port alone, and not the STATION queue. -/
theorem giveUpBurst_eq (c : Client) (s : State) :
    ∃ m, m.stationQueue = s.mpt.stationQueue ∧ giveUpBurst c s = { s with mpt := m } := by
  refine ⟨(giveUpBurst c s).mpt, ?_, ?_⟩ <;> cases c <;> rfl

@[simp] theorem setSlot_slot {s : State} {i : Nat} (h : i < s.dlc.slots.length) (f : FileSlot) : (s.setSlot i f).slot i = f := by
  simp [State.slot, State.setSlot, List.getD_eq_getElem?_getD, h]

/-- Dropping a slot's dispatch: its chunk leaves the FIFO uncounted, and its burst is given up (R164). -/
theorem dropDispatch_eq (i : Nat) (s : State) : ∃ m d, m.stationQueue = s.mpt.stationQueue ∧ (∀ x, d = some x → x.slot ≠ i) ∧
    dropDispatch i s = { s with
      mpt := m, dlc.dispatch := d
      dlc.fifo := match s.dlc.dispatch with
        | some d => if d.slot = i then s.dlc.fifo.tail else s.dlc.fifo
        | none => s.dlc.fifo } := by
  unfold dropDispatch
  cases writing : s.dlc.dispatch with
  | some x =>
    dsimp only
    split
    · obtain ⟨m, queue, e⟩ := giveUpBurst_eq .download { s with dlc.dispatch := none, dlc.fifo := s.dlc.fifo.tail }
      exact ⟨m, none, queue, nofun, e⟩
    · next other => exact ⟨s.mpt, some x, rfl, fun y e => Option.some.inj e ▸ other, by rw [← writing]⟩
  | none => exact ⟨s.mpt, none, rfl, nofun, by dsimp only; rw [← writing]⟩

/-- Abandoning a slot's verify pass: it leaves the verify queue, and the pass's burst is given up (R167). -/
theorem dropVerify_eq (i : Nat) (s : State) : ∃ m q v, m.stationQueue = s.mpt.stationQueue ∧ i ∉ q ∧
    (∀ x, v = some x → x.slot ≠ i) ∧ dropVerify i s = { s with mpt := m, dlc.verifyQueue := q, dlc.verify := v } := by
  have gone : i ∉ s.dlc.verifyQueue.filter (· != i) := by simp
  unfold dropVerify
  dsimp only
  split
  · next x passing =>
    split
    · obtain ⟨m, queue, e⟩ := giveUpBurst_eq .verify { s with
        dlc.verifyQueue := s.dlc.verifyQueue.filter (· != i), dlc.verify := none }
      exact ⟨m, _, none, queue, gone, nofun, e⟩
    · next other => exact ⟨s.mpt, _, some x, rfl, gone, fun y e => Option.some.inj e ▸ other, by rw [← passing]⟩
  · next idle => exact ⟨s.mpt, _, none, rfl, gone, nofun, by rw [← idle]⟩

/-- A freed slot keeps map and counts, and its progress record is written (R159). -/
theorem freeSlot_eq (i : Nat) (x : Bool) (s : State) : freeSlot i x s =
    ask (.progress i) (s.setSlot i { s.slot i with state := .free, timer := none, interrupted := x }) := rfl

/-- An OPEN and then the CLOSE of its slot finalized. -/
theorem takenEnding_close {s v : State} {r : Nat} (marked : takenAt .fetch r s v) (i n a : Nat)
    (time : v.partTime = s.partTime) (shake : v.rsc.handshake = s.rsc.handshake) :
    takenEnding .fetch r [(a, [(7, [0])], 48), (r, [(7, le8 n)], 16)] s
      (finalize .fetch r [(7, le8 n)] .done (freeSlot i false (finalize .fetch a (openResult 0) .cancelled v))) := by
  have first := ends_finalize .fetch a (openResult 0) .cancelled v
  have freed : Ends .fetch [(a, openResult 0, 48)] v (freeSlot i false (finalize .fetch a (openResult 0) .cancelled v)) :=
    (first.congr).ask (.progress i)
  have chains : ChainsStand .fetch v (freeSlot i false (finalize .fetch a (openResult 0) .cancelled v)) :=
    (chainsStand_finalize _ _ _ _ _).trans (chainsStand_of_chain fun d => by rw [freeSlot_eq, ask_chain]; cases d <;> rfl)
  have posted : (freeSlot i false (finalize .fetch a (openResult 0) .cancelled v)).sif.posted = v.postedBy .fetch 1 :=
    (ask_sif_posted _ _).trans (finalize_postedBy _ _ _ _ _)
  exact takenEnding_of marked (freed.finalize r _ .done) (chains.trans (chainsStand_finalize _ _ _ _ _))
    ((finalize_postedBy _ _ _ _ _).trans (postedBy_add posted freed.port 1)) time shake

/-- The Download Channel once an OPEN has been finalized, its slot freed, and the CLOSE finalized. -/
theorem freed_dlc (i r a n : Nat) (v : State) : (finalize .fetch r [(7, le8 n)] .done
    (freeSlot i false (finalize .fetch a (openResult 0) .cancelled v))).dlc =
      { v.dlc with slots := v.dlc.slots.set i { v.slot i with state := .free, timer := none, interrupted := false } } := by
  rw [finalize_dlc, freeSlot_eq, ask_dlc, setSlot_dlc, State.slot, finalize_dlc]
  rfl

/-! ### CLOSE (R159) -/

/-- A CLOSE of a slot number up to 3. -/
theorem takeClose_low {bytes : List Byte} (low : ¬flagsOf bytes / 4 % 2 = 1) (r : Nat) (s : State) : takeClose r bytes s =
    finalize .fetch r [(7, le8 (s.slot (flagsOf bytes % 4)).state.num)] .done (closeSlot (flagsOf bytes % 4) s) := if_neg low

theorem markTaken_slot (c : Chain) (r : Nat) (s : State) (i : Nat) : (markTaken c r s).slot i = s.slot i := by
  rw [State.slot, markTaken_dlc, State.slot]

/-- A CLOSE of a slot in use finalizes the OPEN and then itself, and frees the slot with its dispatch dropped or its verify pass
abandoned (R159, R164, R167). -/
theorem closeSlot_used {s : State} {i : Nat} (used : (s.slot i).state = .opened ∨ (s.slot i).state = .stalled ∨
      (s.slot i).state = .verifying) : closeSlot i s = freeSlot i false (finalize .fetch (s.slot i).record (openResult 0) .cancelled
        (if (s.slot i).state = .verifying then dropVerify i s else dropDispatch i s)) := by
  unfold closeSlot
  dsimp only
  rcases used with e | e | e <;> rw [e] <;> rfl

/-- Settles O34: a slot above 3, then `closeSlot` by the state of the slot; of a slot in use both finalizations are
`takenEnding_close`. -/
theorem closeTaken : Obligations.CloseTaken := by
  constructor <;> intro s r bytes ready i f
  all_goals
    have taken := takeRecord_ready ready takeClose
    have marked := takenAt_markTaken .fetch r s
    have slot := markTaken_slot .fetch r s i
    have closed := fun low => taken.trans (takeClose_low low r _)
    rw [show Kind.closeFile.chain = .fetch from rfl, slot] at closed
  · refine ⟨fun above => ?_, fun low free => ?_, fun low settled => ?_⟩
    · refine ⟨_, BitVec.ofNat 8 ((Config.freeByte s.fresh).toNat % 7), ?_, congrArg done (taken.trans (if_pos above)),
        finalizedAt_take (takenAt_congr marked) _ .refusedRange, ?_⟩
      · rw [BitVec.toNat_ofNat]
        omega
      · rw [sansRequests_finalize]
        rfl
    · have closed := closed low
      rw [closeSlot, slot, free] at closed
      dsimp only at closed
      cases claim : f.claim with
      | none =>
        rw [claim] at closed
        exact ⟨_, congrArg done closed, finalizedAt_take marked _ .done, sansRequests_finalize _ _ _ _ _⟩
      | some c =>
        rw [claim] at closed
        refine ⟨_, congrArg done closed, finalizedAt_take (takenAt_congr marked) _ .done, ?_⟩
        rw [sansRequests_finalize, free]
        rfl
    · have freed : closeSlot i (markTaken .fetch r s) = freeSlot i false (markTaken .fetch r s) := by
        rw [closeSlot, slot]
        rcases settled with e | e <;> rw [e]
      have num : le8 (s.slot i).state.num = [if f.state = .verified then 4 else 5] := by
        rcases settled with e | e <;> rw [e] <;> rfl
      refine ⟨_, congrArg done ((closed low).trans (congrArg _ freed)), ?_, ?_⟩
      · rw [num]
        exact finalizedAt_take (takenAt_ask (takenAt_congr marked) (.progress i)) _ .done (ask_partTime _ _)
          (congrArg Rsc.handshake (ask_rsc _ _))
      · rw [sansRequests_finalize, freeSlot_eq, sansRequests_ask, slot]
        rfl
  · intro code low used
    have num : (s.slot i).state.num = code := by
      show f.state.num = if f.state = .opened then 1 else if f.state = .stalled then 2 else 3
      rcases used with e | e | e <;> rw [e] <;> rfl
    have closed := closed (by omega)
    rw [closeSlot_used (by rwa [slot]), slot, num] at closed
    generalize hv : (if f.state = .verifying then dropVerify i (markTaken .fetch r s) else dropDispatch i (markTaken .fetch r s)) = v
      at closed
    have frame : ∃ m p q w x, v = { markTaken .fetch r s with
          mpt := m, dlc.dispatch := p, dlc.fifo := x, dlc.verifyQueue := q, dlc.verify := w } ∧
        m.stationQueue = (markTaken .fetch r s).mpt.stationQueue ∧ (∀ d, p = some d → d.slot ≠ i ∨ f.state = .verifying) ∧
        (f.state = .verifying → i ∉ q ∧ ∀ y, w = some y → y.slot ≠ i) ∧ x = match s.dlc.dispatch with
          | some d => if d.slot = i ∧ f.state ≠ .verifying then s.dlc.fifo.tail else s.dlc.fifo
          | none => s.dlc.fifo := by
      by_cases verifying : f.state = .verifying
      · obtain ⟨m, q, w, queue, gone, pass, e⟩ := dropVerify_eq i (markTaken .fetch r s)
        rw [if_pos verifying, e] at hv
        refine ⟨m, s.dlc.dispatch, q, w, s.dlc.fifo, hv.symm, queue, fun _ _ => .inr verifying, fun _ => ⟨gone, pass⟩, ?_⟩
        cases s.dlc.dispatch with
        | none => rfl
        | some d => exact (if_neg fun h => h.2 verifying).symm
      · obtain ⟨m, p, queue, other, e⟩ := dropDispatch_eq i (markTaken .fetch r s)
        rw [if_neg verifying, e] at hv
        refine ⟨m, p, s.dlc.verifyQueue, s.dlc.verify, _, hv.symm, queue, fun d hd => .inl (other d hd),
          fun v => absurd v verifying, ?_⟩
        rw [markTaken_dlc]
        cases s.dlc.dispatch with
        | none => rfl
        | some d => simp only [verifying, ne_eq, not_false_eq_true, and_true]
    obtain ⟨m, p, q, w, x, e, queue, writing, passing, fifo⟩ := frame
    have vSlot : v.slot i = s.slot i := by rw [e]; exact slot
    have vMarked : takenAt .fetch r s v := by
      rw [e]
      exact takenAt_congr marked (fun _ => rfl) ⟨[], by rw [List.append_nil]; exact queue⟩ (finalWrites_congr queue rfl)
    have dlc := freed_dlc i r f.record code v
    refine ⟨_, congrArg done closed, takenEnding_close vMarked i code f.record (by rw [e]; rfl) (by rw [e]; rfl), ?_, ?_, ?_, ?_, ?_,
      ?_, ?_, ?_, ?_, ?_, ?_⟩
    · rw [dlc, vSlot, e]
      rfl
    · rw [dlc, e]
      exact writing
    · rw [dlc, e]
      exact passing
    · rw [dlc, e]
      exact fifo
    · rw [dlc, e]
      rfl
    all_goals
      simp only [finalize_mem, finalize_upe, finalize_rsc, finalize_ktu, finalize_ltu, finalize_meu, freeSlot_eq, ask_mem, ask_upe,
        ask_rsc, ask_ktu, ask_ltu, ask_meu, setSlot_mem, setSlot_upe, setSlot_rsc, setSlot_ktu, setSlot_ltu, setSlot_meu]
      rw [e]
      rfl

end Sys2Proof.Machine
end

section
/-! OPEN and the resume read (R156, R157, R158). -/

set_option Elab.async false

namespace Sys2Proof.Machine

theorem fileTaken_iff (i : Nat) (file : Half) (s : State) : fileTaken i file s = true ↔
    ∃ j, j < 4 ∧ j ≠ i ∧ ((s.slot j).state ≠ .free ∧ (s.slot j).file = file ∨
      ∃ c, (s.slot j).claim = some c ∧ c.req.file = file) := by
  simp only [fileTaken, List.any_eq_true, List.mem_range, Bool.and_eq_true, Bool.or_eq_true, bne_iff_ne, beq_iff_eq]
  refine exists_congr fun j => and_congr_right fun _ => and_congr_right fun _ => or_congr_right ?_
  cases (s.slot j).claim <;> simp

/-- The checks of R156 on an OPEN. -/
theorem openFailure_eq (i : Nat) (q : OpenReq) (s : State) : openFailure i q s =
    if 3 < i then some .refusedRange
    else if ¬(1 ≤ q.len ∧ q.len ≤ 268435456) then some .refusedRange
    else if ¬((s.slot i).state = .free ∧ (s.slot i).claim = none) then some .busy
    else if fileTaken i q.file s = true then some .duplicate
    else if ¬s.rangeOk q.dest q.len = true then some .window
    else none := by
  simp only [openFailure, inRange, Bool.not_and, Bool.or_eq_true, Bool.not_eq_true', decide_eq_false_iff_not, not_and_or, ne_eq,
    Bool.not_eq_true]

/-- The checks of R156 read the settings, the window table and the slots alone. -/
theorem openFailure_congr (i : Nat) (q : OpenReq) {s t : State} (settings : t.settings = s.settings) (live : t.sif.live = s.sif.live)
    (slots : t.dlc.slots = s.dlc.slots) : openFailure i q t = openFailure i q s := by
  simp only [openFailure, fileTaken, State.slot, State.rangeOk, State.windows, State.cfg, settings, live, slots]
  rfl

theorem takeOpen_fails {r : Nat} {bytes : List Byte} {s : State} {code : Code}
    (h : openFailure (u8 bytes 0x10) (parseOpen bytes r) s = some code) :
    takeOpen r bytes s = finalize .fetch r (openResult 0) code s := by
  rw [takeOpen]
  dsimp only
  rw [h]

theorem takeOpen_passes {r : Nat} {bytes : List Byte} {s : State} (h : openFailure (u8 bytes 0x10) (parseOpen bytes r) s = none) :
    takeOpen r bytes s =
      if flagsOf bytes % 2 = 1 then
        askResume (u8 bytes 0x10) (reopenStop (s.setSlot (u8 bytes 0x10)
          { s.slot (u8 bytes 0x10) with claim := some { req := parseOpen bytes r, cancelled := false } }))
      else acceptOpen (u8 bytes 0x10) (parseOpen bytes r) [] s := by
  rw [takeOpen]
  dsimp only
  rw [h]

/-! ### The resume read (R157) -/

/-- With no other under way a resume read's first burst is made at once. -/
theorem askResume_first {s : State} (idle : s.dlc.resumes = []) (i : Nat) :
    let a := s.baseAddr + 0x500 + 160 * i
    ∃ left, (a, min (64 - a % 64) 160) :: left = blocks a 160 ∧
      askResume i s = joinStation (stationBurst .resume false a (min (64 - a % 64) 160) [])
        { s with dlc.resumes := [⟨i, left, []⟩] } := by
  intro a
  refine ⟨_, (blocks_pos a (by decide)).symm, ?_⟩
  rw [askResume, idle]
  dsimp only [List.isEmpty]
  rw [if_pos rfl, kickResume, blocks_pos a (by decide)]

theorem askResume_behind {s : State} (busy : s.dlc.resumes ≠ []) (i : Nat) :
    askResume i s = { s with
      dlc.resumes := s.dlc.resumes ++ [⟨i, blocks (s.baseAddr + 0x500 + 160 * i) 160, []⟩] } :=
  if_neg (by simp [busy])

theorem kickResume_none {s : State} (h : s.dlc.resumes = []) : kickResume s = s := by rw [kickResume, h]

theorem kickResume_some {s : State} {e : Resume} {l : List Resume} {y : Nat × Nat} {left : List (Nat × Nat)}
    (h : s.dlc.resumes = e :: l) (more : e.left = y :: left) :
    kickResume s = joinStation (stationBurst .resume false y.1 y.2 []) { s with dlc.resumes := { e with left := left } :: l } := by
  rw [kickResume, h]
  dsimp only
  rw [more]

theorem endClaim_eq {s : State} {i : Nat} {c : Claim} (claim : (s.slot i).claim = some c) (reason : Nat) (code : Code) :
    endClaim i reason code s = finalize .fetch c.req.record (openResult reason) code
      (s.setSlot i { s.slot i with claim := none }) := by
  rw [endClaim, claim]

/-- A slot that an OPEN has been accepted into (R158). -/
def OpenReq.slot (q : OpenReq) (extents : List (Nat × Nat)) (s : State) : FileSlot :=
  { state := if extents = [(0, q.len)] then .verifying else .opened
    file := q.file, dest := q.dest, len := q.len, crc := q.crc, extents := extents, received := extentSum extents
    stamp := s.partTime, record := q.record
    timer := if extents = [(0, q.len)] then none else some ⟨s.partTime, s.cfg.stallLimit * 1000⟩ }

theorem acceptOpen_eq (i : Nat) (q : OpenReq) (extents : List (Nat × Nat)) (s : State) : acceptOpen i q extents s =
    ask (.progress i) { s with
      dlc.slots := s.dlc.slots.set i (q.slot extents s)
      dlc.verifyQueue := if extents = [(0, q.len)] then s.dlc.verifyQueue ++ [i] else s.dlc.verifyQueue
      dlc.stop := if s.dlc.stop = .stopped then .stopping else s.dlc.stop } := by
  simp only [acceptOpen, beq_iff_eq]
  rfl

/-- The end of a resume read leaves the reads asked for, and what waits in the STATION queue. -/
theorem resumeEnd_frame (i : Nat) (ok : Bool) (bytes : List Byte) (s : State) :
    (resumeEnd i ok bytes s).dlc.resumes = s.dlc.resumes ∧
    ∃ q, (resumeEnd i ok bytes s).mpt.stationQueue = s.mpt.stationQueue ++ q := by
  unfold resumeEnd
  cases claim : (s.slot i).claim with
  | none => exact ⟨rfl, [], (List.append_nil _).symm⟩
  | some c =>
    have ended : ∀ reason code, (endClaim i reason code s).dlc.resumes = s.dlc.resumes ∧
        ∃ q, (endClaim i reason code s).mpt.stationQueue = s.mpt.stationQueue ++ q := fun reason code => by
      rw [endClaim_eq claim, finalize_dlc]
      exact ⟨rfl, finalize_queue _ _ _ _ _⟩
    dsimp only
    split
    · exact ended _ _
    · split
      · exact ended _ _
      · split
        · exact ended _ _
        · rw [acceptOpen_eq, ask_dlc]
          exact ⟨rfl, (ask_queue _ _).imp fun _ => And.left⟩

theorem resumeEnd_eq {s : State} {i : Nat} {c : Claim} (claim : (s.slot i).claim = some c) (ok : Bool) (bytes : List Byte) :
    resumeEnd i ok bytes s =
      if ok = false then endClaim i 0 .memoryError s
      else if c.cancelled = true then endClaim i 0 .cancelled s
      else match progressFailure bytes c.req with
        | some reason => endClaim i reason .refusedFormat s
        | none => acceptOpen i c.req (progressExtents bytes) s := by
  rw [resumeEnd, claim]
  cases ok <;> rfl

/-- The checks of R157 on a progress record. -/
theorem progressFailure_eq (l : List Byte) (q : OpenReq) : progressFailure l q =
    if ¬u8 l 0 < 7 then some 1
    else if ¬u16 l 2 = q.file.toNat then some 2
    else if ¬u32 l 4 = q.len then some 3
    else if ¬u8 l 1 ≤ 16 then some 4
    else if ¬extentsOk q.len (progressExtents l) = true then some 5
    else if ¬u32 l 0x10 = extentSum (progressExtents l) then some 6
    else none := by
  have file : BitVec.ofNat 16 (u16 l 2) = q.file ↔ u16 l 2 = q.file.toNat := by
    have low : u16 l 2 < 2 ^ 16 := by
      unfold u16 u8
      have := (l.getD 2 0).isLt
      have := (l.getD 3 0).isLt
      omega
    rw [← BitVec.toNat_inj, BitVec.toNat_ofNat, Nat.mod_eq_of_lt low]
  simp only [progressFailure, ne_eq, file, Bool.not_eq_true', Nat.not_lt, Nat.not_le, Bool.not_eq_true]

/-- Settles O33. -/
theorem openTaken : Obligations.OpenTaken := by
  refine ⟨fun s r bytes ready rest turn waking => ?_, fun s asleep => ?_, fun x data s b d c user live one inside claim => ?_,
    fun x data s b d e l y left user live two ended more => ?_⟩
  · intro i q sized unused held inside stop refused
    have taken := takeAwake_ready ready rest turn waking takeOpen
    have marked := takenAt_markTaken .fetch r s
    have checks : openFailure i q (markTaken .fetch r s) = openFailure i q s :=
      openFailure_congr i q (markTaken_settings _ _ _) (markTaken_live _ _ _) (congrArg Dlc.slots (markTaken_dlc _ _ _))
    have fails : ∀ code, openFailure i q s = some code → refused code.num := fun code e => by
      exact ⟨_, congrArg done (taken.trans (takeOpen_fails (checks.trans e))), finalizedAt_take marked _ code,
        (sansRequests_finalize _ _ _ _ _).trans (sansRequests_markTaken _ _ _)⟩
    have taken' : fileTaken i q.file s = true ↔ held := fileTaken_iff i q.file s
    refine ⟨fun high => fails .refusedRange ?_, fun low size => fails .refusedRange ?_, fun low size use => fails .busy ?_,
      fun low size use other => fails .duplicate ?_, fun low size use other out => fails .window ?_,
      fun low size use other within => ?_, fun low size use other within => ?_⟩
    · rw [openFailure_eq, if_pos high]
    · rw [openFailure_eq, if_neg (Nat.not_lt.mpr low), if_pos size]
    · rw [openFailure_eq, if_neg (Nat.not_lt.mpr low), if_neg (not_not_intro size), if_pos use]
    · rw [openFailure_eq, if_neg (Nat.not_lt.mpr low), if_neg (not_not_intro size), if_neg (not_not_intro use),
        if_pos (taken'.mpr other)]
    · rw [openFailure_eq, if_neg (Nat.not_lt.mpr low), if_neg (not_not_intro size), if_neg (not_not_intro use),
        if_neg fun h => other (taken'.mp h), if_pos out]
    all_goals
      have passes : openFailure i q (markTaken .fetch r s) = none := by
        rw [checks, openFailure_eq, if_neg (Nat.not_lt.mpr low), if_neg (not_not_intro size), if_neg (not_not_intro use),
          if_neg fun h => other (taken'.mp h), if_neg (not_not_intro within)]
      have accepted := takeOpen_passes (bytes := bytes) passes
    · intro resume a
      rw [if_pos resume] at accepted
      by_cases idle : s.dlc.resumes = []
      · obtain ⟨left, cut, e⟩ := askResume_first (s := reopenStop ((markTaken .fetch r s).setSlot i
          { (markTaken .fetch r s).slot i with claim := some { req := q } })) idle i
        refine ⟨_, left, congrArg done (taken.trans (accepted.trans e)),
          takenAt_congr marked (fun _ => rfl) ⟨_, rfl⟩ (finalWrites_join _ _ rfl), cut, fun _ => ?_, ?_⟩
        · exact List.append_assoc _ _ _
        · rw [if_pos idle]
          rfl
      · have e := askResume_behind (s := reopenStop ((markTaken .fetch r s).setSlot i
          { (markTaken .fetch r s).slot i with claim := some { req := q } })) idle i
        refine ⟨_, _, congrArg done (taken.trans (accepted.trans e)), takenAt_congr marked, (blocks_pos a (by decide)).symm,
          fun none => absurd none idle, ?_⟩
        rw [if_neg idle]
        rfl
    · intro plain
      rw [if_neg (by omega), acceptOpen_eq] at accepted
      refine ⟨_, congrArg done (taken.trans accepted), takenAt_ask (takenAt_congr marked) _, fun eight => asked_ask _ eight, ?_⟩
      rw [sansRequests_ask]
      rfl
  · have stays : takeAwake .openFile takeOpen s = s := by
      rcases asleep with e | e | e <;> rw [takeAwake, e]
    exact congrArg done stays
  · intro t l q m whole ended
    have ends : ∀ reason code, t = kickResume (endClaim d.slot reason code { s with dlc.resumes := [] }) →
        ended reason code.num := fun reason code e => by
      have finalized := endClaim_eq (s := { s with dlc.resumes := [] }) claim reason code
      rw [finalized, kickResume_none (by rw [finalize_dlc]; rfl)] at e
      show endsBy .fetch _ s t ∧ t.sif.posted = _ ∧ t.sansRequests = _
      rw [e]
      refine ⟨((Ends.refl.congr (u := (({ s with dlc.resumes := [] } : State).setSlot d.slot
        { s.slot d.slot with claim := none }))).finalize q.record _ code).endsBy, finalize_postedBy _ _ _ _ _, ?_⟩
      rw [sansRequests_finalize]
      rfl
    have judged : x = .okay → d.left = [] →
        t = kickResume (resumeEnd d.slot true l { s with dlc.resumes := [] }) := fun okay last => by
      show complete b x data s = _
      rw [okay, complete_okay live, user, userOkay, resumeNext, one]
      dsimp only
      rw [last]
      rfl
    have begun := resumeEnd_eq (s := { s with dlc.resumes := [] }) claim
    refine ⟨fun bad => ends 0 .memoryError ?_, fun p left okay more => ?_, fun okay last gone => ends 0 .cancelled ?_,
      fun okay last stands => ?_⟩
    · show complete b x data s = _
      rw [complete_fail live bad, user, userFail, resumeNext, one]
      exact congrArg kickResume (begun false _)
    · show complete b x data s = _
      rw [okay, complete_okay live, user, userOkay, resumeNext, one]
      dsimp only
      rw [more]
      rfl
    · rw [judged okay last, begun, gone]
      rfl
    · have refuse : ∀ reason, progressFailure l q = some reason → ended reason 32 := fun reason e =>
        ends reason .refusedFormat (by rw [judged okay last, begun, stands, e]; rfl)
      intro known same long few order sum
      refine ⟨fun k => refuse 1 ?_, fun k f => refuse 2 ?_, fun k f n => refuse 3 ?_, fun k f n w => refuse 4 ?_,
        fun k f n w (o : ¬extentsOk q.len (progressExtents l) = true) => refuse 5 ?_,
        fun k f n w (o : extentsOk q.len (progressExtents l) = true) (v : ¬u32 l 0x10 = extentSum (progressExtents l)) => refuse 6 ?_,
        fun k f n w (o : extentsOk q.len (progressExtents l) = true) (v : u32 l 0x10 = extentSum (progressExtents l)) => ?_⟩
      · rw [progressFailure_eq, if_pos k]
      · rw [progressFailure_eq, if_neg (not_not_intro k), if_pos f]
      · rw [progressFailure_eq, if_neg (not_not_intro k), if_neg (not_not_intro f), if_pos n]
      · rw [progressFailure_eq, if_neg (not_not_intro k), if_neg (not_not_intro f), if_neg (not_not_intro n), if_pos w]
      · rw [progressFailure_eq, if_neg (not_not_intro k), if_neg (not_not_intro f), if_neg (not_not_intro n),
          if_neg (not_not_intro w), if_pos o]
      · rw [progressFailure_eq, if_neg (not_not_intro k), if_neg (not_not_intro f), if_neg (not_not_intro n),
          if_neg (not_not_intro w), if_neg (not_not_intro o), if_pos v]
      · have passes : progressFailure l q = none := by
          rw [progressFailure_eq, if_neg (not_not_intro k), if_neg (not_not_intro f), if_neg (not_not_intro n),
            if_neg (not_not_intro w), if_neg (not_not_intro o), if_neg (not_not_intro v)]
        have accepted : t = acceptOpen d.slot q m { s with dlc.resumes := [] } := by
          rw [judged okay last, begun, if_neg nofun, if_neg (by rw [stands]; nofun), passes]
          exact kickResume_none (by rw [acceptOpen_eq, ask_dlc])
        rw [accepted, acceptOpen_eq, sansStatus_ask]
        rfl
  · intro t
    obtain ⟨ok, bytes, next⟩ : ∃ ok bytes, t = kickResume (resumeEnd d.slot ok bytes { s with dlc.resumes := e :: l }) := by
      show ∃ ok bytes, complete b x data s = _
      by_cases okay : x = .okay
      · rw [okay, complete_okay live, user, userOkay, resumeNext, two]
        dsimp only
        rw [ended.resolve_left (not_not_intro okay)]
        exact ⟨true, _, rfl⟩
      · rw [complete_fail live okay, user, userFail, resumeNext, two]
        exact ⟨false, _, rfl⟩
    obtain ⟨rest, q, queue⟩ := resumeEnd_frame d.slot ok bytes { s with dlc.resumes := e :: l }
    rw [next, kickResume_some rest more]
    exact ⟨rfl, q, by rw [joinStation_mpt, queue]⟩

end Sys2Proof.Machine
end

section
/-! The walks of the request chains (sections 1.3 and 1.4): how a step of a walk begins and a walk ends, and the judging of links, headers and bodies. -/

set_option Elab.async false

namespace Sys2Proof.Machine

variable {c : Chain} {s t u : State}

/-- From `s` to `t` chain `c` goes on to the phase `w` of its walk, to the read of its cursor's link if `w` is that: the chain
keeps cursor and retired count, and nothing is finalized or posted. -/
structure Walked (c : Chain) (w : WalkPhase) (s t : State) : Prop where
  walk    : (t.chain c).walk = w
  cursor  : (t.chain c).cursor = (s.chain c).cursor
  retired : (t.chain c).retired = (s.chain c).retired
  others  : ∀ d, d ≠ c → t.chain d = s.chain d
  link    : w = .link → t.mpt.stationQueue.getLast? = some (stationBurst (.walk c) false (s.chain c).cursor 4 [])
  writes  : t.finalWrites = s.finalWrites
  jobs    : t.finalJobs = s.finalJobs
  posted  : t.sif.posted = s.sif.posted
  frame   : t.sansRequests = s.sansRequests

theorem Walked.capture {w : WalkPhase} (h : Walked c w s t) : t.mpt.capture = s.mpt.capture :=
  show t.sansRequests.mpt.capture = s.sansRequests.mpt.capture by rw [h.frame]

theorem setChain_others (s : State) (c : Chain) (x : ChainCtl) (d : Chain) (h : d ≠ c) : (s.setChain c x).chain d = s.chain d :=
  setChain_chain_ne s x h

/-- A phase without a burst. -/
theorem walked_setChain {x : ChainCtl} (link : x.walk ≠ .link) (cursor : x.cursor = (s.chain c).cursor)
    (retired : x.retired = (s.chain c).retired) : Walked c x.walk s (s.setChain c x) where
  walk := by rw [setChain_chain]
  cursor := by rw [setChain_chain, cursor]
  retired := by rw [setChain_chain, retired]
  others := setChain_others s c x
  link := fun h => absurd h link
  writes := finalWrites_setChain c x s
  jobs := finalJobs_setChain c x s
  posted := setChain_sif_posted s c x
  frame := sansRequests_setChain c x s

/-- The read of the cursor's link begins. -/
theorem walked_link {x : ChainCtl} (link : x.walk = .link) (cursor : x.cursor = (s.chain c).cursor)
    (retired : x.retired = (s.chain c).retired) :
    Walked c .link s (joinStation (stationBurst (.walk c) false (s.chain c).cursor 4 []) (s.setChain c x)) where
  walk := by rw [joinStation_chain, setChain_chain, link]
  cursor := by rw [joinStation_chain, setChain_chain, cursor]
  retired := by rw [joinStation_chain, setChain_chain, retired]
  others := fun d h => by rw [joinStation_chain, setChain_chain_ne s x h]
  link := fun _ => by simp
  writes := (finalWrites_join _ _ rfl).trans (finalWrites_setChain c x s)
  jobs := finalJobs_setChain c x s
  posted := setChain_sif_posted s c x
  frame := sansRequests_setChain c x s

/-- The phase in which the next step of a walk leaves its chain (R7, R9). -/
def onPhase (s : State) : WalkPhase := if partHolds s = true then .idle else .link

/-- The phase in which the end of a walk leaves its chain (R7, R9). -/
def endPhase (c : Chain) (s : State) : WalkPhase :=
  if (s.chain c).remembered = true ∧ partHolds s = false then .link else .idle

theorem walked_walkOn (c : Chain) (s : State) : Walked c (onPhase s) s (walkOn c s) := by
  unfold walkOn onPhase
  dsimp only
  split
  · exact walked_setChain (x := { s.chain c with walk := .idle }) nofun rfl rfl
  · exact walked_link rfl rfl rfl

/-- The next step of a walk keeps its chain but for the phase. -/
theorem walkOn_chain (c : Chain) (s : State) : (walkOn c s).chain c = { s.chain c with walk := onPhase s } := by
  unfold walkOn onPhase
  dsimp only
  split
  · rw [setChain_chain]
  · rw [joinStation_chain, setChain_chain]

theorem walked_walkEnd (c : Chain) (s : State) : Walked c (endPhase c s) s (walkEnd c s) := by
  unfold walkEnd endPhase
  simp only [Bool.and_eq_true, Bool.not_eq_true']
  split
  · have e : beginWalk c (s.setChain c { s.chain c with walk := .idle }) =
        joinStation (stationBurst (.walk c) false (s.chain c).cursor 4 [])
          (s.setChain c { s.chain c with walk := .link, remembered := false, declined := none }) := by
      rw [beginWalk, setChain_chain]
      cases c <;> rfl
    rw [e]
    exact walked_link rfl rfl rfl
  · exact walked_setChain (x := { s.chain c with walk := .idle }) nofun rfl rfl

/-! ### Window failures and refusals -/

theorem reportWindow_sansPosts (k : Client) (w : Bool) (a n : Nat) (s : State) :
    ({ reportWindow k w a n s with mpt.capture := s.mpt.capture }).sansPosts = s.sansPosts := by
  cases full : s.mpt.capture.full with
  | false => exact (reportWindow_armed full k w a n).2.2
  | true => exact (reportWindow_full full k w a n).2.2

@[simp] theorem reportWindow_chain (k : Client) (w : Bool) (a n : Nat) (s : State) (d : Chain) :
    (reportWindow k w a n s).chain d = s.chain d := by
  have h := congrArg (fun x : State => x.sif) (reportWindow_sansPosts k w a n s)
  cases d
  · exact (congrArg Sif.page h :)
  · exact (congrArg Sif.control h :)
  · exact (congrArg Sif.fetch h :)

@[simp] theorem reportWindow_rsc (k : Client) (w : Bool) (a n : Nat) (s : State) : (reportWindow k w a n s).rsc = s.rsc :=
  (congrArg State.rsc (reportWindow_sansPosts k w a n s) :)

theorem partHolds_congr (h : t.rsc = s.rsc) : partHolds t = partHolds s := by rw [partHolds, partHolds, h]

/-- A refusal of a record by its chain: the cursor is on it, and it is finalized without results (R8, entry 14). -/
theorem ends_refuse (c : Chain) (r : Nat) (code : Code) (s : State) : Ends c [(r, [], code.num)] s (refuse c r code s) := by
  have moved : Ends c [] s (moveCursor c r s) :=
    Ends.refl.congr (by simp [moveCursor]) (by simp [moveCursor]) (by rw [moveCursor, setChain_sif_finals])
      (by simp [moveCursor]) (by simp [moveCursor])
  exact moved.finalize r [] code

theorem refuse_chain (c : Chain) (r : Nat) (code : Code) (s : State) : (refuse c r code s).chain c =
    { s.chain c with cursor := r, retired := ((refuse c r code s).chain c).retired } := by
  rw [refuse, finalize_chain, if_pos rfl, moveCursor, setChain_chain]

theorem refuse_others (c : Chain) (r : Nat) (code : Code) (s : State) (d : Chain) (h : d ≠ c) :
    (refuse c r code s).chain d = s.chain d := by
  rw [refuse, finalize_chain, if_neg h, moveCursor, setChain_chain_ne s _ h]

theorem refuse_posted (c : Chain) (r : Nat) (code : Code) (s : State) : (refuse c r code s).sif.posted = s.postedBy c 1 := by
  rw [refuse, finalize_postedBy, State.postedBy, State.postedBy, moveCursor, setChain_sif_posted,
    portOpen_congr (t := s.setChain c _) (congrArg _ (setChain_rsc _ _ _))]

@[simp] theorem refuse_rsc (c : Chain) (r : Nat) (code : Code) (s : State) : (refuse c r code s).rsc = s.rsc := by
  rw [refuse, finalize_rsc, moveCursor, setChain_rsc]

theorem refuse_sansRequests (c : Chain) (r : Nat) (code : Code) (s : State) :
    (refuse c r code s).sansRequests = s.sansRequests := by
  rw [refuse, sansRequests_finalize, moveCursor, sansRequests_setChain]

/-- What a walk does after finalizations leaves them. -/
theorem endsBy_of_walked {ends : List (Nat × List (Nat × List Byte) × Nat)} {w : WalkPhase} (h : Ends c ends s u)
    (g : Walked c w u t) : endsBy c ends s t :=
  ⟨g.writes.trans h.writes, g.jobs.trans h.jobs, g.retired.trans h.count⟩

/-! ### The judging of a header (R8) -/

/-- The size of a record of a kind. -/
theorem kindSize_eq (k : Kind) : k.size =
    if k = .update then 48 else if k = .unstage ∨ k = .settings ∨ k = .turnsSeen ∨ k = .closeFile then 16 else 32 := by
  cases k <;> rfl

theorem declines_eq (k : Kind) (s : State) : declines k s =
    if (k = .update ∧ 16 ≤ s.upe.list.length + s.upe.reservations) ∨ ((k = .stage ∨ k = .unstage) ∧ turnHolds s = true)
    then some (if k = .update then .listFull else .turnBegun) else none := by
  cases k with
  | update => simp [declines, listCount]; rfl
  | _ => simp [declines]

/-- A chain is HELD on a record that its owner declines (R9). -/
theorem walkDecline_held {k : Kind} {d : Decline} (h : declines k s = some d) (c : Chain) :
    chainState (walkDecline c d s) c = .held := by
  have stands : declineStands s d = true := by
    cases k <;> simp only [declines, Option.ite_none_right_eq_some, Option.some.injEq, reduceCtorEq] at h <;>
      obtain ⟨h, rfl⟩ := h
    · exact decide_eq_true h
    · exact h
    · exact h
  have same : declineStands (walkDecline c d s) d = true := by
    rw [← stands]
    cases c <;> cases d <;> rfl
  have held : chainHeld (walkDecline c d s) c = true := by
    unfold chainHeld
    rw [show (walkDecline c d s).chain c = { s.chain c with walk := .idle, declined := some d } from setChain_chain _ _ _]
    simp only [same, Bool.or_true]
  rw [chainState, if_neg, if_pos held]
  rw [show (walkDecline c d s).chain c = { s.chain c with walk := .idle, declined := some d } from setChain_chain _ _ _]
  exact fun walks => walks rfl

theorem readBody_none (c : Chain) (r : Nat) {k : Kind} (size : k.size = 16) (h : List Byte) (s : State) :
    readBody c r k h s = s.setChain c { s.chain c with walk := .ready r h } := by
  have none : blocks (r + 16) (k.size - 16) = [] := by rw [size, blocks_eq, if_pos rfl]
  unfold readBody
  split
  · rfl
  · next b l cut => exact absurd (none.symm.trans cut) nofun

theorem readBody_some (c : Chain) (r : Nat) {k : Kind} {n : Nat} (size : k.size = n) (long : 16 < n) (h : List Byte) (s : State) :
    ∃ left, (r + 16, min (64 - (r + 16) % 64) (n - 16)) :: left = blocks (r + 16) (n - 16) ∧
      readBody c r k h s = joinStation (stationBurst (.walk c) false (r + 16) (min (64 - (r + 16) % 64) (n - 16)) [])
        (s.setChain c { s.chain c with walk := .body r left h }) := by
  have cut := blocks_pos (r + 16) (Nat.sub_ne_zero_of_lt long)
  refine ⟨_, cut.symm, ?_⟩
  rw [← size] at cut ⊢
  unfold readBody
  split
  · next none => exact absurd (cut.symm.trans none) nofun
  · next b l first =>
    obtain ⟨rfl, rfl⟩ := List.cons.inj (first.symm.trans cut)
    rfl

theorem reserve_eq (k : Kind) (s : State) : reserve k s = { s with
    upe.reservations := if k = .update then s.upe.reservations + 1 else s.upe.reservations } := by
  unfold reserve
  split
  · rfl
  · rfl

/-! ### The walk of a chain -/

theorem endPhase_congr (chain : t.chain c = s.chain c) (rsc : t.rsc = s.rsc) : endPhase c t = endPhase c s := by
  rw [endPhase, endPhase, chain, partHolds_congr rsc]

/-- What `Walked` says of a walk that a link ends, after a report to the capture or none. -/
theorem linkRead_ends {link : Nat} (h : link = 0 ∨ (link % 16 ≠ 0 ∨ s.rangeOk link 16 = false)) (c : Chain) :
    ∃ u, (u = if link = 0 then s else reportWindow .station false link 16 s) ∧ Walked c (endPhase c s) u (linkRead c link s) ∧
      (∀ d, u.chain d = s.chain d) ∧ ({ u with mpt.capture := s.mpt.capture }).sansPosts = s.sansPosts := by
  by_cases zero : link = 0
  · have e : linkRead c link s = walkEnd c s := if_pos zero
    refine ⟨s, (if_pos zero).symm, ?_, fun _ => rfl, rfl⟩
    rw [e]
    exact walked_walkEnd c s
  · have e : linkRead c link s = walkEnd c (reportWindow .station false link 16 s) := by
      rw [linkRead, if_neg zero, if_pos (h.resolve_left zero)]
    refine ⟨reportWindow .station false link 16 s, (if_neg zero).symm, ?_, reportWindow_chain _ _ _ _ _,
      reportWindow_sansPosts _ _ _ _ _⟩
    rw [e, ← endPhase_congr (reportWindow_chain _ _ _ _ s c) (reportWindow_rsc _ _ _ _ s)]
    exact walked_walkEnd c _

theorem linkRead_header {link : Nat} (some : link ≠ 0) (aligned : link % 16 = 0) (inside : s.rangeOk link 16 = true) (c : Chain) :
    linkRead c link s = joinStation (stationBurst (.walk c) false link 16 []) (s.setChain c { s.chain c with walk := .header link }) := by
  rw [linkRead, if_neg some, if_neg (by simp [aligned, inside])]

/-- A refused record, and then the next step of the walk, or its end. -/
theorem judge_refused {w : WalkPhase} {r : Nat} {code : Code} (g : Walked c w (refuse c r code s) t) :
    (t.chain c).cursor = r ∧ (t.chain c).walk = w ∧
    (w = .link → t.mpt.stationQueue.getLast? = some (stationBurst (.walk c) false r 4 [])) ∧
    (∀ d, d ≠ c → t.chain d = s.chain d) ∧ endsBy c [(r, [], code.num)] s t ∧ t.sif.posted = s.postedBy c 1 ∧
    t.sansRequests = s.sansRequests := by
  have cursor : ((refuse c r code s).chain c).cursor = r := by rw [refuse_chain]
  refine ⟨g.cursor.trans cursor, g.walk, fun e => ?_, fun d h => (g.others d h).trans (refuse_others c r code s d h),
    endsBy_of_walked (ends_refuse c r code s) g, g.posted.trans (refuse_posted c r code s),
    g.frame.trans (refuse_sansRequests c r code s)⟩
  rw [g.link e, cursor]

theorem onPhase_refuse (c : Chain) (r : Nat) (code : Code) (s : State) : onPhase (refuse c r code s) = onPhase s := by
  rw [onPhase, onPhase, partHolds_congr (refuse_rsc c r code s)]

theorem endPhase_refuse (c : Chain) (r : Nat) (code : Code) (s : State) : endPhase c (refuse c r code s) = endPhase c s := by
  rw [endPhase, endPhase, partHolds_congr (refuse_rsc c r code s), refuse_chain]

/-- A refused record, and then the next step of the walk. -/
theorem walked_refuseOn (c : Chain) (r : Nat) (code : Code) (s : State) :
    Walked c (onPhase s) (refuse c r code s) (walkOn c (refuse c r code s)) := by
  rw [← onPhase_refuse c r code s]
  exact walked_walkOn c _

theorem bodyFail_eq (c : Chain) (r : Nat) (got : List Byte) (code : Code) (s : State) : bodyFail c r got code s =
    walkOn c (refuse c r code { s with
      upe.reservations := if kindOf got = some .update then s.upe.reservations - 1 else s.upe.reservations }) := by
  rw [bodyFail, unreserve]
  split
  · rfl
  · rfl

/-- Settles O20. -/
theorem chainsWalk : Obligations.ChainsWalk := by
  refine ⟨fun c s run idle waits => ?_, fun c link s => ?_, fun c r h s => ?_, fun c x data s b user live => ?_⟩
  · have begins : chainWalkBegin c s = beginWalk c s := if_pos ⟨run, idle, waits⟩
    refine ⟨_, congrArg done begins, ?_, fun d other => ?_, ?_, ?_⟩
    · rw [beginWalk, joinStation_chain, setChain_chain]
    · rw [beginWalk, joinStation_chain, setChain_chain_ne s _ other]
    · cases c <;> rfl
    · cases c <;> rfl
  · intro t w
    by_cases good : link ≠ 0 ∧ link % 16 = 0 ∧ s.rangeOk link 16 = true
    · obtain ⟨some, aligned, inside⟩ := good
      have e : t = _ := linkRead_header some aligned inside c
      have chain : t.chain c = { s.chain c with walk := .header link } := by rw [e, joinStation_chain, setChain_chain]
      refine ⟨fun none => absurd none some, fun _ bad => ?_, fun _ _ _ => ⟨chain, ?_, ?_, ?_⟩, ?_, ?_, fun d other => ?_, ?_⟩
      · rcases bad with odd | out
        · exact absurd aligned odd
        · exact absurd (inside.symm.trans out) nofun
      · rw [e, joinStation_mpt, setChain_mpt]
      · rw [e, joinStation_mpt, setChain_mpt]
      · rw [e, joinStation_sif, setChain_sif_posted]
      · rw [chain]
      · rw [chain]
      · rw [e, joinStation_chain, setChain_chain_ne s _ other]
      · rw [e]
        cases c <;> rfl
    · have ends : link = 0 ∨ (link % 16 ≠ 0 ∨ s.rangeOk link 16 = false) := by
        rw [← Bool.not_eq_true]
        tauto
      obtain ⟨u, hu, g, chain, frame⟩ := linkRead_ends ends c
      refine ⟨fun none => ?_, fun some _ => ?_, fun some aligned inside => absurd ⟨some, aligned, inside⟩ good,
        g.cursor.trans (by rw [chain]), g.retired.trans (by rw [chain]), fun d other => (g.others d other).trans (chain d), ?_⟩
      · rw [if_pos none] at hu
        rw [hu] at g
        exact ⟨g.walk, g.capture, g.posted⟩
      · rw [if_neg some] at hu
        rw [hu] at g
        exact ⟨g.walk, g.capture, g.posted⟩
      · exact (congrArg (fun x : State => ({ x with mpt.capture := s.mpt.capture } : State)) g.frame).trans
          (congrArg (fun x : State => ({ x with
            sif.page := {}, sif.control := {}, sif.fetch := {}, sif.finals := [], sif.finalBusy := false } : State)) frame)
  · intro t refused on full
    refine ⟨fun status => ?_, fun known kind => ?_, fun k known kind own => ?_⟩
    · have e : t = walkEnd c (refuse c r .refusedFormat s) := if_pos status
      have g := walked_walkEnd c (refuse c r .refusedFormat s)
      rw [endPhase_refuse, ← e] at g
      exact judge_refused g
    · have e : t = walkOn c (refuse c r .refusedFormat s) := by
        show judgeRecord c r h s = _
        rw [judgeRecord, if_neg (not_not_intro known)]
        cases k : kindOf h with
        | none => rfl
        | some k' => exact if_pos (kind k' k)
      have g := walked_refuseOn c r .refusedFormat s
      rw [← e] at g
      exact judge_refused g
    · intro size declined
      have sized : k.size = size := kindSize_eq k
      have judged : t = match declines k s with
          | some d => walkDecline c d s
          | none => if s.rangeOk r size then readBody c r k h (reserve k s) else walkOn c (refuse c r .window s) := by
        show judgeRecord c r h s = _
        rw [judgeRecord, if_neg (not_not_intro known), kind, ← sized]
        exact if_neg (not_not_intro own)
      have declines := declines_eq k s
      refine ⟨fun d => ?_, fun nd out => ?_, fun nd inside small => ?_, fun nd inside large => ?_⟩
      · rw [if_pos d] at declines
        rw [declines] at judged
        rw [judged]
        exact ⟨walkDecline_held declines c, rfl⟩
      all_goals
        rw [if_neg nd] at declines
        rw [declines] at judged
        dsimp only at judged
      · rw [out, if_neg nofun] at judged
        have g := walked_refuseOn c r .window s
        rw [← judged] at g
        exact judge_refused g
      · have plain : reserve k s = s := if_neg fun e => by simp [size, e] at small
        rw [inside, if_pos rfl, readBody_none c r (sized.trans small), plain] at judged
        exact judged
      · obtain ⟨left, cut, e⟩ := readBody_some c r sized large h (reserve k s)
        rw [inside, if_pos rfl, e, reserve_eq] at judged
        refine ⟨left, cut, judged.trans ?_⟩
        cases c <;> rfl
  · intro t k on follows
    have okayed : x = .okay → t = walkOkay c data s := fun okay => by
      show complete b x data s = _
      rw [okay, complete_okay live, user, userOkay]
    have failed : x ≠ .okay → t = walkFail c x.code s := fun bad => by
      show complete b x data s = _
      rw [complete_fail live bad, user, userFail]
    refine ⟨fun phase => ?_, fun r phase => ?_, fun r got phase okay => ?_, fun r y left got phase okay => ?_,
      fun r left got phase bad => ?_, fun phase => ?_⟩
    · by_cases okay : x = .okay
      · rw [okayed okay, walkOkay, phase, if_pos okay]
      · rw [failed okay, walkFail, phase, if_neg okay]
        exact (if_pos rfl).symm
    · by_cases okay : x = .okay
      · rw [okayed okay, walkOkay, phase, if_pos okay]
      · rw [failed okay, walkFail, phase, if_neg okay]
        exact (if_pos rfl).symm
    · rw [okayed okay, walkOkay, phase]
    · rw [okayed okay, walkOkay, phase]
      cases c <;> rfl
    · have e : t = walkOn c (refuse c r x.code { s with
          upe.reservations := if kindOf got = some .update then s.upe.reservations - 1 else s.upe.reservations }) := by
        rw [failed bad, walkFail, phase]
        exact bodyFail_eq c r got x.code s
      have g := walked_refuseOn c r x.code { s with
        upe.reservations := if kindOf got = some .update then s.upe.reservations - 1 else s.upe.reservations }
      rw [← e] at g
      obtain ⟨cursor, walk, link, others, ends, posted, frame⟩ := judge_refused g
      have code : x.code.num = if x = .window then 34 else 53 := by
        cases x <;> rfl
      rw [code] at ends
      exact ⟨⟨walk, cursor, others, link⟩, ends, posted, frame⟩
    · have e : t = walkOn c s := by
        by_cases okay : x = .okay
        · rw [okayed okay, walkOkay, phase]
        · rw [failed okay, walkFail, phase]
      have g := walked_walkOn c s
      have chain := walkOn_chain c s
      rw [← e] at g chain
      exact ⟨⟨g.walk, g.cursor, g.others, g.link⟩, g.writes, g.posted, chain, g.frame⟩

end Sys2Proof.Machine
end

section
/-! The header of a waveform image: its checks, its read and its acceptance (sections 3.1 to 3.3). -/

set_option Elab.async false

namespace Sys2Proof.Machine

/-! ### The checks of a header (R37, R38) -/

/-- Directory entry `e` is used by an image of `n` bands. -/
def EntryUsed (n e : Nat) : Prop := e < 36 ∧ e % 12 < n

theorem findUsed_some {n e : Nat} {bad : Nat → Bool} (used : EntryUsed n e) (fails : bad e = true)
    (least : ∀ d, d < e → EntryUsed n d → bad d = false) : (usedEntries n).find? bad = some e := by
  rw [usedEntries, List.find?_filter, List.find?_range_eq_some]
  refine ⟨by simp [used.2, fails], List.mem_range.mpr used.1, fun d below => ?_⟩
  by_cases low : d % 12 < n
  · simp [least d below ⟨below.trans used.1, low⟩]
  · simp [low]

theorem findUsed_none {n : Nat} {bad : Nat → Bool} (all : ∀ d, EntryUsed n d → bad d = false) : (usedEntries n).find? bad = none := by
  rw [List.find?_eq_none]
  intro d mem
  rw [usedEntries, List.mem_filter, List.mem_range, decide_eq_true_eq] at mem
  simp [all d mem]

theorem boundsRise_iff (l : List Byte) (n : Nat) :
    boundsRise l n = true ↔ ∀ p, p < n → s16 l (8 + 2 * p) < s16 l (8 + 2 * (p + 1)) := by
  rw [boundsRise, List.all_eq_true]
  exact forall_congr' fun p => by rw [List.mem_range, decide_eq_true_eq]; rfl

theorem badPlace_iff {l : List Byte} {e : Nat} : ((dirAt l e).1 % 64 != 0 || decide ((dirAt l e).1 < 384)) = true ↔
    ¬(u32 l (0x30 + 8 * e) % 64 = 0 ∧ 384 ≤ u32 l (0x30 + 8 * e)) := by
  rw [Bool.or_eq_true, bne_iff_ne, decide_eq_true_eq, not_and_or, Nat.not_le]
  rfl

/-- The checks of R37 on a header. -/
theorem headerFailure_eq (l : List Byte) : headerFailure l =
    if ¬u32 l 0 = 0x57460601 then some (2, 0)
    else if ¬u8 l 4 = 3 then some (3, 0)
    else if ¬(1 ≤ u8 l 5 ∧ u8 l 5 ≤ 12) then some (4, 0)
    else if ¬boundsRise l (u8 l 5) = true then some (5, 0)
    else match (usedEntries (u8 l 5)).find? fun e => (dirAt l e).2 == 0 with
      | some e => some (6, e)
      | none => ((usedEntries (u8 l 5)).find? fun e => (dirAt l e).1 % 64 != 0 || decide ((dirAt l e).1 < 384)).map fun e => (7, e) := by
  simp only [headerFailure, inRange, Bool.not_and, Bool.or_eq_true, Bool.not_eq_true', decide_eq_false_iff_not, not_and_or,
    ne_eq, Bool.not_eq_true]
  cases (usedEntries (u8 l 5)).find? fun e => (dirAt l e).2 == 0 <;>
    cases (usedEntries (u8 l 5)).find? fun e => (dirAt l e).1 % 64 != 0 || decide ((dirAt l e).1 < 384) <;> rfl

/-! ### The header read (R36) -/

/-- A WAVEFORM finalized without acceptance. -/
theorem refuseWave_ends (r reason index : Nat) (code : Code) (s : State) : ∃ g k,
    endsBy .page [(r, [(0x14, [g, k] ++ le8 reason ++ le8 index)], code.num)] s (refuseWave r reason index code s) ∧
    (refuseWave r reason index code s).sif.posted = s.postedBy .page 1 ∧
    (refuseWave r reason index code s).sansRequests = ({ s with fresh := s.fresh + 2 } : State).sansRequests :=
  ⟨_, _, ((Ends.refl.congr (u := { s with fresh := s.fresh + 1 + 1 })).finalize r _ code).endsBy, finalize_postedBy _ _ _ _ _,
    sansRequests_finalize _ _ _ _ _⟩

theorem retire_eq (e : StoreEntry) : e.retire =
    if e.state = .empty then e
    else if e.state = .ready ∧ e.refs = 0 then { stamp := e.stamp }
    else { e with stale := true, holder := none } := by
  unfold StoreEntry.retire
  cases e.state with
  | empty => rfl
  | ready => simp
  | loading => rfl

theorem judgeImage_header {l : List Byte} {f : Nat × Nat} (fails : headerFailure l = some f) (c : HeaderCheck) (s : State) :
    judgeImage c l s = refuseWave c.record f.1 f.2 .refusedFormat s := by rw [judgeImage, fails]

theorem judgeImage_table {l : List Byte} {c : HeaderCheck} {s : State} {e : Nat} (passes : headerFailure l = none)
    (out : tableFailure l s.windows c.addr = some e) : judgeImage c l s = refuseWave c.record 9 e .window s := by
  rw [judgeImage, passes]
  dsimp only
  rw [out]

/-- An image without a failure is accepted, and the scan runs (R39). -/
theorem judgeImage_good {l : List Byte} {c : HeaderCheck} {s : State} (passes : headerFailure l = none)
    (inside : tableFailure l s.windows c.addr = none) : judgeImage c l s = scan (finalize .page c.record
      [(0x14, [s.wfs.generation + 1] ++ le8 (u8 l 5) ++ [0, 0])] .done (acceptImage (parseImage l c.addr) s)) := by
  rw [judgeImage, passes]
  dsimp only
  rw [inside]
  rfl

/-- Settles O26. -/
theorem waveformIsJudged : Obligations.WaveformIsJudged := by
  refine ⟨fun l => ?_, fun x data s b c user live check => ?_⟩
  · intro n used frames place first magic modes count rise
    have riseIff : boundsRise l (u8 l 5) = true ↔ rise := boundsRise_iff l (u8 l 5)
    have judged := headerFailure_eq l
    refine ⟨fun m => ?_, fun m d => ?_, fun m d k => ?_, fun m d k r => ?_, fun e m d k r f => ?_, fun e m d k r f p => ?_,
      fun m d k r f => ?_, fun ws a => ?_⟩
    · rw [judged, if_pos m]
    · rw [judged, if_neg (not_not_intro m), if_pos d]
    · rw [judged, if_neg (not_not_intro m), if_neg (not_not_intro d), if_pos k]
    · rw [judged, if_neg (not_not_intro m), if_neg (not_not_intro d), if_neg (not_not_intro k), if_pos fun b => r (riseIff.mp b)]
    · have found := findUsed_some (bad := fun e => (dirAt l e).2 == 0) f.1 (beq_iff_eq.mpr (not_not.mp f.2.1))
        fun d below u => beq_eq_false_iff_ne.mpr (f.2.2 d below u)
      rw [judged, if_neg (not_not_intro m), if_neg (not_not_intro d), if_neg (not_not_intro k),
        if_neg (not_not_intro (riseIff.mpr r)), found]
    · have none := findUsed_none (bad := fun e => (dirAt l e).2 == 0) fun d u => beq_eq_false_iff_ne.mpr (f d u)
      have found := findUsed_some p.1 (badPlace_iff.mpr p.2.1) fun d below u => Bool.eq_false_iff.mpr fun b =>
        badPlace_iff.mp b (p.2.2 d below u)
      rw [judged, if_neg (not_not_intro m), if_neg (not_not_intro d), if_neg (not_not_intro k),
        if_neg (not_not_intro (riseIff.mpr r)), none, found]
      rfl
    · have none := findUsed_none (bad := fun e => (dirAt l e).2 == 0) fun d u => beq_eq_false_iff_ne.mpr (f d u).1
      have none' := findUsed_none fun d u => Bool.eq_false_iff.mpr fun b => badPlace_iff.mp b (f d u).2
      rw [judged, if_neg (not_not_intro m), if_neg (not_not_intro d), if_neg (not_not_intro k),
        if_neg (not_not_intro (riseIff.mpr r)), none, none']
      rfl
    · refine ⟨fun e f => findUsed_some f.1 (by simpa [dirAt] using f.2.1) fun d below u => by simpa [dirAt] using f.2.2 d below u,
        fun all => findUsed_none fun d u => by simpa [dirAt] using all d u⟩
  · intro t l n ended refused
    have okayed : x = .okay → t = headerOkay data s := fun okay => by
      show complete b x data s = _
      rw [okay, complete_okay live, user, userOkay]
    have failed : x ≠ .okay → t = headerFail (x == .window) s := fun bad => by
      show complete b x data s = _
      rw [complete_fail live bad, user, userFail]
    have refuse : ∀ reason index code, t = refuseWave c.record reason index code ended → refused reason index code.num :=
      fun reason index code e => by
        obtain ⟨g, k, ends, posted, frame⟩ := refuseWave_ends c.record reason index code ended
        refine ⟨g, k, ?_⟩
        rw [e]
        exact ⟨ends, posted, frame⟩
    have last : x = .okay → c.left = [] → t = judgeImage c l ended := fun okay empty => by
      rw [okayed okay, headerOkay, check]
      dsimp only
      rw [empty]
    refine ⟨fun bad => refuse 0 0 .memoryError ?_, fun out => refuse 8 0 .window ?_, fun d left okay more => ?_,
      fun reason index okay empty fails => refuse reason index .refusedFormat ?_,
      fun e okay empty passes out => refuse 9 e .window ?_, fun okay empty passes inside => ?_⟩
    · rw [failed (by rw [bad]; nofun), headerFail, check, bad]
      rfl
    · rw [failed (by rw [out]; nofun), headerFail, check, out]
      rfl
    · rw [okayed okay, headerOkay, check]
      dsimp only
      rw [more]
      rfl
    · rw [last okay empty, judgeImage_header fails]
    · exact (last okay empty).trans (judgeImage_table passes out)
    · have accepted : Ends .page [] s (acceptImage (parseImage l c.addr) ended) := Ends.refl.congr
      refine ⟨_, (last okay empty).trans (judgeImage_good passes inside), (accepted.finalize c.record _ .done).endsBy,
        finalize_postedBy _ _ _ _ _, (sansRequests_finalize _ _ _ _ _).trans ?_⟩
      have retired : s.wfs.entries.map StoreEntry.retire = s.wfs.entries.map fun e =>
          if e.state = .empty then e
          else if e.state = .ready ∧ e.refs = 0 then { stamp := e.stamp }
          else { e with stale := true, holder := none } := List.map_congr_left fun e _ => retire_eq e
      rw [← retired]
      rfl

end Sys2Proof.Machine
end

section
/-! The list of waiting updates: leaving it, the reports of the Waveform Store, and the table bursts that make them (sections 3.3, 4.3 and 4.4). -/

set_option Elab.async false

namespace Sys2Proof.Machine

/-! ### Leaving the list (R47, R60) -/

/-- A store entry without a holder. -/
def StoreEntry.unheld (id : Nat) (e : StoreEntry) : StoreEntry := { e with holder := if e.holder = some id then none else e.holder }

theorem idleCheck_eq (s : State) : ∃ x, idleCheck s = { s with pss.idleTimer := x } := by
  unfold idleCheck
  split
  · split
    · split
      · exact ⟨_, rfl⟩
      · exact ⟨s.pss.idleTimer, rfl⟩
    · exact ⟨_, rfl⟩
  · exact ⟨s.pss.idleTimer, rfl⟩

/-- A report of a free entry keeps what the waiting updates ask for. -/
theorem reportFree_request (l : List Entry) :
    (l.map fun e => if e.st = .noRoom then { e with again := true } else e).map Entry.request = l.map Entry.request := by
  rw [List.map_map]
  exact List.map_congr_left fun e _ => by simp only [Function.comp]; split <;> rfl

/-- Clearing a holder everywhere changes the store entries' holders, and marks waiting updates at most. -/
theorem clearHolder_eq (id : Nat) (s : State) : ∃ l, l.map Entry.request = s.upe.list.map Entry.request ∧
    clearHolder id none s = { s with wfs.entries := s.wfs.entries.map (StoreEntry.unheld id), upe.list := l } := by
  have entries : (s.wfs.entries.map fun e => if e.holder = some id ∧ ((none : Option StoreKey) = none ∨ e.key ≠ none)
      then { e with holder := none } else e) =
      s.wfs.entries.map (StoreEntry.unheld id) := List.map_congr_left fun e _ => by
    unfold StoreEntry.unheld
    by_cases h : e.holder = some id <;> simp [h]
  unfold clearHolder
  dsimp only
  rw [entries]
  split
  · exact ⟨_, reportFree_request _, rfl⟩
  · exact ⟨s.upe.list, rfl, rfl⟩

/-- An entry leaves the list: beside that, marks of waiting updates, its hold of store entries, and the idle-hold timer. -/
theorem leaveList_eq (id : Nat) (s : State) : ∃ l x w q,
    l.map Entry.request = (s.upe.list.filter fun e => e.id != id).map Entry.request ∧
    (∀ b ∈ q, ∃ u, b.user = .status u) ∧
    leaveList id s = { s with
      upe.list := l, wfs.entries := s.wfs.entries.map (StoreEntry.unheld id), pss.idleTimer := x
      sif.writers := w, mpt.stationQueue := s.mpt.stationQueue ++ q } := by
  obtain ⟨l, request, e⟩ := clearHolder_eq id { s with upe.list := s.upe.list.filter fun e => e.id != id }
  obtain ⟨w, q, asked⟩ := ask_eq .panel (clearHolder id none { s with upe.list := s.upe.list.filter fun e => e.id != id })
  obtain ⟨p, queue, status⟩ := ask_queue .panel (clearHolder id none { s with upe.list := s.upe.list.filter fun e => e.id != id })
  rw [asked] at queue
  obtain rfl := List.append_cancel_left queue
  obtain ⟨x, idle⟩ := idleCheck_eq (ask .panel (clearHolder id none { s with upe.list := s.upe.list.filter fun e => e.id != id }))
  refine ⟨l, x, w, q, request, status, ?_⟩
  rw [leaveList, idle, asked, e]

theorem ends_leaveList (c : Chain) (id : Nat) (s : State) : Ends c [] s (leaveList id s) := by
  obtain ⟨l, -, e⟩ := clearHolder_eq id { s with upe.list := s.upe.list.filter fun e => e.id != id }
  obtain ⟨x, idle⟩ := idleCheck_eq (ask .panel (clearHolder id none { s with upe.list := s.upe.list.filter fun e => e.id != id }))
  have asked : Ends c [] s (ask .panel (clearHolder id none { s with upe.list := s.upe.list.filter fun e => e.id != id })) := by
    rw [e]
    exact (Ends.refl.congr (chain := by cases c <;> rfl)).ask .panel
  rw [leaveList, idle]
  exact asked.congr (chain := by cases c <;> rfl)

/-! ### Reports (R66) -/

/-- A report arrives: with an update marked the scan is left to the lookups, else it runs (R67). -/
theorem reported_cases (s : State) :
    ((∃ x ∈ s.upe.list, x.again = true) → reported s = s) ∧ ((∀ x ∈ s.upe.list, x.again = false) → reported s = scan s) := by
  refine ⟨fun ⟨x, mem, again⟩ => if_pos (List.any_eq_true.mpr ⟨x, mem, again⟩), fun none => if_neg ?_⟩
  rw [List.any_eq_true]
  exact fun ⟨x, mem, again⟩ => nomatch (none x mem).symm.trans again

/-- The waiting updates after the report that a load of a key has ended (R66). -/
def toldOf (key : Option StoreKey) (l : List Entry) : List Entry :=
  l.map fun x => if x.st = .loading ∧ x.key = key then { x with st := .noRoom, again := true } else x

/-- The waiting updates after the report that an entry is free (R66). -/
def freeOf (l : List Entry) : List Entry := l.map fun x => if x.st = .noRoom then { x with again := true } else x

/-- The marks of a load's end, on one waiting update. -/
def Entry.toldFree (key : Option StoreKey) (x : Entry) : Entry :=
  let y := if x.st = .loading ∧ x.key = key then { x with st := .noRoom, again := true } else x
  if y.st = .noRoom then { y with again := true } else y

theorem freeOf_toldOf (key : Option StoreKey) (l : List Entry) : freeOf (toldOf key l) = l.map (Entry.toldFree key) := by
  rw [freeOf, toldOf, List.map_map]
  rfl

theorem toldFree_request (key : Option StoreKey) (x : Entry) : (x.toldFree key).request = x.request := by
  unfold Entry.toldFree
  dsimp only
  split <;> split <;> rfl

theorem toldFree_id (key : Option StoreKey) (x : Entry) : (x.toldFree key).id = x.id := congrArg Prod.fst (toldFree_request key x)

/-! ### Table bursts (R43, R44) -/

/-- The state after a load has left its entry EMPTY, the waiting updates told. -/
def loadEmptied (i : Nat) (s : State) : State := { s with
  wfs.entries := s.wfs.entries.set i { stamp := (s.store i).stamp }
  upe.list := freeOf (toldOf (s.store i).key s.upe.list) }

theorem findListed_emptied (i id : Nat) (s : State) :
    findListed id (loadEmptied i s) = (s.upe.list.find? fun z => z.id == id).map (Entry.toldFree (s.store i).key) := by
  show (freeOf (toldOf (s.store i).key s.upe.list)).find? _ = _
  rw [freeOf_toldOf, List.find?_map]
  simp only [Function.comp_def, toldFree_id]

theorem store_map_unheld (id j : Nat) (s : State) {t : State} (h : t.wfs.entries = s.wfs.entries.map (StoreEntry.unheld id)) :
    t.store j = (s.store j).unheld id := by
  rw [State.store, h, State.store, show ({} : StoreEntry) = StoreEntry.unheld id {} from rfl, List.getD_map]
  rfl

/-- Settles O27. -/
theorem loadBurstFillsTheEntry : Obligations.LoadBurstFillsTheEntry := by
  intro i b data s inside live user e told free reports
  have okayed : complete b .okay data s = loadOkay i data s := by rw [complete_okay live, user, userOkay]
  have report : ∀ t u, t = reported u → reports t u := fun t u h => h ▸ reported_cases u
  refine ⟨⟨fun fresh more => ?_, fun fresh last => report _ _ ?_, fun stale => report _ _ ?_⟩,
    fun x bad => ⟨fun gone => report _ _ ?_, fun id y a held found origin => ?_⟩⟩
  · rw [okayed, loadOkay, if_neg (by rw [fresh]; nofun), if_neg (Nat.ne_of_gt more)]
    rfl
  · rw [okayed, loadOkay, if_neg (by rw [fresh]; nofun), if_pos last]
    dsimp only
    split
    · rfl
    · rfl
  · rw [okayed, loadOkay, if_pos stale]
    rfl
  all_goals
    have failed : complete b x data s = failHolder e.holder x.code (loadEmptied i s) := by
      rw [complete_fail live bad, user]
      rfl
  · rw [failed]
    rcases gone with none | ⟨id, held, absent⟩
    · rw [none]
      rfl
    · have nobody : findListed id (loadEmptied i s) = none := by
        rw [findListed_emptied, List.find?_eq_none.mpr fun y mem => by simpa using absent y mem]
        rfl
      rw [held, failHolder]
      dsimp only
      rw [nobody]
      rfl
  · have leaves : complete b x data s =
        scan (endWaiting x.code (leaveList id (loadEmptied i s)) (y.toldFree e.key)) := by
      rw [failed, held, failHolder, findListed_emptied, found]
      rfl
    have asked : (y.toldFree e.key).mode = y.mode ∧ (y.toldFree e.key).origin = .record a := by
      have h := toldFree_request e.key y
      simp only [Entry.request, Prod.mk.injEq] at h
      obtain ⟨-, o, -, -, -, m, -⟩ := h
      exact ⟨m, o.trans origin⟩
    have finalized : endWaiting x.code (leaveList id (loadEmptied i s)) (y.toldFree e.key) =
        finalize .page a (noLaneResults y.mode.num) x.code (leaveList id (loadEmptied i s)) := by
      rw [endWaiting, asked.1, asked.2]
      rfl
    have code : x.code.num = if x = .window then 34 else 53 := by cases x <;> rfl
    obtain ⟨l, z, w, q, request, -, left⟩ := leaveList_eq id (loadEmptied i s)
    have emptied : Ends .page [] s (loadEmptied i s) := Ends.refl.congr
    refine ⟨_, leaves, ?_, ?_, ?_, fun j => ?_, ?_⟩
    · rw [finalized, ← code]
      exact ((emptied.trans (ends_leaveList .page id _)).finalize a _ x.code).endsBy
    · rw [finalized, finalize_postedBy, left]
      rfl
    · rw [finalized, finalize_upe, left]
      refine request.trans ?_
      show ((freeOf (toldOf e.key s.upe.list)).filter _).map _ = _
      rw [freeOf_toldOf, List.filter_map, List.map_map]
      simp only [Function.comp_def, toldFree_id, toldFree_request]
    · exact store_map_unheld id j (loadEmptied i s) (by rw [finalized, finalize_wfs, left])
    · rw [finalized]
      have frame := sansRequests_finalize .page a (noLaneResults y.mode.num) x.code (leaveList id (loadEmptied i s))
      generalize finalize .page a (noLaneResults y.mode.num) x.code (leaveList id (loadEmptied i s)) = ended at frame ⊢
      refine (congrArg (fun v : State => ({ v with
        upe.list := s.upe.list, wfs.entries := s.wfs.entries, pss.idleTimer := s.pss.idleTimer } : State)) frame).trans ?_
      rw [left]
      rfl

end Sys2Proof.Machine
end

section
/-! Key lines: their debouncers, a confirmed press and its place in the Key Queue (sections 6.1 and 6.2). -/

set_option Elab.async false

namespace Sys2Proof.Machine

/-! ### Key line changes (R107, R108, R109) -/

/-- What a watched line becomes when its level changes to `high`, `active` telling whether that level is the pressed one. -/
def KeyLine.changed (k : KeyLine) (high active : Bool) (started : Timer) : KeyLine :=
  match k.state with
  | .idle => if active = true then ⟨high, .bouncing, started⟩ else { k with level := high }
  | .bouncing => if active = true then { k with level := high } else ⟨high, .idle, none⟩
  | .pressed => ⟨high, .pressed, if active = true then none else started⟩

theorem setLine_line (s : State) (i : Nat) (k : KeyLine) (inside : i < s.ktu.lines.length) : (s.setLine i k).line i = k := by
  simp [State.line, State.setLine, inside]

theorem setLine_outside (s : State) (i : Nat) (k : KeyLine) (outside : s.ktu.lines.length ≤ i) : s.setLine i k = s := by
  simp [State.setLine, List.set_eq_of_length_le outside]

theorem setLine_setLine (s : State) (i : Nat) (k m : KeyLine) : (s.setLine i k).setLine i m = s.setLine i m := by
  simp [State.setLine, List.set_set]

/-- The response to a new level is another value of the same line. -/
theorem lineChanged_outside (i : Nat) (s : State) (outside : s.ktu.lines.length ≤ i) : lineChanged i s = s := by
  unfold lineChanged lineBounce
  simp only [setLine_outside _ _ _ outside]
  split <;> split <;> rfl

theorem lineChanged_eq (i : Nat) (high : Bool) (s : State) :
    lineChanged i (s.setLine i { s.line i with level := high }) =
      s.setLine i ((s.line i).changed high (keyActive (s.keySetting i).polarity high)
        (some ⟨s.partTime, (s.keySetting i).debounce⟩)) := by
  by_cases inside : i < s.ktu.lines.length
  · have line := setLine_line s i { s.line i with level := high } inside
    have setting : (s.setLine i { s.line i with level := high }).keySetting i = s.keySetting i := rfl
    unfold lineChanged lineBounce KeyLine.changed
    dsimp only
    rw [setting, line]
    generalize keyActive (s.keySetting i).polarity high = active
    cases h : (s.line i).state <;> cases active <;> simp [setLine_setLine, State.timer]
  · have outside := Nat.not_lt.mp inside
    rw [setLine_outside _ _ _ outside, setLine_outside _ _ _ outside, lineChanged_outside i s outside]

/-- Settles O44. -/
theorem keyLineChanges : Obligations.KeyLineChanges := by
  intro i high s differs
  by_cases live : s.sif.live = true
  · have e : keyLevel i.val high s = s.setLine i ((s.line i).changed high (keyActive (s.keySetting i).polarity high)
        (some ⟨s.partTime, (s.keySetting i).debounce⟩)) := by
      unfold keyLevel
      rw [if_neg differs]
      dsimp only [setLine_sif]
      rw [if_pos live, lineChanged_eq]
    refine ⟨_, congrArg done e, ?_⟩
    dsimp only
    rw [if_neg (by simp [live])]
    rfl
  · have e : keyLevel i.val high s = s.setLine i { s.line i with level := high } := by
      unfold keyLevel
      rw [if_neg differs]
      dsimp only [setLine_sif]
      rw [if_neg live]
    refine ⟨_, congrArg done e, ?_⟩
    dsimp only
    rw [if_pos (Bool.not_eq_true _ ▸ live)]
    rfl

/-! ### Confirmed presses (R108, R110, R111) -/

theorem ask_withKtu (a : Area) (s : State) (k : Ktu) : { ask a s with ktu := k } = ask a { s with ktu := k } := by
  unfold ask
  dsimp only
  by_cases waits : ((s.writer a.user).cur = some a ∧ (s.writer a.user).granted = false) ∨ a ∈ (s.writer a.user).queued
  · rw [if_pos waits]
    exact (if_pos waits).symm
  · rw [if_neg waits]
    refine Eq.trans ?_ (if_neg waits).symm
    by_cases free : (s.writer a.user).cur = none ∧ writerHeld a.user s = false
    · rw [if_pos free]
      exact (if_pos free).symm
    · rw [if_neg free]
      exact (if_neg free).symm

theorem confirmPress_none (s : State) : confirmPress .none s = s := if_pos rfl

theorem confirmPress_room (role : Role) (s : State) (named : role ≠ .none) (room : s.ktu.queue.length < 4) :
    confirmPress role s = ask .keyReport { s with
      ktu.queue := s.ktu.queue ++ [⟨role, s.partTime⟩]
      ktu.counts := s.ktu.counts.modify (role.num - 1) (· + 1) } := by
  rw [confirmPress, if_neg named, if_pos room]

/-- A press for which the queue has no room is dropped and counted, up to 65535 (R110). -/
theorem confirmPress_full (role : Role) (s : State) (named : role ≠ .none) (full : 4 ≤ s.ktu.queue.length) :
    (confirmPress role s).sansStatus =
      ({ s with ktu.dropped := BitVec.ofNat 16 (min 65535 (s.ktu.dropped.toNat + 1)) } : State).sansStatus := by
  rw [confirmPress, if_neg named, if_neg (Nat.not_lt.mpr full)]
  by_cases most : s.ktu.dropped = 65535
  · have same : BitVec.ofNat 16 (min 65535 (s.ktu.dropped.toNat + 1)) = s.ktu.dropped := by rw [most]; rfl
    rw [if_pos most, same]
  · have next : BitVec.ofNat 16 (min 65535 (s.ktu.dropped.toNat + 1)) = s.ktu.dropped + 1 := by bv_omega
    rw [if_neg most, next, sansStatus_ask]

@[simp] theorem confirmPress_part (role : Role) (s : State) : (confirmPress role s).rsc = s.rsc := by
  unfold confirmPress
  split
  · rfl
  · split
    · simp
    · split <;> simp

/-- The presses that wait are held in STARTING, REST_TURN and WAKING (R111). -/
theorem handleQueue_held (n : Nat) (s : State) (held : s.rsc.part = .starting ∨ s.rsc.part = .restTurn ∨ s.rsc.part = .waking) :
    handleQueue n s = s := by
  cases n with
  | zero => rfl
  | succ n =>
    unfold handleQueue
    cases s.ktu.queue with
    | nil => rfl
    | cons p q => rcases held with h | h | h <;> simp only [h]

theorem debounceEnd_confirm (i : Nat) (s : State) (timed : (s.line i).timer ≠ none) (bouncing : (s.line i).state = .bouncing)
    (active : keyActive (s.cfg.keys.getD i {}).polarity (s.line i).level = true) :
    debounceEnd i s = handlePresses (confirmPress (Role.ofNum (s.roleOf i))
      (s.setLine i ⟨(s.line i).level, .pressed, none⟩)) := by
  unfold debounceEnd
  dsimp only
  rw [if_neg timed, bouncing]
  exact if_pos active

theorem debounceEnd_release (i : Nat) (s : State) (timed : (s.line i).timer ≠ none) (pressed : (s.line i).state = .pressed)
    (inactive : keyActive (s.cfg.keys.getD i {}).polarity (s.line i).level = false) :
    debounceEnd i s = s.setLine i ⟨(s.line i).level, .idle, none⟩ := by
  unfold debounceEnd
  dsimp only
  rw [if_neg timed, pressed]
  exact if_neg (ne_true_of_eq_false inactive)

/-- The press that a key line's confirmation makes at this moment. -/
def State.pressOf (s : State) (i : Nat) : Press := ⟨Role.ofNum (s.roleOf i), s.partTime⟩

theorem roleNum_ofNum (n : Nat) (named : Role.ofNum n ≠ .none) : (Role.ofNum n).num = n := by
  unfold Role.ofNum at named ⊢
  split at named <;> first | rfl | exact absurd rfl named

/-- The state with its Key Queue replaced. -/
def State.withQueue (s : State) (q : List Press) : State := { s with ktu.queue := q }

theorem ask_withQueue (a : Area) (s : State) (q : List Press) : (ask a s).withQueue q = ask a (s.withQueue q) := by
  unfold State.withQueue
  rw [ask_ktu]
  exact ask_withKtu a s { s.ktu with queue := q }

theorem handleQueue_cons (n : Nat) (s : State) (p : Press) (q : List Press) (waits : s.ktu.queue = p :: q) :
    handleQueue (n + 1) s = match s.rsc.part with
      | .run => handleQueue n (pressRun p (s.withQueue q))
      | .quiesce => if s.rsc.forced then s else handleQueue n (quiescePress p (s.withQueue q))
      | .rest => handleQueue n (restPress p (s.withQueue q))
      | .stopped | .starting | .restTurn | .waking => s := by
  rw [handleQueue, waits]
  rfl

theorem confirmed_queue (s : State) (i : Nat) (empty : s.ktu.queue = []) : (s.confirmed i).withQueue [] = s.confirmed i := by
  simp [State.withQueue, State.confirmed, empty]

/-- A press confirmed with none waiting before it joins the queue alone, its key report asked for, and is handled (R108, R110,
R111). -/
theorem debounceEnd_confirms {i : Nat} {s : State} (c : s.confirms i) (named : Role.ofNum (s.roleOf i) ≠ .none) :
    debounceEnd i s = handleQueue 1 (ask .keyReport ((s.confirmed i).withQueue [s.pressOf i])) := by
  obtain ⟨timed, bouncing, active, empty⟩ := c
  have same : ({ s.setLine i ⟨(s.line i).level, .pressed, none⟩ with
      ktu.queue := (s.setLine i ⟨(s.line i).level, .pressed, none⟩).ktu.queue ++
        [⟨Role.ofNum (s.roleOf i), (s.setLine i ⟨(s.line i).level, .pressed, none⟩).partTime⟩]
      ktu.counts := (s.setLine i ⟨(s.line i).level, .pressed, none⟩).ktu.counts.modify
        ((Role.ofNum (s.roleOf i)).num - 1) (· + 1) } : State) = (s.confirmed i).withQueue [s.pressOf i] := by
    rw [roleNum_ofNum _ named]
    simp [State.confirmed, State.pressOf, State.setLine, State.withQueue, empty]
  rw [debounceEnd_confirm i s timed bouncing active, confirmPress_room _ _ named (by simp [empty]), same, handlePresses, ask_ktu]
  rfl

theorem handleQueue_one {i : Nat} {s : State} (c : s.confirms i) :
    handleQueue 1 (ask .keyReport ((s.confirmed i).withQueue [s.pressOf i])) =
      match s.rsc.part with
      | .run => pressRun (s.pressOf i) (ask .keyReport (s.confirmed i))
      | .quiesce =>
        if s.rsc.forced then ask .keyReport ((s.confirmed i).withQueue [s.pressOf i])
        else quiescePress (s.pressOf i) (ask .keyReport (s.confirmed i))
      | .rest => restPress (s.pressOf i) (ask .keyReport (s.confirmed i))
      | .stopped | .starting | .restTurn | .waking => ask .keyReport ((s.confirmed i).withQueue [s.pressOf i]) := by
  have taken : (ask .keyReport ((s.confirmed i).withQueue [s.pressOf i])).withQueue [] = ask .keyReport (s.confirmed i) :=
    (ask_withQueue _ _ _).trans (congrArg (ask .keyReport) (confirmed_queue s i c.2.2.2))
  rw [handleQueue_cons _ _ (s.pressOf i) [] (by rw [ask_ktu]; rfl), taken, ask_rsc]
  rfl

/-- A report leaves the key report's fields, and KEY posted, whatever write was asked for before it (R113). -/
theorem reportPress_sansPosts (p : Press) (a : Area) (s : State) :
    (reportPress p (ask a s)).sansPosts = ({ s with
      ktu.lastRole := p.role, ktu.lastStamp := p.stamp, ktu.reported := s.ktu.reported + 1 } : State).sansPosts := by
  have fields : ({ ask a s with
      ktu.lastRole := p.role, ktu.lastStamp := p.stamp, ktu.reported := (ask a s).ktu.reported + 1 } : State) =
      ask a { s with ktu.lastRole := p.role, ktu.lastStamp := p.stamp, ktu.reported := s.ktu.reported + 1 } := by
    refine Eq.trans ?_ (ask_withKtu a s { s.ktu with
      lastRole := p.role, lastStamp := p.stamp, reported := s.ktu.reported + 1 })
    simp only [ask_ktu]
  rw [reportPress, fields, sansPosts_ask, sansPosts_post, sansPosts_ask]

/-- A press confirmed in RUN with none waiting is handled at once (R111, R112). -/
theorem debounceEnd_run {i : Nat} {s : State} (c : s.confirms i) (named : Role.ofNum (s.roleOf i) ≠ .none) (run : s.rsc.part = .run) :
    debounceEnd i s = pressRun (s.pressOf i) (ask .keyReport (s.confirmed i)) := by
  rw [debounceEnd_confirms c named, handleQueue_one c, run]

/-- Settles O45. -/
theorem pressesAreDebounced : Obligations.PressesAreDebounced := by
  refine ⟨fun i s timed pressed inactive => congrArg done (debounceEnd_release i.val s timed pressed inactive),
    fun i s timed bouncing active held => ?_, fun i s timed bouncing active wake run empty => ?_⟩
  · intro role lines
    let pressed := s.setLine i ⟨(s.line i).level, .pressed, none⟩
    have out := debounceEnd_confirm i.val s timed bouncing active
    rw [handlePresses, handleQueue_held _ _ (by rw [confirmPress_part]; exact held)] at out
    refine ⟨_, congrArg done out, fun none => ?_, fun named room => ?_, fun named full => ?_⟩
    · exact (congrArg (confirmPress · _) none).trans (confirmPress_none _)
    · exact (congrArg State.sansStatus (confirmPress_room _ pressed named room)).trans (sansStatus_ask _ _)
    · exact confirmPress_full _ pressed named full
  · have c : s.confirms i := ⟨timed, bouncing, active, empty⟩
    have role : Role.ofNum (s.roleOf i) = .wake := congrArg Role.ofNum wake
    have out : debounceEnd i.val s = reportPress (s.pressOf i) (ask .keyReport (s.confirmed i)) := by
      rw [debounceEnd_run c (by rw [role]; decide) run]
      simp only [pressRun, State.pressOf, role]
    refine ⟨_, congrArg done out, ?_, ?_⟩
    · simp [reportPress, State.postedOnce, State.confirmed]
    · have role3 : s.roleOf i - 1 = 3 := congrArg (· - 1) wake
      rw [reportPress_sansPosts]
      simp only [State.pressOf, role, State.confirmed, role3]

end Sys2Proof.Machine
end

section
/-! The Light Unit's ramps, duties and generators (chapter 7), and the writes that a finalization leaves asked for. -/

set_option Elab.async false

namespace Sys2Proof.Machine

/-! ### Writes asked for stay asked for -/

/-- What is asked for is told by the status writers alone. -/
theorem asked_congr {a : Area} {s t : State} (h : s.asked a) (writers : t.sif.writers = s.sif.writers := by rfl) : t.asked a := by
  unfold State.asked State.writer at *
  rwa [writers]

theorem countRetired_writers (c : Chain) (s : State) : (countRetired c s).sif.writers = s.sif.writers := by
  rw [countRetired_eq, setChain_sif_writers]

@[simp] theorem countFinal_writers_length (c : Chain) (s : State) :
    (countFinal c s).sif.writers.length = s.sif.writers.length := by
  rw [countFinal, post_writers_length, ask_writers_length, countRetired_writers]

theorem asked_countFinal_of_asked {a : Area} (c : Chain) {s : State} (h : s.asked a) : (countFinal c s).asked a :=
  asked_post_of_asked _ (asked_ask_of_asked _ (asked_congr h (countRetired_writers c s)))

@[simp] theorem kickFinalizer_writers_length (s : State) : (kickFinalizer s).sif.writers.length = s.sif.writers.length := by
  rcases kickFinalizer_cases s with ⟨-, e⟩ | ⟨f, l, b, w, -, -, -, e⟩ | ⟨f, l, -, -, -, e⟩ <;> rw [e]
  · rfl
  · unfold finalJoined
    split
    · rfl
    · exact countFinal_writers_length _ _

theorem asked_kickFinalizer_of_asked {a : Area} {s : State} (h : s.asked a) : (kickFinalizer s).asked a := by
  rcases kickFinalizer_cases s with ⟨-, e⟩ | ⟨f, l, b, w, -, -, -, e⟩ | ⟨f, l, -, -, -, e⟩ <;> rw [e]
  · exact h
  · exact asked_congr h
  · unfold finalJoined
    split
    · exact asked_congr h
    · exact asked_countFinal_of_asked _ (asked_congr h)

/-- A finalization is a change of the finalizer's list, perhaps its kick, and perhaps a count. -/
theorem finalize_cases {p : State → Prop} (c : Chain) (r : Nat) (l : List (Nat × List Byte)) (x : Code) (s : State)
    (listed : ∀ f, p { s with sif.finals := s.sif.finals ++ [f] }) (kicked : ∀ t, p t → p (kickFinalizer t))
    (counted : portOpen s = false → ∀ t, p t → p (countFinal c t)) : p (finalize c r l x s) := by
  have begun : ∀ f, p (if s.sif.finals.isEmpty then kickFinalizer { s with sif.finals := s.sif.finals ++ [f] }
      else { s with sif.finals := s.sif.finals ++ [f] }) := fun f => by
    split
    · exact kicked _ (listed f)
    · exact listed f
  unfold finalize
  dsimp only
  split
  · exact begun _
  · next closed => exact counted (Bool.not_eq_true _ ▸ closed) _ (begun _)

@[simp] theorem finalize_writers_length (c : Chain) (r : Nat) (l : List (Nat × List Byte)) (x : Code) (s : State) :
    (finalize c r l x s).sif.writers.length = s.sif.writers.length :=
  finalize_cases (p := fun t => t.sif.writers.length = s.sif.writers.length) c r l x s (fun _ => rfl)
    (fun t h => (kickFinalizer_writers_length t).trans h) (fun _ t h => (countFinal_writers_length c t).trans h)

theorem asked_finalize_of_asked {a : Area} (c : Chain) (r : Nat) (l : List (Nat × List Byte)) (x : Code) {s : State}
    (h : s.asked a) : (finalize c r l x s).asked a :=
  finalize_cases (p := (State.asked · a)) c r l x s (fun _ => asked_congr h) (fun _ => asked_kickFinalizer_of_asked)
    (fun _ _ => asked_countFinal_of_asked c)

/-- At a closed port a finalization asks for the write of the retired counts at once (R146). -/
theorem asked_finalize (c : Chain) (r : Nat) (l : List (Nat × List Byte)) (x : Code) {s : State} (closed : portOpen s = false)
    (eight : s.sif.writers.length = 8) : (finalize c r l x s).asked .retired := by
  rw [finalize, if_neg (by simp [closed])]
  refine asked_countFinal c ?_
  split
  · exact (kickFinalizer_writers_length _).trans eight
  · exact eight

theorem asked_finalizeLight (code : Code) {s : State} (a : Nat) (lit : s.ltu.light = some a) (closed : portOpen s = false)
    (eight : s.sif.writers.length = 8) : (finalizeLight code s).asked .retired := by
  rw [finalizeLight, lit]
  exact asked_finalize _ _ _ _ ((portOpen_congr rfl).trans closed) eight

/-- Posts of finalizations are told by the posted counts and the port. -/
theorem postedBy_congr {s t : State} (c : Chain) (n : Nat) (posted : t.sif.posted = s.sif.posted)
    (port : portOpen t = portOpen s) : t.postedBy c n = s.postedBy c n := by
  rw [State.postedBy, State.postedBy, posted, port]

/-! ### The ramp tick (R135, R136, R141) -/

/-- The Light Unit with the next step of a ramp taken, its duty pair placed. -/
def Ltu.stepped (l : Ltu) (r : Ramp) (gamma : List Nat) : Ltu :=
  { l with
    level := rampValue r.v0 r.t (r.k + 1) r.n, warmth := rampValue r.m0 r.tm (r.k + 1) r.n
    pair := some (dutySplit (luminance gamma (rampValue r.v0 r.t (r.k + 1) r.n)) (rampValue r.m0 r.tm (r.k + 1) r.n))
    gammaDirty := false, ramp := some r.next }

/-- A step of a ramp, the light status perhaps asked for, leaves the state that the step says, and the chains and the port. -/
theorem stepRamp_cases (r : Ramp) (s : State) : ∃ x : State,
    stepRamp r s = (if r.n ≤ r.k + 1 then endRamp x else x) ∧
    x.sansStatus = ({ s with ltu := s.ltu.stepped r s.cfg.gamma } : State).sansStatus ∧ Ends .control [] s x ∧
    x.sif.posted = s.sif.posted ∧ x.sif.writers.length = s.sif.writers.length := by
  let y : State := { s with ltu := s.ltu.stepped r s.cfg.gamma }
  by_cases dirty : s.ltu.gammaDirty = true
  · refine ⟨ask .light y, ?_, sansStatus_ask _ _, (Ends.refl.congr (u := y)).ask .light, ask_sif_posted _ _,
      ask_writers_length _ _⟩
    exact congrArg (fun x => if r.n ≤ r.k + 1 then endRamp x else x) (if_pos dirty)
  · refine ⟨y, ?_, rfl, Ends.refl.congr, rfl, rfl⟩
    exact congrArg (fun x => if r.n ≤ r.k + 1 then endRamp x else x) (if_neg dirty)

theorem rampTick_step {r : Ramp} {s : State} (live : s.sif.live = true) (ramp : s.ltu.ramp = some r) :
    rampTick s = stepRamp r s := by
  rw [rampTick, if_neg (by simp [live]), ramp]

/-- The end of a ramp to which no LIGHT is attached. -/
theorem endRamp_unattached (s : State) (alone : s.ltu.light = none ∨ s.ltu.detached = true ∧ Config.restoreEndsLight = false) :
    endRamp s = ask .light { s with ltu.ramp := none, rsc.fadePending := false } := by
  unfold endRamp
  dsimp only
  split
  · rfl
  · next attached =>
    rcases alone with none | ⟨detached, free⟩
    · rw [finalizeLight]
      simp only [none]
    · simp [detached, free] at attached

/-- The end of a ramp ends the LIGHT attached to it. -/
theorem endRamp_attached (s : State) (attached : s.ltu.detached = false ∨ Config.restoreEndsLight = true) :
    endRamp s = ask .light { finalizeLight .done { s with ltu.ramp := none } with rsc.fadePending := false } := by
  unfold endRamp
  dsimp only
  rw [if_neg (by rcases attached with h | h <;> simp [h])]

/-- Settles O48: a tick takes `stepRamp`, whose last step is `endRamp`. -/
theorem rampTickIsTaken : Obligations.RampTickIsTaken := by
  refine ⟨fun s r live ramp => ?_, fun s none => ?_⟩
  · intro v m l
    obtain ⟨x, e, frame, ends, posted, writers⟩ := stepRamp_cases r s
    have ltu : x.ltu = s.ltu.stepped r s.cfg.gamma := (congrArg State.ltu frame :)
    refine ⟨_, congrArg done ((rampTick_step live ramp).trans e), fun goesOn => ?_, fun last alone => ?_,
      fun a last lit attached => ?_⟩
    · rw [if_neg (Nat.not_le.mpr goesOn), frame]
      rfl
    · rw [if_pos last, endRamp_unattached x (by rw [ltu]; exact alone), sansStatus_ask]
      exact (congrArg (fun y : State => ({ y with ltu.ramp := none, rsc.fadePending := false } : State)) frame).trans rfl
    · let z : State := { x with ltu.ramp := none }
      have zends : Ends .control [] s z := ends.congr
      have zlit : z.ltu.light = some a := (congrArg Ltu.light ltu).trans lit
      have results : lightEnds 16 z = [(a, [(0x18, le16 s.ltu.lr ++ le16 s.ltu.mr ++ le16 v ++ le16 s.ltu.ceiling)], 16)] := by
        rw [lightEnds, zlit]
        show [(a, [(0x18, le16 x.ltu.lr ++ le16 x.ltu.mr ++ le16 x.ltu.level ++ le16 x.ltu.ceiling)], 16)] = _
        rw [ltu]
        rfl
      rw [if_pos last, endRamp_attached x (by rw [ltu]; exact attached)]
      refine ⟨?_, ?_, ?_, fun closed eight => ?_⟩
      · rw [sansRequests_ask]
        refine (congrArg (fun y : State => ({ y with rsc.fadePending := false } : State))
          (finalizeLight_sansRequests .done z)).trans ?_
        refine (congrArg (fun y : State => ({ y with
          sif.posted := [], sif.int := false, sif.page := {}, sif.control := {}, sif.fetch := {}, sif.finals := []
          sif.finalBusy := false, ltu := z.ltu.unlit, rsc.fadePending := false } : State)) frame).trans ?_
        have unlit : z.ltu.unlit = { l with ramp := none, light := none, detached := false } := by
          show ({ x.ltu with ramp := none } : Ltu).unlit = _
          rw [ltu, Ltu.unlit, if_neg (by exact (lit ▸ nofun : s.ltu.light ≠ none))]
          rfl
        rw [unlit]
        rfl
      · have done : Ends .control (lightEnds 16 z) s (finalizeLight .done z) := zends.trans (ends_finalizeLight .done z)
        exact results ▸ (done.congr.ask .light).endsBy
      · rw [ask_sif_posted]
        refine (finalizeLight_posted .done z).trans ?_
        rw [show Code.done.num = 16 from rfl, results]
        exact postedBy_congr _ _ posted zends.port
      · refine asked_ask_of_asked .light (asked_congr (asked_finalizeLight .done a zlit ?_ (writers.trans eight)))
        exact zends.port.trans closed
  · by_cases dirty : s.sif.live = true ∧ s.ltu.gammaDirty = true
    · have e : rampTick s = ask .light (placePair s) := by
        rw [rampTick, if_neg (by simp [dirty.1]), none]
        exact if_pos dirty.2
      refine ⟨_, congrArg done e, ?_⟩
      rw [sansStatus_ask, if_pos dirty]
      rfl
    · have e : rampTick s = s := by
        unfold rampTick
        split
        · rfl
        · next live =>
          rw [none]
          exact if_neg fun h => dirty ⟨Bool.eq_true_of_not_eq_false live, h⟩
      refine ⟨_, congrArg done e, ?_⟩
      rw [if_neg dirty]

/-! ### Ramp values, luminance and duties (R135, R137, R138) -/

/-- `d · k / n` to the nearest natural number, a half upwards. -/
def rampShare (d k n : Nat) : Nat := (2 * (d * k) + n) / (2 * n)

theorem roundDiv_up (d k n : Nat) : roundDiv d k n = rampShare d k n := by
  unfold roundDiv rampShare
  rw [if_pos (by positivity)]
  norm_cast

theorem roundDiv_down (d k n : Nat) (way : 1 ≤ n) : roundDiv (-d) k n = -(rampShare d k n : Int) := by
  unfold roundDiv rampShare
  have away : -(d : Int) * k = -((d * k : Nat) : Int) := by push_cast; ring
  rw [away]
  generalize d * k = m
  split
  · next none =>
    have zero : m = 0 := by omega
    subst zero
    have half : n / (2 * n) = 0 := Nat.div_eq_of_lt (by omega)
    have halfInt : ((n : Int) / (2 * n)) = 0 := by exact_mod_cast congrArg (Nat.cast (R := Int)) half
    simp [half, halfInt]
  · norm_cast
    rw [neg_neg]
    norm_cast

theorem rampShare_zero (d n : Nat) (way : 1 ≤ n) : rampShare d 0 n = 0 := Nat.div_eq_of_lt (by omega)

theorem rampShare_last (d n : Nat) (way : 1 ≤ n) : rampShare d n n = d := by
  unfold rampShare
  rw [show 2 * (d * n) + n = n + 2 * n * d by ring, Nat.add_mul_div_left _ _ (by omega), Nat.div_eq_of_lt (by omega), zero_add]

theorem rampShare_le (d k n : Nat) (way : 1 ≤ n) (within : k ≤ n) : rampShare d k n ≤ d :=
  (Nat.div_le_div_right (by gcongr)).trans (rampShare_last d n way).le

theorem rampValue_up {a b : Nat} (up : a ≤ b) (k n : Nat) : rampValue a b k n = a + rampShare (b - a) k n := by
  rw [rampValue, show (b : Int) - a = ((b - a : Nat) : Int) by omega, roundDiv_up]
  omega

theorem rampValue_down {a b : Nat} (down : b ≤ a) (k n : Nat) (way : 1 ≤ n) :
    rampValue a b k n = a - rampShare (a - b) k n := by
  rw [rampValue, show (b : Int) - a = -((a - b : Nat) : Int) by omega, roundDiv_down _ _ _ way]
  omega

theorem rampValue_ends (a b n : Nat) (way : 1 ≤ n) : rampValue a b 0 n = a ∧ rampValue a b n n = b := by
  rcases Nat.le_total a b with up | down
  · rw [rampValue_up up, rampValue_up up, rampShare_zero _ _ way, rampShare_last _ _ way]
    omega
  · rw [rampValue_down down _ _ way, rampValue_down down _ _ way, rampShare_zero _ _ way, rampShare_last _ _ way]
    omega

theorem rampValue_between (a b k n : Nat) (way : 1 ≤ n) (within : k ≤ n) :
    min a b ≤ rampValue a b k n ∧ rampValue a b k n ≤ max a b := by
  rcases Nat.le_total a b with up | down
  · have := rampShare_le (b - a) k n way within
    rw [rampValue_up up]
    omega
  · have := rampShare_le (a - b) k n way within
    rw [rampValue_down down _ _ way]
    omega

theorem dutySplit_sum (y m : Nat) (part : m ≤ 100) : (dutySplit y m).1 + (dutySplit y m).2 = y := by
  have : y * m ≤ y * 100 := Nat.mul_le_mul_left y part
  simp only [dutySplit]
  omega

/-- The luminance code on the way from table entry `i` to the next one, `f` thousandths of it gone. -/
def luminanceAt (g : List Nat) (i f : Nat) : Nat :=
  if i = 32 then g.getD 32 0 else g.getD i 0 + ((g.getD (i + 1) 0 - g.getD i 0) * f + 500) / 1000

theorem luminance_eq (g : List Nat) (v : Nat) : luminance g v = luminanceAt g (v * 32 / 1000) (v * 32 % 1000) := rfl

theorem le_luminanceAt (g : List Nat) (i f : Nat) : g.getD i 0 ≤ luminanceAt g i f := by
  unfold luminanceAt
  split
  · next last => rw [last]
  · exact Nat.le_add_right _ _

theorem luminanceAt_mono (g : List Nat) (i : Nat) {f h : Nat} (le : f ≤ h) : luminanceAt g i f ≤ luminanceAt g i h := by
  unfold luminanceAt
  split
  · exact Nat.le_refl _
  · gcongr

section
variable {g : List Nat} (rises : ∀ i, i < 32 → g.getD i 0 ≤ g.getD (i + 1) 0)
include rises

theorem table_mono {i j : Nat} (le : i ≤ j) (inside : j ≤ 32) : g.getD i 0 ≤ g.getD j 0 := by
  induction j, le using Nat.le_induction with
  | base => exact Nat.le_refl _
  | succ j _ ih => exact (ih (by omega)).trans (rises j (by omega))

theorem luminanceAt_le {i f : Nat} (inside : i < 32) (part : f < 1000) : luminanceAt g i f ≤ g.getD (i + 1) 0 := by
  have up := rises i inside
  rw [luminanceAt, if_neg (by omega)]
  generalize g.getD i 0 = a at *
  generalize g.getD (i + 1) 0 = b at *
  have : (b - a) * f ≤ (b - a) * 999 := Nat.mul_le_mul_left _ (by omega)
  omega

theorem luminance_mono {v w : Nat} (le : v ≤ w) (most : w ≤ 1000) : luminance g v ≤ luminance g w := by
  rw [luminance_eq, luminance_eq]
  rcases Nat.lt_or_eq_of_le (show v * 32 / 1000 ≤ w * 32 / 1000 by omega) with next | same
  · calc luminanceAt g (v * 32 / 1000) (v * 32 % 1000)
        ≤ g.getD (v * 32 / 1000 + 1) 0 := luminanceAt_le rises (by omega) (Nat.mod_lt _ (by decide))
      _ ≤ g.getD (w * 32 / 1000) 0 := table_mono rises next (by omega)
      _ ≤ luminanceAt g (w * 32 / 1000) (w * 32 % 1000) := le_luminanceAt g _ _
  · rw [same]
    exact luminanceAt_mono g _ (by omega)

theorem luminance_most (top : g.getD 32 0 ≤ 4095) {w : Nat} (most : w ≤ 1000) : luminance g w ≤ 4095 :=
  (luminance_mono rises most (Nat.le_refl _)).trans top

end

/-! ### The generators (R139, R140) -/

theorem genBegin_eq (d : Nat) : Gen.begin d = if d = 0 then Gen.mk 0 false 4095 else Gen.mk d true (d - 1) := by
  unfold Gen.begin
  split
  · next none => simp [none]
  · next some => simp [Nat.pos_of_ne_zero some]

/-- Settles O49. -/
theorem lightArithmeticAndPhases : Obligations.LightArithmeticAndPhases := by
  refine ⟨rampValue_ends, rampValue_between, dutySplit_sum,
    fun g v w rises top le most => ⟨luminance_mono rises le most, luminance_most rises top most⟩, fun s => ?_⟩
  intro p high low
  have pair : s.ltu.pair.getD (s.ltu.warm.duty, s.ltu.cool.duty) = p := by
    cases e : s.ltu.pair <;> simp only [p, e] <;> rfl
  refine ⟨congrArg Host.Outcome.next ?_, rfl, rfl⟩
  simp only [periodBoundary, pair, genBegin_eq]
  rfl

end Sys2Proof.Machine
end

section
/-! The Panel Supply Sequencer: the idle hold, the rails rising, falling and OFF (section 5.4). -/

set_option Elab.async false

namespace Sys2Proof.Machine

/-- `t` differs from `s` in the Panel Supply Sequencer, the status writers and what they put in the STATION queue alone. -/
def SupplyOnly (s t : State) : Prop := ∀ p : Pss, ({ t with pss := p } : State).sansStatus = ({ s with pss := p } : State).sansStatus

variable {s t u : State}

theorem SupplyOnly.refl (p : Pss) : SupplyOnly s { s with pss := p } := fun _ => rfl

theorem SupplyOnly.trans (h : SupplyOnly s t) (g : SupplyOnly t u) : SupplyOnly s u := fun p => (g p).trans (h p)

theorem supplyOnly_ask (a : Area) : SupplyOnly s (ask a s) := fun p =>
  (congrArg (fun x : State => ({ x with pss := p } : State)) (sansStatus_ask a s) :)

theorem supplyOnly_idleCheck : SupplyOnly s (idleCheck s) := by
  obtain ⟨x, e⟩ := idleCheck_eq s
  rw [e]
  exact SupplyOnly.refl _

theorem allLanesFree_iff (s : State) : allLanesFree s = true ↔ ∀ l ∈ s.upe.lanes, l.state = .free := by
  simp [allLanesFree, Lane.isFree]

theorem someArming_iff (s : State) : someArming s = true ↔ ∃ l ∈ s.upe.lanes, l.state = .arming := by simp [someArming]

/-! ### The rails rise (R97, R98, R99) -/

/-- The idle-hold timer that ON asks for: running while every lane is FREE and the list is empty (R99). -/
def State.idleHeld (s : State) : Timer :=
  if (∀ l ∈ s.upe.lanes, l.state = .free) ∧ s.upe.list = [] then
    (if s.pss.idleTimer = none then some ⟨s.partTime, s.cfg.idleHold⟩ else s.pss.idleTimer)
  else none

theorem idleCheck_on (on : s.pss.rail = .on) : idleCheck s = { s with pss.idleTimer := s.idleHeld } := by
  have quiet : (allLanesFree s && s.upe.list.isEmpty) = true ↔ (∀ l ∈ s.upe.lanes, l.state = .free) ∧ s.upe.list = [] := by
    rw [Bool.and_eq_true, allLanesFree_iff, List.isEmpty_iff]
  unfold idleCheck State.idleHeld
  rw [if_pos on]
  by_cases h : (allLanesFree s && s.upe.list.isEmpty) = true
  · rw [if_pos h, if_pos (quiet.mp h)]
    split
    · rfl
    · rfl
  · rw [if_neg h, if_neg fun q => h (quiet.mpr q)]

theorem railsOn_pss (s : State) :
    (railsOn s).pss = { s.pss with rail := .on, riseTimer := none, idleTimer := s.idleHeld } := by
  rw [railsOn, idleCheck_on (by rw [ask_pss])]
  simp only [ask_pss, State.idleHeld, ask_upe, ask_partTime, State.cfg, ask_settings]

theorem supplyOnly_railsOn : SupplyOnly s (railsOn s) :=
  ((SupplyOnly.refl _).trans (supplyOnly_ask _)).trans supplyOnly_idleCheck

/-- RISING runs its timer for 20 ms; RAIL_GOOD already asserted makes it ON (R97, R98). -/
theorem enterRising_pss (s : State) : (enterRising s).pss =
    if s.pss.railGood = true then { s.pss with rail := .on, riseTimer := none, idleTimer := s.idleHeld }
    else { s.pss with rail := .rising, riseTimer := some ⟨s.partTime, 20⟩ } := by
  unfold enterRising
  dsimp only
  rw [ask_pss]
  split
  · rw [railsOn_pss]
    simp only [ask_pss, State.idleHeld, ask_upe, ask_partTime, State.cfg, ask_settings]
  · rw [ask_pss]
    rfl

theorem supplyOnly_enterRising : SupplyOnly s (enterRising s) := by
  have rising : SupplyOnly s (ask .panel { s with pss.rail := .rising, pss.riseTimer := s.timer 20 }) :=
    (SupplyOnly.refl _).trans (supplyOnly_ask _)
  unfold enterRising
  dsimp only
  split
  · exact rising.trans supplyOnly_railsOn
  · exact rising

/-- OFF, or RISING at once while a lane is ARMING (R97, R101). -/
theorem enterOff_eq (s : State) : enterOff s =
    if someArming s = true then enterRising (ask .panel { s with pss.rail := .off }) else ask .panel { s with pss.rail := .off } := by
  unfold enterOff railsRise
  simp only [ask_pss, true_and, someArming, ask_upe]
  rfl

/-- What the end of FALLING or FAULT makes of the supply: RISING or ON with a lane ARMING, else OFF (R97, R98, R101, R102). -/
def LeavesFall (s t : State) : Prop :=
  (¬(∃ l ∈ s.upe.lanes, l.state = .arming) → t.pss = { s.pss with rail := .off }) ∧
  ((∃ l ∈ s.upe.lanes, l.state = .arming) → s.pss.railGood = false →
    t.pss = { s.pss with rail := .rising, riseTimer := some ⟨s.partTime, 20⟩ }) ∧
  ((∃ l ∈ s.upe.lanes, l.state = .arming) → s.pss.railGood = true →
    t.pss = { s.pss with rail := .on, riseTimer := none, idleTimer := s.idleHeld }) ∧
  SupplyOnly s t

theorem leavesFall_rising (arming : ∃ l ∈ s.upe.lanes, l.state = .arming) : LeavesFall s (enterRising s) := by
  refine ⟨fun none => absurd arming none, fun _ bad => ?_, fun _ good => ?_, supplyOnly_enterRising⟩
  · rw [enterRising_pss, if_neg (by simp [bad])]
  · rw [enterRising_pss, if_pos good]

theorem leavesFall_off (s : State) : LeavesFall s (enterOff s) := by
  have off : SupplyOnly s (ask .panel { s with pss.rail := .off }) := (SupplyOnly.refl _).trans (supplyOnly_ask _)
  rw [enterOff_eq]
  by_cases arming : someArming s = true
  · rw [if_pos arming]
    have some := (someArming_iff s).mp arming
    refine ⟨fun none => absurd some none, fun _ bad => ?_, fun _ good => ?_, off.trans supplyOnly_enterRising⟩
    · rw [enterRising_pss, ask_pss, if_neg (by simp [bad]), ask_partTime]
    · rw [enterRising_pss, ask_pss, if_pos good]
      simp only [State.idleHeld, ask_pss, ask_upe, ask_partTime, State.cfg, ask_settings]
  · rw [if_neg arming]
    exact ⟨fun _ => ask_pss _ _, fun some => absurd ((someArming_iff s).mpr some) arming,
      fun some => absurd ((someArming_iff s).mpr some) arming, off⟩

/-- The end of FALLING or FAULT after a change `p` of the supply's timers. -/
theorem LeavesFall.rails {p : Pss} (h : LeavesFall { s with pss := p } t) (good : p.railGood = s.pss.railGood) :
    (let arming := ∃ l ∈ s.upe.lanes, l.state = .arming
     (¬arming → t.pss.rail = .off ∧ railEn t = false) ∧
     (arming → s.pss.railGood = false → t.pss.rail = .rising ∧ railEn t = true ∧ t.pss.riseTimer = some ⟨s.partTime, 20⟩) ∧
     (arming → s.pss.railGood = true → t.pss.rail = .on ∧ railEn t = true ∧ t.pss.riseTimer = none)) ∧
    t.pss.fallTimer = p.fallTimer ∧ t.pss.holdTimer = p.holdTimer ∧ t.pss.history = p.history ∧
    ({ t with pss := s.pss } : State).sansStatus = s.sansStatus := by
  obtain ⟨off, rising, on, frame⟩ := h
  refine ⟨⟨fun none => ?_, fun some bad => ?_, fun some ok => ?_⟩, ?_⟩
  · simp [off none, railEn]
  · simp [rising some (good.trans bad), railEn]
  · simp [on some (good.trans ok), railEn]
  · have timers : t.pss.fallTimer = p.fallTimer ∧ t.pss.holdTimer = p.holdTimer ∧ t.pss.history = p.history := by
      by_cases some : ∃ l ∈ s.upe.lanes, l.state = .arming
      · cases good : p.railGood with
        | false => simp [rising some good]
        | true => simp [on some good]
      · simp [off some]
    obtain ⟨fall, hold, history⟩ := timers
    exact ⟨fall, hold, history, frame s.pss⟩

/-- A running frame ends at once: what stands beside the Frame Scanner and the port (R99). -/
theorem stopFrame_eq (s : State) : ∃ m f, m.stationQueue = s.mpt.stationQueue ∧ f.frame = .still ∧
    stopFrame s = { s with mpt := m, fsc := f } := by
  unfold stopFrame
  split
  · next still => exact ⟨s.mpt, s.fsc, rfl, still, rfl⟩
  · obtain ⟨m, queue, e⟩ := giveUpBurst_eq .scan { s with
      fsc.frame := .still, fsc.line := 0, fsc.inLine := false, fsc.held := none, fsc.laneSet := []
      fsc.slots := [], fsc.drive := none }
    exact ⟨m, _, queue, rfl, e⟩

/-- Settles O40. -/
theorem railsFollowPinAndTimers : Obligations.RailsFollowPinAndTimers := by
  refine ⟨fun s => ?_, fun s => ⟨fun notOn => ?_, fun notRising => ?_⟩, fun s on runs => ?_, fun c s h => ?_⟩
  · by_cases rising : s.pss.rail = .rising
    · have e : goodAsserted s = railsOn { s with pss.railGood := true } := if_pos rising
      have pss := railsOn_pss { s with pss.railGood := true }
      refine ⟨_, congrArg done e, by rw [pss], fun _ => ?_, fun other => absurd rising other⟩
      refine ⟨by rw [pss], by rw [pss], by rw [railEn, pss], by rw [pss]; rfl, ?_⟩
      exact ((SupplyOnly.refl _).trans supplyOnly_railsOn) s.pss
    · have e : goodAsserted s = { s with pss.railGood := true } := if_neg rising
      exact ⟨_, congrArg done e, rfl, fun yes => absurd yes rising, fun _ => rfl⟩
  · exact congrArg done (if_neg notOn)
  · exact congrArg done (if_neg fun h => notRising h.1)
  · obtain ⟨m, f, -, still, e⟩ := stopFrame_eq
      (ask .panel { s with pss.rail := .falling, pss.idleTimer := none, pss.fallTimer := s.timer 5 })
    have falls : idleExpiry s = _ := (if_pos ⟨on, runs⟩).trans e
    refine ⟨_, congrArg done falls, ?_, ?_, still, ?_, ?_, ?_, ?_⟩
    · exact ask_pss _ _
    · rw [railEn]
      dsimp only
      rw [ask_pss]
    · exact ask_upe _ _
    · exact ask_mem _ _
    · exact ask_rsc _ _
    · exact ask_sif_posted _ _
  · rcases h with ⟨rfl, falling, runs⟩ | ⟨rfl, faulted, runs⟩
    · obtain ⟨rails, fall, -, history, frame⟩ := LeavesFall.rails (p := { s.pss with fallTimer := none }) (leavesFall_off _) rfl
      exact ⟨_, congrArg done (if_pos ⟨falling, runs⟩), rails, fun _ => fall, nofun, history, frame⟩
    · let s1 : State := { s with pss.holdTimer := none }
      have e : holdExpiry s = if someArming s1 then enterRising s1 else enterOff s1 := if_pos ⟨faulted, runs⟩
      have leaves : LeavesFall s1 (holdExpiry s) := by
        rw [e]
        split
        · next arming => exact leavesFall_rising ((someArming_iff s1).mp arming)
        · exact leavesFall_off s1
      obtain ⟨rails, -, hold, history, frame⟩ := LeavesFall.rails (p := { s.pss with holdTimer := none }) leaves rfl
      exact ⟨_, rfl, rails, nofun, fun _ => hold, history, frame⟩

end Sys2Proof.Machine
end

section
/-! The receiver of the book download channel: frames, LSEL, and the link error counters (sections 8.2, 8.3 and 8.4). -/

set_option Elab.async false

namespace Sys2Proof.Machine

/-! ### Link error counters (R155) -/

/-- The link error counters with one more of number `k`, up to 65535. -/
def linkCounted (k : Nat) (l : List Half) : List Half := if l.getD k 0 = 65535 then l else l.modify k (· + 1)

theorem countLink_sansPosts (c : LinkCounter) (s : State) :
    (countLink c s).sansPosts = ({ s with dlc.counters := linkCounted c.num s.dlc.counters } : State).sansPosts := by
  unfold countLink linkCounted
  split
  · rfl
  · dsimp only
    split
    · rw [sansPosts_post, sansPosts_ask]
    · rw [sansPosts_ask]

/-- LINK is posted with a counted error when nothing of LINK is outstanding (R155). -/
theorem countLink_posted (c : LinkCounter) (s : State) (below : (s.dlc.counters.getD c.num 0).toNat < 65535) :
    (countLink c s).sif.posted = if s.sif.posted.getD 11 0 = s.sif.acked.getD 11 0 then s.postedOnce .link else s.sif.posted := by
  have room : s.dlc.counters.getD c.num 0 ≠ 65535 := fun e => by rw [e] at below; exact absurd below (by decide)
  have counts (t : State) : nothingOutstanding .link (ask .link t) = true ↔ t.sif.posted.getD 11 0 = t.sif.acked.getD 11 0 := by
    rw [nothingOutstanding, ask_sif_posted, ask_sif_acked, beq_iff_eq]
    rfl
  unfold countLink
  rw [if_neg room]
  dsimp only
  rw [ite_congr (propext (counts _)) (fun _ => rfl) (fun _ => rfl)]
  split
  · rw [post_sif_posted, ask_sif_posted]
    rfl
  · rw [ask_sif_posted]

theorem enterHunt_eq (s : State) :
    enterHunt s = { s with dlc.recv := .hunt 0, dlc.markers := (s.cfg.marker0, s.cfg.marker1) } := rfl

/-! ### LSEL (R153) -/

/-- Settles O51. -/
theorem linkSelectIsFollowed : Obligations.LinkSelectIsFollowed := by
  refine ⟨fun s bytes idle => ?_, fun s runs => ?_⟩
  · have stopped : ¬receiverRuns s = true := by
      unfold receiverRuns
      rcases idle with h | h <;> simp [h]
    exact ⟨congrArg done (if_neg stopped), congrArg done (if_neg stopped)⟩
  · intro quiet counted
    have e : lselOff s = match s.dlc.recv with
      | .header _ _ | .payload _ _ _ | .trailer _ _ _ _ => countLink .framing quiet
      | .discard _ => quiet
      | .hunt _ => { s with dlc.recv := .hunt 0 } := if_pos runs
    have drops (h : lselOff s = countLink .framing quiet) : counted :=
      ⟨_, congrArg done h, countLink_sansPosts .framing quiet⟩
    cases recv : s.dlc.recv with
    | hunt n => exact congrArg done (by rw [e, recv])
    | discard n => exact congrArg done (by rw [e, recv])
    | header crc got => exact drops (by rw [e, recv])
    | payload crc h got => exact drops (by rw [e, recv])
    | trailer crc h p got => exact drops (by rw [e, recv])

/-! ### A frame, part by part (R151, R152) -/

/-- The state with its receiver in a state. -/
def State.receiving (s : State) (r : Recv) : State := { s with dlc.recv := r }

theorem receiving_receiving (s : State) (q r : Recv) : (s.receiving q).receiving r = s.receiving r := rfl

/-- Bytes short of a part's end are collected. -/
theorem foldl_collect {f : List Byte → State} {n : Nat}
    (one : ∀ got b, got.length + 1 < n → recvByte (f got) b = f (got ++ [b])) (l got : List Byte)
    (short : got.length + l.length < n) : l.foldl recvByte (f got) = f (got ++ l) := by
  induction l generalizing got with
  | nil => simp
  | cons b l ih =>
    simp only [List.length_cons] at short
    rw [List.foldl_cons, one got b (by omega), ih (got ++ [b]) (by simp only [List.length_append, List.length_singleton]; omega)]
    simp

/-- A part of `n` bytes is collected up to its last byte, which leads on to `last`. -/
theorem foldl_part {f : List Byte → State} {last : List Byte → State} {n : Nat}
    (one : ∀ got b, got.length + 1 < n → recvByte (f got) b = f (got ++ [b]))
    (ends : ∀ got b, got.length + 1 = n → recvByte (f got) b = last (got ++ [b])) (l : List Byte) (whole : l.length = n)
    (some : 1 ≤ n) : l.foldl recvByte (f []) = last l := by
  obtain ⟨init, b, rfl⟩ : ∃ init b, l = init ++ [b] := by
    rcases List.eq_nil_or_concat l with rfl | ⟨init, b, h⟩
    · simp at whole; omega
    · exact ⟨init, b, by simpa using h⟩
  have length : init.length + 1 = n := by simpa using whole
  rw [List.foldl_append, foldl_collect one init [] (by simp; omega), List.nil_append]
  exact ends init b length

theorem crcBytes_append (c : Word) (l m : List Byte) : crcBytes c (l ++ m) = crcBytes (crcBytes c l) m := List.foldl_append

theorem recv_markers (s : State) (hunts : s.dlc.recv = .hunt 0) :
    [s.dlc.markers.1, s.dlc.markers.2].foldl recvByte s = s.receiving (.header crcInit []) := by
  have first : recvByte s s.dlc.markers.1 = s.receiving (.hunt 1) := by
    rw [recvByte, hunts]
    exact if_pos rfl
  rw [List.foldl_cons, first]
  exact if_pos rfl

theorem recv_header (s : State) (hdr : List Byte) (eight : hdr.length = 8) :
    hdr.foldl recvByte (s.receiving (.header crcInit [])) =
      judgeHeader (crcBytes crcInit hdr) (parseChunkHeader hdr) (s.receiving (.hunt 0)) := by
  refine foldl_part (f := fun got => s.receiving (.header (crcBytes crcInit got) got)) (n := 8)
    (last := fun l => judgeHeader (crcBytes crcInit l) (parseChunkHeader l) (s.receiving (.hunt 0)))
    (fun got b short => ?_) (fun got b last => ?_) hdr eight (by decide)
  · rw [crcBytes_append]
    exact if_pos short
  · rw [crcBytes_append]
    exact if_neg (by omega)

theorem recv_payload (s : State) (crc : Word) (h : ChunkHeader) (payload : List Byte) (length : payload.length = h.len)
    (some : 1 ≤ h.len) :
    payload.foldl recvByte (s.receiving (.payload crc h [])) = s.receiving (.trailer (crcBytes crc payload) h payload []) := by
  refine foldl_part (f := fun got => s.receiving (.payload (crcBytes crc got) h got)) (n := h.len)
    (last := fun l => s.receiving (.trailer (crcBytes crc l) h l []))
    (fun got b short => ?_) (fun got b last => ?_) payload length some
  · rw [crcBytes_append]
    exact if_pos short
  · rw [crcBytes_append]
    exact if_neg (by omega)

theorem recv_trailer (s : State) (crc : Word) (h : ChunkHeader) (payload field : List Byte) (four : field.length = 4) :
    field.foldl recvByte (s.receiving (.trailer crc h payload [])) =
      judgeFrame crc h payload field (s.receiving (.trailer crc h payload (field.take 3))) := by
  refine foldl_part (f := fun got => s.receiving (.trailer crc h payload got)) (n := 4)
    (last := fun l => judgeFrame crc h payload l (s.receiving (.trailer crc h payload (l.take 3))))
    (fun got b short => if_pos short) (fun got b last => ?_) field four (by decide)
  have head : (got ++ [b]).take 3 = got := by rw [List.take_append_of_le_length (by omega), List.take_of_length_le (by omega)]
  rw [head]
  exact if_neg (by omega)

theorem recv_discard (s : State) (bytes : List Byte) (k : Nat) (short : bytes.length < k) :
    bytes.foldl recvByte (s.receiving (.discard k)) = s.receiving (.discard (k - bytes.length)) := by
  refine (foldl_collect (f := fun got => s.receiving (.discard (k - got.length))) (n := k) (fun got b within => ?_) bytes []
    (by simpa using short)).trans ?_
  · rw [List.length_append]
    exact if_neg (by omega)
  · rfl

theorem recv_discarded (s : State) (bytes : List Byte) (k : Nat) (some : 1 ≤ k) (whole : bytes.length = k) :
    bytes.foldl recvByte (s.receiving (.discard k)) = enterHunt s :=
  foldl_part (f := fun got => s.receiving (.discard (k - got.length))) (n := k) (last := fun _ => enterHunt s)
    (fun got b within => by rw [List.length_append]; exact if_neg (by omega))
    (fun got b last => if_pos (by omega)) bytes whole some

theorem judgeHeader_length (crc : Word) (h : ChunkHeader) (s : State) (bad : h.len = 0 ∨ 1024 < h.len) :
    judgeHeader crc h s = countLink .framing (enterHunt s) := if_pos bad

theorem judgeHeader_full (crc : Word) (h : ChunkHeader) (s : State) (some : 1 ≤ h.len) (most : h.len ≤ 1024)
    (full : freeSpace s < 8 + h.len) :
    judgeHeader crc h s = countLink .overflow (s.receiving (.discard (h.len + 4))) := by
  rw [judgeHeader, if_neg (by omega), if_neg (by rw [ChunkHeader.space]; omega)]
  rfl

/-- A header and a payload that are taken lead to the check of the frame (R151, R152). -/
theorem recv_frame (s : State) (hdr payload field : List Byte) (hunts : s.dlc.recv = .hunt 0) (eight : hdr.length = 8)
    (length : u16 hdr 6 = payload.length) (some : 1 ≤ payload.length) (most : payload.length ≤ 1024)
    (room : 8 + payload.length ≤ freeSpace s) (four : field.length = 4) :
    ([s.dlc.markers.1, s.dlc.markers.2] ++ hdr ++ payload ++ field).foldl recvByte s =
      judgeFrame (crcBytes crcInit (hdr ++ payload)) (parseChunkHeader hdr) payload field
        (s.receiving (.trailer (crcBytes crcInit (hdr ++ payload)) (parseChunkHeader hdr) payload (field.take 3))) := by
  have len : (parseChunkHeader hdr).len = payload.length := length
  have same : s.receiving (.hunt 0) = s := by rw [← hunts]; rfl
  have taken : judgeHeader (crcBytes crcInit hdr) (parseChunkHeader hdr) (s.receiving (.hunt 0)) =
      s.receiving (.payload (crcBytes crcInit hdr) (parseChunkHeader hdr) []) := by
    rw [judgeHeader, if_neg (by omega), if_pos (by rw [same, ChunkHeader.space, len]; exact room)]
    rfl
  rw [List.foldl_append, List.foldl_append, List.foldl_append, recv_markers s hunts, recv_header s hdr eight, taken,
    recv_payload s _ _ payload len.symm (by omega), recv_trailer s _ _ payload field four, crcBytes_append]

theorem u32_lt (l : List Byte) (i : Nat) : u32 l i < 2 ^ 32 := by
  have byte (j : Nat) : u8 l j < 256 := (l.getD j 0).isLt
  have h0 := byte i
  have h1 := byte (i + 1)
  have h2 := byte (i + 2)
  have h3 := byte (i + 2 + 1)
  simp only [u32, u16]
  omega

theorem u32_le32 (n : Nat) (h : n < 2 ^ 32) : u32 (le32 n) 0 = n := by
  simp [u32, u16, u8, le32, le16]
  omega

/-- The frame's check holds exactly when the field reads as the CRC-32 of header and payload. -/
theorem field_ok_iff (l field : List Byte) :
    BitVec.ofNat 32 (u32 field 0) = ~~~crcBytes crcInit l ↔ u32 field 0 = (crc32 l).toNat := by
  rw [← BitVec.toNat_inj, BitVec.toNat_ofNat, Nat.mod_eq_of_lt (u32_lt field 0)]
  rfl

theorem receiverRuns_congr {s t : State} (live : t.sif.live = s.sif.live) (rsc : t.rsc = s.rsc) :
    receiverRuns t = receiverRuns s := by rw [receiverRuns, receiverRuns, live, rsc]

@[simp] theorem countLink_runs (c : LinkCounter) (s : State) : receiverRuns (countLink c s) = receiverRuns s :=
  receiverRuns_congr (congrArg (fun t : State => t.sif.live) (countLink_sansPosts c s) :)
    (congrArg State.rsc (countLink_sansPosts c s) :)

theorem judgeHeader_runs (crc : Word) (h : ChunkHeader) (s : State) : receiverRuns (judgeHeader crc h s) = receiverRuns s := by
  unfold judgeHeader
  split
  · rw [countLink_runs]
    rfl
  · split
    · rfl
    · rw [countLink_runs]
      rfl

theorem judgeFrame_runs (crc : Word) (h : ChunkHeader) (payload field : List Byte) (s : State) :
    receiverRuns (judgeFrame crc h payload field s) = receiverRuns s := by
  unfold judgeFrame
  split
  · rfl
  · rw [countLink_runs]
    rfl

theorem recvByte_runs (s : State) (b : Byte) : receiverRuns (recvByte s b) = receiverRuns s := by
  unfold recvByte
  split
  · split <;> rfl
  · split
    · rfl
    · split <;> rfl
  · split
    · rfl
    · exact judgeHeader_runs _ _ _
  · split <;> rfl
  · split
    · rfl
    · exact judgeFrame_runs _ _ _ _ _
  · split <;> rfl

theorem recvBytes_runs (bytes : List Byte) (s : State) (runs : receiverRuns s = true) :
    receiverRuns (bytes.foldl recvByte s) = true := by
  induction bytes generalizing s with
  | nil => exact runs
  | cons b l ih => exact ih _ ((recvByte_runs s b).trans runs)

theorem recvBytes_append (x y : List Byte) (s : State) : recvBytes (x ++ y) s = recvBytes y (recvBytes x s) := by
  unfold recvBytes
  by_cases runs : receiverRuns s = true
  · rw [if_pos runs, if_pos runs, if_pos (recvBytes_runs x s runs), List.foldl_append]
  · rw [if_neg runs, if_neg runs, if_neg runs]

/-- Settles O50: `recv_frame` up to the check of the frame, `recv_header` up to that of the length. -/
theorem framesAreChecked : Obligations.FramesAreChecked := by
  refine ⟨fun s hdr payload runs hunts eight length some most room => ?_,
    fun s hdr payload field runs hunts eight length some most room four wrong below => ?_,
    fun s x y => ⟨_, _, rfl, rfl, congrArg done (recvBytes_append x y s)⟩,
    fun s hdr runs hunts eight => ?_, fun s bytes k runs discards => ⟨fun short => ?_, fun some whole => ?_⟩⟩
  · have four : (le32 (crc32 (hdr ++ payload)).toNat).length = 4 := rfl
    have good := (field_ok_iff (hdr ++ payload) _).mpr (u32_le32 _ (crc32 (hdr ++ payload)).isLt)
    refine congrArg done ((if_pos runs).trans ((recv_frame s hdr payload _ hunts eight length some most room four).trans ?_))
    rw [judgeFrame, if_pos good, ← length]
    rfl
  · have bad := mt (field_ok_iff (hdr ++ payload) field).mp wrong
    have e : recvBytes ([s.dlc.markers.1, s.dlc.markers.2] ++ hdr ++ payload ++ field) s = countLink .crc (enterHunt s) := by
      refine (if_pos runs).trans ((recv_frame s hdr payload field hunts eight length some most room four).trans ?_)
      rw [judgeFrame, if_neg bad]
      rfl
    have room : s.dlc.counters.getD 1 0 ≠ 65535 := fun e => by rw [e] at below; exact absurd below (by decide)
    refine ⟨_, congrArg done e, ?_, countLink_posted .crc (enterHunt s) below⟩
    rw [countLink_sansPosts, show linkCounted LinkCounter.crc.num (enterHunt s).dlc.counters = _ from if_neg room]
    rfl
  · intro n counted
    have same : s.receiving (.hunt 0) = s := by rw [← hunts]; rfl
    have e : recvBytes ([s.dlc.markers.1, s.dlc.markers.2] ++ hdr) s =
        judgeHeader (crcBytes crcInit hdr) (parseChunkHeader hdr) s := by
      refine (if_pos runs).trans ?_
      rw [List.foldl_append, recv_markers s hunts, recv_header s hdr eight, same]
    refine ⟨_, congrArg done e, fun bad => ?_, fun some most full => ?_⟩
    · rw [judgeHeader_length _ (parseChunkHeader hdr) s bad, countLink_sansPosts]
      rfl
    · rw [judgeHeader_full _ (parseChunkHeader hdr) s some most full, countLink_sansPosts]
      rfl
  · have same : s.receiving (.discard k) = s := by rw [← discards]; rfl
    exact congrArg done ((if_pos runs).trans (same ▸ recv_discard s bytes k short))
  · have same : s.receiving (.discard k) = s := by rw [← discards]; rfl
    exact congrArg done ((if_pos runs).trans (same ▸ recv_discarded s bytes k some whole))

end Sys2Proof.Machine
end

section
/-! The dispatch of chunks, the verify pass and the download stop (sections 8.6 to 8.8). -/

set_option Elab.async false

namespace Sys2Proof.Machine

/-! ### A slot whose OPEN ends -/

theorem setSlot_outside {s : State} {i : Nat} (outside : s.dlc.slots.length ≤ i) (f : FileSlot) : s.setSlot i f = s := by
  simp [State.setSlot, List.set_eq_of_length_le outside]

/-- A slot replaced twice, the second time by what follows from the first. -/
theorem setSlot_setSlot (s : State) (i : Nat) (f : FileSlot) (g : FileSlot → FileSlot) :
    (s.setSlot i f).setSlot i (g ((s.setSlot i f).slot i)) = s.setSlot i (g f) := by
  by_cases inside : i < s.dlc.slots.length
  · rw [setSlot_slot inside]
    simp [State.setSlot, List.set_set]
  · simp only [setSlot_outside (Nat.not_lt.mp inside)]

/-- The OPEN of a slot that takes the value `g` ends with a code: it is finalized, FILE posted, and the slot's progress record
written (R163, R167). -/
def endOpen (i : Nat) (record : Nat) (g : FileSlot) (code : Code) (s : State) : State :=
  askProgress i (post .file (finalize .fetch record (openResult 0) code (s.setSlot i g)))

theorem corruptSlot_eq (i : Nat) (computed : Word) (code : Code) (s : State) : corruptSlot i computed code s =
    endOpen i (s.slot i).record { s.slot i with state := .corrupt, timer := none, computed := computed } code s := rfl

/-- What the end of a slot's OPEN shows, the slot taking the value `g`. -/
def OpenEnded (i record : Nat) (g : FileSlot) (code : Nat) (s t : State) : Prop :=
  (s.sif.writers.length = 8 → t.asked (.progress i)) ∧
  endsBy .fetch [(record, [(7, [0])], code)] s t ∧ t.sif.posted = (s.postedBy .fetch 1).modify 6 (· + 1) ∧
  t.sansRequests = ({ s with dlc.slots := s.dlc.slots.set i g } : State).sansRequests

theorem endOpen_ended (i record : Nat) (g : FileSlot) (code : Code) (s : State) :
    OpenEnded i record g code.num s (endOpen i record g code s) := by
  have ends : Ends .fetch [(record, openResult 0, code.num)] s (finalize .fetch record (openResult 0) code (s.setSlot i g)) :=
    (Ends.refl.congr (u := s.setSlot i g)).finalize record _ code
  refine ⟨fun eight => asked_ask _ ?_, ((ends.post .file).ask (.progress i)).endsBy, ?_, ?_⟩
  · rw [post_writers_length, finalize_writers_length]
    exact eight
  · rw [endOpen, askProgress, ask_sif_posted, post_sif_posted, finalize_postedBy]
    rfl
  · rw [endOpen, askProgress, sansRequests_ask, sansRequests_post, sansRequests_finalize]
    rfl

/-! ### Dispatch (R160, R161) -/

/-- A chunk that leaves the FIFO behind a counted error. -/
theorem dropChunk_counted (c : LinkCounter) (s : State) : (dropChunk (countLink c s)).sansPosts = ({ s with
    dlc.fifo := s.dlc.fifo.tail, dlc.counters := linkCounted c.num s.dlc.counters } : State).sansPosts :=
  (congrArg (fun t : State => ({ t with dlc.fifo := t.dlc.fifo.tail } : State)) (countLink_sansPosts c s)).trans rfl

/-- A chunk accepted behind a counted error (R161, R162). -/
theorem dropChunk_accepted (i : Nat) (c : LinkCounter) (s : State) :
    (dropChunk (acceptChunk i (countLink c s))).sansPosts = ({ s with
      dlc.fifo := s.dlc.fifo.tail, dlc.counters := linkCounted c.num s.dlc.counters
      dlc.slots := s.dlc.slots.set i { s.slot i with
        state := .opened, stamp := s.partTime, timer := some ⟨s.partTime, s.cfg.stallLimit * 1000⟩ } } : State).sansPosts := by
  have asked : (dropChunk (acceptChunk i (countLink c s))).sansPosts =
      (dropChunk ((countLink c s).setSlot i { (countLink c s).slot i with
        state := .opened, stamp := (countLink c s).partTime, timer := (countLink c s).stallTimer })).sansPosts :=
    (congrArg (fun t : State => ({ t with dlc.fifo := t.dlc.fifo.tail } : State)) (sansPosts_ask (.progress i) _) :)
  rw [asked]
  exact (congrArg (fun t : State => ({ t with
    dlc.fifo := t.dlc.fifo.tail
    dlc.slots := t.dlc.slots.set i { t.slot i with
      state := .opened, stamp := t.partTime, timer := some ⟨t.partTime, t.cfg.stallLimit * 1000⟩ } } : State))
    (countLink_sansPosts c s) :)

section
variable {s : State} {c : Chunk} {q : List Chunk}

theorem dispatchBegin_unknown (idle : s.dlc.dispatch = none) (fifo : s.dlc.fifo = c :: q) (none : slotOf c.hdr.file s = none) :
    dispatchBegin s = if claimedFile c.hdr.file s then s else dropChunk (countLink .unknown s) := by
  rw [dispatchBegin, idle, fifo]
  dsimp only
  rw [none]

theorem dispatchBegin_known {i : Nat} (idle : s.dlc.dispatch = none) (fifo : s.dlc.fifo = c :: q)
    (known : slotOf c.hdr.file s = some i) : dispatchBegin s =
      if (s.slot i).len < c.hdr.offset + c.hdr.len then dropChunk (countLink .range s)
      else if (s.slot i).state = .opened ∨ (s.slot i).state = .stalled then judgeMap i c s
      else dropChunk (countLink .duplicate s) := by
  rw [dispatchBegin, idle, fifo]
  dsimp only
  rw [known]
  dsimp only
  split
  · rfl
  · cases h : (s.slot i).state <;> rfl

end

theorem judgeMap_fragment {i : Nat} {c : Chunk} {s : State} (more : (s.slot i).extents.length + 1 =
    ((s.slot i).extents.filter (touches c.hdr.offset (c.hdr.offset + c.hdr.len))).length + 17) :
    judgeMap i c s = dropChunk (countLink .fragment s) := if_pos (by omega)

theorem judgeMap_fits {i : Nat} {c : Chunk} {s : State} (fits : (s.slot i).extents.length + 1 <
    ((s.slot i).extents.filter (touches c.hdr.offset (c.hdr.offset + c.hdr.len))).length + 17) :
    judgeMap i c s =
      if uncovered (s.slot i).extents c.hdr.offset (c.hdr.offset + c.hdr.len) = [] then
        dropChunk (acceptChunk i (countLink .duplicate s))
      else { s with dlc.dispatch := some ⟨i, c,
        (uncovered (s.slot i).extents c.hdr.offset (c.hdr.offset + c.hdr.len)).flatMap fun p =>
          writeBlocks ((s.slot i).dest + p.1) ((c.payload.drop (p.1 - c.hdr.offset)).take (p.2 - p.1)),
        extentSum (uncovered (s.slot i).extents c.hdr.offset (c.hdr.offset + c.hdr.len))⟩ } := by
  rw [judgeMap]
  dsimp only
  rw [if_neg (by omega)]
  exact ite_congr (propext List.isEmpty_iff) (fun _ => rfl) (fun _ => rfl)

/-! ### Payload writes (R162, R163) -/

/-- The last payload write places the chunk: the map takes it, and the slot is OPEN, or VERIFYING when the map is whole. -/
theorem placeChunk_sansStatus (d : Dispatch) (s : State) :
    let f := s.slot d.slot
    let m := mergeExtent f.extents d.chunk.hdr.offset (d.chunk.hdr.offset + d.chunk.hdr.len)
    let whole := m = [(0, f.len)]
    (placeChunk d s).sansStatus = ({ s with
      dlc.dispatch := none, dlc.fifo := s.dlc.fifo.tail
      dlc.slots := s.dlc.slots.set d.slot { f with
        state := if whole then .verifying else .opened, extents := m, received := f.received + d.fresh, stamp := s.partTime
        timer := if whole then none else some ⟨s.partTime, s.cfg.stallLimit * 1000⟩ }
      dlc.verifyQueue := if whole then s.dlc.verifyQueue ++ [d.slot] else s.dlc.verifyQueue } : State).sansStatus ∧
    (s.sif.writers.length = 8 → (placeChunk d s).asked (.progress d.slot)) := by
  intro f m whole
  let dropped : State := { s with dlc.dispatch := none, dlc.fifo := s.dlc.fifo.tail }
  let g : FileSlot := { f with extents := m, received := f.received + d.fresh }
  let opened : FileSlot := { g with state := .opened, stamp := s.partTime, timer := some ⟨s.partTime, s.cfg.stallLimit * 1000⟩ }
  have accepted : acceptChunk d.slot (dropped.setSlot d.slot g) = ask (.progress d.slot) (dropped.setSlot d.slot opened) :=
    congrArg (ask (.progress d.slot)) (setSlot_setSlot dropped d.slot g fun x =>
      { x with state := .opened, stamp := s.partTime, timer := some ⟨s.partTime, s.cfg.stallLimit * 1000⟩ })
  have e : placeChunk d s = if whole then
      (fun t : State => ({ t.setSlot d.slot { t.slot d.slot with state := .verifying, timer := none } with
        dlc.verifyQueue := t.dlc.verifyQueue ++ [d.slot] } : State)) (ask (.progress d.slot) (dropped.setSlot d.slot opened))
      else ask (.progress d.slot) (dropped.setSlot d.slot opened) := by
    rw [← accepted]
    rfl
  have asked := fun eight : s.sif.writers.length = 8 =>
    asked_ask (.progress d.slot) (s := dropped.setSlot d.slot opened) eight
  rw [e]
  by_cases full : whole
  · simp only [if_pos full]
    refine ⟨?_, fun eight => asked_congr (asked eight)⟩
    refine (congrArg (fun t : State => ({ t.setSlot d.slot { t.slot d.slot with state := .verifying, timer := none } with
        dlc.verifyQueue := t.dlc.verifyQueue ++ [d.slot] } : State)) (sansStatus_ask (.progress d.slot)
          (dropped.setSlot d.slot opened)) : ).trans ?_
    have twice := setSlot_setSlot dropped d.slot opened fun x => { x with state := .verifying, timer := none }
    exact (congrArg (fun t : State => ({ t with dlc.verifyQueue := s.dlc.verifyQueue ++ [d.slot] } : State).sansStatus) twice :)
  · simp only [if_neg full]
    exact ⟨sansStatus_ask _ _, asked⟩

/-- Settles O52: `dispatchBegin` by the slot and then by the map, and the end of a payload write. -/
theorem chunksAreDispatched : Obligations.ChunksAreDispatched := by
  refine ⟨fun s c q idle fifo => ?_, fun s c q i idle fifo known within writing => ?_, fun x data s b d user live writes => ?_⟩
  · intro dropped
    have drops (l : LinkCounter) (e : dispatchBegin s = dropChunk (countLink l s)) : dropped l.num := by
      refine ⟨_, congrArg done e, ?_⟩
      rw [dropChunk_counted, fifo]
      rfl
    refine ⟨fun none claimed => congrArg done ?_, fun none unclaimed => drops .unknown ?_, fun i known past => drops .range ?_,
      fun i known within settled => drops .duplicate ?_⟩
    · rw [dispatchBegin_unknown idle fifo none, if_pos claimed]
    · rw [dispatchBegin_unknown idle fifo none, if_neg (by simp [unclaimed])]
    · rw [dispatchBegin_known idle fifo known, if_pos past]
    · rw [dispatchBegin_known idle fifo known, if_neg (Nat.not_lt.mpr within), if_neg]
      rcases settled with e | e | e <;> rw [e] <;> decide
  · intro f a b n count
    have judged : dispatchBegin s = judgeMap i c s := by
      rw [dispatchBegin_known idle fifo known, if_neg (Nat.not_lt.mpr within), if_pos writing]
    have next : s.dlc.fifo.tail = q := by rw [fifo]; rfl
    refine ⟨fun more => ⟨_, congrArg done (judged.trans (judgeMap_fragment more)), ?_⟩,
      fun fits covered => ⟨_, congrArg done (judged.trans ((judgeMap_fits fits).trans (if_pos covered))), ?_⟩,
      fun fits some => congrArg done (judged.trans ((judgeMap_fits fits).trans (if_neg some)))⟩
    · rw [dropChunk_counted, next]
      rfl
    · rw [dropChunk_accepted, next]
      rfl
  · intro t f m whole
    have okay (h : x = .okay) : t = if d.out.isEmpty then placeChunk d s else s := by
      show complete b x data s = _
      rw [h, complete_okay live, user, userOkay, dispatchNext, writes]
    refine ⟨fun h left => ?_, fun h last => ?_, fun bad => ?_⟩
    · rw [okay h, if_neg (by simpa using left)]
    · have e : t = placeChunk d s := by rw [okay h, if_pos (by simp [last])]
      obtain ⟨frame, asked⟩ := placeChunk_sansStatus d s
      exact ⟨fun eight => e ▸ asked eight, e ▸ frame⟩
    · have e : t = corruptSlot d.slot (s.slot d.slot).computed x.code (dropChunk { s with dlc.dispatch := none }) := by
        show complete b x data s = _
        rw [complete_fail live bad, user, userFail, dispatchFail, writes]
      have code : x.code.num = if x = .window then 34 else 53 := by cases x <;> rfl
      have ended := endOpen_ended d.slot f.record { f with state := .corrupt, timer := none } x.code
        (dropChunk { s with dlc.dispatch := none })
      rw [code] at ended
      rw [e]
      exact ended

/-! ### The download stop (R169) -/

/-- A slot after the download stop. -/
def FileSlot.stopped (f : FileSlot) : FileSlot :=
  if f.state = .opened ∨ f.state = .stalled then { f with state := .free, timer := none, interrupted := true } else f

/-- The end of a slot's OPEN at the download stop. -/
def FileSlot.stopEnds (f : FileSlot) : List (Nat × List (Nat × List Byte) × Nat) :=
  if f.state = .opened ∨ f.state = .stalled then [(f.record, [(7, [0])], 51)] else []

/-- From `s` to `t` the OPENs `ends` have ended and the slots have become `slots`, and nothing else has changed beside the chains,
the finalizer, the posts and the status writers. -/
structure Interrupted (ends : List (Nat × List (Nat × List Byte) × Nat)) (slots : List FileSlot) (s t : State) : Prop where
  finals : Ends .fetch ends s t
  posted : t.sif.posted = s.postedBy .fetch ends.length
  table  : t.dlc.slots = slots
  frame  : t.sansRequests = ({ s with dlc.slots := slots } : State).sansRequests

theorem Interrupted.trans {s t u : State} {e f : List (Nat × List (Nat × List Byte) × Nat)} {k l : List FileSlot}
    (h : Interrupted e k s t) (g : Interrupted f l t u) : Interrupted (e ++ f) l s u where
  finals := h.finals.trans g.finals
  posted := by rw [g.posted, postedBy_add h.posted h.finals.port, List.length_append]
  table := g.table
  frame := g.frame.trans (congrArg (fun x : State => ({ x with dlc.slots := l } : State)) h.frame :)

theorem interruptSlot_interrupted (s : State) (i : Nat) (inside : i < s.dlc.slots.length) :
    Interrupted (s.slot i).stopEnds (s.dlc.slots.set i (s.slot i).stopped) s (interruptSlot s i) := by
  unfold interruptSlot FileSlot.stopEnds FileSlot.stopped
  dsimp only
  by_cases used : (s.slot i).state = .opened ∨ (s.slot i).state = .stalled
  · simp only [if_pos used]
    have slot : (finalize .fetch (s.slot i).record (openResult 0) .interrupted s).slot i = s.slot i := by
      rw [State.slot, finalize_dlc, State.slot]
    rw [freeSlot_eq, slot]
    refine ⟨((ends_finalize .fetch (s.slot i).record (openResult 0) .interrupted s).congr).ask (.progress i), ?_, ?_, ?_⟩
    · rw [ask_sif_posted]
      exact finalize_postedBy _ _ _ _ _
    · rw [ask_dlc, setSlot_dlc, finalize_dlc]
    · rw [sansRequests_ask]
      refine (congrArg (fun x : State => (x.setSlot i { s.slot i with state := .free, timer := none, interrupted := true }))
        (sansRequests_finalize .fetch (s.slot i).record (openResult 0) .interrupted s) :)
  · simp only [if_neg used]
    have same : s.dlc.slots.set i (s.slot i) = s.dlc.slots := by
      rw [State.slot, List.getD_eq_getElem _ _ inside, List.set_getElem_self]
    rw [same]
    exact ⟨Ends.refl, (postedBy_zero _ _).symm, rfl, rfl⟩

/-- The slots behind those already looked at are interrupted one after another. -/
theorem interruptSlots_interrupted (rest pre : List FileSlot) (s : State) (slots : s.dlc.slots = pre ++ rest) :
    Interrupted (rest.flatMap FileSlot.stopEnds) (pre ++ rest.map FileSlot.stopped) s
      ((List.range' pre.length rest.length).foldl interruptSlot s) := by
  induction rest generalizing pre s with
  | nil => exact ⟨Ends.refl, (postedBy_zero _ _).symm, by simpa using slots, by rw [List.map_nil, ← slots]; rfl⟩
  | cons f rest ih =>
    have slot : s.slot pre.length = f := by simp [State.slot, slots]
    have first := interruptSlot_interrupted s pre.length (by simp [slots])
    have set : s.dlc.slots.set pre.length f.stopped = (pre ++ [f.stopped]) ++ rest := by simp [slots]
    rw [slot, set] at first
    have others := ih (pre ++ [f.stopped]) (interruptSlot s pre.length) first.table
    rw [List.length_append, List.length_singleton] at others
    simpa [List.range'_succ] using first.trans others

theorem stopEnds_flatMap (l : List FileSlot) : l.flatMap FileSlot.stopEnds =
    (l.filter fun f => decide (f.state = .opened ∨ f.state = .stalled)).map fun f => (f.record, [(7, [0])], 51) := by
  induction l with
  | nil => rfl
  | cons f l ih =>
    rw [List.flatMap_cons, ih, List.filter_cons, FileSlot.stopEnds]
    by_cases used : f.state = .opened ∨ f.state = .stalled <;> simp [used]

/-! ### Stall, verify and stop -/

theorem verifyNext_eq {v : Verify} {s : State} (data : List Byte) (passing : s.dlc.verify = some v) : verifyNext data s =
    if v.pos < (s.slot v.slot).len then { s with dlc.verify := some { v with crc := crcBytes v.crc data } }
    else if ~~~crcBytes v.crc data = (s.slot v.slot).crc then
      endOpen v.slot (s.slot v.slot).record { s.slot v.slot with state := .verified, computed := ~~~crcBytes v.crc data } .done
        { s with dlc.verify := none, dlc.verifyQueue := s.dlc.verifyQueue.filter (· != v.slot) }
    else corruptSlot v.slot (~~~crcBytes v.crc data) .corrupt
        { s with dlc.verify := none, dlc.verifyQueue := s.dlc.verifyQueue.filter (· != v.slot) } := by
  rw [verifyNext, passing]
  rfl

/-- Settles O54. -/
theorem slotsStallVerifyAndStop : Obligations.SlotsStallVerifyAndStop := by
  refine ⟨fun i s => ?_, fun s => ⟨fun i q idle queue => congrArg done ?_, fun busy => congrArg done ?_⟩,
    fun x data s b v user live passing => ?_, fun s stopping drained four => ?_⟩
  · intro f
    refine ⟨fun opened runs => ⟨_, congrArg done (if_pos ⟨opened, runs⟩), ?_, ?_⟩, fun idle => congrArg done (if_neg ?_)⟩
    · rw [askProgress, ask_sif_posted, post_sif_posted]
      rfl
    · rw [askProgress, sansPosts_ask, sansPosts_post]
      rfl
    · rintro ⟨opened, runs⟩
      exact idle.elim (· opened) runs
  · rw [verifyBegin, idle, queue]
    rfl
  · unfold verifyBegin
    split
    · next idle queue =>
      rcases busy with h | h
      · exact absurd idle h
      · rw [h] at queue
        exact nomatch queue
    · rfl
  · intro t f crc ended
    let s1 : State := { s with dlc.verify := none, dlc.verifyQueue := s.dlc.verifyQueue.filter (· != v.slot) }
    have okay (h : x = .okay) : t = verifyNext data s := by
      show complete b x data s = _
      rw [h, complete_okay live, user, userOkay]
    have ends {g : FileSlot} {code : Code} (e : t = endOpen v.slot f.record g code s1) : ended g code.num := by
      have h := endOpen_ended v.slot f.record g code s1
      rw [← e] at h
      exact h
    refine ⟨fun h more => ?_, fun h last good => ends (code := .done) ?_, fun h last bad => ends (code := .corrupt) ?_,
      fun bad => ?_⟩
    · rw [okay h, verifyNext_eq data passing, if_pos more]
    · rw [okay h, verifyNext_eq data passing, if_neg (Nat.not_lt.mpr last), if_pos good]
    · rw [okay h, verifyNext_eq data passing, if_neg (Nat.not_lt.mpr last), if_neg bad]
      rfl
    · have code : x.code.num = if x = .window then 34 else 53 := by cases x <;> rfl
      rw [← code]
      refine ends ?_
      show complete b x data s = _
      rw [complete_fail live bad, user, userFail, verifyFail, passing]
      rfl
  · intro inUse ends
    obtain ⟨finals, posted, slots, frame⟩ := interruptSlots_interrupted s.dlc.slots [] s rfl
    rw [stopEnds_flatMap] at finals posted
    rw [four, List.length_nil] at finals posted slots frame
    have e : downloadsStop s = { (List.range 4).foldl interruptSlot s with dlc.stop := .stopped } :=
      if_pos ⟨stopping, drained⟩
    rw [List.range_eq_range'] at e
    generalize (List.range' 0 4).foldl interruptSlot s = u at *
    refine ⟨_, congrArg done e, rfl, slots, finals.congr.endsBy, posted, ?_⟩
    have moved := congrArg (fun x : State => ({ x with dlc.slots := s.dlc.slots, dlc.stop := s.dlc.stop } : State)) frame
    exact moved

end Sys2Proof.Machine
end

section
/-! The Measurement Unit: the supply debounce, the measurement timers, and the ends of conversions (chapter 9). -/

set_option Elab.async false

namespace Sys2Proof.Machine

/-! ### The supply debounce (R180, R181) -/

theorem fallTest_iff (cfg : Settings) (x : Supply) (mv : Nat) : fallTest cfg x mv = true ↔
    (x = .normal ∧ mv < cfg.lowThreshold) ∨ (x = .low ∧ mv < cfg.criticalThreshold) := by
  cases x <;> simp [fallTest]

theorem riseTest_iff (cfg : Settings) (x : Supply) (mv : Nat) : riseTest cfg x mv = true ↔
    (x = .critical ∧ cfg.criticalThreshold + cfg.hysteresis ≤ mv) ∨ (x = .low ∧ cfg.lowThreshold + cfg.hysteresis ≤ mv) := by
  cases x <;> simp [riseTest]

theorem judgeSample_supply (cfg : Settings) (mv : Nat) (m : Meu) :
    (judgeSample cfg mv m).supply = supplyAfter (countSample cfg mv m) := by
  unfold judgeSample
  dsimp only
  split
  · next same => exact same.symm
  · rfl

theorem judgeSample_changed (cfg : Settings) (mv : Nat) (m : Meu) (changed : supplyAfter (countSample cfg mv m) ≠ m.supply) :
    judgeSample cfg mv m = { countSample cfg mv m with
      supply := supplyAfter (countSample cfg mv m), down := 0, deep := false, up := 0, high := false } := if_neg changed

theorem judgeSample_same (cfg : Settings) (mv : Nat) (m : Meu) (same : supplyAfter (countSample cfg mv m) = m.supply) :
    judgeSample cfg mv m = countSample cfg mv m := if_pos same

/-- A count reaches three with a sample that counts as the third or a later one of a run. -/
theorem three_le_count (p : Prop) [Decidable p] (n : Nat) : 3 ≤ (if p then n + 1 else 0) ↔ 2 ≤ n ∧ p := by
  by_cases h : p
  · rw [if_pos h]
    exact ⟨fun le => ⟨by omega, h⟩, fun le => by omega⟩
  · rw [if_neg h]
    exact ⟨fun le => by omega, fun le => absurd le.2 h⟩

theorem lt_or_not_iff (p : Prop) (n : Nat) : (n < 2 ∨ ¬p) ↔ ¬(2 ≤ n ∧ p) := by
  rw [not_and_or, Nat.not_le]

/-! ### The ADC (R175) -/

theorem adcKick_empty {s : State} (battery : s.meu.batteryPlace = false) (temp : s.meu.tempPlace = false) :
    adcKick s = s := by
  unfold adcKick
  split
  · rfl
  · simp [battery, temp]

/-- Settles O57. -/
theorem supplyDebounceAndTimers : Obligations.SupplyDebounceAndTimers := by
  refine ⟨fun cfg mv m => ?_, fun s works idle battery temp => ⟨fun runs => congrArg done ?_, fun runs => congrArg done ?_⟩,
    fun s => ⟨fun x sample old => congrArg done ?_, fun x sample young => congrArg done ?_, fun none => congrArg done ?_⟩⟩
  · intro c j falls rises
    have fall : fallTest cfg m.supply mv = true ↔ falls := fallTest_iff cfg m.supply mv
    have rise : riseTest cfg m.supply mv = true ↔ rises := riseTest_iff cfg m.supply mv
    have down : c.down = if falls then m.down + 1 else 0 := ite_congr (propext fall) (fun _ => rfl) (fun _ => rfl)
    have up : c.up = if rises then m.up + 1 else 0 := ite_congr (propext rise) (fun _ => rfl) (fun _ => rfl)
    have state : j.supply = supplyAfter c := judgeSample_supply cfg mv m
    refine ⟨down, up, ?_, ?_, fun normal => ?_, fun low _ => ?_, fun critical => ?_, fun changed => ?_⟩
    · simp only [c, countSample, Bool.and_eq_true, Bool.or_eq_true, decide_eq_true_eq, beq_iff_eq, fall, and_assoc]
    · simp only [c, countSample, Bool.and_eq_true, Bool.or_eq_true, decide_eq_true_eq, beq_iff_eq, rise, and_assoc]
    · rw [state, supplyAfter, show c.supply = .normal from normal]
      simp only [down, three_le_count, lt_or_not_iff, ite_not]
    · rw [state, supplyAfter, show c.supply = .low from low]
      simp only [down, up, three_le_count]
    · rw [state, supplyAfter, show c.supply = .critical from critical]
      simp only [up, three_le_count, lt_or_not_iff, ite_not]
    · have moved : supplyAfter c ≠ m.supply := state ▸ changed
      have e : j = _ := judgeSample_changed cfg mv m moved
      rw [e]
      exact ⟨rfl, rfl, rfl, rfl⟩
  · have period : batteryPeriod s = if s.rsc.part = .rest ∨ s.rsc.part = .restTurn then s.cfg.restBatteryInterval
        else s.cfg.batteryInterval := by
      unfold batteryPeriod
      cases s.rsc.part <;> rfl
    rw [batteryExpiry, if_neg runs, requestBattery, if_neg (by simp [works, battery, idle]), adcKick,
      if_neg (by simp [works, idle]), if_neg (by simp [temp]), if_pos rfl, period, ← battery]
    rfl
  · rw [temperatureExpiry, if_neg runs, requestTemp, if_neg (by simp [works, temp, idle]), adcKick,
      if_neg (by simp [works, idle]), if_pos rfl, ← temp]
  · rw [markAged, sample]
    exact if_pos old
  · rw [markAged, sample]
    exact if_neg (Nat.not_lt.mpr young)
  · rw [markAged, none]

/-! ### What stays asked for -/

/-- From `s` to `t` no write asked for is lost, and the table of status writers keeps its size. -/
structure KeepsAsked (s t : State) : Prop where
  size  : t.sif.writers.length = s.sif.writers.length
  asked : ∀ a, s.asked a → t.asked a

section
variable {s t u : State}

theorem KeepsAsked.refl : KeepsAsked s s := ⟨rfl, fun _ h => h⟩

theorem KeepsAsked.trans (h : KeepsAsked s t) (g : KeepsAsked t u) : KeepsAsked s u :=
  ⟨g.size.trans h.size, fun a x => g.asked a (h.asked a x)⟩

theorem keepsAsked_of_writers (h : t.sif.writers = s.sif.writers := by rfl) : KeepsAsked s t :=
  ⟨congrArg List.length h, fun _ x => asked_congr x h⟩

theorem KeepsAsked.congr (h : KeepsAsked s t) (w : u.sif.writers = t.sif.writers := by rfl) : KeepsAsked s u :=
  h.trans (keepsAsked_of_writers w)

theorem keepsAsked_ask (a : Area) : KeepsAsked s (ask a s) := ⟨ask_writers_length a s, fun _ => asked_ask_of_asked a⟩

theorem keepsAsked_post (c : Cause) : KeepsAsked s (post c s) := ⟨post_writers_length c s, fun _ => asked_post_of_asked c⟩

theorem keepsAsked_finalize (c : Chain) (r : Nat) (l : List (Nat × List Byte)) (x : Code) : KeepsAsked s (finalize c r l x s) :=
  ⟨finalize_writers_length c r l x s, fun _ => asked_finalize_of_asked c r l x⟩

theorem KeepsAsked.eight (h : KeepsAsked s t) (e : s.sif.writers.length = 8) : t.sif.writers.length = 8 := h.size.trans e

end

/-! ### The measurement area -/

theorem askMeasure_cases (s : State) : (askMeasure s = s ∧ s.asked .measure) ∨
    askMeasure s = ask .measure { s with meu.askTime := s.partTime } := by
  unfold askMeasure
  dsimp only
  split
  · next asked => exact .inl ⟨rfl, asked⟩
  · exact .inr rfl

theorem asked_askMeasure {s : State} (eight : s.sif.writers.length = 8) : (askMeasure s).asked .measure := by
  rcases askMeasure_cases s with ⟨e, asked⟩ | e <;> rw [e]
  · exact asked
  · exact asked_ask _ eight

theorem keepsAsked_askMeasure {s : State} : KeepsAsked s (askMeasure s) := by
  rcases askMeasure_cases s with ⟨e, -⟩ | e <;> rw [e]
  · exact .refl
  · exact (keepsAsked_of_writers (t := { s with meu.askTime := s.partTime })).trans (keepsAsked_ask _)

/-- Asking for the measurement area keeps everything but the asking time and the status writers. -/
theorem askMeasure_frame (s : State) (w : Word) :
    ({ askMeasure s with meu.askTime := w } : State).sansStatus = ({ s with meu.askTime := w } : State).sansStatus := by
  rcases askMeasure_cases s with ⟨e, -⟩ | e <;> rw [e]
  exact (congrArg (fun x : State => ({ x with meu.askTime := w } : State)) (sansStatus_ask .measure _) :)

theorem askMeasure_eq (s : State) : ∃ a w q, askMeasure s =
    { s with meu.askTime := a, sif.writers := w, mpt.stationQueue := s.mpt.stationQueue ++ q } := by
  rcases askMeasure_cases s with ⟨e, -⟩ | e
  · exact ⟨s.meu.askTime, s.sif.writers, [], by rw [e, List.append_nil]⟩
  · obtain ⟨w, q, asked⟩ := ask_eq .measure { s with meu.askTime := s.partTime }
    exact ⟨s.partTime, w, q, by rw [e, asked]⟩

/-- No request waits for the ADC to become idle. -/
def Meu.quiet (m : Meu) : Prop := m.requester = false ∨ m.tempPlace = false ∧ m.batteryPlace = false

theorem adcKick_quiet {s : State} (quiet : s.meu.quiet) : adcKick s = s := by
  rcases quiet with off | ⟨temp, battery⟩
  · exact if_pos (.inl off)
  · exact adcKick_empty battery temp

/-! ### The ceiling (R132, R133) -/

/-- The Light Unit after the ceiling has become `c`, with a ceiling fade of `d` ms. -/
def Ltu.ceiled (l : Ltu) (c d : Nat) : Ltu :=
  if c = l.ceiling then l
  else if l.restDark = true then { l with ceiling := c }
  else { l with
    ceiling := c, detached := false
    ramp := some ⟨l.level, l.warmth, if l.keyOff = true then 0 else min l.lr c, l.mr, fadeSteps d, 0, .ceiling⟩ }

theorem ask_withLtu (a : Area) (s : State) (l : Ltu) : { ask a s with ltu := l } = ask a { s with ltu := l } := by
  unfold ask
  dsimp only
  by_cases waits : ((s.writer a.user).cur = some a ∧ (s.writer a.user).granted = false) ∨ a ∈ (s.writer a.user).queued
  · rw [if_pos waits]
    exact (if_pos waits).symm
  · rw [if_neg waits]
    refine Eq.trans ?_ (if_neg waits).symm
    by_cases free : (s.writer a.user).cur = none ∧ writerHeld a.user s = false
    · rw [if_pos free]
      exact (if_pos free).symm
    · rw [if_neg free]
      exact (if_neg free).symm

/-- A ramp started after the light status has been asked for. -/
theorem startRamp_asked (d target warmth : Nat) (cause : RampCause) (s : State) (l : Ltu) (asked : State)
    (h : asked = { ask .light s with ltu := l }) : startRamp d target warmth cause asked =
      ask .light (ask .light { s with ltu := { l with
        ramp := some ⟨l.level, l.warmth, target, warmth, fadeSteps d, 0, cause⟩ } }) := by
  subst h
  exact congrArg (ask .light) (ask_withLtu .light s { l with
    ramp := some ⟨l.level, l.warmth, target, warmth, fadeSteps d, 0, cause⟩ })

/-- The ceiling follows the supply, and the light status is asked for; nothing else changes. -/
theorem setCeiling_cases {p : State → Prop} (s : State)
    (set : p { s with ltu := s.ltu.ceiled (ceilingOf s.cfg s.meu.supply) s.cfg.ceilingFade })
    (asked : ∀ t, p t → p (ask .light t)) : p (setCeiling s) := by
  unfold setCeiling
  unfold Ltu.ceiled at set
  generalize ceilingOf s.cfg s.meu.supply = c at *
  dsimp only
  by_cases same : c = s.ltu.ceiling
  · rw [if_pos same] at set ⊢
    exact set
  · rw [if_neg same] at set ⊢
    by_cases dark : s.ltu.restDark = true
    · rw [if_pos dark] at set
      rw [if_pos (by rw [ask_ltu]; exact dark)]
      exact asked _ set
    · rw [if_neg dark] at set
      rw [if_neg (by rw [ask_ltu]; exact dark),
        startRamp_asked _ _ _ _ { s with ltu.ceiling := c } { s.ltu with ceiling := c, detached := false } _ (by rw [ask_ltu])]
      simp only [litLevel, ask_ltu]
      exact asked _ (asked _ set)

theorem setCeiling_sansStatus (s : State) : (setCeiling s).sansStatus =
    ({ s with ltu := s.ltu.ceiled (ceilingOf s.cfg s.meu.supply) s.cfg.ceilingFade } : State).sansStatus :=
  setCeiling_cases (p := fun t => t.sansStatus = _) s rfl fun t h => (sansStatus_ask .light t).trans h

theorem keepsAsked_setCeiling {s : State} : KeepsAsked s (setCeiling s) :=
  setCeiling_cases (p := KeepsAsked s) s keepsAsked_of_writers fun _ h => h.trans (keepsAsked_ask _)

theorem ends_setCeiling {c : Chain} {s : State} : Ends c [] s (setCeiling s) :=
  setCeiling_cases (p := Ends c [] s) s (Ends.refl.congr (chain := by cases c <;> rfl)) fun _ h => h.ask .light

/-! ### A scan with the temperature fresh demands no sample (R63) -/

theorem tempFresh_congr {s t : State} (meu : t.meu = s.meu) (time : t.partTime = s.partTime) (settings : t.settings = s.settings) :
    tempFresh t = tempFresh s := by
  unfold tempFresh State.age State.cfg
  rw [meu, time, settings]

@[simp] theorem clearHolder_meu (id : Nat) (k : Option StoreKey) (s : State) : (clearHolder id k s).meu = s.meu := by
  unfold clearHolder
  dsimp only
  split <;> rfl

@[simp] theorem dropOtherHold_meu (id : Nat) (k : StoreKey) (s : State) : (dropOtherHold id k s).meu = s.meu := by
  unfold dropOtherHold
  dsimp only
  split <;> simp

@[simp] theorem lookup_meu (id : Nat) (m : Mode) (b : Nat) (s : State) : (lookup id m b s).2.meu = s.meu := by
  unfold lookup
  split
  · rfl
  · dsimp only
    split
    · simp
    · split
      · simp
      · split <;> simp [beginLoad, joinWave]

@[simp] theorem lookupFor_meu (id : Nat) (m : Mode) (b : Nat) (note : Bool) (s : State) : (lookupFor id m b note s).2.meu = s.meu :=
  lookup_meu id m b s

@[simp] theorem selectBand_meu (im : Image) (x : Int) (s : State) : (selectBand im x s).2.meu = s.meu := by
  unfold selectBand
  dsimp only
  split <;> simp

@[simp] theorem chooseKey_meu (e : Entry) (s : State) : (chooseKey e s).meu = s.meu := by
  unfold chooseKey
  split <;> simp

@[simp] theorem eligible_meu (e : Entry) (s : State) : (eligible e s).2.meu = s.meu := by
  unfold eligible
  split
  · rfl
  · dsimp only
    split
    · split <;> next h => simpa using congrArg (fun r => r.2.meu) h.symm
    · rfl

theorem scanEntry_meu (id : Nat) {s : State} (fresh : tempFresh s = true) : (scanEntry id s).2.meu = s.meu := by
  unfold scanEntry
  split
  · rfl
  · next e _ =>
    split
    · rfl
    · have keyed : (if e.st = .none then keyOrSample e s else s).meu = s.meu := by
        split
        · rw [keyOrSample, if_pos fresh, chooseKey_meu]
        · rfl
      dsimp only
      split
      · split <;> simp [keyed]
      · exact keyed

theorem scanList_meu : ∀ (l : List Nat) {s : State}, tempFresh s = true → (scanList l s).2.meu = s.meu
  | [], _, _ => rfl
  | id :: l, s, fresh => by
    have met := scanEntry_meu id fresh
    have only := scanOnly_scanEntry id s
    unfold scanList
    split
    · next t h => rw [h] at met; exact met
    · next t h =>
      rw [h] at met only
      have stays : tempFresh t = true := by
        obtain ⟨-, d, r, a, tp, bp, en, hi, wq, sq, k, i, w, -, e⟩ := only
        exact (tempFresh_congr met (congrArg State.partTime e :) (congrArg State.settings e :)).trans fresh
      exact (scanList_meu l stays).trans met

theorem scan_meu {s : State} (fresh : tempFresh s = true) : (scan s).meu = s.meu :=
  scanList_meu _ (s := { s with upe.rescan := false }) fresh

theorem scan_empty {s : State} (empty : s.upe.list = []) : scan s = { s with upe.rescan := false } := by
  rw [scan, scanFor]
  simp only [empty]
  rfl

/-! ### The ends of conversions (R178) -/

section
variable {s : State} (works : s.meu.requester = true) (idle : s.meu.adc = none)
include works idle

theorem adcKick_temperature (temp : s.meu.tempPlace = true) :
    adcKick s = { s with meu.adc := some .temperature, meu.tempPlace := false } := by
  rw [adcKick, if_neg (by simp [works, idle]), if_pos temp]

theorem adcKick_battery (temp : s.meu.tempPlace = false) (battery : s.meu.batteryPlace = true) :
    adcKick s = { s with meu.adc := some .battery, meu.batteryPlace := false } := by
  rw [adcKick, if_neg (by simp [works, idle]), if_neg (by simp [temp]), if_pos battery]

end

/-- The Measurement Unit as the battery conversion's sample leaves it. -/
def Meu.sampled (m : Meu) (cfg : Settings) (mv : Nat) (time : Word) : Meu :=
  judgeSample cfg mv { m with adc := none, battery := some ⟨mv, time⟩ }

theorem sampled_same {m : Meu} {cfg : Settings} {mv : Nat} (time : Word) (same : supplyAfter (countSample cfg mv m) = m.supply) :
    m.sampled cfg mv time = { countSample cfg mv m with adc := none, battery := some ⟨mv, time⟩ } :=
  judgeSample_same cfg mv { m with adc := none, battery := some ⟨mv, time⟩ } same

theorem sampled_changed {m : Meu} {cfg : Settings} {mv : Nat} (time : Word)
    (changed : supplyAfter (countSample cfg mv m) ≠ m.supply) :
    m.sampled cfg mv time = { m with
      adc := none, battery := some ⟨mv, time⟩, supply := supplyAfter (countSample cfg mv m), down := 0, deep := false, up := 0
      high := false } :=
  judgeSample_changed cfg mv { m with adc := none, battery := some ⟨mv, time⟩ } changed

theorem batteryEnd_same {code : Nat} {s : State}
    (same : supplyAfter (countSample s.cfg (batteryMv s.cfg code) s.meu) = s.meu.supply) :
    batteryEnd code s = adcKick (askMeasure { s with meu := s.meu.sampled s.cfg (batteryMv s.cfg code) s.partTime }) := by
  have stands : (s.meu.sampled s.cfg (batteryMv s.cfg code) s.partTime).supply = s.meu.supply := by
    rw [sampled_same _ same]
    rfl
  exact congrArg (fun t => adcKick (askMeasure t)) (if_pos stands)

theorem batteryEnd_changed {code : Nat} {s : State}
    (changed : supplyAfter (countSample s.cfg (batteryMv s.cfg code) s.meu) ≠ s.meu.supply) :
    batteryEnd code s = adcKick (askMeasure (supplyReport (post .supply { s with
      meu := { s.meu.sampled s.cfg (batteryMv s.cfg code) s.partTime with supplyStamp := s.partTime } }))) := by
  have moves : (s.meu.sampled s.cfg (batteryMv s.cfg code) s.partTime).supply ≠ s.meu.supply := by
    rw [sampled_changed _ changed]
    exact changed
  exact congrArg (fun t => adcKick (askMeasure t)) (if_neg moves)

theorem conversionEnd_battery {s : State} (adc : s.meu.adc = some .battery) (code : Nat) : conversionEnd code s = batteryEnd code s := by
  rw [conversionEnd, adc]

theorem conversionEnd_temperature {s : State} (adc : s.meu.adc = some .temperature) (code : Nat) :
    conversionEnd code s = temperatureEnd code s := by rw [conversionEnd, adc]

/-- The kick of the ADC changes the ADC and its places alone. -/
theorem adcKick_eq (s : State) : ∃ a tp bp, adcKick s = { s with meu.adc := a, meu.tempPlace := tp, meu.batteryPlace := bp } := by
  unfold adcKick
  split
  · exact ⟨s.meu.adc, s.meu.tempPlace, s.meu.batteryPlace, rfl⟩
  · split
    · exact ⟨_, _, s.meu.batteryPlace, rfl⟩
    · split
      · exact ⟨_, s.meu.tempPlace, _, rfl⟩
      · exact ⟨s.meu.adc, s.meu.tempPlace, s.meu.batteryPlace, rfl⟩

theorem setCeiling_posted (s : State) : (setCeiling s).sif.posted = s.sif.posted :=
  (congrArg (fun t : State => t.sif.posted) (setCeiling_sansStatus s) :)

theorem ceiled_ceiling (l : Ltu) (c d : Nat) : (l.ceiled c d).ceiling = c := by
  unfold Ltu.ceiled
  split
  · next same => exact same.symm
  · split <;> rfl

/-- A supply change that concerns the Rest Controller no further sets the ceiling. -/
theorem supplyReport_awaits {s : State} (part : s.rsc.part = .stopped ∨ s.rsc.part = .starting ∨ s.rsc.part = .waking) :
    supplyReport s = setCeiling s := by
  unfold supplyReport
  rcases part with h | h | h <;> rw [h]

theorem sansPosts_of_sansStatus {s t : State} (h : s.sansStatus = t.sansStatus) : s.sansPosts = t.sansPosts :=
  (congrArg (fun x : State => ({ x with sif.posted := [], sif.int := false } : State)) h :)

theorem sansRequests_of_sansPosts {s t : State} (h : s.sansPosts = t.sansPosts) : s.sansRequests = t.sansRequests :=
  (congrArg (fun x : State => ({ x with
    sif.page := {}, sif.control := {}, sif.fetch := {}, sif.finals := [], sif.finalBusy := false } : State)) h :)

theorem setCeiling_post (c : Cause) (v : State) : (setCeiling (post c v)).sansPosts =
    ({ v with ltu := v.ltu.ceiled (ceilingOf v.cfg v.meu.supply) v.cfg.ceilingFade } : State).sansPosts := by
  refine (sansPosts_of_sansStatus (setCeiling_sansStatus _)).trans ?_
  have lit : (post c v).ltu.ceiled (ceilingOf (post c v).cfg (post c v).meu.supply) (post c v).cfg.ceilingFade =
      v.ltu.ceiled (ceilingOf v.cfg v.meu.supply) v.cfg.ceilingFade := by
    rw [post_ltu, post_meu, State.cfg, post_settings]
    rfl
  rw [lit]
  generalize v.ltu.ceiled (ceilingOf v.cfg v.meu.supply) v.cfg.ceilingFade = l
  exact (congrArg (fun x : State => ({ x with ltu := l } : State)) (sansPosts_post c v) :)

/-- The measurement area asked for and the ADC kicked. -/
theorem measured_frame (v : State) : ∃ a d tp bp, (adcKick (askMeasure v)).sansStatus = ({ v with
    meu.askTime := a, meu.adc := d, meu.tempPlace := tp, meu.batteryPlace := bp } : State).sansStatus := by
  obtain ⟨d, tp, bp, kicked⟩ := adcKick_eq (askMeasure v)
  obtain ⟨a, w, q, asked⟩ := askMeasure_eq v
  exact ⟨a, d, tp, bp, by rw [kicked, asked]; rfl⟩

theorem measured_posted (v : State) : (adcKick (askMeasure v)).sif.posted = v.sif.posted := by
  obtain ⟨a, d, tp, bp, frame⟩ := measured_frame v
  exact (congrArg (fun x : State => x.sif.posted) frame :)

/-- The state of the temperature conversion's end before the scan. -/
def State.sampled (s : State) (code : Nat) : State :=
  { s with
    meu.adc := none
    meu.temperature := some ⟨temperatureOf s.cfg code, s.partTime, false⟩
    meu.tempTimer := if s.rsc.part = .run then s.timer (s.cfg.tempMaxAge * 1000) else s.meu.tempTimer }

/-- The SAMPLING entries back in NONE, and no sample demanded (R63). -/
def State.released (s : State) : State :=
  { s with
    upe.demand := false
    upe.list := s.upe.list.map fun e => if e.st = .sampling then { e with st := .none } else e }

theorem temperatureEnd_eq (code : Nat) (s : State) :
    temperatureEnd code s = adcKick (scan (askMeasure (s.sampled code)).released) := rfl

theorem released_frame (code : Nat) (s : State) :
    ({ (askMeasure (s.sampled code)).released with meu.askTime := s.meu.askTime } : State).sansStatus =
      (s.sampled code).released.sansStatus :=
  (congrArg State.released (askMeasure_frame (s.sampled code) s.meu.askTime) :)

theorem released_meu (code : Nat) (s : State) :
    ∃ a, (askMeasure (s.sampled code)).released.meu = { (s.sampled code).meu with askTime := a } := by
  obtain ⟨a, w, q, e⟩ := askMeasure_eq (s.sampled code)
  exact ⟨a, by rw [e]; rfl⟩

theorem released_fresh (code : Nat) (s : State) : tempFresh (askMeasure (s.sampled code)).released = true := by
  obtain ⟨a, w, q, e⟩ := askMeasure_eq (s.sampled code)
  rw [e]
  simp [tempFresh, State.released, State.sampled, State.age]

/-- Settles O55. -/
theorem samplesAreTaken : Obligations.SamplesAreTaken := by
  refine ⟨fun code s adc quiet battery => ?_, fun code s adc part => ?_, fun code s adc empty battery temp => ?_,
    fun code s adc => ?_⟩
  · intro mv m same
    let v : State := { s with meu := s.meu.sampled s.cfg mv s.partTime }
    have e : conversionEnd code.toNat s = adcKick (askMeasure v) := (conversionEnd_battery adc _).trans (batteryEnd_same same)
    have idle : (askMeasure v).meu.quiet := by
      obtain ⟨a, w, q, asked⟩ := askMeasure_eq v
      rw [asked]
      show Meu.quiet { s.meu.sampled s.cfg mv s.partTime with askTime := a }
      rw [sampled_same _ same]
      exact quiet.imp_right fun temp => ⟨temp, battery⟩
    refine ⟨_, congrArg done (e.trans (adcKick_quiet idle)), ?_⟩
    rw [askMeasure_frame]
    show ({ s with meu := { s.meu.sampled s.cfg mv s.partTime with askTime := s.meu.askTime } } : State).sansStatus = _
    rw [sampled_same _ same]
    rfl
  · intro mv x changed
    let v : State := { s with meu := { s.meu.sampled s.cfg mv s.partTime with supplyStamp := s.partTime } }
    have e : conversionEnd code.toNat s = adcKick (askMeasure (supplyReport (post .supply v))) :=
      (conversionEnd_battery adc _).trans (batteryEnd_changed changed)
    have awaits : supplyReport (post .supply v) = setCeiling (post .supply v) :=
      supplyReport_awaits (by rw [post_rsc]; exact .inr part)
    have posted : (adcKick (askMeasure (setCeiling (post .supply v)))).sif.posted = s.postedOnce .supply := by
      rw [measured_posted, setCeiling_posted, post_sif_posted]
      rfl
    obtain ⟨a, d, tp, bp, measured⟩ := measured_frame (setCeiling (post .supply v))
    have frame := (sansPosts_of_sansStatus measured).trans (congrArg (fun x : State => ({ x with
      meu.askTime := a, meu.adc := d, meu.tempPlace := tp, meu.batteryPlace := bp } : State)) (setCeiling_post .supply v) :)
    have end_ := e.trans (congrArg (fun t => adcKick (askMeasure t)) awaits)
    generalize adcKick (askMeasure (setCeiling (post .supply v))) = t at end_ frame posted
    have sampled : v.meu = { s.meu with
        adc := none, battery := some ⟨mv, s.partTime⟩, supply := x, supplyStamp := s.partTime, down := 0, deep := false, up := 0
        high := false } := by
      show ({ s.meu.sampled s.cfg mv s.partTime with supplyStamp := s.partTime } : Meu) = _
      rw [sampled_changed _ changed]
    have meu : t.meu = { v.meu with askTime := a, adc := d, tempPlace := tp, batteryPlace := bp } := (congrArg State.meu frame :)
    have ceiling : t.ltu.ceiling = ceilingOf s.cfg x := by
      have ltu : t.ltu = _ := (congrArg State.ltu frame :)
      rw [ltu]
      exact (ceiled_ceiling _ _ _).trans (by rw [sampled]; rfl)
    rw [sampled] at meu
    refine ⟨t, congrArg done end_, by rw [meu], by rw [meu], by rw [meu], by rw [meu], by rw [meu], posted, ?_,
      (congrArg State.rsc frame :), (congrArg State.upe frame :), (congrArg State.pss frame :), (congrArg State.ktu frame :),
      (congrArg State.dlc frame :), (congrArg State.mem frame :)⟩
    rw [ceiling]
    cases x <;> rfl
  · intro value
    let w := (askMeasure (s.sampled code.toNat)).released
    have none : w.upe.list = [] := by
      obtain ⟨a, v, q, asked⟩ := askMeasure_eq (s.sampled code.toNat)
      have upe : (askMeasure (s.sampled code.toNat)).upe = s.upe := by rw [asked]; rfl
      show (askMeasure (s.sampled code.toNat)).upe.list.map _ = []
      rw [upe, empty, List.map_nil]
    have idle : (scan w).meu.quiet := by
      obtain ⟨a, meu⟩ := released_meu code.toNat s
      rw [scan_meu (released_fresh code.toNat s), meu]
      exact .inr ⟨temp, battery⟩
    have e : conversionEnd code.toNat s = { w with upe.rescan := false } :=
      (conversionEnd_temperature adc _).trans ((adcKick_quiet idle).trans (scan_empty none))
    refine ⟨_, congrArg done e, ?_⟩
    refine (congrArg (fun x : State => ({ x with upe.rescan := false } : State)) (released_frame code.toNat s) :).trans ?_
    simp only [State.released, State.sampled, empty]
    rfl
  · intro value asks
    let w := (askMeasure (s.sampled code.toNat)).released
    have e : conversionEnd code.toNat s = adcKick (scan w) := conversionEnd_temperature adc _
    obtain ⟨a, released⟩ := released_meu code.toNat s
    have meu : (scan w).meu = { (s.sampled code.toNat).meu with askTime := a } :=
      (scan_meu (released_fresh code.toNat s)).trans released
    refine ⟨_, w, congrArg done e, fun eight => asked_congr (asked_askMeasure (s := s.sampled code.toNat) eight),
      released_frame code.toNat s, released_fresh code.toNat s, fun idle => adcKick_quiet ?_, fun works temp => ?_,
      fun works temp battery => ?_⟩
    · rw [meu]
      exact idle.imp_left Bool.eq_false_of_not_eq_true
    · exact adcKick_temperature (by rw [meu]; exact works) (by rw [meu]; rfl) (by rw [meu]; exact temp)
    · exact adcKick_battery (by rw [meu]; exact works) (by rw [meu]; rfl) (by rw [meu]; exact temp) (by rw [meu]; exact battery)

end Sys2Proof.Machine
end

section
/-! Lookups in the Waveform Store, and the looking at waiting updates (sections 3.4 and 4.4). -/

set_option Elab.async false

namespace Sys2Proof.Machine

/-! ### The table entries of a lookup (R41, R42) -/

theorem findEntry_some {p : StoreEntry → Bool} {s : State} {i : Nat} : findEntry p s = some i ↔
    i < 4 ∧ p (s.store i) = true ∧ ∀ j, j < i → p (s.store j) = false := by
  rw [findEntry, List.find?_range_eq_some]
  simp only [List.mem_range, Bool.not_eq_true']
  tauto

theorem findEntry_none {p : StoreEntry → Bool} {s : State} : findEntry p s = none ↔ ∀ i, i < 4 → p (s.store i) = false := by
  simp [findEntry]

theorem holds_iff (st : EntryState) (k : StoreKey) (e : StoreEntry) :
    e.holds st k = true ↔ e.state = st ∧ e.stale = false ∧ e.key = some k := by
  simp [StoreEntry.holds, and_assoc]

theorem candidate_iff (e : StoreEntry) :
    e.candidate = true ↔ e.state = .ready ∧ e.stale = false ∧ e.refs = 0 ∧ e.holder = none := by
  simp [StoreEntry.candidate, and_assoc]

/-- The choice of R42 among the first `n` store entries: none may be replaced, or `i` may and none is older, nor as old with a
lower number. -/
def OldestOf (s : State) (n : Nat) : Option Nat → Prop
  | none => ∀ j, j < n → (s.store j).candidate = false
  | some i => i < n ∧ (s.store i).candidate = true ∧ ∀ j, j < n → (s.store j).candidate = true →
      s.age (s.store j).stamp < s.age (s.store i).stamp ∨ s.age (s.store j).stamp = s.age (s.store i).stamp ∧ i ≤ j

theorem oldestOf_olderEntry (s : State) (n : Nat) (best : Option Nat) (h : OldestOf s n best) :
    OldestOf s (n + 1) (olderEntry s best n) := by
  unfold olderEntry
  by_cases may : (s.store n).candidate = true
  · rw [if_pos may]
    cases best with
    | none =>
      refine ⟨Nat.lt_succ_self n, may, fun j hj can => ?_⟩
      rcases Nat.lt_succ_iff_lt_or_eq.mp hj with below | rfl
      · exact absurd can (by simp [h j below])
      · exact .inr ⟨rfl, Nat.le_refl _⟩
    | some i =>
      obtain ⟨inside, can, oldest⟩ := h
      dsimp only
      split
      · next older =>
        refine ⟨Nat.lt_succ_self n, may, fun j hj canJ => ?_⟩
        rcases Nat.lt_succ_iff_lt_or_eq.mp hj with below | rfl
        · have := oldest j below canJ
          omega
        · exact .inr ⟨rfl, Nat.le_refl _⟩
      · next younger =>
        refine ⟨by omega, can, fun j hj canJ => ?_⟩
        rcases Nat.lt_succ_iff_lt_or_eq.mp hj with below | rfl
        · exact oldest j below canJ
        · omega
  · rw [if_neg may]
    cases best with
    | none =>
      intro j hj
      rcases Nat.lt_succ_iff_lt_or_eq.mp hj with below | rfl
      · exact h j below
      · exact Bool.eq_false_of_not_eq_true may
    | some i =>
      obtain ⟨inside, can, oldest⟩ := h
      refine ⟨by omega, can, fun j hj canJ => ?_⟩
      rcases Nat.lt_succ_iff_lt_or_eq.mp hj with below | rfl
      · exact oldest j below canJ
      · exact absurd canJ may

theorem oldestOf_range (s : State) (n : Nat) : OldestOf s n ((List.range n).foldl (olderEntry s) none) := by
  induction n with
  | zero => exact fun j hj => absurd hj (Nat.not_lt_zero j)
  | succ n ih =>
    rw [List.range_succ, List.foldl_append]
    exact oldestOf_olderEntry s n _ ih

theorem chooseEntry_empty {s : State} {i : Nat} (inside : i < 4) (empty : (s.store i).state = .empty)
    (lowest : ∀ j, j < i → (s.store j).state ≠ .empty) : chooseEntry s = some i := by
  have found : findEntry (fun e => e.state == .empty) s = some i :=
    findEntry_some.mpr ⟨inside, by simp [empty], fun j hj => by simpa using lowest j hj⟩
  rw [chooseEntry, found]

theorem chooseEntry_full {s : State} (full : ∀ j, j < 4 → (s.store j).state ≠ .empty) :
    chooseEntry s = (List.range 4).foldl (olderEntry s) none := by
  have found : findEntry (fun e => e.state == .empty) s = none := findEntry_none.mpr fun j hj => by simpa using full j hj
  rw [chooseEntry, found]

theorem chooseEntry_oldest {s : State} {i : Nat} (full : ∀ j, j < 4 → (s.store j).state ≠ .empty) (oldest : OldestOf s 4 (some i)) :
    chooseEntry s = some i := by
  rw [chooseEntry_full full]
  have chosen := oldestOf_range s 4
  obtain ⟨inside, can, first⟩ := oldest
  cases h : (List.range 4).foldl (olderEntry s) none with
  | none =>
    rw [h] at chosen
    exact absurd can (by simp [chosen i inside])
  | some j =>
    rw [h] at chosen
    obtain ⟨insideJ, canJ, firstJ⟩ := chosen
    have := first j insideJ canJ
    have := firstJ i inside can
    congr
    omega

theorem chooseEntry_none {s : State} (full : ∀ j, j < 4 → (s.store j).state ≠ .empty)
    (used : ∀ j, j < 4 → (s.store j).candidate = false) : chooseEntry s = none := by
  rw [chooseEntry_full full]
  have chosen := oldestOf_range s 4
  cases h : (List.range 4).foldl (olderEntry s) none with
  | none => rfl
  | some j =>
    rw [h] at chosen
    exact absurd chosen.2.1 (by simp [used j chosen.1])

/-! ### Lookups (R41, R43, R47, R65) -/

/-- The hold of entries with another key is cleared, and a READY one so freed is reported. -/
theorem dropOtherHold_eq (id : Nat) (k : StoreKey) (s : State) :
    let freed := ∃ e ∈ s.wfs.entries, e.holder = some id ∧ e.key ≠ some k ∧ e.state = .ready ∧ e.refs = 0
    let u := dropOtherHold id k s
    (freed → u.upe.rescan = true ∧ u.upe.list = s.upe.list.map fun x => if x.st = .noRoom then { x with again := true } else x) ∧
    (¬freed → u.upe.rescan = s.upe.rescan ∧ u.upe.list = s.upe.list) ∧
    u = { s with
      wfs.entries := s.wfs.entries.map fun e => if e.holder = some id ∧ e.key ≠ some k then { e with holder := none } else e
      upe.list := u.upe.list, upe.rescan := u.upe.rescan } := by
  intro freed u
  have any : s.wfs.entries.any (holderFrees id (some k)) = true ↔ freed := by
    simp [freed, List.any_eq_true, holderFrees, and_assoc]
  have clears : (s.wfs.entries.map fun e =>
      if e.holder = some id ∧ (some k = none ∨ e.key ≠ some k) then { e with holder := none } else e) =
      s.wfs.entries.map fun e => if e.holder = some id ∧ e.key ≠ some k then { e with holder := none } else e :=
    List.map_congr_left fun e _ => by simp
  by_cases f : freed
  · have e : u = { s with
        wfs.entries := (s.wfs.entries.map fun e =>
          if e.holder = some id ∧ (some k = none ∨ e.key ≠ some k) then { e with holder := none } else e)
        upe.list := (s.upe.list.map fun x => if x.st = .noRoom then { x with again := true } else x), upe.rescan := true } := by
      simp only [u, dropOtherHold, clearHolder, if_pos (any.mpr f)]
      rfl
    rw [clears] at e
    exact ⟨fun _ => by rw [e]; exact ⟨rfl, rfl⟩, fun no => absurd f no, by rw [e]⟩
  · have e : u = { s with wfs.entries := (s.wfs.entries.map fun e =>
        if e.holder = some id ∧ (some k = none ∨ e.key ≠ some k) then { e with holder := none } else e) } := by
      simp only [u, dropOtherHold, clearHolder, if_neg (mt any.mp f)]
    rw [clears] at e
    exact ⟨fun yes => absurd yes f, fun _ => by rw [e]; exact ⟨rfl, rfl⟩, by rw [e]⟩

section
variable {s : State} {im : Image} (active : s.wfs.active = some im) (id : Nat) (mode : Mode) (band : Nat)
include active

theorem lookup_eq : lookup id mode band s =
    let k : StoreKey := ⟨s.wfs.generation, mode, band⟩
    let u := dropOtherHold id k s
    match findEntry (StoreEntry.holds .ready k) u with
    | some i => (.found i, u)
    | none =>
      match findEntry (StoreEntry.holds .loading k) u with
      | some _ => (.loading, u)
      | none =>
        match chooseEntry u with
        | some i => (.loading, beginLoad im i k id u)
        | none => (.noRoom, u) := by
  rw [lookup, active] <;> rfl

theorem lookup_found {i : Nat}
    (found : findEntry (StoreEntry.holds .ready ⟨s.wfs.generation, mode, band⟩)
      (dropOtherHold id ⟨s.wfs.generation, mode, band⟩ s) = some i) :
    lookup id mode band s = (.found i, dropOtherHold id ⟨s.wfs.generation, mode, band⟩ s) := by
  rw [lookup_eq active]
  dsimp only
  rw [found]

variable (none : findEntry (StoreEntry.holds .ready ⟨s.wfs.generation, mode, band⟩)
  (dropOtherHold id ⟨s.wfs.generation, mode, band⟩ s) = none)
include none

theorem lookup_loading {i : Nat}
    (loading : findEntry (StoreEntry.holds .loading ⟨s.wfs.generation, mode, band⟩)
      (dropOtherHold id ⟨s.wfs.generation, mode, band⟩ s) = some i) :
    lookup id mode band s = (.loading, dropOtherHold id ⟨s.wfs.generation, mode, band⟩ s) := by
  rw [lookup_eq active]
  dsimp only
  rw [none]
  dsimp only
  rw [loading]

theorem lookup_new
    (idle : findEntry (StoreEntry.holds .loading ⟨s.wfs.generation, mode, band⟩)
      (dropOtherHold id ⟨s.wfs.generation, mode, band⟩ s) = .none) :
    lookup id mode band s = match chooseEntry (dropOtherHold id ⟨s.wfs.generation, mode, band⟩ s) with
      | some i => (.loading, beginLoad im i ⟨s.wfs.generation, mode, band⟩ id (dropOtherHold id ⟨s.wfs.generation, mode, band⟩ s))
      | .none => (.noRoom, dropOtherHold id ⟨s.wfs.generation, mode, band⟩ s) := by
  rw [lookup_eq active]
  dsimp only
  rw [none]
  dsimp only
  rw [idle]

end

/-- A lookup changes the list's marks, the note of a report, the store entries and the loads' bursts alone. -/
theorem lookup_frame (id : Nat) (mode : Mode) (band : Nat) (s : State) : ∃ l r e q, (lookup id mode band s).2 = { s with
    upe.list := l, upe.rescan := r, wfs.entries := e, mpt.waveQueue := q } := by
  cases active : s.wfs.active with
  | none => exact ⟨s.upe.list, s.upe.rescan, s.wfs.entries, s.mpt.waveQueue, by rw [lookup, active]⟩
  | some im =>
    obtain ⟨-, -, drop⟩ := dropOtherHold_eq id ⟨s.wfs.generation, mode, band⟩ s
    have kept : ∃ l r e q, dropOtherHold id ⟨s.wfs.generation, mode, band⟩ s = { s with
        upe.list := l, upe.rescan := r, wfs.entries := e, mpt.waveQueue := q } := ⟨_, _, _, s.mpt.waveQueue, drop⟩
    rw [lookup_eq active]
    dsimp only
    split
    · exact kept
    · split
      · exact kept
      · split
        · next i _ =>
          rw [drop]
          exact ⟨_, _, _, _, rfl⟩
        · exact kept

theorem lookupFor_frame (id : Nat) (mode : Mode) (band : Nat) (note : Bool) (s : State) :
    ∃ l r e q, (lookupFor id mode band note s).2 = { s with
      upe.list := l, upe.rescan := r, wfs.entries := e, mpt.waveQueue := q } := by
  obtain ⟨l, r, e, q, h⟩ := lookup_frame id mode band s
  exact ⟨_, r, e, q, by rw [lookupFor, h]; rfl⟩

theorem relookList_frame : ∀ (l : List Nat) (s : State), ∃ m r e q, relookList l s = { s with
    upe.list := m, upe.rescan := r, wfs.entries := e, mpt.waveQueue := q }
  | [], s => ⟨s.upe.list, s.upe.rescan, s.wfs.entries, s.mpt.waveQueue, rfl⟩
  | id :: l, s => by
    unfold relookList
    split
    · next e _ =>
      split
      · next k _ _ =>
        obtain ⟨m, r, n, q, first⟩ := lookupFor_frame id k.mode k.band e.note s
        obtain ⟨m', r', n', q', rest⟩ := relookList_frame l (lookupFor id k.mode k.band e.note s).2
        exact ⟨m', r', n', q', by rw [rest, first]⟩
      · exact relookList_frame l s
    · exact relookList_frame l s

theorem relookList_again {s : State} {id : Nat} {e : Entry} {k : StoreKey} (listed : findListed id s = some e)
    (again : e.again = true) (key : e.key = some k) (l : List Nat) :
    relookList (id :: l) s = relookList l (lookupFor id k.mode k.band e.note s).2 := by
  rw [relookList, listed]
  dsimp only
  rw [again, key]

theorem relookList_skip {s : State} {id : Nat} (skip : ∀ e, findListed id s = some e → e.again = false ∨ e.key = none)
    (l : List Nat) : relookList (id :: l) s = relookList l s := by
  rw [relookList]
  split
  · next e listed =>
    split
    · next k again key =>
      rcases skip e listed with h | h
      · exact absurd (again.symm.trans h) (by decide)
      · exact nomatch key.symm.trans h
    · rfl
  · rfl

/-- Settles O36. -/
theorem waitingUpdatesAreLookedAt : Obligations.WaitingUpdatesAreLookedAt := by
  refine ⟨fun s => ⟨scanOnly_scan s, rfl⟩, fun s => ⟨fun h => ?_, fun unmarked none => congrArg done (if_neg ?_)⟩,
    fun s id l => ⟨fun e k listed again key => relookList_again listed again key l, fun skip => relookList_skip skip l⟩,
    fun _ => rfl, fun s id band mode note => ?_, fun s id band mode none => ?_, fun s id band mode im active => ?_⟩
  · have marked : (s.upe.list.any Entry.again || s.upe.rescan) = true := by
      rw [Bool.or_eq_true, List.any_eq_true]
      exact h
    obtain ⟨m, r, e, q, frame⟩ := relookList_frame (s.upe.list.map Entry.id) s
    refine ⟨relookList (s.upe.list.map Entry.id) s, congrArg done (if_pos marked), rfl, scanOnly_relookList _ s, ?_, ?_, ?_, ?_⟩
    all_goals rw [frame]
  · rw [Bool.or_eq_true, List.any_eq_true]
    rintro (⟨e, mem, again⟩ | rescan)
    · exact absurd again (by simp [unmarked e mem])
    · exact absurd rescan (by simp [none])
  · intro r
    refine Prod.ext rfl (congrArg (fun l => ({ r.2 with upe.list := l } : State)) (List.map_congr_left fun e _ => ?_))
    show (if e.id = id then { e with st := r.1.st, key := _, note := note, again := false } else e) = _
    cases r.1 <;> rfl
  · rw [lookup, none]
  · intro k r freed
    let u := dropOtherHold id k s
    obtain ⟨reports, silent, frame⟩ := dropOtherHold_eq id k s
    refine ⟨u, reports, silent, frame, ?_⟩
    intro holds empty unused age d loads new
    have held (st : EntryState) (i : Nat) : holds st i ↔ i < 4 ∧ StoreEntry.holds st k (u.store i) = true := by
      rw [holds_iff]
    have free (i : Nat) : unused i ↔ i < 4 ∧ (u.store i).candidate = true := by
      rw [candidate_iff]
    have nowhere (st : EntryState) (no : ∀ i, ¬holds st i) : findEntry (StoreEntry.holds st k) u = none :=
      findEntry_none.mpr fun i inside => Bool.eq_false_of_not_eq_true fun h => no i ((held st i).mpr ⟨inside, h⟩)
    have fresh (n : new) : r = match chooseEntry u with
        | some i => (.loading, beginLoad im i k id u)
        | none => (.noRoom, u) := lookup_new active id mode band (nowhere .ready n.1) (nowhere .loading n.2)
    have begins {i : Nat} (n : new) (chosen : chooseEntry u = some i) : loads i := by
      show r = _
      rw [fresh n, chosen]
      have queue : u.mpt.waveQueue = s.mpt.waveQueue := (congrArg (fun x : State => x.mpt.waveQueue) frame :)
      rw [← queue]
      rfl
    refine ⟨fun i found first => ?_, fun no ⟨i, loading⟩ => ?_, fun i n at_ first => begins n ?_,
      fun i n full at_ oldest => begins n ?_, fun n full used => ?_⟩
    · have h := (held .ready i).mp found
      exact lookup_found active id mode band (findEntry_some.mpr ⟨h.1, h.2, fun j below =>
        Bool.eq_false_of_not_eq_true fun g => first j below ((held .ready j).mpr ⟨below.trans h.1, g⟩)⟩)
    · have h := (held .loading i).mp loading
      cases found : findEntry (StoreEntry.holds .loading k) u with
      | none => exact absurd h.2 (by simp [findEntry_none.mp found i h.1])
      | some j => exact lookup_loading active id mode band (nowhere .ready no) found
    · exact chooseEntry_empty at_.1 at_.2 fun j below h => first j below ⟨below.trans at_.1, h⟩
    · obtain ⟨inside, can⟩ := (free i).mp at_
      refine chooseEntry_oldest (fun j hj h => full j ⟨hj, h⟩) ⟨inside, can, fun j hj canJ => ?_⟩
      have time : u.partTime = s.partTime := (congrArg State.partTime frame :)
      rw [State.age, State.age, time]
      exact oldest j ((free j).mpr ⟨hj, canJ⟩)
    · rw [fresh n, chooseEntry_none (fun j hj h => full j ⟨hj, h⟩) fun j hj =>
        Bool.eq_false_of_not_eq_true fun g => used j ((free j).mpr ⟨hj, g⟩)]

end Sys2Proof.Machine
end

section
/-! The admission scan entry by entry, and the admission of the eligible one (sections 4.3 to 4.5). -/

set_option Elab.async false

namespace Sys2Proof.Machine

/-! ### What the conditions of the scan are (R62, R63, R64, R67) -/

theorem tempFresh_iff (s : State) : tempFresh s = true ↔
    ∃ x, s.meu.temperature = some x ∧ x.aged = false ∧ (s.partTime - x.stamp).toNat ≤ s.cfg.tempMaxAge * 1000 := by
  unfold tempFresh State.age
  cases s.meu.temperature <;> simp

theorem isFree_iff (l : Lane) : l.isFree = true ↔ l.state = .free := by simp [Lane.isFree]

theorem mayAdmit_iff (s : State) : mayAdmit s = true ↔
    (s.rsc.part = .run ∨ s.rsc.part = .quiesce ∨ s.rsc.part = .restTurn) ∧ s.pss.rail ≠ .locked ∧
      (∃ l ∈ s.upe.lanes, l.state = .free) ∧ s.upe.pass = none ∧ s.upe.retireQueue = [] ∧ s.upe.sweepWaiting = false := by
  simp [mayAdmit, isFree_iff, and_assoc, or_assoc]

theorem waitOk_iff (e : Entry) (s : State) : waitOk e s = true ↔
    e.policy = .overlap ∨ ∀ l ∈ s.upe.lanes, l.state ≠ .free → l.rect.intersects e.rect = false := by
  have free (l : Lane) : l.isFree = false ↔ l.state ≠ .free := by rw [← Bool.not_eq_true, isFree_iff]
  simp [waitOk, free]

theorem decideMode_eq (e : Entry) (s : State) : decideMode e s =
    (if e.rect = ⟨0, 0, s.cfg.width, s.cfg.height⟩ ∧ s.upe.uncertain = true then (.clear, true)
     else if e.rect = ⟨0, 0, s.cfg.width, s.cfg.height⟩ ∧ e.mode = .gray ∧ 0 < s.cfg.cadence ∧ s.cfg.cadence ≤ s.upe.cadence + 1
     then (.clear, false) else (e.mode, false)) := by
  have full : e.rect.isFull s.cfg.width s.cfg.height = true ↔ e.rect = ⟨0, 0, s.cfg.width, s.cfg.height⟩ := beq_iff_eq
  have due : s.cfg.cadence - 1 ≤ s.upe.cadence ↔ s.cfg.cadence ≤ s.upe.cadence + 1 := by omega
  unfold decideMode
  by_cases f : e.rect = ⟨0, 0, s.cfg.width, s.cfg.height⟩
  · rw [if_pos (full.mpr f)]
    simp only [f, true_and, due]
  · rw [if_neg (mt full.mp f)]
    simp only [f, false_and, if_false]

theorem isBlocked_iff {e : Entry} {older : List Entry} (younger : List Entry) (others : ∀ o ∈ older, o.id ≠ e.id) :
    isBlocked (older ++ e :: younger) e = true ↔ ∃ o ∈ older, o.rect.intersects e.rect = true := by
  have front : (older ++ e :: younger).takeWhile (fun o => o.id != e.id) = older := by
    rw [List.takeWhile_append_of_pos fun o mem => by simpa using others o mem, List.takeWhile_cons_of_neg (by simp), List.append_nil]
  rw [isBlocked, front, List.any_eq_true]

theorem intersects_iff {a b : Rect} (aw : 1 ≤ a.w) (ah : 1 ≤ a.h) (bw : 1 ≤ b.w) (bh : 1 ≤ b.h) : a.intersects b = true ↔
    ∃ x y, (a.x ≤ x ∧ x < a.x + a.w ∧ a.y ≤ y ∧ y < a.y + a.h) ∧ (b.x ≤ x ∧ x < b.x + b.w ∧ b.y ≤ y ∧ y < b.y + b.h) := by
  simp only [Rect.intersects, Bool.and_eq_true, decide_eq_true_eq]
  exact ⟨fun h => ⟨max a.x b.x, max a.y b.y, by omega, by omega⟩, fun ⟨x, y, ha, hb⟩ => by omega⟩

/-- A band selection posts TEMPERATURE for a temperature outside the table (R50). -/
theorem selectBand_posted (im : Image) (t : Int) (s : State) : (selectBand im t s).2.sif.posted =
    if t < im.bands.getD 0 0 ∨ im.upper ≤ t then s.postedOnce .temperature else s.sif.posted := by
  have outside : outsideBands im t = true ↔ t < im.bands.getD 0 0 ∨ im.upper ≤ t := by simp [outsideBands]
  unfold selectBand
  dsimp only
  rw [ite_congr (propext outside) (fun _ => rfl) (fun _ => rfl)]
  split
  · rw [post_sif_posted]
    rfl
  · rfl

theorem selectBand_frame (im : Image) (t : Int) (s : State) :
    ({ (selectBand im t s).2 with wfs.history := s.wfs.history } : State).sansPosts = s.sansPosts := by
  unfold selectBand
  dsimp only
  split
  · exact (congrArg (fun x : State => ({ x with wfs.history := s.wfs.history } : State))
      (sansPosts_post .temperature { s with wfs.history := some (chooseBand im s.wfs.history t) }) :)
  · rfl

/-! ### Entries by their requests -/

/-- What blocks an entry is told by the requests alone. -/
theorem isBlocked_request (l : List Entry) (e : Entry) : isBlocked l e =
    ((l.map Entry.request).takeWhile fun r => r.1 != e.id).any fun r => r.2.2.1.intersects e.rect := by
  rw [List.takeWhile_map, List.any_map]
  rfl

theorem isBlocked_congr {l m : List Entry} {e f : Entry} (list : l.map Entry.request = m.map Entry.request)
    (same : e.request = f.request) : isBlocked l e = isBlocked m f := by
  have id : e.id = f.id := congrArg Prod.fst same
  have rect : e.rect = f.rect := congrArg (fun r => r.2.2.1) same
  rw [isBlocked_request, isBlocked_request, list, id, rect]

theorem findListed_request (id : Nat) (s : State) :
    (findListed id s).map Entry.request = (s.upe.list.map Entry.request).find? fun r => r.1 == id := by
  rw [List.find?_map]
  rfl

theorem findListed_congr {s t : State} {id : Nat} {e : Entry} (list : t.upe.list.map Entry.request = s.upe.list.map Entry.request)
    (listed : findListed id s = some e) : ∃ f, findListed id t = some f ∧ f.request = e.request := by
  have same := (findListed_request id t).trans ((congrArg (List.find? fun r => r.1 == id) list).trans (findListed_request id s).symm)
  rw [listed, Option.map_some, Option.map_eq_some_iff] at same
  exact same

theorem findListed_id {s : State} {id : Nat} {e : Entry} (listed : findListed id s = some e) : e.id = id := by
  simpa using List.find?_some listed

theorem findListed_map (id : Nat) {s t : State} {f : Entry → Entry} (keeps : ∀ x, (f x).id = x.id)
    (list : t.upe.list = s.upe.list.map f) : findListed id t = (findListed id s).map f := by
  rw [findListed, list, List.find?_map]
  simp only [Function.comp_def, keeps]
  rfl

theorem findListed_setEntry {s : State} {id : Nat} {e : Entry} {f : Entry → Entry} (keeps : ∀ x, (f x).id = x.id)
    (listed : findListed id s = some e) : findListed id (setEntry id f s) = some (f e) := by
  have moved : findListed id (setEntry id f s) = (findListed id s).map fun x => if x.id = id then f x else x :=
    findListed_map id (fun x => by split <;> simp [keeps]) rfl
  rw [moved, listed, Option.map_some, if_pos (findListed_id listed)]

/-! ### Lookups and the waiting updates (R65, R66) -/

theorem dropOtherHold_list (id : Nat) (k : StoreKey) (s : State) : (dropOtherHold id k s).upe.list = s.upe.list ∨
    (dropOtherHold id k s).upe.list = s.upe.list.map fun x => if x.st = .noRoom then { x with again := true } else x := by
  obtain ⟨reports, silent, -⟩ := dropOtherHold_eq id k s
  by_cases freed : ∃ e ∈ s.wfs.entries, e.holder = some id ∧ e.key ≠ some k ∧ e.state = .ready ∧ e.refs = 0
  · exact .inr (reports freed).2
  · exact .inl (silent freed).2

theorem lookup_list (id : Nat) (mode : Mode) (band : Nat) (s : State) : (lookup id mode band s).2.upe.list = s.upe.list ∨
    (lookup id mode band s).2.upe.list = s.upe.list.map fun x => if x.st = .noRoom then { x with again := true } else x := by
  cases active : s.wfs.active with
  | none => exact .inl (by rw [lookup, active])
  | some im =>
    have drop := dropOtherHold_list id ⟨s.wfs.generation, mode, band⟩ s
    rw [lookup_eq active]
    dsimp only
    split
    · exact drop
    · split
      · exact drop
      · split <;> exact drop

/-- The asker of a lookup takes the key, the note and the store state of the answer, unmarked (R65). -/
theorem findListed_lookupFor {s : State} {id : Nat} {e : Entry} (listed : findListed id s = some e) (mode : Mode) (band : Nat)
    (note : Bool) : findListed id (lookupFor id mode band note s).2 = some { e with
      st := (lookupFor id mode band note s).1.st, key := some ⟨s.wfs.generation, mode, band⟩, note := note, again := false } := by
  have looked : ∃ x, findListed id (lookup id mode band s).2 = some x ∧ { x with again := false } = { e with again := false } := by
    rcases lookup_list id mode band s with list | list
    · exact ⟨e, by rw [findListed, list]; exact listed, rfl⟩
    · refine ⟨if e.st = .noRoom then { e with again := true } else e,
        (findListed_map id (fun x => by split <;> rfl) list).trans (by rw [listed]; rfl), ?_⟩
      split <;> rfl
  obtain ⟨x, found, same⟩ := looked
  have set := findListed_setEntry (f := fun e => { e with
    st := (lookup id mode band s).1.st, key := some ⟨s.wfs.generation, mode, band⟩, note := note, again := false })
    (fun _ => rfl) found
  refine set.trans (congrArg some ?_)
  exact congrArg (fun y : Entry => { y with
    st := (lookup id mode band s).1.st, key := some ⟨s.wfs.generation, mode, band⟩, note := note }) same

theorem dropOtherHold_store (id : Nat) (k : StoreKey) (s : State) (j : Nat) : (dropOtherHold id k s).store j =
    if (s.store j).holder = some id ∧ (s.store j).key ≠ some k then { s.store j with holder := none } else s.store j := by
  obtain ⟨-, -, e⟩ := dropOtherHold_eq id k s
  have entries := (congrArg (fun x : State => x.wfs.entries) e :)
  rw [State.store, entries, State.store, show ({} : StoreEntry) = (fun e : StoreEntry =>
    if e.holder = some id ∧ e.key ≠ some k then { e with holder := none } else e) {} from rfl, List.getD_map]
  rfl

/-- The clearing of a hold leaves what a lookup looks for. -/
theorem dropOtherHold_holds (id : Nat) (k : StoreKey) (s : State) (st : EntryState) (m : StoreKey) (j : Nat) :
    ((dropOtherHold id k s).store j).holds st m = (s.store j).holds st m := by
  rw [dropOtherHold_store]
  split <;> rfl

/-- What a lookup answers is FOUND exactly when an entry holds the key READY, not stale; it is the lowest one (R41). -/
theorem lookup_found_iff {s : State} {im : Image} (active : s.wfs.active = some im) (id : Nat) (mode : Mode) (band i : Nat) :
    (lookup id mode band s).1 = .found i ↔ findEntry (StoreEntry.holds .ready ⟨s.wfs.generation, mode, band⟩) s = some i := by
  have same : findEntry (StoreEntry.holds .ready ⟨s.wfs.generation, mode, band⟩)
      (dropOtherHold id ⟨s.wfs.generation, mode, band⟩ s) = findEntry (StoreEntry.holds .ready ⟨s.wfs.generation, mode, band⟩) s := by
    simp only [findEntry, dropOtherHold_holds]
  rw [lookup_eq active, ← same]
  dsimp only
  cases found : findEntry (StoreEntry.holds .ready ⟨s.wfs.generation, mode, band⟩)
      (dropOtherHold id ⟨s.wfs.generation, mode, band⟩ s) with
  | some j => simp
  | none =>
    simp only [reduceCtorEq, iff_false]
    split
    · nofun
    · split <;> nofun

theorem lookup_isFound {s : State} (id : Nat) (mode : Mode) (band : Nat) :
    (∃ i, (lookup id mode band s).1 = .found i) ↔ s.wfs.active ≠ none ∧
      ∃ j, j < 4 ∧ (s.store j).state = .ready ∧ (s.store j).stale = false ∧ (s.store j).key = some ⟨s.wfs.generation, mode, band⟩ := by
  cases active : s.wfs.active with
  | none =>
    rw [lookup, active]
    simp
  | some im =>
    simp only [lookup_found_iff active, ← Option.isSome_iff_exists, ne_eq, reduceCtorEq, not_false_eq_true, true_and, ← holds_iff]
    simp [findEntry]

/-- The lookup found leaves its table to be found. -/
theorem lookup_found_left {s t : State} {id i : Nat} {mode : Mode} {band : Nat} (found : lookup id mode band s = (.found i, t)) :
    findEntry (StoreEntry.holds .ready ⟨s.wfs.generation, mode, band⟩) t = some i := by
  cases active : s.wfs.active with
  | none =>
    rw [lookup, active] at found
    exact nomatch found
  | some im =>
    rw [lookup_eq active] at found
    dsimp only at found
    cases h : findEntry (StoreEntry.holds .ready ⟨s.wfs.generation, mode, band⟩)
        (dropOtherHold id ⟨s.wfs.generation, mode, band⟩ s) with
    | some j =>
      rw [h] at found
      obtain ⟨answer, rfl⟩ := Prod.mk.inj found
      rw [h, LookupAnswer.found.inj answer]
    | none =>
      rw [h] at found
      dsimp only at found
      split at found
      · exact nomatch found
      · split at found <;> exact nomatch found

/-! ### The scan entry by entry (R63, R65, R67) -/

theorem scanEntry_listed {s : State} {id : Nat} {e : Entry} (listed : findListed id s = some e) : scanEntry id s =
    if isBlocked s.upe.list e = true then (false, s)
    else match findListed id (if e.st = .none then keyOrSample e s else s) with
      | some f => match f.st with
        | .noRoom | .keyed => eligible f (if e.st = .none then keyOrSample e s else s)
        | .none | .sampling | .loading => (false, if e.st = .none then keyOrSample e s else s)
      | none => (false, if e.st = .none then keyOrSample e s else s) := by
  rw [scanEntry, listed] <;> rfl

theorem scanEntry_tested {s : State} {id : Nat} {e : Entry} (listed : findListed id s = some e)
    (free : isBlocked s.upe.list e = false) (st : e.st = .keyed ∨ e.st = .noRoom) : scanEntry id s = eligible e s := by
  have named : e.st ≠ .none := by rcases st with h | h <;> rw [h] <;> decide
  rw [scanEntry_listed listed, if_neg (by simp [free]), if_neg named, listed]
  rcases st with h | h <;> simp only [h]

theorem scanEntry_passed {s : State} {id : Nat} {e : Entry} (listed : findListed id s = some e)
    (passed : e.st = .sampling ∨ e.st = .loading ∨ isBlocked s.upe.list e = true) : scanEntry id s = (false, s) := by
  rw [scanEntry_listed listed]
  by_cases blocked : isBlocked s.upe.list e = true
  · rw [if_pos blocked]
  · have st : e.st = .sampling ∨ e.st = .loading := by tauto
    have named : e.st ≠ .none := by rcases st with h | h <;> rw [h] <;> decide
    rw [if_neg blocked, if_neg named, listed]
    rcases st with h | h <;> simp only [h]

/-- An entry in NONE is met as what its choice of a key makes of it. -/
theorem scanEntry_keying {s : State} {id : Nat} {e f : Entry} (listed : findListed id s = some e)
    (free : isBlocked s.upe.list e = false) (none : e.st = .none) (left : findListed id (keyOrSample e s) = some f) :
    scanEntry id s = match f.st with
      | .noRoom | .keyed => eligible f (keyOrSample e s)
      | .none | .sampling | .loading => (false, keyOrSample e s) := by
  rw [scanEntry_listed listed, if_neg (by simp [free]), if_pos none, left]

theorem waitOk_congr (e : Entry) {s t : State} (lanes : t.upe.lanes = s.upe.lanes) : waitOk e t = waitOk e s := by
  rw [waitOk, waitOk, lanes]

theorem waitOk_lookupFor (e : Entry) (id : Nat) (mode : Mode) (band : Nat) (note : Bool) (s : State) :
    waitOk e (lookupFor id mode band note s).2 = waitOk e s := by
  obtain ⟨l, r, n, q, frame⟩ := lookupFor_frame id mode band note s
  exact waitOk_congr e (by rw [frame])

theorem eligible_true_iff {e : Entry} {k : StoreKey} (s : State) (key : e.key = some k) : (eligible e s).1 = true ↔
    mayAdmit s = true ∧ waitOk e s = true ∧ s.wfs.active ≠ none ∧
      ∃ j, j < 4 ∧ (s.store j).state = .ready ∧ (s.store j).stale = false ∧
        (s.store j).key = some ⟨s.wfs.generation, (decideMode e s).1, k.band⟩ := by
  rw [eligible, key]
  dsimp only
  by_cases may : mayAdmit s = true
  · rw [if_pos may]
    have asked := lookup_isFound (s := s) e.id (decideMode e s).1 k.band
    have answer : (lookupFor e.id (decideMode e s).1 k.band (decideMode e s).2 s).1 = (lookup e.id (decideMode e s).1 k.band s).1 := rfl
    rw [← answer] at asked
    have wait := waitOk_lookupFor e e.id (decideMode e s).1 k.band (decideMode e s).2 s
    rw [← asked]
    split
    · next i t h =>
      rw [h] at wait
      simp [may, h, wait]
    · next a t notFound h =>
      simp only [may, true_and, Bool.false_eq_true, false_iff, not_and]
      rintro - ⟨i, found⟩
      rw [h] at found
      exact notFound i found
  · rw [if_neg may]
    simp [may]

/-- The entry that a test finds eligible is keyed to a READY table, with the conditions of R67 holding in the state the test
leaves. -/
theorem eligible_true {e : Entry} {s t : State} (listed : findListed e.id s = some e) (free : isBlocked s.upe.list e = false)
    (test : eligible e s = (true, t)) : ∃ f k i, findListed e.id t = some f ∧ f.key = some k ∧
      findEntry (StoreEntry.holds .ready k) t = some i ∧ isBlocked t.upe.list f = false ∧ mayAdmit t = true ∧ waitOk f t = true := by
  unfold eligible at test
  split at test
  · exact nomatch test
  · next k key =>
    dsimp only at test
    split at test
    · next may =>
      have found := findListed_lookupFor listed (decideMode e s).1 k.band (decideMode e s).2
      have only := scanOnly_lookupFor e.id (decideMode e s).1 k.band (decideMode e s).2 s
      obtain ⟨l, r, n, q, frame⟩ := lookupFor_frame e.id (decideMode e s).1 k.band (decideMode e s).2 s
      split at test
      · next i u h =>
        obtain ⟨wait, rfl⟩ := Prod.mk.inj test
        rw [h] at found only frame
        dsimp only at found only frame
        have answer : (lookup e.id (decideMode e s).1 k.band s).1 = .found i := (congrArg Prod.fst h :)
        have left := lookup_found_left (Prod.ext answer rfl : lookup e.id (decideMode e s).1 k.band s = (.found i, _))
        have after : setEntry e.id _ (lookup e.id (decideMode e s).1 k.band s).2 = u := congrArg Prod.snd h
        refine ⟨_, _, i, found, rfl, ?_, ?_, ?_, wait⟩
        · rw [← after]
          exact left
        · exact (isBlocked_congr only.1 rfl).trans free
        · rw [frame]
          exact may
      · exact nomatch test
    · exact nomatch test

theorem keyOrSample_request (e : Entry) (s : State) :
    (keyOrSample e s).upe.list.map Entry.request = s.upe.list.map Entry.request := (scanOnly_keyOrSample e s).1

/-- An entry the scan finds eligible is keyed to a READY table, with the conditions of R67 holding in the state it leaves. -/
theorem scanEntry_true {s t : State} {id : Nat} (met : scanEntry id s = (true, t)) : ∃ f k i, findListed id t = some f ∧
    f.key = some k ∧ findEntry (StoreEntry.holds .ready k) t = some i ∧ isBlocked t.upe.list f = false ∧ mayAdmit t = true ∧
    waitOk f t = true := by
  cases listed : findListed id s with
  | none =>
    rw [scanEntry, listed] at met
    exact nomatch met
  | some e =>
    rw [scanEntry_listed listed] at met
    split at met
    · exact nomatch met
    · next free =>
      have kept : (if e.st = .none then keyOrSample e s else s).upe.list.map Entry.request = s.upe.list.map Entry.request := by
        split
        · exact keyOrSample_request e s
        · rfl
      generalize (if e.st = .none then keyOrSample e s else s) = u at met kept
      split at met
      · next f left =>
        obtain ⟨g, again, request⟩ := findListed_congr kept listed
        obtain rfl := Option.some.inj (left.symm.trans again)
        have unblocked : isBlocked u.upe.list f = false :=
          (isBlocked_congr kept request).trans (Bool.eq_false_of_not_eq_true free)
        have named := findListed_id left
        have test : eligible f u = (true, t) := by
          split at met
          · exact met
          · exact met
          · exact nomatch met
          · exact nomatch met
          · exact nomatch met
        exact named ▸ eligible_true (named.symm ▸ left) unblocked test
      · exact nomatch met

theorem scanList_some : ∀ (l : List Nat) {s t : State} {id : Nat}, scanList l s = (some id, t) → ∃ u, scanEntry id u = (true, t)
  | [], _, _, _, h => nomatch h
  | a :: l, s, t, id, h => by
    unfold scanList at h
    split at h
    · next u met =>
      obtain ⟨same, rfl⟩ := Prod.mk.inj h
      obtain rfl := Option.some.inj same
      exact ⟨s, met⟩
    · exact scanList_some l h

theorem requestTemp_frame (s : State) : ∃ m, requestTemp s = { s with meu := m } := by
  unfold requestTemp
  split
  · exact ⟨s.meu, rfl⟩
  · obtain ⟨a, tp, bp, e⟩ := adcKick_eq { s with meu.tempPlace := true }
    exact ⟨_, e⟩

/-- A sample is demanded (R63). -/
theorem demandSample_frame (s : State) : ∃ m, demandSample s = { s with upe.demand := true, meu := m } := by
  unfold demandSample
  split
  · next demanded => exact ⟨s.meu, by rw [← demanded]⟩
  · obtain ⟨m, e⟩ := requestTemp_frame { s with upe.demand := true }
    exact ⟨m, e⟩

/-- An unblocked entry in NONE goes to SAMPLING while the temperature is not fresh (R63). -/
theorem scanEntry_samples {s : State} {e : Entry} (listed : findListed e.id s = some e) (none : e.st = .none)
    (free : isBlocked s.upe.list e = false) (old : tempFresh s = false) : (scanEntry e.id s).1 = false ∧
    findListed e.id (scanEntry e.id s).2 = some { e with st := .sampling } ∧ (scanEntry e.id s).2.upe.demand = true := by
  obtain ⟨m, frame⟩ := demandSample_frame (setEntry e.id (fun x => { x with st := .sampling }) s)
  have keyed : keyOrSample e s = _ := (if_neg (by simp [old])).trans frame
  have left : findListed e.id (keyOrSample e s) = some { e with st := .sampling } := by
    rw [keyed]
    exact findListed_setEntry (fun _ => rfl) listed
  have met := scanEntry_keying listed free none left
  dsimp only at met
  rw [met]
  exact ⟨rfl, left, by rw [keyed]⟩

theorem lookup_image {s : State} {im : Image} (active : s.wfs.active = some im) (id : Nat) (mode : Mode) (band : Nat) :
    (lookup id mode band s).1 ≠ .noImage := by
  rw [lookup_eq active]
  dsimp only
  split
  · nofun
  · split
    · nofun
    · split <;> nofun

theorem selectBand_upe (im : Image) (t : Int) (s : State) : (selectBand im t s).2.upe = s.upe :=
  (congrArg State.upe (selectBand_frame im t s) :)

theorem selectBand_wfs (im : Image) (t : Int) (s : State) :
    { (selectBand im t s).2.wfs with history := s.wfs.history } = s.wfs := (congrArg State.wfs (selectBand_frame im t s) :)

/-- An unblocked entry in NONE chooses its key with the temperature fresh, and is then met as an entry with a key (R65). -/
theorem scanEntry_keys {s : State} {e : Entry} (listed : findListed e.id s = some e) (none : e.st = .none)
    (free : isBlocked s.upe.list e = false) (fresh : tempFresh s = true) {im : Image} {x : TempSample}
    (active : s.wfs.active = some im) (sample : s.meu.temperature = some x) :
    let r := lookupFor e.id (decideMode e s).1 (selectBand im x.value s).1 (decideMode e s).2 (selectBand im x.value s).2
    scanEntry e.id s = scanEntry e.id r.2 ∧ findListed e.id r.2 = some { e with
      st := r.1.st, key := some ⟨s.wfs.generation, (decideMode e s).1, (selectBand im x.value s).1⟩, note := (decideMode e s).2
      again := false } := by
  intro r
  have wfs := selectBand_wfs im x.value s
  have generation : (selectBand im x.value s).2.wfs.generation = s.wfs.generation := (congrArg Wfs.generation wfs :)
  have image : (selectBand im x.value s).2.wfs.active = some im := (congrArg Wfs.active wfs :).trans active
  have banded : findListed e.id (selectBand im x.value s).2 = some e := by
    rw [findListed, selectBand_upe]
    exact listed
  have found := findListed_lookupFor banded (decideMode e s).1 (selectBand im x.value s).1 (decideMode e s).2
  rw [generation] at found
  have keyed : keyOrSample e s = r.2 := by
    rw [keyOrSample, if_pos fresh, chooseKey, active, sample]
  have met := scanEntry_keying listed free none (keyed ▸ found)
  let f : Entry := { e with
    st := r.1.st, key := some ⟨s.wfs.generation, (decideMode e s).1, (selectBand im x.value s).1⟩, note := (decideMode e s).2
    again := false }
  have blocked : isBlocked r.2.upe.list f = false := (isBlocked_congr (keyed ▸ keyOrSample_request e s) (f := e) rfl).trans free
  refine ⟨?_, found⟩
  rw [met, keyed]
  show (match f.st with
    | .noRoom | .keyed => eligible f r.2
    | .none | .sampling | .loading => (false, r.2)) = scanEntry f.id r.2
  cases answer : r.1 with
  | found i =>
    have st : f.st = .keyed := congrArg LookupAnswer.st answer
    rw [scanEntry_tested found blocked (.inl st), st]
  | loading =>
    have st : f.st = .loading := congrArg LookupAnswer.st answer
    rw [scanEntry_passed found (.inr (.inl st)), st]
  | noRoom =>
    have st : f.st = .noRoom := congrArg LookupAnswer.st answer
    rw [scanEntry_tested found blocked (.inr st), st]
  | noImage => exact absurd answer (lookup_image image e.id _ _)

/-! ### Admission (R68, R69, R82) -/

/-- The marks of waiting updates aside. -/
def Entry.unmarked (e : Entry) : Entry := { e with again := false }

theorem clearHolder_unmarked (id : Nat) (k : Option StoreKey) (s : State) :
    (clearHolder id k s).upe.list.map Entry.unmarked = s.upe.list.map Entry.unmarked := by
  unfold clearHolder
  dsimp only
  split
  · show (s.upe.list.map _).map Entry.unmarked = _
    rw [List.map_map]
    exact List.map_congr_left fun e _ => by simp only [Function.comp_apply]; split <;> rfl
  · rfl

theorem leaveList_unmarked (id : Nat) (s : State) : (leaveList id s).upe.list.map Entry.unmarked =
    (s.upe.list.filter fun e => e.id != id).map Entry.unmarked := by
  obtain ⟨x, idle⟩ := idleCheck_eq (ask .panel (clearHolder id none { s with upe.list := s.upe.list.filter fun e => e.id != id }))
  rw [leaveList, idle]
  show (ask .panel _).upe.list.map _ = _
  rw [ask_upe]
  exact clearHolder_unmarked _ _ _

/-- With a lane in use an update that leaves the list stops the idle hold (R99). -/
theorem leaveList_idleTimer (id : Nat) (s : State) (busy : ∃ l ∈ s.upe.lanes, l.state ≠ .free) :
    (leaveList id s).pss.idleTimer = if s.pss.rail = .on then none else s.pss.idleTimer := by
  have frame : ∀ k t, (clearHolder id k t).pss = t.pss ∧ (clearHolder id k t).upe.lanes = t.upe.lanes := fun k t => by
    unfold clearHolder
    dsimp only
    split <;> exact ⟨rfl, rfl⟩
  obtain ⟨pss, lanes⟩ := frame none { s with upe.list := s.upe.list.filter fun e => e.id != id }
  rw [leaveList]
  by_cases on : s.pss.rail = .on
  · have used : ¬∀ l ∈ s.upe.lanes, l.state = .free := fun all => busy.elim fun l h => h.2 (all l h.1)
    rw [idleCheck_on (by rw [ask_pss, pss]; exact on), if_pos on]
    show State.idleHeld _ = none
    rw [State.idleHeld, ask_upe, lanes, if_neg fun h => used h.1]
  · rw [idleCheck, if_neg (by rw [ask_pss, pss]; exact on), if_neg on, ask_pss, pss]

theorem turnAdmitted_ktu (old : Option Page) (s t : State) (ktu : t.ktu = s.ktu) :
    turnAdmitted old t = { t with ktu := (turnAdmitted old s).ktu } := by
  unfold turnAdmitted
  rw [ktu]
  cases s.ktu.turnRec with
  | none => dsimp only; rw [← ktu]
  | some r =>
    obtain ⟨d, p, o, x⟩ := r
    cases d <;> cases old <;> rfl

/-- A full-screen admission, made from a state that agrees with `s` in what it reads. -/
theorem fullAdmission_eq (e : Entry) (mode : Mode) {s w : State} (ktu : w.ktu = s.ktu) (cadence : w.upe.cadence = s.upe.cadence)
    (current : w.upe.current = s.upe.current) : fullAdmission e mode w = { w with
      upe.cadence := cadenceAfter mode s.upe.cadence, upe.current := pageAfter e
      ktu := if e.origin = .turn then (turnAdmitted s.upe.current s).ktu else s.ktu } := by
  unfold fullAdmission
  dsimp only
  rw [cadence, current]
  by_cases turn : e.origin = .turn
  · rw [if_pos turn, if_pos turn]
    exact turnAdmitted_ktu _ s _ ktu
  · rw [if_neg turn, if_neg turn, ← ktu]

/-- What the admission of a keyed entry leaves before the rails rise and the pass begins. -/
def admitted (e : Entry) (k : StoreKey) (i n : Nat) (s : State) : State :=
  let w := leaveList e.id (bindEntry i e.id (s.setLane n (armLane e k i s)))
  if e.rect.isFull s.cfg.width s.cfg.height then fullAdmission e k.mode w else w

theorem admitEntry_eq (e : Entry) (k : StoreKey) (i n : Nat) (s : State) : admitEntry e k i n s =
    abandonTest (scan (ask .panel (beginPass (.admission n) (railsRise (admitted e k i n s))))) := rfl

theorem admitted_eq (e : Entry) (k : StoreKey) (i n : Nat) (s : State) :
    let full := e.rect = ⟨0, 0, s.cfg.width, s.cfg.height⟩
    admitted e k i n s = { leaveList e.id (bindEntry i e.id (s.setLane n (armLane e k i s))) with
      upe.cadence := if full then cadenceAfter k.mode s.upe.cadence else s.upe.cadence
      upe.current := if full then pageAfter e else s.upe.current
      ktu := if full ∧ e.origin = .turn then (turnAdmitted s.upe.current s).ktu else s.ktu } := by
  intro full
  obtain ⟨l, x, ws, q, -, -, left⟩ := leaveList_eq e.id (bindEntry i e.id (s.setLane n (armLane e k i s)))
  have whole : e.rect.isFull s.cfg.width s.cfg.height = true ↔ full := beq_iff_eq
  unfold admitted
  have ktu := (congrArg State.ktu left :)
  have cadence := (congrArg (fun x : State => x.upe.cadence) left :)
  have current := (congrArg (fun x : State => x.upe.current) left :)
  generalize leaveList e.id (bindEntry i e.id (s.setLane n (armLane e k i s))) = w at *
  change w.ktu = s.ktu at ktu
  change w.upe.cadence = s.upe.cadence at cadence
  change w.upe.current = s.upe.current at current
  dsimp only
  by_cases f : full
  · rw [if_pos (whole.mpr f), if_pos f, if_pos f, fullAdmission_eq e k.mode ktu cadence current]
    simp only [f, true_and]
  · rw [if_neg (mt whole.mp f), if_neg f, if_neg f, if_neg fun h => f h.1, ← ktu, ← cadence, ← current]

theorem bindEntry_store {s : State} {i : Nat} (inside : i < s.wfs.entries.length) (id j : Nat) : (bindEntry i id s).store j =
    if j = i then { s.store i with
      refs := (s.store i).refs + 1, stamp := s.partTime
      holder := if (s.store i).holder = some id then none else (s.store i).holder }
    else s.store j := by
  unfold bindEntry State.setStore State.store
  dsimp only
  by_cases same : j = i
  · subst same
    rw [if_pos rfl]
    simp [List.getD_eq_getElem?_getD, inside]
  · rw [if_neg same]
    simp [List.getD_eq_getElem?_getD, Ne.symm same]

theorem admission_eligible {s s1 : State} {id n i : Nat} {e : Entry} {k : StoreKey} (scanned : scanFor s = (some id, s1))
    (listed : findListed id s1 = some e) (key : e.key = some k) (free : freeLaneNumber s1 = some n)
    (found : findEntry (StoreEntry.holds .ready k) s1 = some i) : admission s = admitEntry e k i n s1 := by
  simp only [admission, scanned, listed, key, free, found]

theorem freeLaneNumber_some {s : State} {n : Nat} (free : freeLaneNumber s = some n) :
    (s.lane n).state = .free ∧ ∀ m, m < n → (s.lane m).state ≠ .free := by
  rw [freeLaneNumber, List.find?_range_eq_some] at free
  obtain ⟨is, -, lower⟩ := free
  exact ⟨(isFree_iff _).mp is, fun m below h => by simpa [(isFree_iff _).mpr h] using lower m below⟩

/-- The store entries after an admission (R46, R68). -/
theorem admitted_store {e : Entry} {k : StoreKey} {i : Nat} {s : State} (found : findEntry (StoreEntry.holds .ready k) s = some i)
    (n j : Nat) : (admitted e k i n s).store j = { s.store j with
      refs := if j = i then (s.store j).refs + 1 else (s.store j).refs
      stamp := if j = i then s.partTime else (s.store j).stamp
      holder := if (s.store j).holder = some e.id then none else (s.store j).holder } := by
  obtain ⟨-, ready, -⟩ := findEntry_some.mp found
  have inside : i < s.wfs.entries.length := by
    by_contra outside
    rw [State.store, List.getD_eq_default _ _ (Nat.not_lt.mp outside)] at ready
    exact absurd ready (by simp [StoreEntry.holds])
  obtain ⟨l, x, ws, q, -, -, left⟩ := leaveList_eq e.id (bindEntry i e.id (s.setLane n (armLane e k i s)))
  have bound : (bindEntry i e.id (s.setLane n (armLane e k i s))).store j = if j = i then { s.store i with
      refs := (s.store i).refs + 1, stamp := s.partTime
      holder := if (s.store i).holder = some e.id then none else (s.store i).holder } else s.store j :=
    bindEntry_store (s := s.setLane n (armLane e k i s)) inside e.id j
  rw [admitted_eq]
  refine (store_map_unheld e.id j (bindEntry i e.id (s.setLane n (armLane e k i s))) (congrArg (fun x : State => x.wfs.entries) left :)).trans ?_
  rw [bound]
  by_cases same : j = i
  · subst same
    by_cases h : (s.store j).holder = some e.id <;> simp [StoreEntry.unheld, h]
  · simp only [if_neg same, StoreEntry.unheld]

/-- Settles O35. -/
theorem eligibleEntryIsAdmitted : Obligations.EligibleEntryIsAdmitted := by
  refine ⟨fun s s1 id n i e k scanned listed key free found => ?_, fun s none => congrArg done ?_, fun s s1 id scanned => ?_,
    fun s e listed => ⟨fun k key st => ?_, fun passed => scanEntry_passed listed passed,
      fun none free old => scanEntry_samples listed none free old⟩,
    fun s e listed none free fresh => ⟨fun image => ?_, fun im x active sample => ?_⟩,
    fun im t s => ⟨selectBand_posted im t s, selectBand_frame im t s⟩, tempFresh_iff,
    fun s e => ⟨mayAdmit_iff s, waitOk_iff e s, decideMode_eq e s⟩, fun e older younger others => isBlocked_iff younger others,
    fun a b aw ah bw bh => intersects_iff aw ah bw bh⟩
  · intro full
    obtain ⟨l, x, ws, q, -, -, left⟩ := leaveList_eq e.id (bindEntry i e.id (s1.setLane n (armLane e k i s1)))
    refine ⟨freeLaneNumber_some free, admitted e k i n s1,
      congrArg done ((admission_eligible scanned listed key free found).trans (admitEntry_eq e k i n s1)), ?_, ?_,
      admitted_store found n, ?_, ?_, ?_, fun inside => ?_, ?_⟩
    · rw [admitted_eq]
      exact (congrArg (fun x : State => x.upe.lanes) left :)
    · rw [admitted_eq]
      exact leaveList_unmarked e.id _
    · rw [admitted_eq]
      by_cases f : full
      · dsimp only
        rw [if_pos f, if_pos f]
        cases k.mode <;> rfl
      · exact (if_neg f).trans (if_neg f).symm
    · have page : pageAfter e = e.tag.map fun x => Page.mk x e.source e.stride := by
        unfold pageAfter
        cases e.tag <;> rfl
      rw [admitted_eq, page]
    · rw [admitted_eq]
    · rw [admitted_eq]
      refine leaveList_idleTimer e.id _ ⟨armLane e k i s1, List.mem_set inside _, ?_⟩
      exact (nofun : LaneState.arming ≠ .free)
    · rw [admitted_eq, left]
      rfl
  · rw [admission]
    split
    · rfl
    · next id s1 h => rw [h] at none; exact nomatch none
  · obtain ⟨u, met⟩ := scanList_some _ scanned
    exact scanEntry_true met
  · rw [← eligible_true_iff s key]
    by_cases free : isBlocked s.upe.list e = true
    · rw [scanEntry_passed listed (.inr (.inr free))]
      simp [free]
    · rw [scanEntry_tested listed (Bool.eq_false_of_not_eq_true free) st]
      simp [free]
  · have keyed : keyOrSample e s = s := by rw [keyOrSample, if_pos fresh, chooseKey, image]
    rw [scanEntry_keying listed free none (keyed.symm ▸ listed), none, keyed]
  · intro m b r
    obtain ⟨met, found⟩ := scanEntry_keys listed none free fresh active sample
    refine ⟨met, found.trans (congrArg (fun st => some { e with
      st := st, key := some ⟨s.wfs.generation, m.1, b.1⟩, note := m.2, again := false }) ?_)⟩
    show r.1.st = _
    cases r.1 <;> rfl

end Sys2Proof.Machine
end

section
/-! Pixel records, drive codes and the rows of a pass (sections 3.1, 4.2, 4.7). -/

set_option Elab.async false

namespace Sys2Proof.Machine

/-! ### The fields of a pixel record (section 11.6) -/

section
variable (c t : BitVec 4) (l : BitVec 5) (m : Bool) (r : BitVec 16)

theorem mkPixel_toNat : (mkPixel c t l m).toNat = c.toNat + 16 * t.toNat + 256 * l.toNat + 8192 * m.toNat := by
  have := c.isLt; have := t.isLt; have := l.isLt
  have tc : (t ++ c).toNat = t.toNat * 16 + c.toNat := by
    rw [BitVec.toNat_append, ← Nat.shiftLeft_add_eq_or_of_lt (by omega), Nat.shiftLeft_eq]
  have ltc : (l ++ (t ++ c)).toNat = l.toNat * 256 + (t.toNat * 16 + c.toNat) := by
    rw [BitVec.toNat_append, tc, ← Nat.shiftLeft_add_eq_or_of_lt (by omega), Nat.shiftLeft_eq]
  have mark : (0#2 ++ BitVec.ofBool m).toNat = m.toNat := by cases m <;> rfl
  rw [mkPixel, BitVec.toNat_append, mark, ltc, ← Nat.shiftLeft_add_eq_or_of_lt (by omega), Nat.shiftLeft_eq]
  omega

theorem pixCurrent_toNat : (pixCurrent r).toNat = r.toNat % 16 := by simp [pixCurrent]
theorem pixTarget_toNat : (pixTarget r).toNat = r.toNat / 16 % 16 := by simp [pixTarget, Nat.shiftRight_eq_div_pow]
theorem pixLane_toNat : (pixLane r).toNat = r.toNat / 256 % 32 := by simp [pixLane, Nat.shiftRight_eq_div_pow]
theorem pixMarked_toNat : (pixMarked r).toNat = r.toNat / 8192 % 2 := by
  rw [pixMarked, BitVec.getLsbD, Nat.testBit_eq_decide_div_mod_eq]
  rcases Nat.mod_two_eq_zero_or_one (r.toNat / 8192) with h | h <;> simp [h]

theorem toNat_inj {a b : Bool} (h : a.toNat = b.toNat) : a = b := by
  cases a <;> cases b <;> simp_all

@[simp] theorem pixCurrent_mkPixel : pixCurrent (mkPixel c t l m) = c := by
  have := c.isLt; have := Bool.toNat_lt m
  exact BitVec.eq_of_toNat_eq (by rw [pixCurrent_toNat, mkPixel_toNat]; omega)

@[simp] theorem pixTarget_mkPixel : pixTarget (mkPixel c t l m) = t := by
  have := c.isLt; have := t.isLt
  exact BitVec.eq_of_toNat_eq (by rw [pixTarget_toNat, mkPixel_toNat]; omega)

@[simp] theorem pixLane_mkPixel : pixLane (mkPixel c t l m) = l := by
  have := c.isLt; have := t.isLt; have := l.isLt
  exact BitVec.eq_of_toNat_eq (by rw [pixLane_toNat, mkPixel_toNat]; omega)

@[simp] theorem pixMarked_mkPixel : pixMarked (mkPixel c t l m) = m := by
  have := c.isLt; have := t.isLt; have := l.isLt; have := Bool.toNat_lt m
  exact toNat_inj (by rw [pixMarked_toNat, mkPixel_toNat]; omega)

theorem keepPixel_toNat : (keepPixel r).toNat = r.toNat % 16384 := by
  rw [keepPixel, BitVec.toNat_and]
  exact Nat.and_two_pow_sub_one_eq_mod r.toNat 14

@[simp] theorem pixCurrent_keepPixel : pixCurrent (keepPixel r) = pixCurrent r :=
  BitVec.eq_of_toNat_eq (by rw [pixCurrent_toNat, pixCurrent_toNat, keepPixel_toNat]; omega)

@[simp] theorem pixTarget_keepPixel : pixTarget (keepPixel r) = pixTarget r :=
  BitVec.eq_of_toNat_eq (by rw [pixTarget_toNat, pixTarget_toNat, keepPixel_toNat]; omega)

@[simp] theorem pixMarked_keepPixel : pixMarked (keepPixel r) = pixMarked r :=
  toNat_inj (by rw [pixMarked_toNat, pixMarked_toNat, keepPixel_toNat]; omega)

/-- A record that is not marked for its owner keeps its levels and loses its mark (R75, R80). -/
theorem sweepPixel_fields : pixMarked (sweepPixel r) = false ∧ pixCurrent (sweepPixel r) = pixCurrent r ∧
    pixTarget (sweepPixel r) = pixTarget r ∧ (sweepPixel r).toNat < 16384 := by
  rw [sweepPixel]
  split
  · have := (pixCurrent r).isLt; have := (pixTarget r).isLt; have := (Config.unmarkedLane r).isLt
    refine ⟨by simp [clearMark], by simp [clearMark], by simp [clearMark], ?_⟩
    rw [clearMark, mkPixel_toNat]
    simp only [Bool.toNat_false]
    omega
  · next unmarked => exact ⟨by simpa using unmarked, by simp, by simp, by rw [keepPixel_toNat]; omega⟩

end

/-! ### The decision of a pixel and its retirement (R34, R75, R78) -/

theorem driveQuery_eq (e : StoreEntry) (f s d : Nat) : driveQuery e f s d =
    if e.frames ≤ f then .hold
    else if u8 (e.table.getD f []) ((s * 16 + d) / 4) / 4 ^ ((s * 16 + d) % 4) % 4 = 1 then .darken
    else if u8 (e.table.getD f []) ((s * 16 + d) / 4) / 4 ^ ((s * 16 + d) % 4) % 4 = 2 then .lighten else .hold := by
  rw [driveQuery]
  generalize u8 (e.table.getD f []) ((s * 16 + d) / 4) / 4 ^ ((s * 16 + d) % 4) % 4 = code
  match code with
  | 0 => rfl
  | 1 => rfl
  | 2 => rfl
  | _ + 3 => rfl

theorem newLevel_eq (mode : Mode) (s : BitVec 4) :
    newLevel mode s = if mode = .quick then (if s.toNat < 8 then 0#4 else 15#4) else s := by
  cases mode with
  | clear | gray => rfl
  | quick =>
    rw [newLevel, if_pos rfl]
    by_cases dark : s.toNat < 8
    · rw [if_neg (by omega), if_pos dark]
      rfl
    · rw [if_pos (by omega), if_neg dark]
      rfl

section
variable {live : Nat → Bool} {lane : Nat} {mode : Mode} {src : BitVec 4} {r : BitVec 16}

/-- A mark of another lane that is not FREE. -/
def OthersPixel (live : Nat → Bool) (lane : Nat) (r : BitVec 16) : Prop :=
  pixMarked r = true ∧ (pixLane r).toNat ≠ lane ∧ live (pixLane r).toNat = true

theorem decidePixel_collided (h : OthersPixel live lane r) :
    decidePixel live lane mode src r = (.collided, keepPixel r) := by
  obtain ⟨marked, foreign, isLive⟩ := h
  simp [decidePixel, marked, foreign, isLive]

theorem decidePixel_own (h : ¬OthersPixel live lane r) : decidePixel live lane mode src r =
    if mode = .clear ∨ newLevel mode src ≠ pixCurrent r then
      (.marked, mkPixel (pixCurrent r) (newLevel mode src) (BitVec.ofNat 5 lane) true)
    else (.left, sweepPixel r) := by
  have : ¬(pixMarked r && (pixLane r).toNat != lane && live (pixLane r).toNat) = true := by
    simpa [OthersPixel, and_assoc] using h
  rw [decidePixel, if_neg this]
  rfl

theorem retirePixel_own {aborted : Bool} (h : pixMarked r = true ∧ (pixLane r).toNat = lane) : retirePixel lane aborted r =
    if aborted then clearMark r else mkPixel (pixTarget r) (pixTarget r) (Config.unmarkedLane r) false := by
  rw [retirePixel, if_pos (by simp [h.1, h.2])]

theorem retirePixel_other {aborted : Bool} (h : ¬(pixMarked r = true ∧ (pixLane r).toNat = lane)) :
    retirePixel lane aborted r = keepPixel r := by
  rw [retirePixel, if_neg (by simpa using h)]

end

/-! ### The rows of a pass (R74, R75, R78, R80) -/

theorem complete_pixel {b : Burst} (user : b.user = .pixel) (live : b.fate = .live) (data : List Byte) (s : State) :
    complete b .okay data s = passOkay data s := by
  rw [complete_okay live, user]
  rfl

section
variable {s : State} {p : Pass} {data : List Byte} (at_ : s.upe.pass = some p)

include at_

theorem passOkay_more (reads : p.phase ≠ .writeBack) (more : p.left ≠ []) :
    passOkay data s = { s with upe.pass := some { p with got := p.got ++ data } } := by
  have some_ : p.left.isEmpty = false := by simpa using more
  unfold passOkay
  rw [at_]
  dsimp only
  cases h : p.phase with
  | source => dsimp only; rw [some_]; rfl
  | segment => dsimp only; rw [some_]; rfl
  | writeBack => exact absurd h reads

theorem passOkay_source (source : p.phase = .source) (last : p.left = []) : passOkay data s = { s with
      upe.pass := some { p with phase := .segment, src := p.got ++ data, got := [], left := blocks (rowAddr p s) (2 * (passRect p s).w) } } := by
  unfold passOkay
  rw [at_]
  dsimp only
  rw [source]
  dsimp only
  rw [last]
  rfl

theorem passOkay_segment (segment : p.phase = .segment) (last : p.left = []) :
    passOkay data s = judgeRow { p with got := p.got ++ data } s := by
  unfold passOkay
  rw [at_]
  dsimp only
  rw [segment]
  dsimp only
  rw [last]
  rfl

theorem passOkay_back (back : p.phase = .writeBack) (more : p.out ≠ []) : passOkay data s = s := by
  have some_ : p.out.isEmpty = false := by simpa using more
  unfold passOkay
  rw [at_]
  dsimp only
  rw [back]
  dsimp only
  rw [some_]
  rfl

theorem passOkay_rowDone (back : p.phase = .writeBack) (last : p.out = []) : passOkay data s = nextRow p s := by
  unfold passOkay
  rw [at_]
  dsimp only
  rw [back]
  dsimp only
  rw [last]
  rfl

end

theorem passRect_eq (p : Pass) (s : State) : passRect p s = (match p.kind with
    | .admission i => (s.lane i).rect
    | .retire i => (s.lane i).rect
    | .sweep _ _ => ⟨0, 0, p.geom.w, p.geom.h⟩) := by
  unfold passRect
  cases p.kind <;> rfl

theorem rowAddr_eq (p : Pass) (s : State) : rowAddr p s = p.geom.addr + 2 * (p.row * p.geom.w + (passRect p s).x) := rfl

theorem laneLive_eq (s : State) (n : Nat) : laneLive s n = ((s.lane n).state != .free) := rfl

/-- The counts of an admission pass leave its rectangle. -/
theorem passRect_counted {p : Pass} {s : State} {i : Nat} (kind : p.kind = .admission i) (m c : Nat) :
    passRect p (s.setLane i { s.lane i with marked := m, collided := c }) = passRect p s := by
  rw [passRect_eq, passRect_eq, kind]
  dsimp only
  by_cases within : i < s.upe.lanes.length
  · simp [State.lane, State.setLane, within]
  · simp [State.lane, State.setLane, within]

theorem mapPixels_eq (f : BitVec 16 → BitVec 16) (w : Nat) (seg : List Byte) :
    mapPixels f w seg = pixBytes ((List.range w).map fun k => f (pixAt seg k)) := rfl

theorem writeSegment_eq (bytes : List Byte) (p : Pass) (s : State) : writeSegment bytes p s =
    { p with phase := .writeBack, got := [], left := [], out := writeBlocks (rowAddr p s) bytes } := rfl

theorem judgeRow_admission {p : Pass} {i : Nat} (kind : p.kind = .admission i) (s : State) :
    let d := decideRow (laneLive s) i (s.lane i).mode (passRect p s).w p.src p.got
    let l := s.lane i
    let n := fun (f : PixelFate) => countFate f d
    judgeRow p s = { s.setLane i { l with marked := l.marked + n .marked, collided := l.collided + n .collided } with
      upe.pass := some { writeSegment (pixBytes (d.map Prod.snd)) p s with marked := n .marked } } := by
  intro d l n
  unfold judgeRow
  rw [kind]
  dsimp only
  rw [writeSegment, rowAddr, passRect_counted kind]
  rfl

/-- The row after the one a pass has written back (R74). -/
theorem startRow_next (p : Pass) (s : State) :
    let q := startRow { p with row := p.row + 1 } s
    let r := passRect p s
    let a := p.geom.addr + 2 * (p.row * p.geom.w + r.x)
    q.kind = p.kind ∧ q.geom = p.geom ∧ q.row = p.row + 1 ∧ q.got = [] ∧ q.marked = 0 ∧
      (∀ i, p.kind = .admission i → q.phase = .source ∧ q.out = [] ∧
        q.left = blocks ((s.lane i).source + (p.row + 1 - r.y) * (s.lane i).stride) (r.w / 2)) ∧
      ((∃ i, p.kind = .retire i) ∨ (∃ st, p.kind = .sweep false st) → q.phase = .segment ∧ q.out = [] ∧
        q.left = blocks (a + 2 * p.geom.w) (2 * r.w)) ∧
      (∀ st, p.kind = .sweep true st → q.phase = .writeBack ∧ q.left = [] ∧
        q.out = writeBlocks (a + 2 * p.geom.w) (pixBytes (List.replicate p.geom.w 0x00FF))) := by
  have next (x : Nat) : p.geom.addr + 2 * ((p.row + 1) * p.geom.w + x) =
      p.geom.addr + 2 * (p.row * p.geom.w + x) + 2 * p.geom.w := by ring
  intro q r a
  cases kind : p.kind with
  | admission i => simp [q, r, kind, startRow, passRect]
  | retire i => simp [q, r, a, kind, startRow, readSegment, rowAddr, passRect, Geometry.pixelAddr, next]
  | sweep z st =>
    cases z with
    | false => simpa [q, r, a, kind, startRow, readSegment, rowAddr, passRect, Geometry.pixelAddr] using congrArg (blocks · _) (next 0)
    | true => simpa [q, r, a, kind, startRow, writeSegment, rowAddr, passRect, Geometry.pixelAddr] using congrArg (writeBlocks · _) (next 0)

/-- Settles O42: pixel by pixel from the record's fields, and row by row along the phases of a pass. -/
theorem pixelRules : Obligations.PixelRules := by
  refine ⟨driveQuery_eq, fun live lane mode src r small => ?_, fun lane aborted r => ?_,
    fun data s b p user isLive at_ => ?_⟩
  · intro other new d
    have level : newLevel mode src = new := newLevel_eq mode src
    refine ⟨fun foreign => ?_, fun own marks => ?_, fun own notClear same => ?_⟩
    · have e : d = _ := decidePixel_collided foreign
      rw [e]
      exact ⟨rfl, keepPixel_toNat r⟩
    · have e : d = (.marked, mkPixel (pixCurrent r) new (BitVec.ofNat 5 lane) true) := by
        rw [← level]
        exact (decidePixel_own own).trans (if_pos (by rwa [level]))
      rw [e]
      exact ⟨rfl, by simp, by simp, by simp; omega, by simp⟩
    · have e : d = (.left, sweepPixel r) :=
        (decidePixel_own own).trans (if_neg (by rw [level]; exact not_or.mpr ⟨notClear, not_not.mpr same⟩))
      obtain ⟨mark, current, target, _⟩ := sweepPixel_fields r
      rw [e]
      exact ⟨rfl, current, target, mark⟩
  · refine ⟨fun own => ?_, fun other => ?_⟩
    · rw [retirePixel_own own]
      cases aborted <;> simp [clearMark]
    · rw [retirePixel_other other, keepPixel_toNat]
  · intro t r a got back
    have e : t = passOkay data s := complete_pixel user isLive data s
    have rect : passRect p s = r := passRect_eq p s
    have addr : rowAddr p s = a := by rw [rowAddr_eq, rect]
    refine ⟨fun reads more => e.trans (passOkay_more at_ reads more), fun source last => ?_, fun i segment last kind => ?_,
      fun i segment last kind => ?_, fun z st segment last kind => ?_, fun writes more => e.trans (passOkay_back at_ writes more),
      fun writes last more => ?_⟩
    · rw [e, passOkay_source at_ source last, addr, rect]
    · intro l d n
      have rect' : passRect { p with got := got } s = r := rect
      refine ((e.trans (passOkay_segment at_ segment last)).trans (judgeRow_admission (p := { p with got := got }) kind s)).trans ?_
      rw [writeSegment_eq, rowAddr_eq, rect']
      rfl
    · rw [e, passOkay_segment at_ segment last]
      unfold judgeRow
      simp only [kind, writeSegment_eq, rowAddr_eq, passRect_eq, mapPixels_eq]
      simp only [r, a, kind, back]
      rfl
    · refine ⟨(List.range r.w).map fun k => sweepPixel (pixAt got k), ?_, by simp, fun k below => ?_⟩
      · rw [e, passOkay_segment at_ segment last]
        unfold judgeRow
        simp only [kind, writeSegment_eq, rowAddr_eq, passRect_eq, mapPixels_eq]
        simp only [r, a, kind, back]
        rfl
      · intro o q
        have is : q = sweepPixel o := by simp [q, below, o]
        rw [is]
        exact sweepPixel_fields o
    · rw [e, passOkay_rowDone at_ writes last]
      have row := startRow_next p s
      rw [rect] at row
      refine ⟨startRow { p with row := p.row + 1 } s, ?_, row⟩
      unfold nextRow
      rw [rect, if_pos more]

end Sys2Proof.Machine
end

section
/-! The Frame Scanner: the fetch order, the codes of a row, frame starts, line times and rows given up (sections 5.1 to 5.3). -/

set_option Elab.async false

namespace Sys2Proof.Machine

/-! ### The span of a row (R93) -/

theorem foldl_min_spec (l : List Nat) (a : Nat) :
    (∀ x ∈ a :: l, l.foldl min a ≤ x) ∧ ∃ x ∈ a :: l, l.foldl min a = x := by
  induction l generalizing a with
  | nil => simp
  | cons b l ih =>
    obtain ⟨below, x, isin, is⟩ := ih (min a b)
    refine ⟨fun y isin => ?_, ?_⟩
    · have := below (min a b) (by simp)
      rcases List.mem_cons.mp isin with rfl | isin
      · simp only [List.foldl_cons]; omega
      · rcases List.mem_cons.mp isin with rfl | isin
        · simp only [List.foldl_cons]; omega
        · exact below y (by simp [isin])
    · refine ⟨x, ?_, is⟩
      rcases List.mem_cons.mp isin with rfl | isin
      · rcases min_choice a b with e | e <;> simp [e]
      · simp [isin]

theorem foldl_max_spec (l : List Nat) (a : Nat) :
    (∀ x ∈ a :: l, x ≤ l.foldl max a) ∧ ∃ x ∈ a :: l, l.foldl max a = x := by
  induction l generalizing a with
  | nil => simp
  | cons b l ih =>
    obtain ⟨above, x, isin, is⟩ := ih (max a b)
    refine ⟨fun y isin => ?_, ?_⟩
    · have := above (max a b) (by simp)
      rcases List.mem_cons.mp isin with rfl | isin
      · simp only [List.foldl_cons]; omega
      · rcases List.mem_cons.mp isin with rfl | isin
        · simp only [List.foldl_cons]; omega
        · exact above y (by simp [isin])
    · refine ⟨x, ?_, is⟩
      rcases List.mem_cons.mp isin with rfl | isin
      · rcases max_choice a b with e | e <;> simp [e]
      · simp [isin]

/-- Lane `i` is of the frame's lane set and its rectangle meets the row. -/
def State.rowMeets (s : State) (row i : Nat) : Prop :=
  i ∈ s.fsc.laneSet ∧ (s.lane i).rect.y ≤ row ∧ row < (s.lane i).rect.y + (s.lane i).rect.h

theorem mem_rowRects {s : State} {row : Nat} {r : Rect} :
    r ∈ rowRects s row ↔ ∃ i, s.rowMeets row i ∧ (s.lane i).rect = r := by
  simp only [rowRects, Rect.meets, List.mem_filter, List.mem_map, Bool.and_eq_true, decide_eq_true_eq, State.rowMeets]
  constructor
  · rintro ⟨⟨i, isin, rfl⟩, top, bottom⟩
    exact ⟨i, ⟨isin, top, bottom⟩, rfl⟩
  · rintro ⟨i, ⟨isin, top, bottom⟩, rfl⟩
    exact ⟨⟨i, isin, rfl⟩, top, bottom⟩

theorem rowSpan_none {s : State} {row : Nat} : rowSpan s row = none ↔ ∀ i, ¬s.rowMeets row i := by
  have empty : rowSpan s row = none ↔ rowRects s row = [] := by
    unfold rowSpan
    cases rowRects s row <;> simp
  rw [empty, List.eq_nil_iff_forall_not_mem]
  exact ⟨fun h i meets => h _ (mem_rowRects.mpr ⟨i, meets, rfl⟩), fun h r isin => by
    obtain ⟨i, meets, _⟩ := mem_rowRects.mp isin
    exact h i meets⟩

theorem rowSpan_some {s : State} {row x n : Nat} (h : rowSpan s row = some (x, n)) :
    ((∀ i, s.rowMeets row i → x ≤ (s.lane i).rect.x) ∧ ∃ i, s.rowMeets row i ∧ x = (s.lane i).rect.x) ∧
    ((∀ i, s.rowMeets row i → (s.lane i).rect.x + (s.lane i).rect.w ≤ x + n) ∧
      ∃ i, s.rowMeets row i ∧ x + n = (s.lane i).rect.x + (s.lane i).rect.w) := by
  unfold rowSpan at h
  cases rects : rowRects s row with
  | nil =>
    rw [rects] at h
    exact nomatch h
  | cons r l =>
    rw [rects] at h
    obtain ⟨low, _, lowIn, lowIs⟩ := foldl_min_spec (l.map Rect.x) r.x
    obtain ⟨high, _, highIn, highIs⟩ := foldl_max_spec (l.map fun q => q.x + q.w) (r.x + r.w)
    have firstLow := low r.x (by simp)
    have firstHigh := high (r.x + r.w) (by simp)
    dsimp only at h
    generalize (l.map Rect.x).foldl min r.x = a at *
    generalize (l.map fun q => q.x + q.w).foldl max (r.x + r.w) = b at *
    obtain ⟨rfl, rfl⟩ : a = x ∧ b - a = n := by simpa using h
    subst lowIs highIs
    rw [show a + (b - a) = b by omega]
    have leaf {i : Nat} (meets : s.rowMeets row i) : (s.lane i).rect ∈ r :: l := rects ▸ mem_rowRects.mpr ⟨i, meets, rfl⟩
    refine ⟨⟨fun i meets => low _ ?_, ?_⟩, fun i meets => high _ ?_, ?_⟩
    · exact List.mem_map_of_mem (f := Rect.x) (leaf meets)
    · obtain ⟨q, isin, rfl⟩ := List.mem_map.mp (show a ∈ (r :: l).map Rect.x from lowIn)
      obtain ⟨i, meets, rfl⟩ := mem_rowRects.mp (rects ▸ isin)
      exact ⟨i, meets, rfl⟩
    · exact List.mem_map_of_mem (f := fun q : Rect => q.x + q.w) (leaf meets)
    · obtain ⟨q, isin, rfl⟩ := List.mem_map.mp (show b ∈ (r :: l).map (fun q : Rect => q.x + q.w) from highIn)
      obtain ⟨i, meets, rfl⟩ := mem_rowRects.mp (rects ▸ isin)
      exact ⟨i, meets, rfl⟩

/-! ### The fetch order (R93) -/

/-- A slot may be taken: fewer than four are in use, and none is FETCHING. -/
def State.fetchRoom (s : State) : Prop := s.fsc.slots.length < 4 ∧ ∀ q ∈ s.fsc.slots, q.filled = true ∨ q.givenUp = true

theorem fetchRoom_iff (s : State) :
    (decide (s.fsc.slots.length < 4) && !(s.fsc.slots.any LineSlot.fetching)) = true ↔ s.fetchRoom := by
  have still (q : LineSlot) : q.fetching = false ↔ q.filled = true ∨ q.givenUp = true := by
    cases h : q.filled <;> simp [LineSlot.fetching, h]
  simp [State.fetchRoom, still]

theorem rowSpan_withRow (s : State) (n : Nat) : rowSpan { s with fsc.fetchRow := n } = rowSpan s := rfl

theorem assignRows_past {s : State} (past : s.fsc.height ≤ s.fsc.fetchRow) (n : Nat) : assignRows n s = s := by
  cases n with
  | zero => rfl
  | succ n => rw [assignRows, if_pos past]

/-- Rows that no rectangle of the lane set meets are passed over. -/
theorem assignRows_skip (n k : Nat) (s : State) (idle : ∀ j < k, rowSpan s (s.fsc.fetchRow + j) = none)
    (within : s.fsc.fetchRow + k ≤ s.fsc.height) :
    assignRows (n + k) s = assignRows n { s with fsc.fetchRow := s.fsc.fetchRow + k } := by
  induction k generalizing s with
  | zero => rfl
  | succ k ih =>
    have first : rowSpan s s.fsc.fetchRow = none := idle 0 (by omega)
    rw [← Nat.add_assoc, assignRows, if_neg (by omega), first]
    dsimp only
    rw [ih { s with fsc.fetchRow := s.fsc.fetchRow + 1 }]
    · exact congrArg (fun r => assignRows n { s with fsc.fetchRow := r }) (by dsimp only; omega)
    · intro j below
      rw [rowSpan_withRow]
      exact (congrArg (rowSpan s) (by dsimp only; omega)).trans (idle (j + 1) (by omega))
    · show s.fsc.fetchRow + 1 + k ≤ s.fsc.height
      omega

theorem assignRows_take (n : Nat) {s : State} (within : s.fsc.fetchRow < s.fsc.height) {x c : Nat}
    (span : rowSpan s s.fsc.fetchRow = some (x, c)) :
    (¬s.fetchRoom → assignRows (n + 1) s = s) ∧
    (s.fetchRoom → assignRows (n + 1) s = { s with
      fsc.slots := s.fsc.slots ++ [newSlot s.geom s.fsc.fetchRow x c], fsc.fetchRow := s.fsc.fetchRow + 1 }) := by
  refine ⟨fun full => ?_, fun room => ?_⟩
  · rw [assignRows, if_neg (by omega), span]
    dsimp only
    rw [if_neg (mt (fetchRoom_iff s).mp full)]
  · rw [assignRows, if_neg (by omega), span]
    dsimp only
    rw [if_pos ((fetchRoom_iff s).mpr room)]

theorem assignSlots_running {s : State} (runs : s.fsc.frame ≠ .still) : assignSlots s = assignRows (s.fsc.height + 1) s :=
  if_neg runs

theorem assignSlots_idle {s : State} (runs : s.fsc.frame ≠ .still)
    (idle : ∀ r, s.fsc.fetchRow ≤ r → r < s.fsc.height → rowSpan s r = none) :
    assignSlots s = { s with fsc.fetchRow := max s.fsc.fetchRow s.fsc.height } := by
  rw [assignSlots_running runs]
  by_cases past : s.fsc.height ≤ s.fsc.fetchRow
  · rw [assignRows_past past, max_eq_left past]
  · have fuel : s.fsc.height + 1 = (s.fsc.fetchRow + 1) + (s.fsc.height - s.fsc.fetchRow) := by omega
    have reach : s.fsc.fetchRow + (s.fsc.height - s.fsc.fetchRow) = s.fsc.height := by omega
    rw [fuel, assignRows_skip _ _ _ (fun j below => idle _ (by omega) (by omega)) (by omega), reach, max_eq_right (by omega)]
    exact assignRows_past (le_refl s.fsc.height) _

theorem assignSlots_next {s : State} (runs : s.fsc.frame ≠ .still) {r x c : Nat} (from_ : s.fsc.fetchRow ≤ r)
    (within : r < s.fsc.height) (idle : ∀ q, s.fsc.fetchRow ≤ q → q < r → rowSpan s q = none)
    (span : rowSpan s r = some (x, c)) :
    (¬s.fetchRoom → assignSlots s = { s with fsc.fetchRow := r }) ∧
    (s.fetchRoom → assignSlots s = { s with
      fsc.fetchRow := r + 1, fsc.slots := s.fsc.slots ++ [newSlot s.geom r x c] }) := by
  have fuel : s.fsc.height + 1 = (s.fsc.height - (r - s.fsc.fetchRow) + 1) + (r - s.fsc.fetchRow) := by omega
  have reach : s.fsc.fetchRow + (r - s.fsc.fetchRow) = r := by omega
  rw [assignSlots_running runs, fuel, assignRows_skip _ _ _ (fun j below => idle _ (by omega) (by omega)) (by omega), reach]
  exact assignRows_take (s := { s with fsc.fetchRow := r }) _ within span

/-- What the fetch order does to the row counter and the slots, by the spans of the rows. -/
def fetchFrom (span : Nat → Option (Nat × Nat)) (g : Geometry) (height : Nat) :
    Nat → Nat → List LineSlot → Nat × List LineSlot
  | 0, row, slots => (row, slots)
  | n + 1, row, slots =>
    if height ≤ row then (row, slots)
    else match span row with
      | none => fetchFrom span g height n (row + 1) slots
      | some (a, c) =>
        if decide (slots.length < 4) && !(slots.any LineSlot.fetching) then (row + 1, slots ++ [newSlot g row a c])
        else (row, slots)

theorem assignRows_eq (n : Nat) (s : State) : assignRows n s = { s with
    fsc.fetchRow := (fetchFrom (rowSpan s) s.geom s.fsc.height n s.fsc.fetchRow s.fsc.slots).1
    fsc.slots := (fetchFrom (rowSpan s) s.geom s.fsc.height n s.fsc.fetchRow s.fsc.slots).2 } := by
  induction n generalizing s with
  | zero => rfl
  | succ n ih =>
    rw [assignRows, fetchFrom]
    by_cases past : s.fsc.height ≤ s.fsc.fetchRow
    · rw [if_pos past, if_pos past]
    · rw [if_neg past, if_neg past]
      cases span : rowSpan s s.fsc.fetchRow with
      | none =>
        dsimp only
        rw [ih]
        rfl
      | some p =>
        obtain ⟨a, c⟩ := p
        dsimp only
        split <;> rfl

theorem fetchFrom_appends (span : Nat → Option (Nat × Nat)) (g : Geometry) (height n row : Nat) (slots : List LineSlot) :
    ∃ m, (fetchFrom span g height n row slots).2 = slots ++ m := by
  induction n generalizing row with
  | zero => exact ⟨[], by simp [fetchFrom]⟩
  | succ n ih =>
    rw [fetchFrom]
    split
    · exact ⟨[], by simp⟩
    · cases span row with
      | none => exact ih (row + 1)
      | some p =>
        dsimp only
        split
        · exact ⟨_, rfl⟩
        · exact ⟨[], by simp⟩

/-- The fetch order changes the row counter and adds slots. -/
theorem assignSlots_eq (s : State) : ∃ r m, assignSlots s = { s with fsc.fetchRow := r, fsc.slots := s.fsc.slots ++ m } := by
  by_cases still : s.fsc.frame = .still
  · exact ⟨s.fsc.fetchRow, [], by rw [assignSlots, if_pos still]; simp⟩
  · obtain ⟨m, e⟩ := fetchFrom_appends (rowSpan s) s.geom s.fsc.height (s.fsc.height + 1) s.fsc.fetchRow s.fsc.slots
    exact ⟨_, m, by rw [assignSlots_running still, assignRows_eq, e]⟩

theorem assignSlots_frame (s : State) :
    { assignSlots s with fsc.slots := s.fsc.slots, fsc.fetchRow := s.fsc.fetchRow } = s := by
  obtain ⟨r, m, e⟩ := assignSlots_eq s
  rw [e]

theorem assignSlots_fsc (s : State) : { (assignSlots s).fsc with slots := s.fsc.slots, fetchRow := s.fsc.fetchRow } = s.fsc :=
  congrArg State.fsc (assignSlots_frame s)

theorem assignSlots_outside (s : State) (f : Fsc) : { assignSlots s with fsc := f } = { s with fsc := f } := by
  obtain ⟨r, m, e⟩ := assignSlots_eq s
  rw [e]

/-- Two states alike in what the fetch order reads. -/
structure FetchAlike (s t : State) : Prop where
  still : t.fsc.frame = .still ↔ s.fsc.frame = .still
  laneSet : t.fsc.laneSet = s.fsc.laneSet
  rects : ∀ i, (t.lane i).rect = (s.lane i).rect
  geom : t.geom = s.geom
  height : t.fsc.height = s.fsc.height
  row : t.fsc.fetchRow = s.fsc.fetchRow
  slots : t.fsc.slots = s.fsc.slots

theorem FetchAlike.assigned {s t : State} (h : FetchAlike s t) :
    (assignSlots t).fsc.slots = (assignSlots s).fsc.slots ∧ (assignSlots t).fsc.fetchRow = (assignSlots s).fsc.fetchRow := by
  have span : rowSpan t = rowSpan s := by
    funext row
    have : rowRects t row = rowRects s row := by simp only [rowRects, h.laneSet, h.rects]
    simp only [rowSpan, this]
  by_cases still : s.fsc.frame = .still
  · rw [assignSlots, if_pos (h.still.mpr still), assignSlots, if_pos still]
    exact ⟨h.slots, h.row⟩
  · rw [assignSlots_running still, assignSlots_running (mt h.still.mp still), assignRows_eq, assignRows_eq]
    rw [span, h.geom, h.height, h.row, h.slots]
    exact ⟨rfl, rfl⟩

/-! ### The codes of a row (R90) -/

theorem rowCodes_none {s : State} {row : Nat} (none_ : s.fsc.slots.find? (fun l => l.row == row) = none) :
    rowCodes s row = List.replicate s.fsc.width .hold := by
  rw [rowCodes, none_]

theorem rowCodes_givenUp {s : State} {row : Nat} (gone : ∀ l ∈ s.fsc.slots, l.row = row → l.givenUp = true) :
    rowCodes s row = List.replicate s.fsc.width .hold := by
  cases found : s.fsc.slots.find? fun l => l.row == row with
  | none => exact rowCodes_none found
  | some l =>
    rw [rowCodes, found]
    exact if_pos (gone l (List.mem_of_find?_eq_some found) (by simpa using List.find?_some found))

theorem rowCodes_slot {s : State} {row : Nat} {l : LineSlot} (found : s.fsc.slots.find? (fun l => l.row == row) = some l)
    (kept : l.givenUp = false) : rowCodes s row = (List.range s.fsc.width).map fun x =>
      if l.x0 ≤ x ∧ x < l.x0 + l.count then pixelCode s x row (pixAt l.got (x - l.x0)) else .hold := by
  rw [rowCodes, found]
  exact if_neg (by simp [kept])

theorem rowCodes_length (s : State) (row : Nat) : (rowCodes s row).length = s.fsc.width := by
  cases found : s.fsc.slots.find? fun l => l.row == row with
  | none => simp [rowCodes_none found]
  | some l =>
    cases given : l.givenUp with
    | false => simp [rowCodes_slot found given]
    | true =>
      rw [rowCodes, found]
      simp [given]

theorem pixelCode_eq (s : State) (x row : Nat) (r : BitVec 16) : pixelCode s x row r =
    if pixMarked r = true ∧ (s.lane (pixLane r).toNat).state = .driving ∧ (s.lane (pixLane r).toNat).rect.y ≤ row ∧
      row < (s.lane (pixLane r).toNat).rect.y + (s.lane (pixLane r).toNat).rect.h ∧
      (s.lane (pixLane r).toNat).rect.x ≤ x ∧ x < (s.lane (pixLane r).toNat).rect.x + (s.lane (pixLane r).toNat).rect.w
    then driveQuery (s.store (s.lane (pixLane r).toNat).store) (s.lane (pixLane r).toNat).index (pixCurrent r).toNat
      (pixTarget r).toNat
    else .hold := by
  unfold pixelCode Rect.meets
  simp only [Bool.and_eq_true, decide_eq_true_eq, beq_iff_eq, and_assoc]

/-! ### Line times (R88, R94, R95) -/

theorem satInc_toNat (n : Half) : (satInc n).toNat = min 65535 (n.toNat + 1) := by
  rw [satInc]
  split
  · next full => subst full; rfl
  · next room =>
    have : n.toNat ≠ 65535 := fun e => room (BitVec.eq_of_toNat_eq e)
    have := n.isLt
    rw [BitVec.toNat_add]
    simp
    omega

theorem rowLate_iff (s : State) (row : Nat) :
    rowLate s row = true ↔ ∃ l ∈ s.fsc.slots, l.row = row ∧ l.filled = false ∧ l.givenUp = false := by
  simp [rowLate, LineSlot.fetching]

/-- A row that is due: its line is held exactly when it is late (R94). -/
theorem rowDue_spec (row : Nat) (s : State) :
    let t := rowDue row s
    let late := ∃ l ∈ s.fsc.slots, l.row = row ∧ l.filled = false ∧ l.givenUp = false
    (¬late → t.fsc.inLine = true ∧ t.fsc.held = none ∧ t.fsc.drive = some (row, rowCodes t row)) ∧
    (late → t.fsc.inLine = false ∧ t.fsc.held = some ⟨s.partTime, s.cfg.stretchLimit⟩ ∧ t.fsc.drive = none) ∧
    t.fsc.frame = .scan ∧ t.fsc.line = row ∧ t.fsc.slots = s.fsc.slots ∧ t.fsc.fetchRow = s.fsc.fetchRow ∧
    t.fsc.laneSet = s.fsc.laneSet ∧ t.fsc.blank = s.fsc.blank ∧ t.fsc.period = s.fsc.period ∧ t.fsc.width = s.fsc.width ∧
    t.fsc.height = s.fsc.height ∧ { t with fsc := s.fsc } = s := by
  intro t late
  have iff_ := rowLate_iff { s with fsc.frame := .scan, fsc.line := row, fsc.inLine := false, fsc.drive := none } row
  by_cases isLate : late
  · have e : t = _ := if_pos (iff_.mpr isLate)
    rw [e]
    exact ⟨fun not_ => absurd isLate not_, fun _ => ⟨rfl, rfl, rfl⟩, rfl, rfl, rfl, rfl, rfl, rfl, rfl, rfl, rfl, rfl⟩
  · have e : t = _ := if_neg (mt iff_.mp isLate)
    rw [e]
    exact ⟨fun _ => ⟨rfl, rfl, rfl⟩, fun is => absurd is isLate, rfl, rfl, rfl, rfl, rfl, rfl, rfl, rfl, rfl, rfl⟩

theorem blankLine_blank {n : Nat} {s : State} (more : n < s.fsc.blank) : blankLine n s =
    { s with fsc.frame := .blank, fsc.line := n, fsc.inLine := true, fsc.drive := none } := if_pos more

theorem blankLine_row {n : Nat} {s : State} (done : s.fsc.blank ≤ n) : blankLine n s = rowDue 0 s := if_neg (by omega)

theorem lineTimeEnd_scan {s : State} (line : s.fsc.inLine = true) (scan : s.fsc.frame = .scan) : lineTimeEnd s = rowEnd s := by
  rw [lineTimeEnd, if_pos line, scan]

theorem lineTimeEnd_blank {s : State} (line : s.fsc.inLine = true) (blank : s.fsc.frame = .blank) :
    lineTimeEnd s = blankLine (s.fsc.line + 1) s := by
  rw [lineTimeEnd, if_pos line, blank]

theorem rowEnd_last {s : State} (last : s.fsc.height ≤ s.fsc.line + 1) : rowEnd s =
    frameEnd (assignSlots { s with fsc.slots := s.fsc.slots.filter fun l => l.row != s.fsc.line }) := if_neg (by omega)

theorem rowEnd_next {s : State} (more : s.fsc.line + 1 < s.fsc.height) : rowEnd s = rowDue (s.fsc.line + 1)
    (assignSlots { s with fsc.slots := s.fsc.slots.filter fun l => l.row != s.fsc.line }) := if_pos more

theorem advance_eq (l : Lane) : l.advance = if l.state = .driving then
    { l with index := l.index + 1, state := if l.frames ≤ l.index + 1 then .retiring else .driving } else l := by
  unfold Lane.advance
  by_cases driving : l.state = .driving
  · rw [if_pos driving, if_pos driving]
    split <;> simp [driving]
  · rw [if_neg driving, if_neg driving]

/-- Settles O39: from what the end of a row, and a row that is due, do. -/
theorem lineTimeEnds : Obligations.LineTimeEnds := by
  refine ⟨fun s line scan last => ?_, fun s line scan more => ?_, fun s line blank => ?_⟩
  · have e := (lineTimeEnd_scan line scan).trans (rowEnd_last last)
    obtain ⟨r, m, assigned⟩ := assignSlots_eq { s with fsc.slots := s.fsc.slots.filter fun l => l.row != s.fsc.line }
    rw [assigned] at e
    refine ⟨_, congrArg done e, ?_, rfl, rfl, rfl, rfl, rfl, rfl, rfl⟩
    exact congrArg (fun f => s.upe.lanes.map f) (funext advance_eq)
  · have e := (lineTimeEnd_scan line scan).trans (rowEnd_next more)
    have frame := assignSlots_outside { s with fsc.slots := s.fsc.slots.filter fun l => l.row != s.fsc.line } s.fsc
    have time : (assignSlots { s with fsc.slots := s.fsc.slots.filter fun l => l.row != s.fsc.line }).partTime = s.partTime :=
      (congrArg State.partTime frame :)
    have cfg : (assignSlots { s with fsc.slots := s.fsc.slots.filter fun l => l.row != s.fsc.line }).cfg = s.cfg :=
      (congrArg State.cfg frame :)
    generalize assignSlots { s with fsc.slots := s.fsc.slots.filter fun l => l.row != s.fsc.line } = u at *
    obtain ⟨driven, held, isScan, isLine, slots, fetch, _, _, _, _, _, outside⟩ := rowDue_spec (s.fsc.line + 1) u
    refine ⟨_, congrArg done e, ?_, isScan, isLine, ⟨slots, fetch⟩, ?_⟩
    · rw [slots, ← time, ← cfg]
      exact ⟨driven, held⟩
    · exact (congrArg (fun x : State => ({ x with fsc := s.fsc } : State)) outside :).trans frame
  · have e := lineTimeEnd_blank line blank
    by_cases more : s.fsc.line + 1 < s.fsc.blank
    · exact ⟨_, congrArg done (e.trans (blankLine_blank more)), fun _ => ⟨rfl, rfl, rfl⟩, fun done_ => absurd done_ (by omega),
        rfl, rfl⟩
    · obtain ⟨driven, held, isScan, isLine, slots, _, _, _, _, _, _, outside⟩ := rowDue_spec 0 s
      exact ⟨_, congrArg done (e.trans (blankLine_row (by omega))), fun more_ => absurd more_ more,
        fun _ => ⟨isScan, isLine, driven, held⟩, slots, outside⟩

/-! ### Rows given up (R81, R95) -/

/-- The lanes in use with the note of an undisturbed key cleared (R81). -/
def State.unnoted (s : State) : List Lane := s.upe.lanes.map fun l => if l.state = .free then l else { l with note := false }

theorem setUncertain_sansStatus (s : State) :
    (setUncertain s).sansStatus = ({ s with upe.uncertain := true, upe.lanes := s.unnoted } : State).sansStatus := by
  have lanes : s.upe.lanes.map (fun l => if l.isFree then l else { l with note := false }) = s.unnoted := by
    simp only [State.unnoted, isFree_iff]
  unfold setUncertain
  dsimp only
  rw [lanes]
  split
  · rfl
  · rw [sansStatus_ask]

/-- A row's slot given up: it is FETCHING no longer and holds nothing. -/
def State.slotsWithout (s : State) (row : Nat) : List LineSlot :=
  s.fsc.slots.map fun q => if q.row = row then { q with givenUp := true, left := [], got := [] } else q

theorem lane_unnoted {s t : State} (lanes : t.upe.lanes = s.unnoted) (i : Nat) : (t.lane i).rect = (s.lane i).rect := by
  simp only [State.lane, lanes, State.unnoted, List.getD_eq_getElem?_getD, List.getElem?_map]
  cases s.upe.lanes[i]? with
  | none => rfl
  | some l =>
    dsimp only [Option.map_some, Option.getD_some]
    split <;> rfl

/-- What a row given up leaves (R81, R94, R95). -/
theorem giveUpRow_spec (row : Nat) (s : State) :
    let t := giveUpRow row s
    let held := s.fsc.held ≠ none ∧ s.fsc.line = row
    let u := assignSlots { s with fsc.slots := s.slotsWithout row }
    (t.fsc.slots = u.fsc.slots ∧ t.fsc.fetchRow = u.fsc.fetchRow) ∧
    t.fsc.scanErrors.toNat = min 65535 (s.fsc.scanErrors.toNat + 1) ∧ t.fsc.stretched = s.fsc.stretched ∧
    t.fsc.line = s.fsc.line ∧ t.upe.uncertain = true ∧ t.upe.lanes = s.unnoted ∧
    (held → t.fsc.inLine = true ∧ t.fsc.held = none ∧ t.fsc.drive = some (s.fsc.line, List.replicate s.fsc.width .hold)) ∧
    (¬held → t.fsc.inLine = s.fsc.inLine ∧ t.fsc.held = s.fsc.held ∧ t.fsc.drive = s.fsc.drive) ∧
    ({ t with fsc := s.fsc, upe.uncertain := s.upe.uncertain, upe.lanes := s.upe.lanes } : State).sansStatus = s.sansStatus := by
  intro t held u
  let s2 : State := { s with fsc.slots := s.slotsWithout row, fsc.scanErrors := satInc s.fsc.scanErrors }
  let marked : State := setUncertain (if s.fsc.scanErrors = 65535 then s2 else ask .panel s2)
  have counted : (if s.fsc.scanErrors = 65535 then s2 else ask .panel s2).sansStatus = s2.sansStatus := by
    split
    · rfl
    · exact sansStatus_ask _ _
  have rest : marked.sansStatus = ({ s2 with upe.uncertain := true, upe.lanes := s.unnoted } : State).sansStatus := by
    refine (setUncertain_sansStatus _).trans ?_
    generalize (if s.fsc.scanErrors = 65535 then s2 else ask .panel s2) = v at counted ⊢
    have lanes : v.unnoted = s.unnoted := (congrArg State.unnoted counted :)
    rw [lanes]
    exact (congrArg (fun x : State => ({ x with upe.uncertain := true, upe.lanes := s.unnoted } : State)) counted :)
  have is : t = assignSlots (releaseLine row marked) := rfl
  have fsc : marked.fsc = s2.fsc := (congrArg State.fsc rest :)
  have upe : marked.upe = { s.upe with uncertain := true, lanes := s.unnoted } := (congrArg State.upe rest :)
  have geom : marked.geom = s.geom := (congrArg State.geom rest :)
  have outside : ({ marked with fsc := s.fsc, upe.uncertain := s.upe.uncertain, upe.lanes := s.upe.lanes } : State).sansStatus =
      s.sansStatus := (congrArg
    (fun x : State => ({ x with fsc := s.fsc, upe.uncertain := s.upe.uncertain, upe.lanes := s.upe.lanes } : State)) rest :)
  clear_value marked
  have codes (is : s.fsc.line = row) : rowCodes marked marked.fsc.line = List.replicate s.fsc.width .hold := by
    refine (rowCodes_givenUp ?_).trans (by rw [fsc])
    rw [fsc, show s2.fsc.line = row from is]
    intro l isin at_
    obtain ⟨q, _, rfl⟩ := List.mem_map.mp (show l ∈ s.slotsWithout row from isin)
    by_cases here : q.row = row
    · simp [here]
    · rw [if_neg here] at at_
      exact absurd at_ here
  have released : releaseLine row marked = if held then beginLine marked else marked := by
    rw [releaseLine, fsc]
  have alike : FetchAlike { s with fsc.slots := s.slotsWithout row } (releaseLine row marked) := by
    rw [released]
    have lanes : marked.upe.lanes = s.unnoted := by rw [upe]
    split
    · exact ⟨by simp only [beginLine, fsc]; rfl, by simp only [beginLine, fsc]; rfl, fun i => lane_unnoted (s := s) lanes i, geom,
        by simp only [beginLine, fsc]; rfl, by simp only [beginLine, fsc]; rfl, by simp only [beginLine, fsc]; rfl⟩
    · exact ⟨by rw [fsc], by rw [fsc], fun i => lane_unnoted (s := s) lanes i, geom, by rw [fsc], by rw [fsc], by rw [fsc]⟩
  have goesOn := alike.assigned
  obtain ⟨r, m, assigned⟩ := assignSlots_eq (releaseLine row marked)
  rw [← is] at goesOn assigned
  refine ⟨goesOn, ?_⟩
  rw [released] at assigned
  rw [assigned]
  by_cases isHeld : held
  · rw [if_pos isHeld]
    refine ⟨?_, by simp only [beginLine, fsc]; rfl, by simp only [beginLine, fsc]; rfl, by simp only [beginLine, upe],
      by simp only [beginLine, upe], fun _ => ⟨rfl, rfl, ?_⟩, fun not_ => absurd isHeld not_, outside⟩
    · simp only [beginLine, fsc]
      exact satInc_toNat _
    · show some (marked.fsc.line, rowCodes marked marked.fsc.line) = _
      rw [codes isHeld.2, fsc]
  · rw [if_neg isHeld]
    refine ⟨?_, by rw [fsc], by rw [fsc], by rw [upe], by rw [upe], fun is => absurd is isHeld,
      fun _ => ⟨by rw [fsc], by rw [fsc], by rw [fsc]⟩, outside⟩
    rw [fsc]
    exact satInc_toNat _

/-- A row's slot that becomes FILLED, its line not held (R93). -/
theorem slotFilled_free {row : Nat} {s : State} (free : ¬(s.fsc.held ≠ none ∧ s.fsc.line = row)) :
    slotFilled row s = setRow row (fun l => { l with filled := true }) s := if_neg free

/-- A held line whose row is FILLED begins, and is counted stretched (R94). -/
theorem slotFilled_held {row : Nat} {s : State} (held : s.fsc.held ≠ none ∧ s.fsc.line = row) :
    ∃ w : State, slotFilled row s = beginLine w ∧ w.sansStatus =
      ({ setRow row (fun l => { l with filled := true }) s with fsc.stretched := satInc s.fsc.stretched } : State).sansStatus := by
  refine ⟨_, if_pos held, ?_⟩
  split
  · rfl
  · exact sansStatus_ask _ _

/-! ### Frame starts (R71, R87) -/

theorem drive_eq (l : Lane) : l.drive =
    if l.state = .arming ∧ l.finished = true then { l with state := .driving, index := 0 } else l := by
  simp [Lane.drive, Lane.armed]

theorem frameReady_iff (s : State) : frameReady s = true ↔ s.fsc.frame = .still ∧ s.pss.rail = .on ∧
    ∃ l ∈ s.upe.lanes, l.state = .driving ∨ l.state = .arming ∧ l.finished = true := by
  simp [frameReady, Lane.armed, and_assoc]

/-- The first line of a frame (R87). -/
theorem blankLine_first (s : State) :
    let t := blankLine 0 s
    t.fsc.frame = (if 0 < s.fsc.blank then .blank else .scan) ∧ t.fsc.line = 0 ∧ t.fsc.slots = s.fsc.slots ∧
    t.fsc.fetchRow = s.fsc.fetchRow ∧ t.fsc.laneSet = s.fsc.laneSet ∧ t.fsc.blank = s.fsc.blank ∧
    t.fsc.period = s.fsc.period ∧ t.fsc.width = s.fsc.width ∧ t.fsc.height = s.fsc.height ∧ { t with fsc := s.fsc } = s := by
  intro t
  by_cases blanks : 0 < s.fsc.blank
  · have e : t = _ := blankLine_blank blanks
    rw [e, if_pos blanks]
    exact ⟨rfl, rfl, rfl, rfl, rfl, rfl, rfl, rfl, rfl, rfl⟩
  · have e : t = _ := blankLine_row (by omega)
    rw [e, if_neg blanks]
    obtain ⟨_, _, scan, line, slots, fetch, lanes, blank, period, width, height, outside⟩ := rowDue_spec 0 s
    exact ⟨scan, line, slots, fetch, lanes, blank, period, width, height, outside⟩

/-- The state in which a frame starts to fetch (R87, R93). -/
def State.framed (s : State) : State :=
  { s with
    upe.lanes := s.upe.lanes.map Lane.drive
    fsc := { s.fsc with
      laneSet := lanesIn .driving { s with upe.lanes := s.upe.lanes.map Lane.drive }
      blank := s.cfg.verticalBlank, period := s.cfg.linePeriod, width := s.cfg.width, height := s.cfg.height
      fetchRow := 0, slots := [], frame := .blank } }

theorem frameStart_ready {s : State} (ready : frameReady s = true) : frameStart s = blankLine 0 (assignSlots s.framed) :=
  if_pos ready

theorem complete_scan {b : Burst} (user : b.user = .scan) (live : b.fate = .live) (data : List Byte) (s : State) :
    complete b .okay data s = scanOkay data s := by
  rw [complete_okay live, user]
  rfl

theorem complete_scanFail {b : Burst} (user : b.user = .scan) (live : b.fate = .live) {a : Answer} (bad : a ≠ .okay)
    (data : List Byte) (s : State) : complete b a data s = scanFail s := by
  rw [complete_fail live bad, user]
  rfl

section
variable {s : State} {l : LineSlot} (found : fetchingSlot s = some l) (data : List Byte)

include found

theorem scanOkay_more (more : l.left ≠ []) :
    scanOkay data s = setRow l.row (fun q => { q with got := q.got ++ data }) s := by
  have some_ : l.left.isEmpty = false := by simpa using more
  rw [scanOkay, found]
  dsimp only
  rw [some_]
  rfl

theorem scanOkay_last (last : l.left = []) :
    scanOkay data s = assignSlots (slotFilled l.row (setRow l.row (fun q => { q with got := q.got ++ data }) s)) := by
  rw [scanOkay, found]
  dsimp only
  rw [last]
  rfl

theorem scanFail_found : scanFail s = giveUpRow l.row s := by rw [scanFail, found]

end

/-- A slot that has got its last records is FILLED (R93). -/
theorem setRow_filled (row : Nat) (data : List Byte) (s : State) :
    setRow row (fun q => { q with filled := true }) (setRow row (fun q => { q with got := q.got ++ data }) s) =
      setRow row (fun q => { q with got := q.got ++ data, filled := true }) s := by
  simp only [setRow, List.map_map]
  congr 3
  funext q
  by_cases here : q.row = row <;> simp [here]

/-- Rows with a slot keep their codes when the fetch order goes on. -/
theorem rowCodes_assigned {s : State} {row : Nat} (has : ∃ l ∈ s.fsc.slots, l.row = row) :
    rowCodes (assignSlots s) row = rowCodes s row := by
  obtain ⟨r, m, e⟩ := assignSlots_eq s
  obtain ⟨l, isin, at_⟩ := has
  cases found : s.fsc.slots.find? fun l => l.row == row with
  | none => exact absurd at_ (by simpa using List.find?_eq_none.mp found l isin)
  | some q =>
    have found' : (assignSlots s).fsc.slots.find? (fun l => l.row == row) = some q := by
      rw [e]
      exact (List.find?_append ..).trans (by rw [found]; rfl)
    rw [rowCodes, found', rowCodes, found, e]
    rfl

/-- Settles O38: the frame start and the row given up from their specifications, the fetch order row by row. -/
theorem framesStartAndRowsAreGivenUp : Obligations.FramesStartAndRowsAreGivenUp := by
  refine ⟨fun s still on lane => ?_, fun s held => ?_, fun x data s b l user live found => ?_, fun s runs => ?_,
    fun s row x within => ?_⟩
  · have e := frameStart_ready ((frameReady_iff s).mpr ⟨still, on, lane⟩)
    obtain ⟨r, m, assigned⟩ := assignSlots_eq s.framed
    obtain ⟨frame, line, slots, fetch, lanes, blank, period, width, height, outside⟩ := blankLine_first (assignSlots s.framed)
    generalize first : blankLine 0 (assignSlots s.framed) = t at *
    have frameOf : (assignSlots s.framed).fsc = { s.framed.fsc with fetchRow := r, slots := s.framed.fsc.slots ++ m } := by
      rw [assigned]
    have out : { t with fsc := s.framed.fsc } = s.framed := by
      refine (congrArg (fun x : State => ({ x with fsc := s.framed.fsc } : State)) outside :).trans ?_
      rw [assigned]
    have tLanes : t.upe = s.framed.upe := (congrArg State.upe out :)
    have notStill : ¬t.fsc.frame = .still := by
      rw [frame]
      split <;> nofun
    have alike : FetchAlike s.framed { t with fsc.slots := [], fsc.fetchRow := 0 } :=
      ⟨⟨fun is => absurd is notStill, nofun⟩, by simp only [lanes, frameOf], fun i => by simp only [State.lane, tLanes],
        (congrArg State.geom out :), by simp only [height, frameOf], rfl, rfl⟩
    obtain ⟨sameSlots, sameRow⟩ := alike.assigned
    refine ⟨t, congrArg done e, ?_, ?_, by rw [blank, frameOf]; rfl, by rw [period, frameOf]; rfl, by rw [width, frameOf]; rfl,
      by rw [height, frameOf]; rfl, line, ?_, ⟨slots.trans sameSlots.symm, fetch.trans sameRow.symm⟩, ?_⟩
    · rw [tLanes]
      exact congrArg (fun f => s.upe.lanes.map f) (funext drive_eq)
    · rw [lanes, frameOf]
      simp only [State.lane, tLanes]
      rfl
    · rw [frame, frameOf]
      rfl
    · exact (congrArg (fun x : State => ({ x with upe.lanes := s.upe.lanes, fsc := s.fsc } : State)) out :)
  · obtain ⟨m, _, gone⟩ := giveUpBurst_eq .scan s
    have e : stretchExpiry s = giveUpRow s.fsc.line { s with mpt := m } := by rw [stretchExpiry, if_pos held, gone]
    obtain ⟨goesOn, errors, _, line, uncertain, lanes, driven, _, outside⟩ := giveUpRow_spec s.fsc.line { s with mpt := m }
    obtain ⟨inLine, released, drive⟩ := driven ⟨held, rfl⟩
    have alike : FetchAlike { s with fsc.slots := s.slotsWithout s.fsc.line }
        { s with mpt := m, fsc.slots := s.slotsWithout s.fsc.line } :=
      ⟨Iff.rfl, rfl, fun _ => rfl, rfl, rfl, rfl, rfl⟩
    refine ⟨_, congrArg done e, errors, uncertain, lanes, inLine, released, line, drive,
      ⟨goesOn.1.trans alike.assigned.1, goesOn.2.trans alike.assigned.2⟩, ?_⟩
    generalize giveUpRow s.fsc.line { s with mpt := m } = t at outside ⊢
    exact ⟨(congrArg State.mem outside :), (congrArg State.pss outside :), (congrArg State.rsc outside :),
      (congrArg State.ktu outside :), (congrArg (fun x : State => x.upe.list) outside :),
      (congrArg (fun x : State => x.upe.pass) outside :)⟩
  · intro t held row goesOn
    have found : fetchingSlot s = some l := found
    have isSlot : l ∈ s.fsc.slots := List.mem_of_find?_eq_some found
    refine ⟨fun okay more => ?_, fun okay last => ?_, fun bad => ?_⟩
    · subst okay
      exact (complete_scan user live data s).trans (scanOkay_more found data more)
    · subst okay
      have e : t = _ := (complete_scan user live data s).trans (scanOkay_last found data last)
      by_cases isHeld : held
      · obtain ⟨w, filled, rest⟩ := slotFilled_held (row := l.row) (s := setRow l.row (fun q => { q with got := q.got ++ data }) s)
          isHeld
        rw [setRow_filled] at rest
        rw [filled] at e
        have fsc : w.fsc = { s.fsc with
            slots := row fun q => { q with got := q.got ++ data, filled := true }, stretched := satInc s.fsc.stretched } :=
          (congrArg State.fsc rest :)
        have upe : w.upe = s.upe := (congrArg State.upe rest :)
        have geom : w.geom = s.geom := (congrArg State.geom rest :)
        have outside : ({ w with fsc := s.fsc } : State).sansStatus = s.sansStatus :=
          (congrArg (fun x : State => ({ x with fsc := s.fsc } : State)) rest :)
        have alike : FetchAlike { s with fsc.slots := row fun q => { q with got := q.got ++ data, filled := true } }
            (beginLine w) :=
          ⟨by simp only [beginLine, fsc], by simp only [beginLine, fsc], fun i => by simp only [beginLine, State.lane, upe], geom,
            by simp only [beginLine, fsc], by simp only [beginLine, fsc], by simp only [beginLine, fsc]⟩
        have hasSlot : ∃ q ∈ w.fsc.slots, q.row = w.fsc.line := by
          rw [fsc]
          refine ⟨_, List.mem_map_of_mem isSlot, ?_⟩
          rw [if_pos rfl]
          exact isHeld.2.symm
        have codes : rowCodes (assignSlots (beginLine w)) w.fsc.line = rowCodes w w.fsc.line :=
          rowCodes_assigned (s := beginLine w) hasSlot
        have line : w.fsc.line = s.fsc.line := by rw [fsc]
        have assigned := alike.assigned
        have frame := assignSlots_fsc (beginLine w)
        have out := assignSlots_outside (beginLine w) s.fsc
        rw [← e] at codes frame out assigned
        refine ⟨assigned, fun free => absurd isHeld free, fun _ => ?_⟩
        refine ⟨(congrArg Fsc.inLine frame :), (congrArg Fsc.held frame :), ?_, ?_, ?_, ?_⟩
        · have drive : t.fsc.drive = some (w.fsc.line, rowCodes w w.fsc.line) := (congrArg Fsc.drive frame :)
          rw [drive, ← codes, line]
        · have stretched : t.fsc.stretched = w.fsc.stretched := (congrArg Fsc.stretched frame :)
          rw [stretched, fsc]
          exact satInc_toNat _
        · have errors : t.fsc.scanErrors = w.fsc.scanErrors := (congrArg Fsc.scanErrors frame :)
          rw [errors, fsc]
        · exact (congrArg State.sansStatus out :).trans outside
      · rw [slotFilled_free (s := setRow l.row (fun q => { q with got := q.got ++ data }) s) isHeld, setRow_filled] at e
        have assigned : t.fsc = _ := congrArg State.fsc e
        refine ⟨⟨congrArg Fsc.slots assigned, congrArg Fsc.fetchRow assigned⟩, fun _ => ?_, fun is => absurd is isHeld⟩
        obtain ⟨r, m, assigned⟩ := assignSlots_eq (setRow l.row (fun q => { q with got := q.got ++ data, filled := true }) s)
        rw [e, assigned]
        rfl
    · have e : t = giveUpRow l.row s := (complete_scanFail user live bad data s).trans (scanFail_found found)
      obtain ⟨gone, errors, stretched, _, uncertain, lanes, driven, kept, outside⟩ := giveUpRow_spec l.row s
      rw [← e] at gone errors stretched uncertain lanes driven kept outside
      exact ⟨gone, errors, stretched, uncertain, lanes, driven, kept, outside⟩
  · intro t meets idle room
    have none_ {r : Nat} (is : idle r) : rowSpan s r = none := rowSpan_none.mpr is
    refine ⟨fun all => assignSlots_idle runs fun r from_ below => none_ (all r from_ below),
      fun r from_ below met before => ?_⟩
    cases span : rowSpan s r with
    | none => exact absurd (rowSpan_none.mp span) met
    | some p =>
      obtain ⟨x, n⟩ := p
      obtain ⟨full, takes⟩ := assignSlots_next runs from_ below (fun q from_ below => none_ (before q from_ below)) span
      obtain ⟨left, right⟩ := rowSpan_some span
      exact ⟨full, fun has => ⟨x, n, left, right, takes has⟩⟩
  · refine ⟨rowCodes_length s row, fun none_ => ?_, fun l found => ?_⟩
    · rw [rowCodes_none none_]
      simp
    · intro r q
      cases given : l.givenUp with
      | true =>
        have held : rowCodes s row = List.replicate s.fsc.width .hold := by
          rw [rowCodes, found]
          exact if_pos given
        rw [held, if_neg (fun h => nomatch h.1)]
        simp
      | false =>
        rw [rowCodes_slot found given]
        have at_ : ((List.range s.fsc.width).map fun x =>
            if l.x0 ≤ x ∧ x < l.x0 + l.count then pixelCode s x row (pixAt l.got (x - l.x0)) else .hold).getD x .hold =
            if l.x0 ≤ x ∧ x < l.x0 + l.count then pixelCode s x row r else .hold := by simp [within, r]
        rw [at_, pixelCode_eq]
        by_cases spanned : l.x0 ≤ x ∧ x < l.x0 + l.count
        · rw [if_pos spanned]
          simp only [spanned, true_and]
          rfl
        · rw [if_neg spanned, if_neg (fun h => spanned ⟨h.2.1, h.2.2.1⟩)]

end Sys2Proof.Machine
end

section
/-! The bursts the units make, the arbiter and the grants (sections 2.1 to 2.4). -/

set_option Elab.async false

namespace Sys2Proof.Machine

/-! ### The bursts the units make (R21) -/

/-- A client without a burst waiting or in flight. -/
def State.clientFree (s : State) (c : Client) : Prop := waiting c s = none ∧ ∀ b, s.mpt.inflight = some b → b.client ≠ c

theorem clientBusy_iff (c : Client) (s : State) : clientBusy c s = true ↔ ¬s.clientFree c := by
  unfold clientBusy State.clientFree
  cases waiting c s with
  | none => cases s.mpt.inflight <;> simp
  | some b => simp

theorem clientFree_congr {c : Client} {s t : State} (wait : waiting c t = waiting c s) (flying : t.mpt.inflight = s.mpt.inflight) :
    t.clientFree c = s.clientFree c := by rw [State.clientFree, State.clientFree, wait, flying]

theorem pumpScan_frame (s : State) : { pumpScan s with fsc.slots := s.fsc.slots, mpt.scanWait := s.mpt.scanWait } = s := by
  unfold pumpScan
  repeat' split
  all_goals rfl

theorem pumpPixel_frame (s : State) : { pumpPixel s with upe.pass := s.upe.pass, mpt.pixelWait := s.mpt.pixelWait } = s := by
  unfold pumpPixel
  repeat' split
  all_goals rfl

theorem pumpDownload_frame (s : State) :
    { pumpDownload s with dlc.dispatch := s.dlc.dispatch, mpt.downWait := s.mpt.downWait } = s := by
  unfold pumpDownload
  repeat' split
  all_goals rfl

theorem pumpVerify_frame (s : State) : { pumpVerify s with dlc.verify := s.dlc.verify, mpt.verifyWait := s.mpt.verifyWait } = s := by
  unfold pumpVerify
  split
  · rfl
  · split
    · rfl
    · dsimp only
      split <;> rfl

theorem pumpPixel_pass (s : State) : (pumpPixel s).upe.pass.isNone = s.upe.pass.isNone := by
  unfold pumpPixel
  split
  · rfl
  · split
    · rfl
    · next passing => split <;> rw [passing] <;> rfl

/-- What the Frame Scanner makes (R93, entry 45). -/
theorem pumpScan_spec (s : State) :
    (∀ l a n q, s.clientFree .scan → fetchingSlot s = some l → l.left = (a, n) :: q →
      (pumpScan s).mpt.scanWait =
        some { client := .scan, user := .scan, write := false, addr := a, len := n, data := [] } ∧
      (pumpScan s).fsc.slots = s.fsc.slots.map fun x => if x.row = l.row then { x with left := q } else x) ∧
    (¬s.clientFree .scan ∨ (∀ l, fetchingSlot s = some l → l.left = []) →
      (pumpScan s).mpt.scanWait = s.mpt.scanWait ∧ (pumpScan s).fsc.slots = s.fsc.slots) := by
  refine ⟨fun l a n q free slot left => ?_, fun stands => ?_⟩
  · rw [pumpScan, if_neg (mt (clientBusy_iff _ s).mp (not_not.mpr free)), slot]
    dsimp only
    rw [left]
    exact ⟨rfl, rfl⟩
  · have e : pumpScan s = s := by
      rw [pumpScan]
      rcases stands with busy | empty
      · exact if_pos ((clientBusy_iff _ s).mpr busy)
      · cases slot : fetchingSlot s with
        | none => exact ite_self s
        | some l =>
          dsimp only
          rw [empty l slot]
          exact ite_self s
    rw [e]
    exact ⟨rfl, rfl⟩

/-- What the Pixel Pass Unit makes (R74). -/
theorem pumpPixel_spec (s : State) :
    (∀ p a n q, s.clientFree .pixel → s.upe.pass = some p → p.left = (a, n) :: q →
      (pumpPixel s).mpt.pixelWait =
        some { client := .pixel, user := .pixel, write := false, addr := a, len := n, data := [] } ∧
      (pumpPixel s).upe.pass = some { p with left := q }) ∧
    (∀ p a d q, s.clientFree .pixel → s.upe.pass = some p → p.left = [] → p.out = (a, d) :: q →
      (pumpPixel s).mpt.pixelWait =
        some { client := .pixel, user := .pixel, write := true, addr := a, len := d.length, data := d } ∧
      (pumpPixel s).upe.pass = some { p with out := q }) ∧
    (¬s.clientFree .pixel ∨ (∀ p, s.upe.pass = some p → p.left = [] ∧ p.out = []) →
      (pumpPixel s).mpt.pixelWait = s.mpt.pixelWait ∧ (pumpPixel s).upe.pass = s.upe.pass) := by
  refine ⟨fun p a n q free pass left => ?_, fun p a d q free pass left out => ?_, fun stands => ?_⟩
  · rw [pumpPixel, if_neg (mt (clientBusy_iff _ s).mp (not_not.mpr free)), pass]
    dsimp only
    rw [left]
    exact ⟨rfl, rfl⟩
  · rw [pumpPixel, if_neg (mt (clientBusy_iff _ s).mp (not_not.mpr free)), pass]
    dsimp only
    rw [left, out]
    exact ⟨rfl, rfl⟩
  · have e : pumpPixel s = s := by
      rw [pumpPixel]
      rcases stands with busy | empty
      · exact if_pos ((clientBusy_iff _ s).mpr busy)
      · cases pass : s.upe.pass with
        | none => exact ite_self s
        | some p =>
          dsimp only
          rw [(empty p pass).1, (empty p pass).2]
          exact ite_self s
    rw [e]
    exact ⟨rfl, rfl⟩

/-- What the dispatcher makes (R162). -/
theorem pumpDownload_spec (s : State) :
    (∀ d a y q, s.clientFree .download → s.dlc.dispatch = some d → d.out = (a, y) :: q →
      (pumpDownload s).mpt.downWait =
        some { client := .download, user := .download, write := true, addr := a, len := y.length, data := y } ∧
      (pumpDownload s).dlc.dispatch = some { d with out := q }) ∧
    (¬s.clientFree .download ∨ (∀ d, s.dlc.dispatch = some d → d.out = []) →
      (pumpDownload s).mpt.downWait = s.mpt.downWait ∧ (pumpDownload s).dlc.dispatch = s.dlc.dispatch) := by
  refine ⟨fun d a y q free writing out => ?_, fun stands => ?_⟩
  · rw [pumpDownload, if_neg (mt (clientBusy_iff _ s).mp (not_not.mpr free)), writing]
    dsimp only
    rw [out]
    exact ⟨rfl, rfl⟩
  · have e : pumpDownload s = s := by
      rw [pumpDownload]
      rcases stands with busy | empty
      · exact if_pos ((clientBusy_iff _ s).mpr busy)
      · cases writing : s.dlc.dispatch with
        | none => exact ite_self s
        | some d =>
          dsimp only
          rw [empty d writing]
          exact ite_self s
    rw [e]
    exact ⟨rfl, rfl⟩

/-- What the verify pass makes (R166). -/
theorem pumpVerify_spec (s : State) :
    (∀ v, s.clientFree .verify → s.dlc.verify = some v → v.pos < (s.slot v.slot).len →
      let a := (s.slot v.slot).dest + v.pos
      let n := min (64 - a % 64) ((s.slot v.slot).len - v.pos)
      (pumpVerify s).mpt.verifyWait =
        some { client := .verify, user := .verify, write := false, addr := a, len := n, data := [] } ∧
      (pumpVerify s).dlc.verify = some { v with pos := v.pos + n }) ∧
    (¬s.clientFree .verify ∨ (∀ v, s.dlc.verify = some v → (s.slot v.slot).len ≤ v.pos) →
      (pumpVerify s).mpt.verifyWait = s.mpt.verifyWait ∧ (pumpVerify s).dlc.verify = s.dlc.verify) := by
  refine ⟨fun v free passing more => ?_, fun stands => ?_⟩
  · intro a n
    have := Nat.mod_lt a (show 64 > 0 by decide)
    have some_ : n ≠ 0 := by omega
    rw [pumpVerify, if_neg (mt (clientBusy_iff _ s).mp (not_not.mpr free)), passing]
    dsimp only
    rw [if_neg some_]
    exact ⟨rfl, rfl⟩
  · have e : pumpVerify s = s := by
      rw [pumpVerify]
      rcases stands with busy | done_
      · exact if_pos ((clientBusy_iff _ s).mpr busy)
      · cases passing : s.dlc.verify with
        | none => exact ite_self s
        | some v =>
          dsimp only
          by_cases busy : clientBusy .verify s = true
          · exact if_pos busy
          · exact (if_neg busy).trans (if_pos (by rw [Nat.sub_eq_zero_of_le (done_ v passing), Nat.min_zero]))
    rw [e]
    exact ⟨rfl, rfl⟩

/-- What the units make changes nothing that the conditions of the rest read. -/
theorem mayRest_pump (s : State) : mayRest (pump s) = mayRest s := (congrArg mayRest (pump_sansBursts s).1 :)

theorem pump_pass (s : State) : (pump s).upe.pass.isNone = s.upe.pass.isNone := by
  have verify : (pump s).upe = (pumpDownload (pumpPixel (pumpScan s))).upe := (congrArg State.upe (pumpVerify_frame _) :)
  have download : (pumpDownload (pumpPixel (pumpScan s))).upe = (pumpPixel (pumpScan s)).upe :=
    (congrArg State.upe (pumpDownload_frame _) :)
  have scan : (pumpScan s).upe = s.upe := (congrArg State.upe (pumpScan_frame s) :)
  rw [verify, download, pumpPixel_pass, scan]

theorem panelQuiet_pump (s : State) : panelQuiet (pump s) = panelQuiet s := by
  have rest := (pump_sansBursts s).1
  have list : (pump s).upe.list = s.upe.list := (congrArg (fun x : State => x.upe.list) rest :)
  have lanes : allLanesFree (pump s) = allLanesFree s := (congrArg allLanesFree rest :)
  have waits : (pump s).upe.sweepWaiting = s.upe.sweepWaiting := (congrArg (fun x : State => x.upe.sweepWaiting) rest :)
  have pss : (pump s).pss = s.pss := (congrArg State.pss rest :)
  rw [panelQuiet, panelQuiet, pump_pass, list, lanes, waits, pss]

theorem awaitsIdle_pump (s : State) : awaitsIdle (pump s) = awaitsIdle s := by
  have rsc : (pump s).rsc = s.rsc := (congrArg State.rsc (pump_sansBursts s).1 :)
  rw [awaitsIdle, awaitsIdle, mayRest_pump, panelQuiet_pump, rsc]

/-! ### The arbiter (R23) -/

theorem waiting_isSome (c : Client) (s : State) : (waiting c s).isSome = true ↔ waiting c s ≠ none := Option.isSome_iff_ne_none

theorem pick_scan {s : State} (h : s.mpt.scanWait ≠ none) : pick s = some .scan :=
  List.find?_cons_of_pos (p := fun c => (waiting c s).isSome) ((waiting_isSome .scan s).mpr h)

theorem pick_pixel {s : State} (noScan : s.mpt.scanWait = none) (h : s.mpt.pixelWait ≠ none) : pick s = some .pixel :=
  (List.find?_cons_of_neg (p := fun c => (waiting c s).isSome) (mt (waiting_isSome .scan s).mp (not_not.mpr noScan))).trans
    (List.find?_cons_of_pos ((waiting_isSome .pixel s).mpr h))

theorem pick_rotating {s : State} (noScan : s.mpt.scanWait = none) (noPixel : s.mpt.pixelWait = none) :
    pick s = (rotation s.mpt.last).find? fun c => (waiting c s).isSome :=
  (List.find?_cons_of_neg (p := fun c => (waiting c s).isSome) (mt (waiting_isSome .scan s).mp (not_not.mpr noScan))).trans
    (List.find?_cons_of_neg (mt (waiting_isSome .pixel s).mp (not_not.mpr noPixel)))

/-- In a list that ascends by a key, the element found is the one with the least key. -/
theorem find_ascending {α : Type} {key : α → Nat} {l : List α} (ascends : l.Pairwise fun a b => key a < key b)
    (p : α → Bool) (c : α) :
    l.find? p = some c ↔ c ∈ l ∧ p c = true ∧ ∀ d ∈ l, key d < key c → p d = false := by
  induction l with
  | nil => simp
  | cons a l ih =>
    obtain ⟨first, rest⟩ := List.pairwise_cons.mp ascends
    cases found : p a with
    | true =>
      rw [List.find?_cons_of_pos found]
      constructor
      · rintro ⟨⟩
        exact ⟨by simp, found, fun d isin less => by
          rcases List.mem_cons.mp isin with rfl | isin
          · omega
          · have := first d isin; omega⟩
      · rintro ⟨isin, _, least⟩
        rcases List.mem_cons.mp isin with rfl | isin
        · rfl
        · exact absurd (least a (by simp) (first c isin)) (by simp [found])
    | false =>
      rw [List.find?_cons_of_neg (by simp [found]), ih rest]
      constructor
      · rintro ⟨isin, holds, least⟩
        exact ⟨by simp [isin], holds, fun d isin less => by
          rcases List.mem_cons.mp isin with rfl | isin
          · exact found
          · exact least d isin less⟩
      · rintro ⟨isin, holds, least⟩
        rcases List.mem_cons.mp isin with rfl | isin
        · exact absurd holds (by simp [found])
        · exact ⟨isin, holds, fun d isin => least d (by simp [isin])⟩

theorem mem_rotation {last : Client} (c : Client) : c ∈ rotation last ↔ 2 ≤ c.num := by
  cases last <;> cases c <;> simp [rotation, Client.num]

/-- The rotation by the clients' numbers: the next number is served first, and `last` last. -/
theorem rotation_find {last : Client} (rotates : 2 ≤ last.num) (waits : Client → Bool) (c : Client) :
    (rotation last).find? waits = some c ↔ 2 ≤ c.num ∧ waits c = true ∧
      ∀ d : Client, 2 ≤ d.num → (d.num + 7 - last.num) % 4 < (c.num + 7 - last.num) % 4 → waits d = false := by
  have ascends : (rotation last).Pairwise fun a b => (a.num + 7 - last.num) % 4 < (b.num + 7 - last.num) % 4 := by
    cases last with
    | scan | pixel => exact absurd rotates (by decide)
    | waveform | station | download | verify => decide
  simp only [find_ascending ascends, mem_rotation]

/-! ### Grants (R22 to R26) -/

theorem grants_none {n : Nat} {s : State} (empty : pick (pump s) = none) : grants (n + 1) s = pump s := by
  rw [grants]
  dsimp only
  rw [empty]
  exact ite_self _

section
variable {n : Nat} {s : State} {c : Client} (opened : portOpen s = true) (idle : s.mpt.inflight = none)
  (picked : pick (pump s) = some c)

include opened idle

theorem portFree_pump : (portOpen (pump s) && (pump s).mpt.inflight.isNone) = true := by
  rw [pump_portOpen, (pump_sansBursts s).2, opened, idle]
  rfl

include picked

/-- The moment without a burst in flight is the Rest Controller's before it is a grant's (R24, entry 46). -/
theorem grants_idle (waits : awaitsIdle s = true) : grants (n + 1) s = grants n (portIdle (pump s)) := by
  rw [grants]
  dsimp only
  rw [if_pos (portFree_pump opened idle), picked]
  dsimp only
  rw [if_pos ((awaitsIdle_pump s).trans waits)]

variable (live : s.sif.live = true) (calm : awaitsIdle s = false) {b : Burst} (waits : waiting c (pump s) = some b)

include live calm waits

/-- The window check of the burst picked (R26). -/
theorem grants_picked : grants (n + 1) s =
    let g := fillStatus b (takeWaiting c (pump s))
    if windowPasses g.1 g.2 then { g.2 with mpt.inflight := some g.1 }
    else grants n (complete g.1 .window [] (reportWindow g.1.client g.1.write g.1.addr g.1.len g.2)) := by
  have isLive : (pump s).sif.live = true := ((congrArg (fun x : State => x.sif.live) (pump_sansBursts s).1 :)).trans live
  rw [grants]
  dsimp only
  rw [if_pos (portFree_pump opened idle), picked]
  dsimp only
  rw [if_neg (by rw [awaitsIdle_pump, calm]; nofun), waits]
  dsimp only
  rw [if_pos (by rw [isLive]; rfl)]

end

theorem fillStatus_other {b : Burst} (other : ∀ u, b.user ≠ .status u) (s : State) : fillStatus b s = (b, s) := by
  unfold fillStatus
  cases user : b.user with
  | status u => exact absurd user (other u)
  | _ => rfl

theorem takeWaiting_frame (c : Client) (s : State) : { takeWaiting c s with mpt := s.mpt } = s := by cases c <;> rfl

/-- What a burst that leaves its place changes of the port (R23). -/
theorem takeWaiting_mpt (c : Client) (s : State) :
    (takeWaiting c s).mpt.inflight = s.mpt.inflight ∧ (takeWaiting c s).mpt.capture = s.mpt.capture ∧
    (takeWaiting c s).mpt.last = if c = .scan ∨ c = .pixel then s.mpt.last else c := by
  cases c <;> exact ⟨rfl, rfl, rfl⟩

theorem windowPasses_congr {b : Burst} {s t : State} (sif : t.sif = s.sif) (settings : t.settings = s.settings) :
    windowPasses b t = windowPasses b s := by
  simp only [windowPasses, startLoadBurst, State.rangeOk, State.windows, State.cfg, sif, settings]

/-- Settles O11: from the specification of each unit, the rotation as an ascending list, and the grants unfolded once. -/
theorem arbiterPicksInOrder : Obligations.ArbiterPicksInOrder := by
  refine ⟨fun s => ⟨pick_scan, pick_pixel, fun noScan noPixel rotates c => ?_⟩,
    fun s c b opened idle live calm picked waits other => ?_, fun s opened idle picked => ?_, fun s => ?_,
    fun a n bytes => ⟨blocks_eq a n, rfl⟩⟩
  · rw [pick_rotating noScan noPixel, rotation_find rotates]
    simp only [Option.isSome_iff_ne_none, Option.isSome_eq_false_iff, Option.isNone_iff_eq_none]
  · have granted : portGrants s = _ := grants_picked (n := 65535) opened idle picked live calm waits
    rw [fillStatus_other other] at granted
    have rest := (pump_sansBursts s).1
    have outside := takeWaiting_frame c (pump s)
    obtain ⟨noFlight, capture, last⟩ := takeWaiting_mpt c (pump s)
    have sif : (takeWaiting c (pump s)).sif = s.sif :=
      (congrArg State.sif outside :).trans (congrArg State.sif rest :)
    have settings : (takeWaiting c (pump s)).settings = s.settings :=
      (congrArg State.settings outside :).trans (congrArg State.settings rest :)
    have mem : (takeWaiting c (pump s)).mem = s.mem :=
      (congrArg State.mem outside :).trans (congrArg State.mem rest :)
    have passes : windowPasses b (takeWaiting c (pump s)) = windowPasses b s := windowPasses_congr sif settings
    have lastOf : (pump s).mpt.last = s.mpt.last := (congrArg (fun x : State => x.mpt.last) rest :)
    have captureOf : (pump s).mpt.capture = s.mpt.capture := (congrArg (fun x : State => x.mpt.capture) rest :)
    have station : (pump s).mpt.stationQueue = s.mpt.stationQueue :=
      (congrArg (fun x : State => x.mpt.stationQueue) rest :)
    have wave : (pump s).mpt.waveQueue = s.mpt.waveQueue := (congrArg (fun x : State => x.mpt.waveQueue) rest :)
    rw [lastOf] at last
    dsimp only at granted
    rw [passes] at granted
    refine ⟨fun ok => ?_, fun bad => ?_⟩
    · rw [granted, if_pos ok]
      exact ⟨rfl, sif, last, mem, capture.trans captureOf⟩
    · rw [bad] at granted
      refine ⟨takeWaiting c (pump s), granted, ?_, noFlight.trans ((pump_sansBursts s).2.trans idle), capture.trans captureOf,
        last, fun isStation => ?_, fun isWave => ?_, fun notStation notWave => ?_⟩
      · exact (congrArg (fun x : State => ({ x with mpt := (takeWaiting c (pump s)).mpt } : State).sansBursts) outside :).trans
          (congrArg (fun x : State => ({ x with mpt := (takeWaiting c (pump s)).sansBursts.mpt } : State)) rest :)
      · subst isStation
        rw [← station]
        exact ⟨(List.head?_eq_some_iff.mp waits).elim fun q e => by rw [takeWaiting, e]; rfl, wave⟩
      · subst isWave
        rw [← wave]
        exact ⟨(List.head?_eq_some_iff.mp waits).elim fun q e => by rw [takeWaiting, e]; rfl, station⟩
      · cases c with
        | station => exact absurd rfl notStation
        | waveform => exact absurd rfl notWave
        | _ => rfl
  · obtain ⟨c, picked⟩ := Option.ne_none_iff_exists'.mp picked
    have rsc : (pump s).rsc = s.rsc := (congrArg State.rsc (pump_sansBursts s).1 :)
    refine ⟨fun rests => ?_, fun turn over_ quiet => ?_⟩
    · have granted : portGrants s = _ := grants_idle (n := 65535) opened idle picked (by rw [awaitsIdle, rests]; rfl)
      have quiesce : (pump s).rsc.part = .quiesce := by
        rw [rsc]
        simp only [mayRest, Bool.and_eq_true, beq_iff_eq] at rests
        exact rests.1.1.1
      rw [granted, portIdle, if_pos quiesce]
    · have granted : portGrants s = _ := grants_idle (n := 65535) opened idle picked (by
        rw [awaitsIdle, turn, over_, quiet]
        simp)
      rw [granted, portIdle, if_neg (by rw [rsc, turn]; nofun)]
  · intro t free slot
    have scanFrame := pumpScan_frame s
    have pixelFrame := pumpPixel_frame (pumpScan s)
    have downFrame := pumpDownload_frame (pumpPixel (pumpScan s))
    have verifyFrame : _ = _ := pumpVerify_frame (pumpDownload (pumpPixel (pumpScan s)))
    have scanSpec := pumpScan_spec s
    have pixelSpec := pumpPixel_spec (pumpScan s)
    have downSpec := pumpDownload_spec (pumpPixel (pumpScan s))
    have verifySpec := pumpVerify_spec (pumpDownload (pumpPixel (pumpScan s)))
    have flying₁ := (pumpScan_sansBursts s).2
    have flying₂ := (pumpPixel_sansBursts (pumpScan s)).2.trans flying₁
    have flying₃ := (pumpDownload_sansBursts (pumpPixel (pumpScan s))).2.trans flying₂
    have is : t = pumpVerify (pumpDownload (pumpPixel (pumpScan s))) := rfl
    have sans : t.sansBursts = s.sansBursts := (pump_sansBursts s).1
    clear_value t
    generalize pumpVerify (pumpDownload (pumpPixel (pumpScan s))) = v at *
    subst is
    generalize pumpDownload (pumpPixel (pumpScan s)) = s₃ at *
    generalize pumpPixel (pumpScan s) = s₂ at *
    generalize pumpScan s = s₁ at *
    have scanWait : t.mpt.scanWait = s₁.mpt.scanWait :=
      (congrArg (fun x : State => x.mpt.scanWait) verifyFrame :).trans
        ((congrArg (fun x : State => x.mpt.scanWait) downFrame :).trans (congrArg (fun x : State => x.mpt.scanWait) pixelFrame :))
    have slots : t.fsc = s₁.fsc := (congrArg State.fsc verifyFrame :).trans
      ((congrArg State.fsc downFrame :).trans (congrArg State.fsc pixelFrame :))
    have pixelWait : t.mpt.pixelWait = s₂.mpt.pixelWait := (congrArg (fun x : State => x.mpt.pixelWait) verifyFrame :).trans
      (congrArg (fun x : State => x.mpt.pixelWait) downFrame :)
    have upe : t.upe = s₂.upe := (congrArg State.upe verifyFrame :).trans (congrArg State.upe downFrame :)
    have pixelBefore : s₁.mpt.pixelWait = s.mpt.pixelWait := (congrArg (fun x : State => x.mpt.pixelWait) scanFrame :)
    have upeBefore : s₁.upe = s.upe := (congrArg State.upe scanFrame :)
    have downWait : t.mpt.downWait = s₃.mpt.downWait := (congrArg (fun x : State => x.mpt.downWait) verifyFrame :)
    have dispatch : t.dlc.dispatch = s₃.dlc.dispatch := (congrArg (fun x : State => x.dlc.dispatch) verifyFrame :)
    have downBefore : s₂.mpt.downWait = s.mpt.downWait := (congrArg (fun x : State => x.mpt.downWait) pixelFrame :).trans
      (congrArg (fun x : State => x.mpt.downWait) scanFrame :)
    have dlcBefore : s₂.dlc = s.dlc := (congrArg State.dlc pixelFrame :).trans (congrArg State.dlc scanFrame :)
    have verifyBefore : s₃.mpt.verifyWait = s.mpt.verifyWait := (congrArg (fun x : State => x.mpt.verifyWait) downFrame :).trans
      ((congrArg (fun x : State => x.mpt.verifyWait) pixelFrame :).trans (congrArg (fun x : State => x.mpt.verifyWait) scanFrame :))
    have passBefore : s₃.dlc.verify = s.dlc.verify := (congrArg (fun x : State => x.dlc.verify) downFrame :).trans (by rw [dlcBefore])
    have slotsBefore (i : Nat) : s₃.slot i = s.slot i :=
      (congrArg (fun x : State => x.slot i) downFrame :).trans (by rw [State.slot, State.slot, dlcBefore])
    rw [clientFree_congr (s := s) (c := .pixel) pixelBefore flying₁, pixelBefore, upeBefore, ← pixelWait, ← upe] at pixelSpec
    rw [clientFree_congr (s := s) (c := .download) downBefore flying₂, downBefore, dlcBefore, ← downWait, ← dispatch] at downSpec
    simp only [clientFree_congr (s := s) (c := .verify) verifyBefore flying₃, verifyBefore, passBefore, slotsBefore] at verifySpec
    rw [← scanWait, ← slots] at scanSpec
    exact ⟨scanSpec.1, scanSpec.2, pixelSpec.1, pixelSpec.2.1, pixelSpec.2.2, downSpec.1, downSpec.2, verifySpec.1, verifySpec.2,
      sans⟩

end Sys2Proof.Machine
end

section
/-! The Rest Controller's own operations: the REST result, fade and restore, entry to RUN, the wake, entry to QUIESCE (chapter 10,
sections 7.8 and 10.2 to 10.6). -/

set_option Elab.async false

namespace Sys2Proof.Machine

section
variable {s t u : State}

/-! ### What a comparison apart from the requests keeps -/

theorem ktu_of_sansRequests (h : t.sansRequests = s.sansRequests) : t.ktu = s.ktu := (congrArg State.ktu h :)
theorem rsc_of_sansRequests (h : t.sansRequests = s.sansRequests) : t.rsc = s.rsc := (congrArg State.rsc h :)
theorem meu_of_sansRequests (h : t.sansRequests = s.sansRequests) : t.meu = s.meu := (congrArg State.meu h :)
theorem upe_of_sansRequests (h : t.sansRequests = s.sansRequests) : t.upe = s.upe := (congrArg State.upe h :)
theorem pss_of_sansRequests (h : t.sansRequests = s.sansRequests) : t.pss = s.pss := (congrArg State.pss h :)
theorem fsc_of_sansRequests (h : t.sansRequests = s.sansRequests) : t.fsc = s.fsc := (congrArg State.fsc h :)
theorem ltu_of_sansRequests (h : t.sansRequests = s.sansRequests) : t.ltu = s.ltu := (congrArg State.ltu h :)
theorem dlc_of_sansRequests (h : t.sansRequests = s.sansRequests) : t.dlc = s.dlc := (congrArg State.dlc h :)
theorem wfs_of_sansRequests (h : t.sansRequests = s.sansRequests) : t.wfs = s.wfs := (congrArg State.wfs h :)
theorem mem_of_sansRequests (h : t.sansRequests = s.sansRequests) : t.mem = s.mem := (congrArg State.mem h :)
theorem partTime_of_sansRequests (h : t.sansRequests = s.sansRequests) : t.partTime = s.partTime := (congrArg State.partTime h :)
theorem settings_of_sansRequests (h : t.sansRequests = s.sansRequests) : t.settings = s.settings := (congrArg State.settings h :)
theorem fresh_of_sansRequests (h : t.sansRequests = s.sansRequests) : t.fresh = s.fresh := (congrArg State.fresh h :)

/-! ### The REST result (R198) -/

/-- The end of the REST record held, if there is one: the wake cause and the rest turn count (R198). -/
def restEnds (cause : WakeCause) (code : Nat) (s : State) : List (Nat × List (Nat × List Byte) × Nat) :=
  match s.rsc.record with
  | none => []
  | some r => [(r, [(0x1C, le8 cause.num ++ [s.rsc.turns])], code)]

theorem ends_finalizeRest (cause : WakeCause) (code : Code) (s : State) :
    Ends .control (restEnds cause code.num s) s (finalizeRest cause code s) := by
  unfold finalizeRest restEnds
  cases s.rsc.record with
  | some r => exact (Ends.refl.congr (u := { s with rsc.record := none })).finalize r _ code
  | none => exact Ends.refl

theorem finalizeRest_posted (cause : WakeCause) (code : Code) (s : State) :
    (finalizeRest cause code s).sif.posted = s.postedBy .control (restEnds cause code.num s).length := by
  unfold finalizeRest restEnds
  split
  · next r e =>
    rw [finalize_postedBy, e]
    exact postedBy_congr _ _ rfl (portOpen_congr rfl)
  · next e =>
    rw [e]
    exact (postedBy_zero _ _).symm

theorem finalizeRest_sansRequests (cause : WakeCause) (code : Code) (s : State) :
    (finalizeRest cause code s).sansRequests = ({ s with rsc.record := none } : State).sansRequests := by
  unfold finalizeRest
  split
  · rw [sansRequests_finalize]
  · next e => rw [← e]

theorem keepsAsked_finalizeRest (cause : WakeCause) (code : Code) : KeepsAsked s (finalizeRest cause code s) := by
  unfold finalizeRest
  split
  · exact (keepsAsked_of_writers (t := { s with rsc.record := none })).trans (keepsAsked_finalize _ _ _ _)
  · exact .refl

theorem keepsAsked_finalizeLight (code : Code) : KeepsAsked s (finalizeLight code s) := by
  unfold finalizeLight
  split
  · exact (keepsAsked_of_writers (t := { s with ltu.light := none, ltu.detached := false })).trans (keepsAsked_finalize _ _ _ _)
  · exact .refl

/-! ### Fade and restore (R144, R145) -/

theorem restFade_cases (s : State) : ∃ v, restFade s = ask .light { v with ltu := s.ltu.faded s.rsc.fade } ∧
    v = finalizeLight .cancelled { s with ltu.restDark := true, rsc.fadePending := true } := by
  refine ⟨_, ?_, rfl⟩
  have lit := finalizeLight_ltu .cancelled { s with ltu.restDark := true, rsc.fadePending := true }
  simp only [restFade, startRamp, lit]
  rfl

theorem ends_restFade : Ends .control (lightEnds 48 s) s (restFade s) := by
  obtain ⟨v, e, is⟩ := restFade_cases s
  have ends := ends_finalizeLight .cancelled { s with ltu.restDark := true, rsc.fadePending := true }
  rw [← is] at ends
  rw [e]
  exact (((Ends.refl (s := s)).congr (u := { s with ltu.restDark := true, rsc.fadePending := true })).trans ends).congr.ask .light

theorem restFade_posted (s : State) : (restFade s).sif.posted = s.postedBy .control (lightEnds 48 s).length := by
  obtain ⟨v, e, is⟩ := restFade_cases s
  have posted := finalizeLight_posted .cancelled { s with ltu.restDark := true, rsc.fadePending := true }
  rw [← is] at posted
  rw [e, ask_sif_posted]
  exact posted

theorem restFade_sansRequests (s : State) : (restFade s).sansRequests =
    ({ s with ltu := s.ltu.faded s.rsc.fade, rsc.fadePending := true } : State).sansRequests := by
  obtain ⟨v, e, is⟩ := restFade_cases s
  have rest := finalizeLight_sansRequests .cancelled { s with ltu.restDark := true, rsc.fadePending := true }
  rw [← is] at rest
  rw [e, sansRequests_ask]
  exact (congrArg (fun x : State => ({ x with ltu := s.ltu.faded s.rsc.fade } : State)) rest :)

theorem keepsAsked_restFade : KeepsAsked s (restFade s) := by
  obtain ⟨v, e, is⟩ := restFade_cases s
  have kept := keepsAsked_finalizeLight (s := { s with ltu.restDark := true, rsc.fadePending := true }) .cancelled
  rw [← is] at kept
  rw [e]
  exact (((keepsAsked_of_writers (s := s)).trans kept).congr (u := { v with ltu := s.ltu.faded s.rsc.fade })).trans
    (keepsAsked_ask .light)

/-- A restore changes the Light Unit and the fade's mark, and may ask for the light status. -/
theorem restore_cases {p : State → Prop} (s : State)
    (restored : p { s with ltu := s.ltu.restored s.rsc.fade, rsc.fadePending := false })
    (asked : p (ask .light { s with ltu := s.ltu.restored s.rsc.fade, rsc.fadePending := false })) : p (restore s) := by
  unfold restore
  unfold Ltu.restored at restored asked
  dsimp only
  by_cases off : s.ltu.keyOff = true
  · rw [if_pos off] at restored asked ⊢
    split
    · exact asked
    · exact restored
  · rw [if_neg off] at asked ⊢
    exact asked

theorem ends_restore {c : Chain} : Ends c [] s (restore s) :=
  have first : Ends c [] s { s with ltu := s.ltu.restored s.rsc.fade, rsc.fadePending := false } :=
    Ends.refl.congr (chain := by cases c <;> rfl)
  restore_cases (p := Ends c [] s) s first (first.ask .light)

theorem restore_sansStatus (s : State) : (restore s).sansStatus =
    ({ s with ltu := s.ltu.restored s.rsc.fade, rsc.fadePending := false } : State).sansStatus :=
  restore_cases (p := fun t => t.sansStatus = _) s rfl (sansStatus_ask _ _)

theorem restore_posted (s : State) : (restore s).sif.posted = s.sif.posted :=
  (congrArg (fun x : State => x.sif.posted) (restore_sansStatus s) :)

theorem keepsAsked_restore : KeepsAsked s (restore s) :=
  have first : KeepsAsked s { s with ltu := s.ltu.restored s.rsc.fade, rsc.fadePending := false } := keepsAsked_of_writers
  restore_cases (p := KeepsAsked s) s first (first.trans (keepsAsked_ask .light))

/-! ### The walks of an entry to RUN (R9, R186) -/

/-- What the walk of a chain leaves: chains and STATION queue apart nothing changes, and the chain walks. -/
theorem walkChain_spec (s : State) (c : Chain) :
    (∀ d, Ends d [] s (walkChain s c)) ∧ (walkChain s c).sansRequests = s.sansRequests ∧
    (walkChain s c).sif.writers = s.sif.writers ∧ (walkChain s c).sif.posted = s.sif.posted ∧
    ((walkChain s c).chain c).walk ≠ .idle ∧ ∀ d, (s.chain d).walk ≠ .idle → ((walkChain s c).chain d).walk ≠ .idle := by
  have set (x : ChainCtl) (same : x.retired = (s.chain c).retired) (d : Chain) : Ends d [] s (s.setChain c x) := by
    refine Ends.refl.congr (by cases c <;> rfl) (by cases c <;> rfl) (by cases c <;> rfl) (by cases c <;> rfl) ?_
    cases c <;> cases d <;> first | rfl | exact same
  unfold walkChain
  dsimp only
  by_cases idle : (s.chain c).walk = .idle
  · rw [if_pos idle]
    refine ⟨fun d => (set { s.chain c with walk := .link, remembered := false, declined := none } rfl d).join
      (stationBurst (.walk c) false (s.chain c).cursor 4 []) rfl, ?_, by cases c <;> rfl, by cases c <;> rfl, by cases c <;> nofun,
      fun d walks => ?_⟩
    · exact sansRequests_setChain c _ _
    · cases c <;> cases d <;> first | exact walks | nofun
  · rw [if_neg idle]
    refine ⟨fun d => set { s.chain c with remembered := true } rfl d, sansRequests_setChain c _ _, by cases c <;> rfl,
      by cases c <;> rfl, by cases c <;> exact idle, fun d walks => ?_⟩
    cases c <;> cases d <;> exact walks

theorem walkAll_spec (s : State) :
    (∀ d, Ends d [] s (walkAll s)) ∧ (walkAll s).sansRequests = s.sansRequests ∧
    (walkAll s).sif.writers = s.sif.writers ∧ (walkAll s).sif.posted = s.sif.posted ∧
    ∀ d, ((walkAll s).chain d).walk ≠ .idle := by
  obtain ⟨ends₁, rest₁, writers₁, posted₁, walks₁, _⟩ := walkChain_spec s .page
  obtain ⟨ends₂, rest₂, writers₂, posted₂, walks₂, keeps₂⟩ := walkChain_spec (walkChain s .page) .control
  obtain ⟨ends₃, rest₃, writers₃, posted₃, walks₃, keeps₃⟩ := walkChain_spec (walkChain (walkChain s .page) .control) .fetch
  refine ⟨fun d => ((ends₁ d).trans (ends₂ d)).trans (ends₃ d), rest₃.trans (rest₂.trans rest₁),
    writers₃.trans (writers₂.trans writers₁), posted₃.trans (posted₂.trans posted₁), fun d => ?_⟩
  cases d with
  | page => exact keeps₃ _ (keeps₂ _ walks₁)
  | control => exact keeps₃ _ walks₂
  | fetch => exact walks₃

/-! ### Entry to RUN (R186) -/

/-- The part in RUN out of a part state but REST and REST_TURN, the log and the light left aside (R170, R177, R186). -/
def State.running (s : State) : State :=
  { s with
    rsc.part := .run, rsc.quiesceTimer := none, rsc.restTimer := none
    meu.tempTimer := some ⟨s.partTime, s.cfg.tempMaxAge * 1000⟩
    dlc.stop := .none, dlc.recv := .hunt 0, dlc.markers := (s.cfg.marker0, s.cfg.marker1) }

/-- A change of the part state that keeps the row of R176. -/
theorem setPart_row {p : PartState} (row : s.rsc.part.restRow = p.restRow) : setPart p s = { s with
    rsc.part := p, meu.tempTimer := if p = .run then some ⟨s.partTime, s.cfg.tempMaxAge * 1000⟩ else none } := by
  rw [setPart_eq, if_pos (.inl row)]
  rfl

/-- The steps of an entry to RUN up to the handling of the Key Queue. -/
def State.entering (s : State) : State :=
  { enterHunt (walkAll (setPart .run { s with rsc.quiesceTimer := none, rsc.restTimer := none })) with dlc.stop := .none }

theorem entering_spec (awake : s.rsc.part.restRow = false) :
    (∀ d, Ends d [] s s.entering) ∧ s.entering.sansRequests = s.running.sansRequests ∧
    s.entering.sif.writers = s.sif.writers ∧ s.entering.sif.posted = s.sif.posted ∧ ∀ d, (s.entering.chain d).walk ≠ .idle := by
  have part : setPart .run { s with rsc.quiesceTimer := none, rsc.restTimer := none } = { s with
      rsc.part := .run, rsc.quiesceTimer := none, rsc.restTimer := none
      meu.tempTimer := some ⟨s.partTime, s.cfg.tempMaxAge * 1000⟩ } :=
    setPart_row (s := { s with rsc.quiesceTimer := none, rsc.restTimer := none }) awake
  unfold State.entering
  rw [part]
  obtain ⟨ends, rest, writers, posted, walks⟩ := walkAll_spec { s with
    rsc.part := .run, rsc.quiesceTimer := none, rsc.restTimer := none
    meu.tempTimer := some ⟨s.partTime, s.cfg.tempMaxAge * 1000⟩ }
  generalize walkAll _ = w at *
  have cfg : w.cfg = s.cfg := (congrArg State.cfg rest :)
  have first (d : Chain) : Ends d [] s { s with
      rsc.part := .run, rsc.quiesceTimer := none, rsc.restTimer := none
      meu.tempTimer := some ⟨s.partTime, s.cfg.tempMaxAge * 1000⟩ } := Ends.refl.congr (chain := by cases d <;> rfl)
  refine ⟨fun d => ((first d).trans (ends d)).congr (chain := by cases d <;> rfl), ?_, writers, posted,
    fun d => by cases d with | page => exact walks .page | control => exact walks .control | fetch => exact walks .fetch⟩
  unfold enterHunt
  rw [cfg]
  exact (congrArg (fun x : State => ({ x with
    dlc.stop := .none, dlc.recv := .hunt 0, dlc.markers := (s.cfg.marker0, s.cfg.marker1) } : State)) rest :)

theorem enterRun_eq (abandoned : Bool) (s : State) : enterRun abandoned s =
    if abandoned then writeLogAtRun (runQueue s.entering.ktu.queue.length s.entering)
    else forcedRest (writeLogAtRun (runQueue s.entering.ktu.queue.length s.entering)) := rfl

theorem entering_ktu (s : State) (awake : s.rsc.part.restRow = false) : s.entering.ktu = s.ktu :=
  (ktu_of_sansRequests (entering_spec awake).2.1).trans rfl

/-- The Turn Log at the entry to RUN (R126). -/
theorem writeLogAtRun_spec (s : State) :
    (∀ d, Ends d [] s (writeLogAtRun s)) ∧
    (writeLogAtRun s).sansRequests = ({ s with ktu.logDirty := false } : State).sansRequests ∧
    KeepsAsked s (writeLogAtRun s) ∧ (s.ktu.logDirty = true → s.sif.writers.length = 8 → (writeLogAtRun s).asked .turnLog) ∧
    (writeLogAtRun s).sif.posted = (if s.ktu.logDirty = true then s.postedOnce .turn else s.sif.posted) ∧
    ∀ d, (writeLogAtRun s).chain d = s.chain d := by
  unfold writeLogAtRun
  by_cases dirty : s.ktu.logDirty = true
  · rw [if_pos dirty, if_pos dirty]
    have first (d : Chain) : Ends d [] s { s with ktu.logDirty := false } := Ends.refl.congr (chain := by cases d <;> rfl)
    refine ⟨fun d => ((first d).ask .turnLog).post .turn, ?_, ?_, fun _ eight => ?_, ?_, fun d => ?_⟩
    · rw [sansRequests_post, writeLog, sansRequests_ask]
    · exact ((keepsAsked_of_writers (t := { s with ktu.logDirty := false })).trans (keepsAsked_ask .turnLog)).trans
        (keepsAsked_post .turn)
    · exact asked_post_of_asked _ (asked_ask .turnLog eight)
    · rw [post_sif_posted, State.postedOnce, writeLog, ask_sif_posted]
    · rw [post_chain, writeLog, ask_chain]
      cases d <;> rfl
  · rw [if_neg dirty, if_neg dirty]
    have off : s.ktu.logDirty = false := by simpa using dirty
    refine ⟨fun d => Ends.refl, ?_, .refl, fun is => absurd is dirty, rfl, fun d => rfl⟩
    rw [← off]

theorem forcedRest_calm (calm : s.meu.supply ≠ .critical) : forcedRest s = s := if_neg fun h => calm h.2

theorem runQueue_empty {n : Nat} (empty : s.ktu.queue = []) : runQueue n s = s := by
  cases n with
  | zero => rfl
  | succ n => rw [runQueue, empty]

/-- An entry to RUN with no press waiting and no forced rest to follow (R126, R170, R186). -/
theorem enterRun_calm (abandoned : Bool) (awake : s.rsc.part.restRow = false) (queue : s.ktu.queue = [])
    (calm : abandoned = true ∨ s.meu.supply ≠ .critical) :
    let t := enterRun abandoned s
    (∀ d, Ends d [] s t) ∧ t.sansRequests = ({ s.running with ktu.logDirty := false } : State).sansRequests ∧
    KeepsAsked s t ∧ (s.ktu.logDirty = true → s.sif.writers.length = 8 → t.asked .turnLog) ∧
    t.sif.posted = (if s.ktu.logDirty = true then s.postedOnce .turn else s.sif.posted) ∧ ∀ d, (t.chain d).walk ≠ .idle := by
  obtain ⟨ends, rest, writers, posted, walks⟩ := entering_spec awake
  have ktu := entering_ktu s awake
  obtain ⟨endsLog, restLog, kept, asked, postedLog, chains⟩ := writeLogAtRun_spec s.entering
  have e := enterRun_eq abandoned s
  rw [runQueue_empty (ktu ▸ queue)] at e
  generalize s.entering = v at *
  generalize writeLogAtRun v = w at *
  have supplyV : v.meu.supply = s.meu.supply := (congrArg (fun x : State => x.meu.supply) rest :)
  have supplyW : w.meu.supply = v.meu.supply := (congrArg (fun x : State => x.meu.supply) restLog :)
  have is : enterRun abandoned s = w := by
    rw [e]
    cases abandoned with
    | true => rfl
    | false =>
      rcases calm with not_ | other
      · exact nomatch not_
      · exact forcedRest_calm (by rwa [supplyW, supplyV])
  rw [ktu, State.postedOnce, posted] at postedLog
  rw [ktu, writers] at asked
  rw [is]
  refine ⟨fun d => (ends d).trans (endsLog d), ?_, (keepsAsked_of_writers writers).trans kept, asked, postedLog,
    fun d => by rw [chains]; exact walks d⟩
  exact restLog.trans (congrArg (fun x : State => ({ x with ktu.logDirty := false } : State)) rest :)

end

section
variable {s t u : State}

/-! ### The rest context (R198) -/

theorem contextBytes_congr (phase : Phase) (rsc : t.rsc = s.rsc) (fresh : t.fresh = s.fresh) :
    contextBytes phase t = contextBytes phase s := by
  unfold contextBytes contextImage contextCode contextTimes contextSupply freeBytes freeCode
  rw [rsc, fresh]

/-- The rest context asked for (R198, entry 22). -/
theorem askContext_spec (phase : Phase) (s : State) :
    (∀ d, Ends d [] s (askContext phase s)) ∧
    (askContext phase s).sansStatus = ({ s with fresh := s.fresh + 15 } : State).sansStatus ∧
    KeepsAsked s (askContext phase s) ∧
    (s.sif.writers.length = 8 → (askContext phase s).asked (.context phase (contextBytes phase s))) := by
  have first (d : Chain) : Ends d [] s { s with fresh := s.fresh + 15 } := Ends.refl.congr (chain := by cases d <;> rfl)
  exact ⟨fun d => (first d).ask _, sansStatus_ask _ _,
    (keepsAsked_of_writers (t := { s with fresh := s.fresh + 15 })).trans (keepsAsked_ask _), fun eight => asked_ask _ eight⟩

/-! ### The wake (R197) -/

/-- The three writes of a wake (R197 step 1). -/
theorem wakeWrites_spec (s : State) :
    (∀ d, Ends d [] s (wakeWrites s)) ∧
    (wakeWrites s).sansStatus = ({ s with ktu.logDirty := false, fresh := s.fresh + 15 } : State).sansStatus ∧
    KeepsAsked s (wakeWrites s) ∧ (s.sif.writers.length = 8 →
      (wakeWrites s).asked .turnLog ∧ (wakeWrites s).asked .mirror ∧
      (wakeWrites s).asked (.context .woken (contextBytes .woken s))) := by
  have e : wakeWrites s = askContext .woken (ask .mirror { writeLog s with sif.wakeOrder := .log }) := rfl
  have restLog : (writeLog s).sansStatus = ({ s with ktu.logDirty := false } : State).sansStatus := sansStatus_ask _ _
  have endsLog (d : Chain) : Ends d [] s (writeLog s) :=
    (Ends.refl.congr (u := { s with ktu.logDirty := false }) (chain := by cases d <;> rfl)).ask .turnLog
  have keptLog : KeepsAsked s (writeLog s) :=
    (keepsAsked_of_writers (t := { s with ktu.logDirty := false })).trans (keepsAsked_ask .turnLog)
  have askedLog (eight : s.sif.writers.length = 8) : (writeLog s).asked .turnLog := asked_ask .turnLog eight
  generalize writeLog s = l at *
  have restMirror := sansStatus_ask .mirror { l with sif.wakeOrder := .log }
  have endsMirror (d : Chain) : Ends d [] s (ask .mirror { l with sif.wakeOrder := .log }) :=
    ((endsLog d).congr (u := { l with sif.wakeOrder := .log }) (chain := by cases d <;> rfl)).ask .mirror
  have keptMirror : KeepsAsked l (ask .mirror { l with sif.wakeOrder := .log }) :=
    (keepsAsked_of_writers (t := { l with sif.wakeOrder := .log })).trans (keepsAsked_ask .mirror)
  have askedMirror (eight : l.sif.writers.length = 8) := asked_ask .mirror (s := { l with sif.wakeOrder := .log }) eight
  generalize ask .mirror { l with sif.wakeOrder := .log } = m at *
  have before : m.sansStatus = ({ s with ktu.logDirty := false } : State).sansStatus := restMirror.trans restLog
  have rsc : m.rsc = s.rsc := (congrArg State.rsc before :)
  have fresh : m.fresh = s.fresh := (congrArg State.fresh before :)
  obtain ⟨ends, rest, kept, asked⟩ := askContext_spec .woken m
  rw [contextBytes_congr .woken rsc fresh] at asked
  rw [fresh] at rest
  rw [e]
  refine ⟨fun d => (endsMirror d).trans (ends d), ?_, (keptLog.trans keptMirror).trans kept, fun eight => ?_⟩
  · exact rest.trans (congrArg (fun x : State => ({ x with fresh := s.fresh + 15 } : State)) before :)
  · have eightL := keptLog.eight eight
    exact ⟨(keptMirror.trans kept).asked _ (askedLog eight), kept.asked _ (askedMirror eightL), asked (keptMirror.eight eightL)⟩

/-- A wake up to its entry to RUN (R197 steps 1 to 4). -/
def State.waked (s : State) : State := restore (post .wake (finalizeRest s.rsc.wake .done (wakeWrites s)))

theorem wakeComplete_eq (s : State) : wakeComplete s = enterRun false s.waked := by
  have rsc : (wakeWrites s).rsc = s.rsc := (congrArg State.rsc (wakeWrites_spec s).2.1 :)
  unfold wakeComplete State.waked
  dsimp only
  rw [rsc]

theorem waked_spec (s : State) :
    Ends .control (restEnds s.rsc.wake 16 s) s s.waked ∧
    s.waked.sansRequests = ({ s with
      ktu.logDirty := false, fresh := s.fresh + 15, rsc.record := none, rsc.fadePending := false
      ltu := s.ltu.restored s.rsc.fade } : State).sansRequests ∧
    KeepsAsked s s.waked ∧
    s.waked.sif.posted = (s.postedBy .control (restEnds s.rsc.wake 16 s).length).modify Cause.wake.num (· + 1) ∧
    (s.sif.writers.length = 8 →
      s.waked.asked .turnLog ∧ s.waked.asked .mirror ∧ s.waked.asked (.context .woken (contextBytes .woken s))) := by
  unfold State.waked
  obtain ⟨ends₁, rest₁, kept₁, asked₁⟩ := wakeWrites_spec s
  generalize wakeWrites s = a at *
  have rsc : a.rsc = s.rsc := (congrArg State.rsc rest₁ :)
  have posted₁ : a.sif.posted = s.sif.posted := (congrArg (fun x : State => x.sif.posted) rest₁ :)
  have same : restEnds s.rsc.wake 16 a = restEnds s.rsc.wake 16 s := by rw [restEnds, restEnds, rsc]
  have ends₂ := ends_finalizeRest s.rsc.wake .done a
  have posted₂ := finalizeRest_posted s.rsc.wake .done a
  have rest₂ := finalizeRest_sansRequests s.rsc.wake .done a
  have kept₂ := keepsAsked_finalizeRest (s := a) s.rsc.wake .done
  rw [show Code.done.num = 16 from rfl, same] at ends₂ posted₂
  rw [postedBy_congr _ _ posted₁ (portOpen_congr (by rw [rsc]))] at posted₂
  generalize finalizeRest s.rsc.wake .done a = b at *
  have before : b.sansRequests = ({ s with
      ktu.logDirty := false, fresh := s.fresh + 15, rsc.record := none } : State).sansRequests :=
    rest₂.trans (congrArg (fun x : State => ({ x with rsc.record := none } : State))
      (sansRequests_of_sansPosts (sansPosts_of_sansStatus rest₁)) :)
  have ltu : (post .wake b).ltu = s.ltu := (post_ltu _ _).trans ((ltu_of_sansRequests before).trans rfl)
  have fade : (post .wake b).rsc.fade = s.rsc.fade := by
    rw [post_rsc]
    exact (congrArg Rsc.fade (rsc_of_sansRequests before) :)
  have rest₃ := sansRequests_of_sansPosts (sansPosts_of_sansStatus (restore_sansStatus (post .wake b)))
  rw [ltu, fade] at rest₃
  refine ⟨((ends₁ .control).trans ends₂ |>.post .wake).trans ends_restore |> fun h => by simpa using h, ?_,
    ((kept₁.trans kept₂).trans (keepsAsked_post .wake)).trans keepsAsked_restore, ?_, fun eight => ?_⟩
  · refine rest₃.trans ?_
    exact (congrArg (fun x : State => ({ x with ltu := s.ltu.restored s.rsc.fade, rsc.fadePending := false } : State))
      ((sansRequests_post .wake b).trans before) :)
  · rw [restore_posted, post_sif_posted, posted₂]
  · obtain ⟨log, mirror, context⟩ := asked₁ eight
    have kept := (kept₂.trans (keepsAsked_post .wake)).trans keepsAsked_restore
    exact ⟨kept.asked _ log, kept.asked _ mirror, kept.asked _ context⟩

/-- Memory available in WAKING with no press waiting and no forced rest to follow: the wake runs on into RUN (R186, R197). -/
theorem wakeComplete_calm (awake : s.rsc.part.restRow = false) (queue : s.ktu.queue = []) (calm : s.meu.supply ≠ .critical) :
    let t := wakeComplete s
    Ends .control (restEnds s.rsc.wake 16 s) s t ∧
    t.sansRequests = ({ s.running with
      ktu.logDirty := false, fresh := s.fresh + 15, rsc.record := none, rsc.fadePending := false
      ltu := s.ltu.restored s.rsc.fade } : State).sansRequests ∧
    KeepsAsked s t ∧
    t.sif.posted = (s.postedBy .control (restEnds s.rsc.wake 16 s).length).modify Cause.wake.num (· + 1) ∧
    (s.sif.writers.length = 8 → t.asked .turnLog ∧ t.asked .mirror ∧ t.asked (.context .woken (contextBytes .woken s))) ∧
    ∀ d, (t.chain d).walk ≠ .idle := by
  obtain ⟨ends, rest, kept, posted, asked⟩ := waked_spec s
  have e := wakeComplete_eq s
  generalize s.waked = w at *
  have ktu : w.ktu = { s.ktu with logDirty := false } := ktu_of_sansRequests rest
  have part : w.rsc.part = s.rsc.part := (congrArg Rsc.part (rsc_of_sansRequests rest) :)
  have meu : w.meu = s.meu := (meu_of_sansRequests rest).trans rfl
  obtain ⟨endsRun, restRun, keptRun, _, postedRun, walks⟩ :=
    enterRun_calm (s := w) false (by rw [part]; exact awake) (by rw [ktu]; exact queue) (.inr (by rwa [meu]))
  rw [ktu] at postedRun
  dsimp only
  rw [e]
  refine ⟨by simpa using ends.trans (endsRun .control), ?_, kept.trans keptRun, postedRun.trans posted, fun eight => ?_, walks⟩
  · refine restRun.trans ?_
    exact (congrArg (fun x : State => ({ x.running with ktu.logDirty := false } : State)) rest :)
  · obtain ⟨log, mirror, context⟩ := asked eight
    exact ⟨keptRun.asked _ log, keptRun.asked _ mirror, keptRun.asked _ context⟩

end

section
variable {s t u : State}

/-! ### The entry to WAKING (R193, R195, R197) -/

/-- The part in WAKING with a cause, before it asks for memory. -/
def State.waking (s : State) (cause : WakeCause) : State :=
  { s with
    rsc := { s.rsc.woken cause s with handshake := s.rsc.handshake, memTimer := s.rsc.memTimer }
    meu := s.meu.woken s }

theorem toWaking_eq (cause : WakeCause) (resting : s.rsc.part.restRow = true) : toWaking cause s =
    if (requestMemory (s.waking cause)).1 then wakeComplete (requestMemory (s.waking cause)).2
    else (requestMemory (s.waking cause)).2 := by
  have e : noteWake (setPart .waking { s with
      rsc.wake := cause, rsc.pendingWake := none, rsc.restTimer := none, rsc.turnOver := false }) = s.waking cause := by
    have part := setPart_eq .waking { s with
      rsc.wake := cause, rsc.pendingWake := none, rsc.restTimer := none, rsc.turnOver := false }
    have rows : ¬s.rsc.part.restRow = PartState.waking.restRow := by rw [resting]; nofun
    have timer : (if s.rsc.part.restRow = PartState.waking.restRow ∨ s.meu.requester = false then s.meu.batteryTimer
        else s.timer (periodIn .waking s)) =
        if s.meu.requester = true then some ⟨s.partTime, s.cfg.batteryInterval⟩ else s.meu.batteryTimer := by
      cases works : s.meu.requester with
      | true => exact (if_neg (not_or.mpr ⟨rows, nofun⟩)).trans (if_pos rfl).symm
      | false => exact (if_pos (.inr rfl)).trans (if_neg nofun).symm
    exact (congrArg noteWake part).trans (congrArg (fun x : Timer => ({ s.waking cause with
      meu := { s.meu with tempTimer := none, batteryTimer := x } } : State)) timer :)
  rw [toWaking, e]

/-- With memory asleep and SLEEP_ACK asserted the wake waits for memory. -/
theorem toWaking_asleep (cause : WakeCause) (resting : s.rsc.part.restRow = true) (asleep : s.rsc.handshake = .asleep)
    (ack : s.rsc.sleepAck = true) : toWaking cause s = { s with rsc := s.rsc.woken cause s, meu := s.meu.woken s } := by
  have asks : requestMemory (s.waking cause) = (false, { s with rsc := s.rsc.woken cause s, meu := s.meu.woken s }) := by
    have shake : (s.waking cause).rsc.handshake = .asleep := asleep
    unfold requestMemory
    rw [shake]
    exact if_pos ack
  rw [toWaking_eq cause resting, asks]
  rfl

theorem toWaking_awake (cause : WakeCause) (resting : s.rsc.part.restRow = true) (awake : s.rsc.handshake = .awake) :
    toWaking cause s = wakeComplete (s.waking cause) := by
  have asks : requestMemory (s.waking cause) = (true, s.waking cause) := by
    have shake : (s.waking cause).rsc.handshake = .awake := awake
    unfold requestMemory
    rw [shake]
  rw [toWaking_eq cause resting, asks]
  rfl

/-- With memory AWAKE, no press waiting and the supply not CRITICAL the part wakes in one event (R197). -/
theorem toWaking_atOnce (cause : WakeCause) (resting : s.rsc.part.restRow = true) (atOnce : s.wakesAtOnce) :
    wokenAtOnce cause s (toWaking cause s) := by
  obtain ⟨awake, queue, calm⟩ := atOnce
  have calm' : (s.waking cause).meu.supply ≠ .critical := calm
  obtain ⟨ends, rest, kept, posted, asked, walks⟩ := wakeComplete_calm (s := s.waking cause) rfl queue calm'
  rw [toWaking_awake cause resting awake]
  have opened : portOpen s = true := by rw [portOpen, awake]; rfl
  have first : Ends .control [] s (s.waking cause) := Ends.refl.congr
  have same : restEnds (s.waking cause).rsc.wake 16 (s.waking cause) = (match s.rsc.record with
      | none => []
      | some r => [(r, [(0x1C, le8 cause.num ++ [s.rsc.turns])], 16)]) := by
    unfold restEnds
    have record : (s.waking cause).rsc.record = s.rsc.record := rfl
    rw [record]
    cases s.rsc.record <;> rfl
  have all : Ends .control (restEnds (s.waking cause).rsc.wake 16 (s.waking cause)) s _ := first.trans ends
  rw [same] at all
  refine ⟨all.endsBy, ?_, walks, fun eight => ?_, rest⟩
  · have open' : portOpen (s.waking cause) = true := (portOpen_congr rfl).trans opened
    rw [posted, State.postedBy, if_pos open']
    rfl
  · exact asked eight

end

end Sys2Proof.Machine
end

section
/-! Appended updates and the entry to QUIESCE (sections 4.3, 10.2 and 10.3). -/

set_option Elab.async false

namespace Sys2Proof.Machine

section
variable {s t u : State}

/-! ### Appends (R61) -/

theorem ScanOnly.withRsc (h : ScanOnly s t) (r : Rsc) : ScanOnly { s with rsc := r } { t with rsc := r } := by
  obtain ⟨requests, d, m, a, tp, bp, en, hi, wq, sq, k, i, w, users, e⟩ := h
  exact ⟨requests, d, m, a, tp, bp, en, hi, wq, sq, k, i, w, users, congrArg (fun x : State => ({ x with rsc := r } : State)) e⟩

theorem ScanOnly.withKtu (h : ScanOnly s t) (r : Ktu) : ScanOnly { s with ktu := r } { t with ktu := r } := by
  obtain ⟨requests, d, m, a, tp, bp, en, hi, wq, sq, k, i, w, users, e⟩ := h
  exact ⟨requests, d, m, a, tp, bp, en, hi, wq, sq, k, i, w, users, congrArg (fun x : State => ({ x with ktu := r } : State)) e⟩

theorem ScanOnly.rsc (h : ScanOnly s t) : t.rsc = s.rsc := by
  obtain ⟨-, d, m, a, tp, bp, en, hi, wq, sq, k, i, w, -, e⟩ := h
  rw [e]

theorem ScanOnly.ktu (h : ScanOnly s t) : t.ktu = s.ktu := by
  obtain ⟨-, d, m, a, tp, bp, en, hi, wq, sq, k, i, w, -, e⟩ := h
  rw [e]

theorem ScanOnly.partTime (h : ScanOnly s t) : t.partTime = s.partTime := by
  obtain ⟨-, d, m, a, tp, bp, en, hi, wq, sq, k, i, w, -, e⟩ := h
  rw [e]

theorem ScanOnly.cfg (h : ScanOnly s t) : t.cfg = s.cfg := by
  obtain ⟨-, d, m, a, tp, bp, en, hi, wq, sq, k, i, w, -, e⟩ := h
  rw [e]
  rfl

/-- The full-screen WAIT update that a turn or a rest image appends (R61). -/
def State.appended (s : State) (origin : Origin) (mode : Mode) (addr stride : Nat) (tag : Option Word) : Entry :=
  { id := s.upe.nextId, origin := origin, rect := ⟨0, 0, s.cfg.width, s.cfg.height⟩, source := addr, stride := stride
    mode := mode, policy := .wait, tag := tag, st := .none, key := none, note := false, again := false }

/-- The state with an entry at the tail of the list, the panel no longer idle (R60, R99). -/
def State.joined (s : State) (e : Entry) : State :=
  { s with
    upe.list := s.upe.list ++ [e], upe.nextId := s.upe.nextId + 1
    pss.idleTimer := if s.pss.rail = .on then none else s.pss.idleTimer }

section
variable (origin : Origin) (mode : Mode) (addr stride : Nat) (tag : Option Word)

theorem append_noImage (noImage : s.wfs.active = none) : append origin mode addr stride tag s = (.noImage, s) :=
  if_pos (by rw [noImage]; rfl)

theorem append_locked (image : s.wfs.active ≠ none) (locked : s.pss.rail = .locked) :
    append origin mode addr stride tag s = (.panelFault, s) :=
  (if_neg (by simpa using image)).trans (if_pos locked)

theorem append_full (image : s.wfs.active ≠ none) (unlocked : s.pss.rail ≠ .locked)
    (full : 16 ≤ s.upe.list.length + s.upe.reservations) : append origin mode addr stride tag s = (.full, s) :=
  (if_neg (by simpa using image)).trans ((if_neg unlocked).trans (if_pos full))

theorem idleCheck_listed (listed : s.upe.list ≠ []) :
    idleCheck s = { s with pss.idleTimer := if s.pss.rail = .on then none else s.pss.idleTimer } := by
  unfold idleCheck
  split
  · rw [if_neg (by simp [listed])]
  · rfl

theorem append_joins (image : s.wfs.active ≠ none) (unlocked : s.pss.rail ≠ .locked)
    (room : s.upe.list.length + s.upe.reservations < 16) : ∃ v,
    append origin mode addr stride tag s = (.joined s.upe.nextId, scan v) ∧
    v.sansStatus = (s.joined (s.appended origin mode addr stride tag)).sansStatus ∧ (∀ c, Ends c [] s v) ∧
    (∀ c, v.chain c = s.chain c) ∧ KeepsAsked s v := by
  have e : append origin mode addr stride tag s = (.joined s.upe.nextId, scan (idleCheck (ask .panel { s with
      upe.list := s.upe.list ++ [s.appended origin mode addr stride tag], upe.nextId := s.upe.nextId + 1 }))) :=
    (if_neg (by simpa using image)).trans ((if_neg unlocked).trans (if_neg (Nat.not_le.mpr room)))
  have listed : (ask .panel { s with
      upe.list := s.upe.list ++ [s.appended origin mode addr stride tag], upe.nextId := s.upe.nextId + 1 }).upe.list ≠ [] := by
    rw [ask_upe]
    simp
  rw [idleCheck_listed listed] at e
  refine ⟨_, e, ?_, fun c => ?_, fun c => ?_, ?_⟩
  · have asked := sansStatus_ask .panel { s with
      upe.list := s.upe.list ++ [s.appended origin mode addr stride tag], upe.nextId := s.upe.nextId + 1 }
    generalize ask .panel _ = w at asked ⊢
    exact (congrArg (fun x : State =>
      ({ x with pss.idleTimer := if x.pss.rail = .on then none else x.pss.idleTimer } : State)) asked :)
  · exact ((Ends.refl.congr (u := { s with
      upe.list := s.upe.list ++ [s.appended origin mode addr stride tag], upe.nextId := s.upe.nextId + 1 })
      (chain := by cases c <;> rfl)).ask .panel).congr (chain := by cases c <;> rfl)
  · have asked := ask_chain .panel { s with
      upe.list := s.upe.list ++ [s.appended origin mode addr stride tag], upe.nextId := s.upe.nextId + 1 } c
    generalize ask .panel _ = w at asked ⊢
    cases c <;> exact asked
  · exact ((keepsAsked_of_writers (t := { s with
      upe.list := s.upe.list ++ [s.appended origin mode addr stride tag], upe.nextId := s.upe.nextId + 1 })).trans
      (keepsAsked_ask .panel)).congr

end

/-! ### Entry to QUIESCE (R188, R189) -/

/-- The part in QUIESCE out of RUN, before fade and image (R169, R177, R185, R188). -/
def State.quiescing (s : State) (forced : Bool) : State :=
  { s with
    rsc := { s.rsc with
      part := .quiesce, forced := forced, forcedStart := forced, limit := false, turns := 0, sleepFailures := 0, leaveRetries := 0
      wake := .none, pendingWake := none, imageState := .none, imageId := none, drain := .waiting, turnOver := false
      fadePending := false, fade := s.cfg.restFade, timeout := s.cfg.memoryTimeout }
    meu.tempTimer := none
    dlc := { s.dlc with stop := .stopping, recv := .hunt 0, markers := (s.cfg.marker0, s.cfg.marker1) } }

/-- The light at the entry to QUIESCE: kept, or fading (R188 step 4). -/
def State.dimmed (s : State) (forced : Bool) : State :=
  if s.rsc.keepLight = true ∧ forced = false then s.quiescing forced else restFade (s.quiescing forced)

theorem quiesceEntry_eq (forced : Bool) (awake : s.rsc.part.restRow = false) : quiesceEntry forced s =
    let x := if forced = true then s.dimmed forced else appendImage (s.dimmed forced)
    { x with rsc.quiesceTimer := x.timer (x.cfg.quiesceLimit * 1000) } := by
  have begun : stopDownloads (setPart .quiesce (clearRest forced s)) = s.quiescing forced := by
    have part := setPart_row (p := .quiesce) (s := clearRest forced s) awake
    rw [part]
    rfl
  unfold quiesceEntry State.dimmed
  rw [begun]
  have kept : (s.quiescing forced).rsc.keepLight = s.rsc.keepLight := rfl
  dsimp only
  rw [kept]
  cases forced <;> cases s.rsc.keepLight <;> rfl

theorem chainsStand_restFade : ChainsStand .control s (restFade s) := by
  obtain ⟨v, e, is⟩ := restFade_cases s
  have chains := chainsStand_finalizeLight .cancelled { s with ltu.restDark := true, rsc.fadePending := true }
  rw [← is] at chains
  rw [e]
  refine chains.trans (chainsStand_of_chain fun d => (ask_chain _ _ d).trans ?_)
  cases d <;> rfl

theorem dimmed_spec (s : State) (forced : Bool) :
    let kept := s.rsc.keepLight = true ∧ forced = false
    let ends := if kept then [] else lightEnds 48 s
    Ends .control ends s (s.dimmed forced) ∧ (s.dimmed forced).sif.posted = s.postedBy .control ends.length ∧
    (s.dimmed forced).sansRequests = ({ s.quiescing forced with
      rsc := { (s.quiescing forced).rsc with fadePending := !decide kept }
      ltu := if kept then s.ltu else s.ltu.faded s.cfg.restFade } : State).sansRequests ∧
    KeepsAsked s (s.dimmed forced) ∧ ChainsStand .control s (s.dimmed forced) := by
  intro kept ends
  have first : Ends .control [] s (s.quiescing forced) := Ends.refl.congr
  have chains : ChainsStand .control s (s.quiescing forced) := chainsStand_of_chain fun d => by cases d <;> rfl
  unfold State.dimmed
  by_cases keeps : kept
  · have none_ : ends = [] := if_pos keeps
    rw [if_pos keeps, if_pos keeps, none_, decide_eq_true keeps]
    exact ⟨first, (postedBy_zero _ _).symm, rfl, keepsAsked_of_writers, chains⟩
  · have some_ : ends = lightEnds 48 s := if_neg keeps
    rw [if_neg keeps, if_neg keeps, some_, decide_eq_false keeps]
    have fades : Ends .control (lightEnds 48 s) (s.quiescing forced) (restFade (s.quiescing forced)) :=
      ends_restFade (s := s.quiescing forced)
    have kept : KeepsAsked s (s.quiescing forced) := keepsAsked_of_writers
    refine ⟨first.trans fades, (restFade_posted _).trans (postedBy_congr _ _ rfl (portOpen_congr rfl)),
      restFade_sansRequests _, kept.trans keepsAsked_restFade, chains.trans chainsStand_restFade⟩

end

section
variable {s t u : State}

theorem cfg_of_sansRequests (h : t.sansRequests = s.sansRequests) : t.cfg = s.cfg := (congrArg State.cfg h :)

/-! ### The rest image (R188 step 5) -/

theorem appendImage_none (none_ : s.rsc.image = none) : appendImage s = s := by rw [appendImage, none_]

section
variable {a st : Nat} (image : s.rsc.image = some (a, st))

include image

theorem appendImage_noImage (noImage : s.wfs.active = none) :
    appendImage s = { s with rsc.imageState := .ended .refusedFormat } := by
  rw [appendImage, image]
  dsimp only
  rw [append_noImage _ _ _ _ _ noImage]

theorem appendImage_locked (active : s.wfs.active ≠ none) (locked : s.pss.rail = .locked) :
    appendImage s = { s with rsc.imageState := .ended .panelFault } := by
  rw [appendImage, image]
  dsimp only
  rw [append_locked _ _ _ _ _ active locked]

theorem appendImage_full (active : s.wfs.active ≠ none) (unlocked : s.pss.rail ≠ .locked)
    (full : 16 ≤ s.upe.list.length + s.upe.reservations) : appendImage s = { s with rsc.imageState := .waitPlace } := by
  rw [appendImage, image]
  dsimp only
  rw [append_full _ _ _ _ _ active unlocked full]

theorem appendImage_joins (active : s.wfs.active ≠ none) (unlocked : s.pss.rail ≠ .locked)
    (room : s.upe.list.length + s.upe.reservations < 16) : ∃ v,
    appendImage s = { scan v with rsc := { s.rsc with imageState := .listed, imageId := some s.upe.nextId } } ∧
    v.sansStatus = (s.joined (s.appended .rest .clear a st none)).sansStatus ∧ (∀ c, Ends c [] s v) ∧
    (∀ c, v.chain c = s.chain c) ∧ KeepsAsked s v := by
  obtain ⟨v, e, rest, spec⟩ := append_joins .rest .clear a st none active unlocked room
  refine ⟨v, ?_, rest, spec⟩
  have rsc : (scan v).rsc = s.rsc := (scanOnly_scan v).rsc.trans (congrArg State.rsc rest :)
  rw [appendImage, image]
  dsimp only
  rw [e]
  dsimp only
  rw [rsc]

end

end

/-- The rest image's state after the entry to QUIESCE, and the quiesce timer (R188 steps 5 and 6). -/
def State.imaged (s : State) (x : ImageState) (id : Option Nat) : State :=
  { s with rsc.imageState := x, rsc.imageId := id, rsc.quiesceTimer := some ⟨s.partTime, s.cfg.quiesceLimit * 1000⟩ }

theorem imaged_sansRequests {s t : State} (h : t.sansRequests = s.sansRequests) (x : ImageState) (id : Option Nat) :
    (t.imaged x id).sansRequests = (s.imaged x id).sansRequests := (congrArg (fun z : State => z.imaged x id) h :)

theorem joined_imaged_sansRequests {s t : State} (h : t.sansRequests = s.sansRequests) (e : Entry) (x : ImageState)
    (id : Option Nat) : ((t.joined e).imaged x id).sansRequests = ((s.joined e).imaged x id).sansRequests :=
  (congrArg (fun z : State => (z.joined e).imaged x id) h :)

/-- The entry to QUIESCE without an image appended. -/
theorem quiesceEntry_plain {s : State} {forced : Bool} (awake : s.rsc.part.restRow = false)
    (plain : s.rsc.image = none ∨ forced = true) : quiesceEntry forced s = (s.dimmed forced).imaged .none none := by
  obtain ⟨_, _, rest, _⟩ := dimmed_spec s forced
  have e := quiesceEntry_eq forced awake
  generalize s.dimmed forced = D at *
  have state : D.rsc.imageState = .none := (congrArg Rsc.imageState (rsc_of_sansRequests rest) :)
  have id : D.rsc.imageId = none := (congrArg Rsc.imageId (rsc_of_sansRequests rest) :)
  have image : D.rsc.image = s.rsc.image := (congrArg Rsc.image (rsc_of_sansRequests rest) :)
  have same : (if forced = true then D else appendImage D) = D := by
    rcases plain with none_ | isForced
    · rw [appendImage_none (image.trans none_), ite_self]
    · exact if_pos isForced
  rw [same] at e
  rw [e, State.imaged, ← state, ← id]
  rfl

/-- The entry to QUIESCE with an image that does not join the list. -/
theorem quiesceEntry_answered {s : State} {x : ImageState} {forced : Bool} (free : forced = false)
    (awake : s.rsc.part.restRow = false)
    (answer : appendImage (s.dimmed forced) = { s.dimmed forced with rsc.imageState := x }) :
    quiesceEntry forced s = (s.dimmed forced).imaged x none := by
  obtain ⟨_, _, rest, _⟩ := dimmed_spec s forced
  have e := quiesceEntry_eq forced awake
  generalize s.dimmed forced = D at *
  have id : D.rsc.imageId = none := (congrArg Rsc.imageId (rsc_of_sansRequests rest) :)
  rw [if_neg (by simp [free]), answer] at e
  rw [e, State.imaged, ← id]
  rfl

/-- The entry to QUIESCE with an image that joins the list. -/
theorem quiesceEntry_joins {s : State} {a st : Nat} {forced : Bool} (free : forced = false) (awake : s.rsc.part.restRow = false)
    (image : (s.dimmed forced).rsc.image = some (a, st)) (active : (s.dimmed forced).wfs.active ≠ none)
    (unlocked : (s.dimmed forced).pss.rail ≠ .locked)
    (room : (s.dimmed forced).upe.list.length + (s.dimmed forced).upe.reservations < 16) : ∃ v,
    ScanOnly v (quiesceEntry forced s) ∧
    v.sansStatus = (((s.dimmed forced).joined ((s.dimmed forced).appended .rest .clear a st none)).imaged .listed
      (some (s.dimmed forced).upe.nextId)).sansStatus ∧
    (∀ c, Ends c [] (s.dimmed forced) v) ∧ ∀ c, v.chain c = (s.dimmed forced).chain c := by
  have e := quiesceEntry_eq forced awake
  generalize s.dimmed forced = D at *
  obtain ⟨v, appends, rest, ends, chains, _⟩ := appendImage_joins image active unlocked room
  rw [if_neg (by simp [free]), appends] at e
  have time : (scan v).partTime = D.partTime := (scanOnly_scan v).partTime.trans (congrArg State.partTime rest :)
  have cfg : (scan v).cfg = D.cfg := (scanOnly_scan v).cfg.trans (congrArg State.cfg rest :)
  let R : Rsc := { D.rsc with
    imageState := .listed, imageId := some D.upe.nextId, quiesceTimer := some ⟨D.partTime, D.cfg.quiesceLimit * 1000⟩ }
  have settle (w : State) (time : w.partTime = D.partTime) (cfg : w.cfg = D.cfg) :
      ({ w with rsc := { D.rsc with
        imageState := .listed, imageId := some D.upe.nextId
        quiesceTimer := some ⟨w.partTime, w.cfg.quiesceLimit * 1000⟩ } } : State) = { w with rsc := R } := by
    rw [time, cfg]
  have is : quiesceEntry forced s = { scan v with rsc := R } := e.trans (settle (scan v) time cfg)
  refine ⟨{ v with rsc := R }, is ▸ (scanOnly_scan v).withRsc R, ?_, fun c => ?_, fun c => ?_⟩
  · exact (congrArg (fun x : State => ({ x with rsc := R } : State)) rest :)
  · have rsc : v.rsc = D.rsc := (congrArg State.rsc rest :)
    exact (ends c).congr (shake := by rw [rsc]) (chain := by cases c <;> rfl)
  · refine Eq.trans ?_ (chains c)
    cases c <;> rfl

/-! ### A REST record handed over (R187, R188) -/

theorem restFailure_stride {a st : Nat} {s : State} (bad : ¬(st % 4 = 0 ∧ s.cfg.width / 2 ≤ st)) :
    restFailure (some (a, st)) s = some .refusedRange :=
  if_pos (by
    by_cases four : st % 4 = 0
    · simp [strideOk, four, show ¬s.cfg.width / 2 ≤ st from fun wide => bad ⟨four, wide⟩]
    · simp [strideOk, four])

theorem restFailure_window {a st : Nat} {s : State} (stride : st % 4 = 0 ∧ s.cfg.width / 2 ≤ st)
    (outside : ¬s.rangeOk a ((s.cfg.height - 1) * st + s.cfg.width / 2) = true) :
    restFailure (some (a, st)) s = some .window :=
  (if_neg (by simp [strideOk, stride])).trans (if_pos (by simpa [imageExtent] using outside))

theorem restFailure_passes {image : Option (Nat × Nat)} {s : State} (passes : ∀ a st, image = some (a, st) →
    st % 4 = 0 ∧ s.cfg.width / 2 ≤ st ∧ s.rangeOk a ((s.cfg.height - 1) * st + s.cfg.width / 2) = true) :
    restFailure image s = none := by
  cases image with
  | none => rfl
  | some im =>
    obtain ⟨a, st⟩ := im
    obtain ⟨four, wide, inside⟩ := passes a st rfl
    exact (if_neg (by simp [strideOk, four, wide])).trans (if_neg (by simpa [imageExtent] using inside))

/-- The Rest Controller with the options of a REST record and the record (R187). -/
def State.options (s : State) (r : Nat) (bytes : List Byte) (image : Option (Nat × Nat)) : State :=
  { s with
    rsc.keepLight := flagsOf bytes % 2 == 1, rsc.turnsEnabled := flagsOf bytes / 2 % 2 == 1, rsc.image := image
    rsc.wakeAfter := min (u32 bytes 0x18) 86400, rsc.record := some r }

theorem restFailure_markTaken (image : Option (Nat × Nat)) (c : Chain) (r : Nat) (s : State) :
    restFailure image (markTaken c r s) = restFailure image s := by
  simp only [restFailure, markTaken_cfg, markTaken_rangeOk]

theorem takeRest_refused {r : Nat} {bytes : List Byte} {s : State} (has : flagsOf bytes / 4 % 2 = 1) {code : Code}
    (fails : restFailure (some (u32 bytes 0x10, u32 bytes 0x14)) s = some code) :
    takeRest r bytes s = finalize .control r [(0x1C, le8 0 ++ le8 0)] code s := by
  unfold takeRest
  dsimp only
  rw [if_pos has, fails]

theorem takeRest_passes {r : Nat} {bytes : List Byte} {s : State} {image : Option (Nat × Nat)}
    (is : image = if flagsOf bytes / 4 % 2 = 1 then some (u32 bytes 0x10, u32 bytes 0x14) else none)
    (passes : restFailure image s = none) :
    takeRest r bytes s = quiesceEntry (s.meu.supply == .critical) (s.options r bytes image) := by
  unfold takeRest
  dsimp only
  rw [← is, passes]
  rfl

/-- Settles O29: the entry to QUIESCE on the record taken, by the answer of the rest image's append. -/
theorem restTaken : Obligations.RestTaken := by
  refine ⟨fun s r bytes ready run has => ?_, fun s r bytes ready run => ?_⟩
  · intro a st strideOkay inside refused
    have marked := takenAt_markTaken .control r s
    have e := takeInRun_ready ready run takeRest
    have ends {code : Code} (fails : restFailure (some (a, st)) s = some code) : refused code.num := by
      refine ⟨_, congrArg done (e.trans (takeRest_refused has ((restFailure_markTaken _ _ _ s).trans fails))), finalizedAt_take marked _ code, ?_⟩
      rw [sansRequests_finalize, sansRequests_markTaken]
    refine ⟨fun bad => ends (restFailure_stride bad), fun good outside => ends (restFailure_window good outside)⟩
  · intro f a st image passes forced kept append joins e
    have marked := takenAt_markTaken .control r s
    have ok : restFailure image s = none := restFailure_passes fun a' st' some_ => by
      have parts : (a', st') = (a, st) := by
        by_cases has : f / 4 % 2 = 1
        · exact (Option.some.inj ((if_pos has).symm.trans some_)).symm
        · exact nomatch (if_neg has).symm.trans some_
      obtain ⟨rfl, rfl⟩ := Prod.mk.inj parts
      exact passes (by rw [some_]; nofun)
    have took : takeInRun .rest takeRest s = quiesceEntry forced ((markTaken .control r s).options r bytes image) :=
      (takeInRun_ready ready run takeRest).trans (takeRest_passes rfl ((restFailure_markTaken _ _ _ s).trans ok))
    let x := (markTaken .control r s).options r bytes image
    have row : x.rsc.part.restRow = false := by
      rw [show x.rsc.part = .run from run]
      rfl
    have keptIs : kept ↔ x.rsc.keepLight = true ∧ forced = false := by
      rw [show x.rsc.keepLight = (f % 2 == 1) from rfl, beq_iff_eq]
    obtain ⟨ends, posted, rest, _, chains⟩ := dimmed_spec x forced
    have lit : lightEnds 48 x = lightEnds 48 s := rfl
    simp only [← keptIs, lit] at ends posted rest
    let begun : State := { s with
      rsc := { s.rsc with
        part := .quiesce, keepLight := f % 2 == 1, turnsEnabled := f / 2 % 2 == 1, image := image
        wakeAfter := min (u32 bytes 0x18) 86400, record := some r, forced := forced, forcedStart := forced, limit := false
        turns := 0, sleepFailures := 0, leaveRetries := 0, wake := .none, pendingWake := none, drain := .waiting
        turnOver := false, fadePending := !decide kept, fade := s.cfg.restFade, timeout := s.cfg.memoryTimeout
        imageState := .none, imageId := none }
      meu.tempTimer := none
      dlc := { s.dlc with stop := .stopping, recv := .hunt 0, markers := (s.cfg.marker0, s.cfg.marker1) }
      ltu := if kept then s.ltu else s.ltu.faded s.cfg.restFade }
    have rest : (x.dimmed forced).sansRequests = begun.sansRequests := rest
    have taken {v : State} (h : Ends .control [] (x.dimmed forced) v) (same : ∀ d, v.chain d = (x.dimmed forced).chain d)
        (post : v.sif.posted = (x.dimmed forced).sif.posted) :
        takenEnding .control r (if kept then [] else lightEnds 48 s) s v := by
      have both := ends.trans h
      rw [List.append_nil] at both
      exact takenEnding_of (takenAt_congr (u := x) marked (chain := fun d => by cases d <;> rfl)) both
        (chains.trans (chainsStand_of_chain same)) (post.trans posted)
    have wfs := wfs_of_sansRequests rest
    have pss := pss_of_sansRequests rest
    have upe := upe_of_sansRequests rest
    have rsc := rsc_of_sansRequests rest
    have time := partTime_of_sansRequests rest
    have cfg : (x.dimmed forced).cfg = s.cfg := (cfg_of_sansRequests rest).trans rfl
    have outcome : (¬joins ∧ ∃ y, quiesceEntry forced x = (x.dimmed forced).imaged y none ∧
        y = if ¬append then .none else if s.wfs.active = none then .ended .refusedFormat
          else if s.pss.rail = .locked then .ended .panelFault
          else if 16 ≤ s.upe.list.length + s.upe.reservations then .waitPlace else .listed) ∨
        (joins ∧ forced = false ∧ image = some (a, st)) := by
      by_cases app : append
      · obtain ⟨some_, free⟩ := app
        have is : image = some (a, st) := by
          by_cases has : f / 4 % 2 = 1
          · exact if_pos has
          · exact absurd (if_neg has) some_
        have imageD : (x.dimmed forced).rsc.image = some (a, st) := (congrArg Rsc.image rsc).trans is
        simp only [show append from ⟨some_, free⟩, not_true, if_false]
        by_cases active : s.wfs.active = none
        · refine .inl ⟨fun j => j.2.1 active, _, quiesceEntry_answered free row (appendImage_noImage imageD (by rw [wfs]; exact active)), ?_⟩
          rw [if_pos active]
        · rw [if_neg active]
          have activeD : (x.dimmed forced).wfs.active ≠ none := by rw [wfs]; exact active
          by_cases locked : s.pss.rail = .locked
          · refine .inl ⟨fun j => j.2.2.1 locked, _,
              quiesceEntry_answered free row (appendImage_locked imageD activeD (by rw [pss]; exact locked)), ?_⟩
            rw [if_pos locked]
          · rw [if_neg locked]
            have unlocked : (x.dimmed forced).pss.rail ≠ .locked := by rw [pss]; exact locked
            by_cases full : 16 ≤ s.upe.list.length + s.upe.reservations
            · refine .inl ⟨fun j => absurd j.2.2.2 (by omega), _,
                quiesceEntry_answered free row (appendImage_full imageD activeD unlocked (by rw [upe]; exact full)), ?_⟩
              rw [if_pos full]
            · exact .inr ⟨⟨⟨some_, free⟩, active, locked, Nat.not_le.mp full⟩, free, is⟩
      · refine .inl ⟨fun j => app j.1, .none, quiesceEntry_plain row ?_, by rw [if_pos app]⟩
        by_cases none_ : image = none
        · exact .inl none_
        · exact .inr (by simpa using fun free : forced = false => app ⟨none_, free⟩)
    rcases outcome with ⟨alone, y, is, answer⟩ | ⟨isJoin, free, some_⟩
    · refine ⟨_, _, congrArg done (took.trans is), ScanOnly.refl, fun _ => rfl,
        taken (v := (x.dimmed forced).imaged y none) Ends.refl.congr (fun d => by cases d <;> rfl) rfl, ?_⟩
      rw [← answer, if_neg alone, if_neg alone, if_neg alone, if_neg (fun h => alone h.1)]
      exact imaged_sansRequests rest y none
    · obtain ⟨v, scans, restV, endsV, chainsV⟩ := quiesceEntry_joins free row ((congrArg Rsc.image rsc).trans some_)
        (by rw [wfs]; exact isJoin.2.1) (by rw [pss]; exact isJoin.2.2.1) (by rw [upe]; exact isJoin.2.2.2)
      have entry : (x.dimmed forced).appended .rest .clear a st none = e := by
        rw [State.appended, cfg, upe]
      have rest' := (sansRequests_of_sansPosts (sansPosts_of_sansStatus restV)).trans
        (joined_imaged_sansRequests rest ((x.dimmed forced).appended .rest .clear a st none) .listed
          (some (x.dimmed forced).upe.nextId))
      rw [entry, congrArg Upe.nextId upe] at rest'
      refine ⟨_, v, congrArg done took, scans, fun alone => absurd isJoin alone,
        taken (endsV .control) chainsV (congrArg (fun z : State => z.sif.posted) restV :), ?_⟩
      rw [if_neg (not_not.mpr isJoin.1), if_neg isJoin.2.1, if_neg isJoin.2.2.1, if_neg (Nat.not_le.mpr isJoin.2.2.2),
        if_pos isJoin, if_pos isJoin, if_pos isJoin]
      refine rest'.trans ?_
      simp only [isJoin, true_and]
      rfl

end Sys2Proof.Machine
end

section
/-! What presses, turn ends, forced rests and wakes leave: writes asked for, and a LOCKED panel (sections 1.2, 5.4, 6.4 and 10.6). -/

set_option Elab.async false

namespace Sys2Proof.Machine

/-! ### The scan keeps the writes asked for (R22) -/

section
variable {s t u : State}

theorem keepsAsked_setEntry (id : Nat) (f : Entry → Entry) : KeepsAsked s (setEntry id f s) := keepsAsked_of_writers

theorem keepsAsked_dropOtherHold (id : Nat) (k : StoreKey) : KeepsAsked s (dropOtherHold id k s) := by
  have held : KeepsAsked s (clearHolder id (some k) s) := by
    unfold clearHolder
    dsimp only
    split <;> exact keepsAsked_of_writers
  unfold dropOtherHold
  dsimp only
  split
  · exact held.congr
  · exact held

theorem keepsAsked_lookup (id : Nat) (m : Mode) (b : Nat) : KeepsAsked s (lookup id m b s).2 := by
  unfold lookup
  split
  · exact .refl
  · have held (k : StoreKey) : KeepsAsked s (dropOtherHold id k s) := keepsAsked_dropOtherHold id k
    dsimp only
    split
    · exact held _
    · split
      · exact held _
      · split
        · exact (held ⟨s.wfs.generation, m, b⟩).congr (by simp [beginLoad, joinWave])
        · exact held _

theorem keepsAsked_lookupFor (id : Nat) (m : Mode) (b : Nat) (note : Bool) : KeepsAsked s (lookupFor id m b note s).2 :=
  (keepsAsked_lookup id m b).trans (keepsAsked_setEntry _ _)

theorem keepsAsked_selectBand (im : Image) (x : Int) : KeepsAsked s (selectBand im x s).2 := by
  unfold selectBand
  dsimp only
  split
  · exact (keepsAsked_of_writers (t := { s with wfs.history := _ })).trans (keepsAsked_post _)
  · exact keepsAsked_of_writers

theorem keepsAsked_chooseKey (e : Entry) : KeepsAsked s (chooseKey e s) := by
  unfold chooseKey
  split
  · exact (keepsAsked_selectBand _ _).trans (keepsAsked_lookupFor _ _ _ _)
  · exact .refl

theorem keepsAsked_adcKick : KeepsAsked s (adcKick s) := by
  unfold adcKick
  repeat' first
    | exact .refl
    | exact keepsAsked_of_writers
    | split

theorem keepsAsked_demandSample : KeepsAsked s (demandSample s) := by
  unfold demandSample requestTemp
  dsimp only
  repeat' first
    | exact .refl
    | exact keepsAsked_of_writers
    | split
    | refine KeepsAsked.trans ?_ keepsAsked_adcKick

theorem keepsAsked_keyOrSample (e : Entry) : KeepsAsked s (keyOrSample e s) := by
  unfold keyOrSample
  split
  · exact keepsAsked_chooseKey e
  · exact (keepsAsked_setEntry _ _).trans keepsAsked_demandSample

theorem keepsAsked_eligible (e : Entry) : KeepsAsked s (eligible e s).2 := by
  unfold eligible
  split
  · exact .refl
  · next k _ =>
    dsimp only
    split
    · have looks : KeepsAsked s (lookupFor e.id (decideMode e s).1 k.band (decideMode e s).2 s).2 := keepsAsked_lookupFor _ _ _ _
      split <;> next h => rw [h] at looks; exact looks
    · exact .refl

theorem keepsAsked_scanEntry (id : Nat) : KeepsAsked s (scanEntry id s).2 := by
  unfold scanEntry
  split
  · exact .refl
  · next e _ =>
    split
    · exact .refl
    · have keyed : KeepsAsked s (if e.st = .none then keyOrSample e s else s) := by
        split
        · exact keepsAsked_keyOrSample e
        · exact .refl
      dsimp only
      split
      · split
        · exact keyed.trans (keepsAsked_eligible _)
        · exact keyed.trans (keepsAsked_eligible _)
        all_goals exact keyed
      · exact keyed

theorem keepsAsked_scanList : ∀ (l : List Nat) {s : State}, KeepsAsked s (scanList l s).2
  | [], _ => .refl
  | id :: l, s => by
    have met : KeepsAsked s (scanEntry id s).2 := keepsAsked_scanEntry id
    unfold scanList
    split
    · next t h =>
      rw [h] at met
      exact met
    · next t h =>
      rw [h] at met
      exact met.trans (keepsAsked_scanList l)

theorem keepsAsked_scan : KeepsAsked s (scan s) :=
  (keepsAsked_of_writers (t := { s with upe.rescan := false })).trans (keepsAsked_scanList _)

end

/-! ### Following states -/

/-- In `t` all writes asked for in `s` are, and with the panel LOCKED lanes, list, supply and scanner are those of `s`. -/
structure Follows (s t : State) : Prop where
  asked : KeepsAsked s t
  still : s.pss.rail = .locked → t.upe = s.upe ∧ t.pss = s.pss ∧ t.fsc = s.fsc

section
variable {s t u : State}

theorem Follows.refl : Follows s s := ⟨.refl, fun _ => ⟨rfl, rfl, rfl⟩⟩

theorem Follows.trans (h : Follows s t) (g : Follows t u) : Follows s u where
  asked := h.asked.trans g.asked
  still locked := by
    obtain ⟨upe, pss, fsc⟩ := h.still locked
    obtain ⟨upe', pss', fsc'⟩ := g.still (by rwa [pss])
    exact ⟨upe'.trans upe, pss'.trans pss, fsc'.trans fsc⟩

/-- A step that keeps the writes asked for, the lanes, the supply and the scanner. -/
theorem follows_of (asked : KeepsAsked s t) (upe : t.upe = s.upe := by rfl) (pss : t.pss = s.pss := by rfl)
    (fsc : t.fsc = s.fsc := by rfl) : Follows s t := ⟨asked, fun _ => ⟨upe, pss, fsc⟩⟩

theorem follows_upd (writers : t.sif.writers = s.sif.writers := by rfl) (upe : t.upe = s.upe := by rfl)
    (pss : t.pss = s.pss := by rfl) (fsc : t.fsc = s.fsc := by rfl) : Follows s t :=
  follows_of (keepsAsked_of_writers writers) upe pss fsc

theorem follows_of_sansRequests {v : State} (asked : KeepsAsked s t) (rest : t.sansRequests = v.sansRequests)
    (upe : v.upe = s.upe := by rfl) (pss : v.pss = s.pss := by rfl) (fsc : v.fsc = s.fsc := by rfl) : Follows s t :=
  follows_of asked ((upe_of_sansRequests rest).trans upe) ((pss_of_sansRequests rest).trans pss)
    ((fsc_of_sansRequests rest).trans fsc)

theorem follows_ask (a : Area) : Follows s (ask a s) := follows_of (keepsAsked_ask a) (by simp) (by simp) (by simp)

theorem follows_post (c : Cause) : Follows s (post c s) := follows_of (keepsAsked_post c) (by simp) (by simp) (by simp)

theorem follows_startRamp (d target warmth : Nat) (cause : RampCause) : Follows s (startRamp d target warmth cause s) :=
  (follows_upd (t := { s with ltu.ramp := _ })).trans (follows_ask .light)

theorem follows_finalizeLight (code : Code) : Follows s (finalizeLight code s) :=
  follows_of_sansRequests (keepsAsked_finalizeLight code) (finalizeLight_sansRequests code s)

theorem follows_toggle : Follows s (toggle s) := by
  have light : Follows s (finalizeLight .cancelled s) := follows_finalizeLight .cancelled
  unfold toggle
  dsimp only
  repeat' first
    | exact .refl
    | exact light
    | exact follows_upd
    | split
    | refine Follows.trans ?_ (follows_startRamp _ _ _ _)
    | refine light.trans ?_

theorem follows_reportPress (p : Press) : Follows s (reportPress p s) :=
  ((follows_upd (t := { s with ktu.lastRole := _, ktu.lastStamp := _, ktu.reported := _ })).trans (follows_post .key)).trans
    (follows_ask .keyReport)

theorem follows_writeLog : Follows s (writeLog s) := (follows_upd (t := { s with ktu.logDirty := false })).trans (follows_ask _)

theorem follows_turnEndLog (code : Code) : Follows s (turnEndLog code s) := by
  unfold turnEndLog
  split
  · exact .refl
  · dsimp only
    split
    · exact ((follows_upd (s := s)).trans follows_writeLog).trans (follows_post .turn)
    · exact follows_upd

theorem follows_append (origin : Origin) (mode : Mode) (addr stride : Nat) (tag : Option Word) :
    Follows s (append origin mode addr stride tag s).2 := by
  by_cases image : s.wfs.active = none
  · rw [append_noImage _ _ _ _ _ image]
    exact .refl
  · by_cases locked : s.pss.rail = .locked
    · rw [append_locked _ _ _ _ _ image locked]
      exact .refl
    · refine ⟨?_, fun h => absurd h locked⟩
      by_cases full : 16 ≤ s.upe.list.length + s.upe.reservations
      · rw [append_full _ _ _ _ _ image locked full]
        exact .refl
      · obtain ⟨v, e, -, -, -, kept⟩ := append_joins origin mode addr stride tag image locked (Nat.not_le.mp full)
        rw [e]
        exact kept.trans keepsAsked_scan

theorem follows_appendTurn : Follows s (appendTurn s).2 := by
  unfold appendTurn
  split
  · exact .refl
  · next r _ =>
    have appends : Follows s (append .turn .gray r.page.addr r.page.stride (some r.page.tag) s).2 := follows_append _ _ _ _ _
    split <;> next h =>
      rw [h] at appends
      exact appends.trans follows_upd

theorem follows_fillTurn (d : Dir) (ofRest : Bool) : Follows s (fillTurn d ofRest s) := by
  unfold fillTurn
  split
  · exact follows_upd
  · exact .refl

theorem follows_beginRunTurn (d : Dir) : Follows s (beginRunTurn d s) := by
  have appends : Follows s (appendTurn (fillTurn d false s)).2 := (follows_fillTurn d false).trans follows_appendTurn
  unfold beginRunTurn
  split
  · next h =>
    rw [h] at appends
    exact appends.trans (follows_turnEndLog _)
  · next h =>
    rw [h] at appends
    exact appends

theorem follows_pressRun (p : Press) : Follows s (pressRun p s) := by
  unfold pressRun
  split
  · exact .refl
  · exact follows_toggle
  · exact follows_reportPress p
  all_goals
    split
    · exact follows_beginRunTurn _
    · exact follows_reportPress p

theorem follows_runQueue : ∀ (n : Nat) {s : State}, Follows s (runQueue n s)
  | 0, _ => .refl
  | n + 1, s => by
    unfold runQueue
    split
    · exact ((follows_upd (s := s)).trans (follows_pressRun _)).trans (follows_runQueue n)
    · exact .refl

theorem follows_forcedRest : Follows s (forcedRest s) := by
  by_cases forced : s.rsc.part = .run ∧ s.meu.supply = .critical
  · have e : forcedRest s = _ := if_pos forced
    rw [quiesceEntry_plain (by rw [show PartState.restRow _ = PartState.restRow s.rsc.part from rfl, forced.1]; rfl) (.inr rfl)] at e
    rw [e]
    obtain ⟨-, -, rest, kept, -⟩ := dimmed_spec { s with
      rsc.keepLight := false, rsc.turnsEnabled := false, rsc.image := none, rsc.wakeAfter := 0, rsc.record := none } true
    generalize State.dimmed _ true = D at *
    exact (follows_of_sansRequests (s := s) ⟨kept.size, kept.asked⟩ rest).trans follows_upd
  · rw [show forcedRest s = s from if_neg forced]
    exact .refl

theorem follows_enterRun (abandoned : Bool) (awake : s.rsc.part.restRow = false) : Follows s (enterRun abandoned s) := by
  obtain ⟨-, rest, writers, -, -⟩ := entering_spec awake
  have begun : Follows s s.entering := follows_of_sansRequests (keepsAsked_of_writers writers) rest
  rw [enterRun_eq]
  generalize s.entering = v at *
  have presses : Follows v (runQueue v.ktu.queue.length v) := follows_runQueue _
  generalize runQueue v.ktu.queue.length v = w at presses ⊢
  have logged : Follows w (writeLogAtRun w) := by
    unfold writeLogAtRun
    split
    · exact follows_writeLog.trans (follows_post .turn)
    · exact .refl
  split
  · exact (begun.trans presses).trans logged
  · exact ((begun.trans presses).trans logged).trans follows_forcedRest

theorem follows_wakeComplete (awake : s.rsc.part.restRow = false) : Follows s (wakeComplete s) := by
  obtain ⟨-, rest, kept, -, -⟩ := waked_spec s
  have e := wakeComplete_eq s
  generalize s.waked = w at *
  have part : w.rsc.part = s.rsc.part := (congrArg Rsc.part (rsc_of_sansRequests rest) :)
  rw [e]
  exact (follows_of_sansRequests (s := s) kept rest).trans (follows_enterRun false (by rw [part]; exact awake))

theorem follows_toWaking (cause : WakeCause) (resting : s.rsc.part.restRow = true) : Follows s (toWaking cause s) := by
  have e := toWaking_eq cause resting
  have waking : Follows s (s.waking cause) := follows_upd
  have part : (s.waking cause).rsc.part = .waking := rfl
  generalize s.waking cause = w at *
  have asks : Follows w (requestMemory w).2 ∧ (requestMemory w).2.rsc.part = w.rsc.part := by
    unfold requestMemory
    split
    · exact ⟨.refl, rfl⟩
    · exact ⟨.refl, rfl⟩
    all_goals
      split
      · exact ⟨follows_upd, rfl⟩
      · exact ⟨follows_upd, rfl⟩
  obtain ⟨asks, same⟩ := asks
  generalize requestMemory w = r at *
  rw [e]
  split
  · exact (waking.trans asks).trans (follows_wakeComplete (by rw [same, part]; rfl))
  · exact waking.trans asks

theorem follows_restTurnEnded : Follows s (restTurnEnded s) := by
  unfold restTurnEnded
  split
  · next turn =>
    split
    · exact follows_toWaking _ (by rw [turn]; rfl)
    · exact follows_upd
  · exact .refl

theorem follows_turnEnd (code : Code) : Follows s (turnEnd code s) := (follows_turnEndLog code).trans follows_restTurnEnded

theorem follows_wakeCause (cause : WakeCause) : Follows s (wakeCause cause s) := by
  unfold wakeCause
  split
  · next rest => exact follows_toWaking _ (by rw [rest]; rfl)
  · next turn =>
    unfold pendWake
    split
    · exact follows_toWaking _ (by rw [turn]; rfl)
    · split
      · exact follows_upd
      · exact .refl
  all_goals exact .refl

end

end Sys2Proof.Machine
end

section
/-! What a change of supply state does in every part state (sections 9.5, 10.2 and 10.6). -/

set_option Elab.async false

namespace Sys2Proof.Machine

section
variable {s t u : State}

theorem ends_askMeasure {c : Chain} : Ends c [] s (askMeasure s) := by
  rcases askMeasure_cases s with ⟨e, -⟩ | e <;> rw [e]
  · exact .refl
  · exact (Ends.refl.congr (u := { s with meu.askTime := s.partTime }) (chain := by cases c <;> rfl)).ask .measure

/-- The end of a conversion with no request waiting: the measurement area is asked for. -/
theorem measured_quiet (quiet : s.meu.quiet) :
    let t := adcKick (askMeasure s)
    t.sif.posted = s.sif.posted ∧
    (∀ w, ({ t with meu.askTime := w } : State).sansStatus = ({ s with meu.askTime := w } : State).sansStatus) ∧
    (∀ c, Ends c [] s t) ∧ KeepsAsked s t ∧ (s.sif.writers.length = 8 → t.asked .measure) := by
  have still : (askMeasure s).meu.quiet := by
    obtain ⟨a, w, q, asked⟩ := askMeasure_eq s
    rw [asked]
    exact quiet
  have posted := measured_posted s
  rw [adcKick_quiet still] at posted ⊢
  exact ⟨posted, askMeasure_frame s, fun c => ends_askMeasure, keepsAsked_askMeasure, asked_askMeasure⟩

theorem measured_sansPosts {w : State} {a : Word} (same : w.meu.askTime = a) (quiet : s.meu.quiet) (rest : s.sansPosts = w.sansPosts) :
    ({ adcKick (askMeasure s) with meu.askTime := a } : State).sansPosts = w.sansPosts := same ▸
  (sansPosts_of_sansStatus ((measured_quiet quiet).2.1 w.meu.askTime)).trans
    (congrArg (fun x : State => ({ x with meu.askTime := w.meu.askTime } : State)) rest :)

theorem measured_sansRequests {w : State} {a : Word} (same : w.meu.askTime = a) (quiet : s.meu.quiet) (rest : s.sansRequests = w.sansRequests) :
    ({ adcKick (askMeasure s) with meu.askTime := a } : State).sansRequests = w.sansRequests := same ▸
  (sansRequests_of_sansPosts (sansPosts_of_sansStatus ((measured_quiet quiet).2.1 w.meu.askTime))).trans
    (congrArg (fun x : State => ({ x with meu.askTime := w.meu.askTime } : State)) rest :)

/-- What a change of supply state leads to in a part state, the ceiling having followed (R182, R189, R195). -/
def supplyPart (p : PartState) (s : State) : State :=
  match p with
  | .run => forcedRest s
  | .quiesce => forceQuiesce s
  | .rest | .restTurn => wakeCause .supply s
  | .stopped | .starting | .waking => s

theorem supplyReport_eq (s : State) : supplyReport s = supplyPart s.rsc.part (setCeiling s) := by
  unfold supplyReport supplyPart
  cases s.rsc.part <;> rfl

/-! ### What follows the change by the part state -/

theorem setCeiling_rsc (s : State) : (setCeiling s).rsc = s.rsc := (congrArg State.rsc (setCeiling_sansStatus s) :)

theorem forceQuiesce_stands (stands : s.meu.supply ≠ .critical ∨ s.rsc.forced = true) : forceQuiesce s = s :=
  if_neg fun h => stands.elim (fun other => other h.1) fun forced => by simp [forced] at h

theorem forceQuiesce_dark (critical : s.meu.supply = .critical) (free : s.rsc.forced = false) (dark : s.rsc.keepLight = false) :
    forceQuiesce s = { s with rsc.forced := true } :=
  (if_pos ⟨critical, free⟩).trans (if_neg (by simp [dark]))

theorem forceQuiesce_kept (critical : s.meu.supply = .critical) (free : s.rsc.forced = false) (kept : s.rsc.keepLight = true) :
    forceQuiesce s = restFade { s with rsc.forced := true } :=
  (if_pos ⟨critical, free⟩).trans (if_pos kept)

/-- A rest forced in RUN holds neither record nor options (R189, entry 65). -/
def State.unrecorded (s : State) : State :=
  { s with rsc.keepLight := false, rsc.turnsEnabled := false, rsc.image := none, rsc.wakeAfter := 0, rsc.record := none }

theorem forcedRest_critical (run : s.rsc.part = .run) (critical : s.meu.supply = .critical) :
    forcedRest s = (s.unrecorded.dimmed true).imaged .none none :=
  (if_pos ⟨run, critical⟩).trans (quiesceEntry_plain (s := s.unrecorded) (by
    rw [show s.unrecorded.rsc.part = .run from run]
    rfl) (.inr rfl))

/-- The part in a rest forced in RUN (R188, R189). -/
def State.forcedOut (s : State) : State :=
  ({ s.unrecorded.quiescing true with
    rsc := { (s.unrecorded.quiescing true).rsc with fadePending := true }, ltu := s.ltu.faded s.cfg.restFade } : State).imaged
    .none none

theorem unrecorded_sansRequests {w : State} (h : s.sansRequests = w.sansRequests) :
    s.unrecorded.sansRequests = w.unrecorded.sansRequests := (congrArg State.unrecorded h :)

theorem quiescing_sansRequests {w : State} (h : s.sansRequests = w.sansRequests) (forced : Bool) :
    (s.quiescing forced).sansRequests = (w.quiescing forced).sansRequests :=
  (congrArg (fun x : State => x.quiescing forced) h :)

theorem fading_sansRequests {w : State} (h : s.sansRequests = w.sansRequests) (l : Ltu) :
    ({ s with rsc := { s.rsc with fadePending := true }, ltu := l } : State).sansRequests =
      ({ w with rsc := { w.rsc with fadePending := true }, ltu := l } : State).sansRequests :=
  (congrArg (fun x : State => ({ x with rsc := { x.rsc with fadePending := true }, ltu := l } : State)) h :)

theorem forcedOut_sansRequests {w : State} (h : s.sansRequests = w.sansRequests) :
    s.forcedOut.sansRequests = w.forcedOut.sansRequests := by
  have light : s.ltu.faded s.cfg.restFade = w.ltu.faded w.cfg.restFade := by
    rw [ltu_of_sansRequests h, cfg_of_sansRequests h]
  have out := fading_sansRequests (quiescing_sansRequests (unrecorded_sansRequests h) true) (s.ltu.faded s.cfg.restFade)
  unfold State.forcedOut
  rw [light] at out ⊢
  exact imaged_sansRequests out .none none

theorem forcedOut_eq (s : State) : s.forcedOut = { s with
    rsc := { s.rsc with
      part := .quiesce, keepLight := false, turnsEnabled := false, image := none, wakeAfter := 0, record := none, forced := true
      forcedStart := true, limit := false, turns := 0, sleepFailures := 0, leaveRetries := 0, wake := .none
      pendingWake := none, drain := .waiting, turnOver := false, fadePending := true, fade := s.cfg.restFade
      timeout := s.cfg.memoryTimeout, quiesceTimer := some ⟨s.partTime, s.cfg.quiesceLimit * 1000⟩, imageState := .none
      imageId := none }
    meu.tempTimer := none
    dlc := { s.dlc with stop := .stopping, recv := .hunt 0, markers := (s.cfg.marker0, s.cfg.marker1) }
    ltu := s.ltu.faded s.cfg.restFade } := rfl

/-- A rest forced in RUN: the light fades, and the part is in QUIESCE (R189). -/
theorem forcedRest_spec (run : s.rsc.part = .run) (critical : s.meu.supply = .critical) :
    let t := forcedRest s
    Ends .control (lightEnds 48 s) s t ∧ t.sif.posted = s.postedBy .control (lightEnds 48 s).length ∧
    t.sansRequests = s.forcedOut.sansRequests ∧ KeepsAsked s t := by
  obtain ⟨ends, posted, rest, kept, _⟩ := dimmed_spec s.unrecorded true
  have dark : ¬(s.unrecorded.rsc.keepLight = true ∧ true = false) := fun h => nomatch h.2
  rw [if_neg dark] at ends posted rest
  rw [decide_eq_false dark] at rest
  intro t
  have e : t = _ := forcedRest_critical run critical
  have first : Ends .control [] s s.unrecorded := Ends.refl.congr
  have rest' := imaged_sansRequests rest .none none
  generalize s.unrecorded.dimmed true = D at *
  rw [e]
  exact ⟨(first.trans ends).congr, posted, rest', (keepsAsked_of_writers (s := s)).trans (kept.congr)⟩

theorem wakeCause_rest (cause : WakeCause) (rest : s.rsc.part = .rest) : wakeCause cause s = toWaking cause s := by
  rw [wakeCause, rest]

theorem wakeCause_over (cause : WakeCause) (turn : s.rsc.part = .restTurn) (over_ : s.rsc.turnOver = true) :
    wakeCause cause s = toWaking cause s := by
  rw [wakeCause, turn]
  exact if_pos over_

theorem wakeCause_pends (cause : WakeCause) (turn : s.rsc.part = .restTurn) (on : s.rsc.turnOver = false) : wakeCause cause s =
    { s with rsc.pendingWake := if s.rsc.pendingWake = none then some cause else s.rsc.pendingWake } := by
  rw [wakeCause, turn]
  refine (if_neg (by simp [on])).trans ?_
  by_cases none_ : s.rsc.pendingWake = none
  · rw [if_pos none_, if_pos none_]
  · rw [if_neg none_, if_neg none_]

theorem follows_setCeiling : Follows s (setCeiling s) :=
  follows_of_sansRequests keepsAsked_setCeiling (sansRequests_of_sansPosts (sansPosts_of_sansStatus (setCeiling_sansStatus s)))

theorem follows_restFade : Follows s (restFade s) := follows_of_sansRequests keepsAsked_restFade (restFade_sansRequests s)

theorem follows_forceQuiesce : Follows s (forceQuiesce s) := by
  unfold forceQuiesce
  split
  · dsimp only
    split
    · exact (follows_upd (s := s)).trans follows_restFade
    · exact follows_upd
  · exact .refl

theorem follows_supplyReport : Follows s (supplyReport s) := by
  rw [supplyReport_eq]
  refine follows_setCeiling.trans ?_
  generalize setCeiling s = y
  cases s.rsc.part with
  | run => exact follows_forcedRest
  | quiesce => exact follows_forceQuiesce
  | rest => exact follows_wakeCause _
  | restTurn => exact follows_wakeCause _
  | stopped => exact .refl
  | starting => exact .refl
  | waking => exact .refl

end

theorem ceilingOf_eq (cfg : Settings) (x : Supply) : ceilingOf cfg x = match x with
    | .normal => 1000
    | .low => cfg.lowCeiling
    | .critical => 0 := by cases x <;> rfl

/-- Settles O56: the change of supply as far as the ceiling, then the Rest Controller's part by the part state. -/
theorem supplyChangesAct : Obligations.SupplyChangesAct := by
  intro code s adc battery temp mv x changed c l lit w
  let v : State := { s with meu := { s.meu.sampled s.cfg mv s.partTime with supplyStamp := s.partTime } }
  have e : conversionEnd code.toNat s = adcKick (askMeasure (supplyReport (post .supply v))) :=
    (conversionEnd_battery adc _).trans (batteryEnd_changed changed)
  have sampled : v.meu = w.meu := by
    show ({ s.meu.sampled s.cfg mv s.partTime with supplyStamp := s.partTime } : Meu) = _
    rw [sampled_changed _ changed]
  have ceiled : v.ltu.ceiled (ceilingOf v.cfg v.meu.supply) v.cfg.ceilingFade = lit := by
    rw [sampled]
    show s.ltu.ceiled (ceilingOf s.cfg x) s.cfg.ceilingFade = lit
    rw [show ceilingOf s.cfg x = c from ceilingOf_eq s.cfg x]
    rfl
  have frame : (setCeiling (post .supply v)).sansPosts = w.sansPosts := by
    rw [setCeiling_post, ceiled]
    exact congrArg (fun m : Meu => ({ s with ltu := lit, meu := m } : State).sansPosts) sampled
  have posted : (setCeiling (post .supply v)).sif.posted = s.postedOnce .supply := by
    rw [setCeiling_posted, post_sif_posted]
    rfl
  have ends : Ends .control [] s (setCeiling (post .supply v)) :=
    ((Ends.refl.congr (u := v)).post .supply).trans ends_setCeiling
  have asked (eight : s.sif.writers.length = 8) : (conversionEnd code.toNat s).asked .measure := by
    have kept : KeepsAsked s (supplyReport (post .supply v)) :=
      ((keepsAsked_of_writers (t := v)).trans (keepsAsked_post .supply)).trans follows_supplyReport.asked
    rw [e]
    exact keepsAsked_adcKick.asked _ (asked_askMeasure (kept.eight eight))
  rw [supplyReport_eq, post_rsc] at e
  generalize setCeiling (post .supply v) = y at *
  have rest : y.sansRequests = w.sansRequests := sansRequests_of_sansPosts frame
  have rsc : y.rsc = s.rsc := (rsc_of_sansRequests rest).trans rfl
  have meu : y.meu = w.meu := meu_of_sansRequests rest
  have light : lightEnds 48 y = lightEnds 48 w := by rw [lightEnds, lightEnds, ltu_of_sansRequests rest]
  have open_ : portOpen y = portOpen ({ s with sif.posted := s.postedOnce .supply } : State) := portOpen_congr (by rw [rsc])
  have calm : w.meu.quiet := .inr ⟨temp, battery⟩
  have supply : y.meu.supply = x := (congrArg Meu.supply meu).trans rfl
  have fades (z : State) (faded : Ends .control (lightEnds 48 y) y z)
      (due : z.sif.posted = y.postedBy .control (lightEnds 48 y).length) (quiet : z.meu.quiet) :
      ∃ n, endsBy .control (lightEnds 48 w) s (adcKick (askMeasure z)) ∧ n = (lightEnds 48 w).length ∧
        (adcKick (askMeasure z)).sif.posted = ({ s with sif.posted := s.postedOnce .supply } : State).postedBy .control n := by
    obtain ⟨same, -, on, -⟩ := measured_quiet quiet
    rw [light] at faded due
    refine ⟨_, Ends.endsBy ?_, rfl, same.trans (due.trans (postedBy_congr _ _ posted open_))⟩
    simpa using (ends.trans faded).trans (on .control)
  have is (z : State) (h : supplyPart s.rsc.part y = z) : conversionEnd code.toNat s = adcKick (askMeasure z) :=
    h ▸ e
  refine ⟨conversionEnd code.toNat s, rfl, asked, fun stands => ?_, fun run critical => ?_,
    fun quiesce critical free => ⟨fun dark => ?_, fun lit => ?_⟩, fun resting asleep ack => ?_, fun turn on => ?_⟩
  · have still : supplyPart s.rsc.part y = y := by
      rcases stands with h | h | h | ⟨h, other⟩ | ⟨h, other⟩ <;> rw [h]
      · rfl
      · rfl
      · rfl
      · exact forcedRest_calm (by rwa [supply])
      · exact forceQuiesce_stands (by rwa [supply, rsc])
    rw [is y still]
    have quiet : y.meu.quiet := by rwa [meu]
    exact ⟨(measured_quiet quiet).1.trans posted, measured_sansPosts rfl quiet frame⟩
  · have begun : supplyPart s.rsc.part y = forcedRest y := by rw [run]; rfl
    obtain ⟨faded, due, after, -⟩ := forcedRest_spec (s := y) (by rwa [rsc]) (by rwa [supply])
    rw [is _ begun]
    generalize forcedRest y = z at *
    have quiet : z.meu.quiet := by
      rw [meu_of_sansRequests after]
      show y.meu.quiet
      rwa [meu]
    exact ⟨fades z faded due quiet, measured_sansRequests rfl quiet ((after.trans (forcedOut_sansRequests rest)).trans
      (congrArg State.sansRequests (forcedOut_eq w)))⟩
  · have forced : supplyPart s.rsc.part y = { y with rsc.forced := true } := by
      rw [quiesce]
      exact forceQuiesce_dark (by rwa [supply]) (by rwa [rsc]) (by rwa [rsc])
    have quiet : y.meu.quiet := by rwa [meu]
    rw [is _ forced]
    exact ⟨(measured_quiet (s := { y with rsc.forced := true }) quiet).1.trans posted,
      measured_sansPosts (s := { y with rsc.forced := true }) rfl quiet
        (congrArg (fun a : State => ({ a with rsc.forced := true } : State)) frame :)⟩
  · have forced : supplyPart s.rsc.part y = restFade { y with rsc.forced := true } := by
      rw [quiesce]
      exact forceQuiesce_kept (by rwa [supply]) (by rwa [rsc]) (by rwa [rsc])
    rw [is _ forced]
    have faded : Ends .control (lightEnds 48 y) y (restFade { y with rsc.forced := true }) :=
      (Ends.refl.congr (u := { y with rsc.forced := true })).trans (ends_restFade (s := { y with rsc.forced := true }))
    have due : (restFade { y with rsc.forced := true }).sif.posted = y.postedBy .control (lightEnds 48 y).length :=
      restFade_posted _
    have after := restFade_sansRequests { y with rsc.forced := true }
    generalize restFade { y with rsc.forced := true } = z at *
    have quiet : z.meu.quiet := by
      rw [meu_of_sansRequests after]
      show y.meu.quiet
      rwa [meu]
    exact ⟨fades z faded due quiet, measured_sansRequests rfl quiet (after.trans (congrArg (fun a : State =>
      ({ a with rsc.forced := true, rsc.fadePending := true, ltu := a.ltu.faded a.rsc.fade } : State)) rest :))⟩
  · have wakes : supplyPart s.rsc.part y = toWaking .supply y := by
      rcases resting with h | ⟨h, over_⟩ <;> rw [h]
      · exact wakeCause_rest _ (by rwa [rsc])
      · exact wakeCause_over _ (by rwa [rsc]) (by rwa [rsc])
    have row : y.rsc.part.restRow = true := by
      rw [rsc]
      rcases resting with h | ⟨h, -⟩ <;> rw [h] <;> rfl
    rw [is _ (wakes.trans (toWaking_asleep .supply row (by rwa [rsc]) (by rwa [rsc])))]
    have quiet : (y.meu.woken y).quiet := by
      show y.meu.quiet
      rwa [meu]
    exact ⟨(measured_quiet (s := { y with rsc := y.rsc.woken .supply y, meu := y.meu.woken y }) quiet).1.trans posted,
      measured_sansPosts (s := { y with rsc := y.rsc.woken .supply y, meu := y.meu.woken y }) rfl quiet
        (congrArg (fun a : State => ({ a with rsc := a.rsc.woken .supply a, meu := a.meu.woken a } : State)) frame :)⟩
  · have pends : supplyPart s.rsc.part y =
        { y with rsc.pendingWake := if y.rsc.pendingWake = none then some .supply else y.rsc.pendingWake } := by
      rw [turn]
      exact wakeCause_pends .supply (by rwa [rsc]) (by rwa [rsc])
    have quiet : y.meu.quiet := by rwa [meu]
    rw [is _ pends]
    exact ⟨(measured_quiet (s := { y with
        rsc.pendingWake := if y.rsc.pendingWake = none then some .supply else y.rsc.pendingWake }) quiet).1.trans posted,
      measured_sansPosts (s := { y with
        rsc.pendingWake := if y.rsc.pendingWake = none then some .supply else y.rsc.pendingWake }) rfl quiet
        (congrArg (fun a : State => ({ a with
          rsc.pendingWake := if a.rsc.pendingWake = none then some .supply else a.rsc.pendingWake } : State)) frame :)⟩

end Sys2Proof.Machine
end

section
/-! Turns and the light key: what a turn's append, its end and a toggle do (sections 6.4, 6.5 and 7.7). -/

set_option Elab.async false

namespace Sys2Proof.Machine

section
variable {s t u : State}

/-! ### A turn appends its update (R121) -/

section
variable {r : TurnRec} (turn : s.ktu.turnRec = some r)

include turn

theorem appendTurn_noImage (noImage : s.wfs.active = none) : appendTurn s = (some .refusedFormat, s) := by
  rw [appendTurn, turn]
  dsimp only
  rw [append_noImage _ _ _ _ _ noImage]

theorem appendTurn_locked (image : s.wfs.active ≠ none) (locked : s.pss.rail = .locked) :
    appendTurn s = (some .panelFault, s) := by
  rw [appendTurn, turn]
  dsimp only
  rw [append_locked _ _ _ _ _ image locked]

theorem appendTurn_full (image : s.wfs.active ≠ none) (unlocked : s.pss.rail ≠ .locked)
    (full : 16 ≤ s.upe.list.length + s.upe.reservations) : appendTurn s = (none, { s with ktu.turn := .waitPlace }) := by
  rw [appendTurn, turn]
  dsimp only
  rw [append_full _ _ _ _ _ image unlocked full]

/-- The update a turn appends. -/
def State.turnUpdate (s : State) (r : TurnRec) : Entry := s.appended .turn .gray r.page.addr r.page.stride (some r.page.tag)

/-- The turn's update joins the list, the turn is LISTED, and the scan runs. -/
theorem appendTurn_joins (image : s.wfs.active ≠ none) (unlocked : s.pss.rail ≠ .locked)
    (room : s.upe.list.length + s.upe.reservations < 16) : ∃ v t, appendTurn s = (none, t) ∧ ScanOnly v t ∧
    v.sansStatus = ({ s.joined (s.turnUpdate r) with ktu.turn := .listed } : State).sansStatus := by
  obtain ⟨v, e, rest, -⟩ := append_joins .turn .gray r.page.addr r.page.stride (some r.page.tag) image unlocked room
  have ktu : (scan v).ktu = s.ktu := (scanOnly_scan v).ktu.trans (congrArg State.ktu rest :)
  refine ⟨{ v with ktu := { s.ktu with turn := .listed } }, { scan v with ktu := { s.ktu with turn := .listed } }, ?_,
    (scanOnly_scan v).withKtu _, ?_⟩
  · rw [appendTurn, turn]
    dsimp only
    rw [e]
    dsimp only
    rw [ktu]
  · exact (congrArg (fun x : State => ({ x with ktu := { s.ktu with turn := .listed } } : State)) rest :)

/-! ### The end of a turn (R123, R125, R126) -/

theorem turnEndLog_other (code : Code) (other : s.rsc.part ≠ .run) :
    turnEndLog code s = { s with ktu := s.ktu.ended r code s.partTime } := by
  rw [turnEndLog, turn]
  exact if_neg other

/-- A turn that ends in RUN has the log written and TURN posted (R126). -/
theorem turnEndLog_run (code : Code) (run : s.rsc.part = .run) :
    let t := turnEndLog code s
    t.sif.posted = s.postedOnce .turn ∧ (s.sif.writers.length = 8 → t.asked .turnLog) ∧
    t.sansPosts = ({ s with ktu := { s.ktu.ended r code s.partTime with logDirty := false } } : State).sansPosts := by
  have e : turnEndLog code s = post .turn (writeLog { s with ktu := s.ktu.ended r code s.partTime }) := by
    rw [turnEndLog, turn]
    exact if_pos run
  dsimp only
  rw [e]
  refine ⟨?_, fun eight => ?_, ?_⟩
  · rw [post_sif_posted, State.postedOnce, writeLog, ask_sif_posted]
  · exact asked_post_of_asked _ (asked_ask .turnLog eight)
  · rw [sansPosts_post, writeLog, sansPosts_ask]

end

theorem restTurnEnded_other (other : s.rsc.part ≠ .restTurn) : restTurnEnded s = s := if_neg other

theorem restTurnEnded_waits (turn : s.rsc.part = .restTurn) (none_ : s.rsc.pendingWake = none) :
    restTurnEnded s = { s with rsc.turnOver := true } := by
  rw [restTurnEnded, if_pos turn, none_]

theorem restTurnEnded_wakes {cause : WakeCause} (turn : s.rsc.part = .restTurn) (pends : s.rsc.pendingWake = some cause) :
    restTurnEnded s = toWaking cause s := by
  rw [restTurnEnded, if_pos turn, pends]

theorem turnAppend_ends {code : Code} (e : appendTurn s = (some code, s)) : turnAppend s = turnEnd code s := by
  rw [turnAppend, e]

theorem turnAppend_goes (e : appendTurn s = (none, t)) : turnAppend s = t := by
  rw [turnAppend, e]

/-! ### Toggles (R142, R143) -/

/-- The Light Unit with no LIGHT in progress, and a ramp of the light key towards a level. -/
def Ltu.keyed (l m : Ltu) (fade target : Nat) : Ltu :=
  { m with
    light := none, detached := if l.light = none then l.detached else false
    ramp := some ⟨l.level, l.warmth, target, l.mr, fadeSteps fade, 0, .key⟩ }

/-- The state in which a toggle has ended the LIGHT in progress and started the ramp of the light key. -/
def State.toggled (s : State) (m : Ltu) (target : Nat) : State :=
  ask .light { finalizeLight .cancelled s with ltu := s.ltu.keyed m s.cfg.keyFade target }

theorem toggled_spec (s : State) (m : Ltu) (target : Nat) :
    Ends .control (lightEnds 48 s) s (s.toggled m target) ∧
    (s.toggled m target).sif.posted = s.postedBy .control (lightEnds 48 s).length ∧
    (s.toggled m target).sansRequests = ({ s with ltu := s.ltu.keyed m s.cfg.keyFade target } : State).sansRequests := by
  refine ⟨?_, ?_, ?_⟩
  · exact ((ends_finalizeLight .cancelled s).congr
      (u := { finalizeLight .cancelled s with ltu := s.ltu.keyed m s.cfg.keyFade target }) (chain := rfl)).ask .light
  · exact (ask_sif_posted _ _).trans (finalizeLight_posted .cancelled s)
  · refine (sansRequests_ask _ _).trans ?_
    exact (congrArg (fun x : State => ({ x with ltu := s.ltu.keyed m s.cfg.keyFade target } : State))
      (finalizeLight_sansRequests .cancelled s) :)

theorem toggle_dark (dark : s.ltu.restDark = true) : toggle s = s := if_pos dark

section
variable (bright : s.ltu.restDark = false)

include bright

theorem toggle_on (off : s.ltu.keyOff = true) :
    toggle s = s.toggled { s.ltu with keyOff := false } (min s.ltu.remembered s.ltu.ceiling) := by
  have ltu := finalizeLight_ltu .cancelled s
  unfold toggle State.toggled
  rw [if_neg (by simp [bright]), if_pos off]
  simp only [startRamp, ltu]
  rfl

theorem toggle_unset (on : s.ltu.keyOff = false) (unset : s.ltu.lr = 0) :
    toggle s = s.toggled { s.ltu with lr := s.cfg.keyDefaultLevel } (min s.cfg.keyDefaultLevel s.ltu.ceiling) := by
  have ltu := finalizeLight_ltu .cancelled s
  unfold toggle State.toggled
  rw [if_neg (by simp [bright]), if_neg (by simp [on]), if_pos unset]
  simp only [startRamp, litLevel, ltu]
  rfl

theorem toggle_off (on : s.ltu.keyOff = false) (set : 0 < s.ltu.lr) (lit : 0 < s.ltu.ceiling) :
    toggle s = s.toggled { s.ltu with keyOff := true, remembered := s.ltu.lr } 0 := by
  have ltu := finalizeLight_ltu .cancelled s
  unfold toggle State.toggled
  rw [if_neg (by simp [bright]), if_neg (by simp [on]), if_neg (by omega), if_pos (by rw [litLevel]; omega)]
  simp only [startRamp, ltu]
  rfl

theorem toggle_capped (on : s.ltu.keyOff = false) (set : 0 < s.ltu.lr) (capped : s.ltu.ceiling = 0) : toggle s = s := by
  unfold toggle
  rw [if_neg (by simp [bright]), if_neg (by simp [on]), if_neg (by omega), if_neg (by rw [litLevel]; omega)]

end

end

section
variable {s : State} {i : Fin 4} {d : Dir}

/-! ### Presses in RUN (R112) -/

theorem turnAllowed_iff (d : Dir) (s : State) : turnAllowed d s = true ↔
    s.staged d ≠ [] ∧ s.meu.supply ≠ .critical ∧ s.ktu.turn = .idle ∧ s.ktu.log.length < 16 := by
  cases d <;> simp [turnAllowed, State.pages, State.staged, and_assoc]

/-- A page press in RUN begins a turn or is reported (R112, R113). -/
theorem pressRun_page (p : Press) (s : State) (role : p.role = d.role) :
    pressRun p s = if s.cfg.quickTurn = 1 ∧ turnAllowed d s then beginRunTurn d s else reportPress p s := by
  cases d <;> rw [pressRun, role] <;> rfl

theorem dirRole_ne_none (d : Dir) : d.role ≠ .none := by cases d <;> nofun

/-- The turn a press begins in RUN, before its append (R120). -/
def State.turning (s : State) (r : TurnRec) : State := { s with ktu.turn := .waitPlace, ktu.turnRec := some r }

theorem fillTurn_run {p : Page} {l : List Page} (staged : s.staged d = p :: l) :
    fillTurn d false s = s.turning { dir := d, page := p, ofRest := false, dropped := none } := by
  have pages : s.pages d = p :: l := by cases d <;> exact staged
  rw [fillTurn, pages]
  rfl

theorem beginRunTurn_ends {p : Page} {l : List Page} {code : Code} (staged : s.staged d = p :: l)
    (e : let w := s.turning { dir := d, page := p, ofRest := false, dropped := none }; appendTurn w = (some code, w)) :
    beginRunTurn d s = turnEndLog code (s.turning { dir := d, page := p, ofRest := false, dropped := none }) := by
  rw [beginRunTurn, fillTurn_run staged, e]

theorem beginRunTurn_goes {p : Page} {l : List Page} {t : State} (staged : s.staged d = p :: l)
    (e : appendTurn (s.turning { dir := d, page := p, ofRest := false, dropped := none }) = (none, t)) :
    beginRunTurn d s = t := by
  rw [beginRunTurn, fillTurn_run staged, e]

theorem turning_ended {w u : State} {r : TurnRec} {c : Code} (frame : w.sansPosts = u.sansPosts) (idle : u.ktu.turn = .idle) :
    ({ w.turning r with ktu := { (w.turning r).ktu.ended r c (w.turning r).partTime with logDirty := false } } : State).sansPosts =
      ({ u with
        ktu.turnRec := none, ktu.log := u.ktu.log ++ [⟨r.dir, r.page.tag, u.partTime, c, r.dropped, r.ofRest⟩]
        ktu.logDirty := false } : State).sansPosts := by
  refine Eq.trans (b := ({ u with ktu := { u.ktu.ended r c u.partTime with logDirty := false } } : State).sansPosts) ?_ ?_
  · exact (congrArg (fun x : State => ({ x with ktu := { x.ktu.ended r c x.partTime with logDirty := false } } : State)) frame :)
  · rw [Ktu.ended, ← idle]

theorem turning_joins {w u : State} (frame : w.sansStatus = u.sansStatus) (r : TurnRec) :
    ({ (w.turning r).joined ((w.turning r).turnUpdate r) with ktu.turn := .listed } : State).sansStatus =
      ({ (u.turning r).joined ((u.turning r).turnUpdate r) with ktu.turn := .listed } : State).sansStatus := by
  have upe : w.upe.nextId = u.upe.nextId := (congrArg (fun x : State => x.upe.nextId) frame :)
  have cfg : w.cfg = u.cfg := (congrArg State.cfg frame :)
  have update : (w.turning r).turnUpdate r = (u.turning r).turnUpdate r := by
    show State.appended w _ _ _ _ _ = State.appended u _ _ _ _ _
    rw [State.appended, State.appended, upe, cfg]
  rw [update]
  exact (congrArg (fun x : State => ({ (x.turning r).joined ((u.turning r).turnUpdate r) with ktu.turn := .listed } : State)) frame :)

/-- The state with the press of line `i` confirmed, taken from the queue, and counted; the key report asked for. -/
theorem confirmed_asks (s : State) (i : Nat) :
    KeepsAsked s (ask .keyReport (s.confirmed i)) ∧
    (ask .keyReport (s.confirmed i)).sansStatus = (s.confirmed i).sansStatus ∧
    (∀ c, Ends c [] s (ask .keyReport (s.confirmed i))) ∧
    (s.sif.writers.length = 8 → (ask .keyReport (s.confirmed i)).asked .keyReport) :=
  ⟨(keepsAsked_of_writers (t := s.confirmed i)).trans (keepsAsked_ask _), sansStatus_ask _ _,
    fun c => (Ends.refl.congr (u := s.confirmed i) (chain := by cases c <;> rfl)).ask _, fun eight => asked_ask _ eight⟩

/-- A LIGHT press where the light is toggled (R112, R192, R194). -/
theorem debounceEnd_light (c : s.confirms i) (role : s.roleOf i = 3)
    (where_ : s.rsc.part = .run ∨ s.rsc.keepLight = true ∧ s.rsc.forced = false ∧
      (s.rsc.part = .quiesce ∨ s.rsc.part = .rest ∧ s.meu.supply ≠ .critical)) :
    debounceEnd i s = toggle (ask .keyReport (s.confirmed i)) := by
  have light : (s.pressOf i).role = .light := congrArg Role.ofNum role
  have named : Role.ofNum (s.roleOf i) ≠ .none := by rw [role]; decide
  have rsc : (ask .keyReport (s.confirmed i)).rsc = s.rsc := ask_rsc _ _
  have meu : (ask .keyReport (s.confirmed i)).meu = s.meu := ask_meu _ _
  rcases where_ with run | ⟨kept, free, quiesce | ⟨rest, calm⟩⟩
  · rw [debounceEnd_run c named run, pressRun, light]
  · rw [debounceEnd_confirms c named, handleQueue_one c, quiesce]
    dsimp only
    rw [if_neg (by simp [free]), quiescePress, light]
    exact if_pos (by rwa [rsc])
  · rw [debounceEnd_confirms c named, handleQueue_one c, rest]
    dsimp only
    rw [restPress, light]
    rw [rsc, meu]
    exact if_pos (by simp [kept, free, calm])

end

/-- Settles O46: the turn's append by its four answers, and the toggle by the state of the light. -/
theorem pressesActInRun : Obligations.PressesActInRun := by
  refine ⟨fun i d s c run role => ?_, fun i s c role where_ => ?_⟩
  · intro u turns
    obtain ⟨kept, frame, -, asked⟩ := confirmed_asks s i
    have pressed : (s.pressOf i).role = d.role := role
    have e := debounceEnd_run c (by rw [role]; exact dirRole_ne_none d) run
    have reports := reportPress_sansPosts (s.pressOf i) .keyReport (s.confirmed i)
    have postedReport : (reportPress (s.pressOf i) (ask .keyReport (s.confirmed i))).sif.posted = s.postedOnce .key := by
      rw [reportPress, ask_sif_posted, post_sif_posted]
      exact congrArg (fun l : List Half => l.modify _ _) (ask_sif_posted _ _)
    have follows := follows_pressRun (s := ask .keyReport (s.confirmed i)) (s.pressOf i)
    have asks (eight : s.sif.writers.length = 8) : (pressRun (s.pressOf i) (ask .keyReport (s.confirmed i))).asked .keyReport :=
      follows.asked.asked _ (asked eight)
    rw [pressRun_page _ _ pressed] at e follows asks
    generalize ask .keyReport (s.confirmed i) = w at *
    have rest : w.sansRequests = (s.confirmed i).sansRequests := sansRequests_of_sansPosts (sansPosts_of_sansStatus frame)
    have cfg : w.cfg = s.cfg := (cfg_of_sansRequests rest).trans rfl
    have staged : w.staged d = s.staged d := by
      cases d
      · exact (congrArg Ktu.forward (ktu_of_sansRequests rest) :)
      · exact (congrArg Ktu.backward (ktu_of_sansRequests rest) :)
    have may : (w.cfg.quickTurn = 1 ∧ turnAllowed d w = true) ↔ turns := by
      rw [turnAllowed_iff, staged, cfg, meu_of_sansRequests rest, ktu_of_sansRequests rest]
      rfl
    refine ⟨debounceEnd i s, rfl, fun eight => e ▸ asks eight, fun not_ => ?_, fun p l can pages => ?_⟩
    · rw [e, if_neg (may.not.mpr not_)]
      refine ⟨postedReport, reports.trans ?_⟩
      rw [pressed]
      rfl
    · intro r e' ended
      have begins : debounceEnd i s = beginRunTurn d w := e.trans (if_pos (may.mpr can))
      have turn : (w.turning r).ktu.turnRec = some r := rfl
      have wfs : (w.turning r).wfs = s.wfs := (wfs_of_sansRequests rest).trans rfl
      have upe : (w.turning r).upe = s.upe := (upe_of_sansRequests rest).trans rfl
      have pss : (w.turning r).pss = s.pss := (pss_of_sansRequests rest).trans rfl
      have part : (w.turning r).rsc.part = .run := (congrArg Rsc.part (rsc_of_sansRequests rest)).trans run
      have ends (c : Code) (answer : appendTurn (w.turning r) = (some c, w.turning r)) : ended c := by
        obtain ⟨posted, log, rest'⟩ := turnEndLog_run turn c part
        rw [← beginRunTurn_ends (staged.trans pages) answer, ← begins] at posted log rest'
        have before : w.sif.posted = s.sif.posted := (congrArg (fun x : State => x.sif.posted) frame :)
        refine ⟨posted.trans (congrArg (fun l : List Half => l.modify _ _) before), fun eight => log (kept.eight eight), ?_⟩
        refine rest'.trans (turning_ended (sansPosts_of_sansStatus frame) can.2.2.2.1)
      refine ⟨fun noImage => ends _ (appendTurn_noImage turn (by rwa [wfs])),
        fun image locked => ends _ (appendTurn_locked turn (by rwa [wfs]) (by rwa [pss])), fun image unlocked full => ?_,
        fun image unlocked room => ?_⟩
      · have goes := appendTurn_full turn (by rwa [wfs]) (by rwa [pss]) (by rwa [upe])
        rw [begins, beginRunTurn_goes (staged.trans pages) goes]
        exact (congrArg (fun x : State => x.turning r) frame :)
      · obtain ⟨v, t, goes, only, joins⟩ := appendTurn_joins turn (by rwa [wfs]) (by rwa [pss]) (by rwa [upe])
        rw [begins, beginRunTurn_goes (staged.trans pages) goes]
        exact ⟨v, only, joins.trans (turning_joins frame r)⟩
  · intro u l
    obtain ⟨-, frame, ends, -⟩ := confirmed_asks s i
    have e := debounceEnd_light c role where_
    generalize ask .keyReport (s.confirmed i) = w at *
    have ltu : w.ltu = s.ltu := (congrArg State.ltu frame :)
    have cfg : w.cfg = s.cfg := (congrArg State.cfg frame :)
    have posted : w.sif.posted = s.sif.posted := (congrArg (fun x : State => x.sif.posted) frame :)
    have rsc : w.rsc = s.rsc := (congrArg State.rsc frame :)
    refine ⟨debounceEnd i s, rfl, ?_⟩
    intro acts
    have toggles (m : Ltu) (target : Nat) (h : debounceEnd i s = w.toggled m target) : acts m target := by
      obtain ⟨lightEnds', due, rest⟩ := toggled_spec w m target
      have same : lightEnds 48 w = lightEnds 48 s := by rw [lightEnds, lightEnds, ltu]
      rw [same] at lightEnds' due
      rw [ltu, cfg] at rest
      show endsBy _ _ _ _ ∧ _ ∧ _
      rw [h]
      refine ⟨by simpa using ((ends .control).trans lightEnds').endsBy, due.trans (postedBy_congr _ _ posted (portOpen_congr (by rw [rsc]))),
        rest.trans ?_⟩
      exact (congrArg (fun x : State => ({ x with ltu := s.ltu.keyed m s.cfg.keyFade target } : State))
        (sansRequests_of_sansPosts (sansPosts_of_sansStatus frame)) :)
    refine ⟨fun dark => ?_, fun bright off => toggles _ _ (e.trans ?_), fun bright on unset => toggles _ _ (e.trans ?_),
      fun bright on set lit => toggles _ _ (e.trans ?_), fun bright on set capped => ?_⟩
    · rw [e, toggle_dark (by rwa [ltu])]
      exact frame
    · rw [toggle_on (by rwa [ltu]) (by rwa [ltu]), ltu]
    · rw [toggle_unset (by rwa [ltu]) (by rwa [ltu]) (by rwa [ltu]), ltu, cfg]
    · rw [toggle_off (by rwa [ltu]) (by rwa [ltu]) (by rwa [ltu]) (by rwa [ltu]), ltu]
    · rw [e, toggle_capped (by rwa [ltu]) (by rwa [ltu]) (by rwa [ltu]) (by rwa [ltu])]
      exact frame

section
variable {s : State} {r : TurnRec}

/-! ### A turn in WAIT_PLACE appends again (R121) -/

theorem retry_eq (waits : s.ktu.turn = .waitPlace) : exec .turnAppendRetry s = .next (portGrants (turnAppend s)) :=
  congrArg done (if_pos waits)

theorem waitPlace_stands (waits : s.ktu.turn = .waitPlace) : ({ s with ktu.turn := .waitPlace } : State) = s := by
  rw [← waits]

/-- The list moves of a turn's admission (R122). -/
theorem pushPage_eq (cap : Nat) (p : Page) (l : List Page) :
    pushPage cap p l = (p :: (if cap ≤ l.length then l.take (cap - 1) else l),
      if cap ≤ l.length then l.getLast?.map Page.tag else none) := by
  unfold pushPage
  split <;> rfl

end

/-- Settles O47: the append's four answers in each part state, and the lists by the turn's direction. -/
theorem turnsAppendAndMove : Obligations.TurnsAppendAndMove := by
  refine ⟨fun s r waits turn quiesce => ?_, fun s r waits turn where_ => ?_, fun s r old turn => ?_⟩
  · refine ⟨_, retry_eq waits, ?_⟩
    intro ends
    have over_ (code : Code) (answer : appendTurn s = (some code, s)) : ends code := by
      show turnAppend s = _
      rw [turnAppend_ends answer, turnEnd, turnEndLog_other turn code (by rw [quiesce]; nofun),
        restTurnEnded_other (by rw [quiesce]; nofun)]
      rfl
    refine ⟨fun noImage => over_ _ (appendTurn_noImage turn noImage),
      fun image locked => over_ _ (appendTurn_locked turn image locked), fun image unlocked full => ?_,
      fun image unlocked room => ?_⟩
    · rw [turnAppend_goes (appendTurn_full turn image unlocked full), waitPlace_stands waits]
    · obtain ⟨v, t, goes, only, joins⟩ := appendTurn_joins turn image unlocked room
      rw [turnAppend_goes goes]
      refine ⟨only.ktu.trans (congrArg State.ktu joins :), ?_, only.1.trans ?_⟩
      · obtain ⟨-, d, m, a, tp, bp, en, hi, wq, sq, k, i, w, -, e⟩ := only
        rw [e]
        exact (congrArg (fun x : State => x.upe.nextId) joins :)
      · have list : v.upe.list = s.upe.list ++ [s.turnUpdate r] := (congrArg (fun x : State => x.upe.list) joins :)
        rw [list, List.map_append]
        rfl
  · intro e out
    refine ⟨_, retry_eq waits, ?_⟩
    intro ends
    have over_ (code : Code) (answer : appendTurn s = (some code, s)) : ends code := by
      refine ⟨fun run => ?_, fun turning none_ => ?_, fun w turning pends atOnce => ?_⟩
      · have stands : turnAppend s = turnEndLog code s := by
          rw [turnAppend_ends answer, turnEnd, restTurnEnded_other]
          rw [rsc_of_sansRequests (sansRequests_of_sansPosts (turnEndLog_run turn code run).2.2)]
          show s.rsc.part ≠ _
          rw [run]
          nofun
        rw [stands]
        exact turnEndLog_run turn code run
      · rw [turnAppend_ends answer, turnEnd, turnEndLog_other turn code (by rw [turning]; nofun)]
        exact restTurnEnded_waits turning none_
      · have woken : restTurnEnded (out code) = toWaking w (out code) := restTurnEnded_wakes turning pends
        rw [turnAppend_ends answer, turnEnd, turnEndLog_other turn code (by rw [turning]; nofun)]
        show wokenAtOnce w (out code) (restTurnEnded (out code))
        rw [woken]
        obtain ⟨awake, queue, calm⟩ := atOnce
        exact toWaking_atOnce w (by rw [show (out code).rsc.part = .restTurn from turning]; rfl) ⟨awake, queue, calm⟩
    refine ⟨fun noImage => over_ _ (appendTurn_noImage turn noImage),
      fun image locked => over_ _ (appendTurn_locked turn image locked), fun image unlocked full => ?_,
      fun image unlocked room => ?_⟩
    · rw [turnAppend_goes (appendTurn_full turn image unlocked full), waitPlace_stands waits]
    · obtain ⟨v, t, goes, only, joins⟩ := appendTurn_joins turn image unlocked room
      rw [turnAppend_goes goes]
      exact ⟨v, only, joins⟩
  · obtain ⟨dir, page, ofRest, dropped⟩ := r
    unfold turnAdmitted
    rw [turn]
    cases dir <;> cases old <;> simp [pushPage_eq, turn] <;> rw [← turn]

end Sys2Proof.Machine
end

section
/-! A quiesce that ends without rest, and presses in QUIESCE and REST (sections 10.2, 10.4 and 10.5). -/

set_option Elab.async false

namespace Sys2Proof.Machine

section
variable {s t u : State}

/-! ### A quiesce that ends without rest (R191, R192) -/

/-- The context CANCELLED asked for and the light restored, before the entry to RUN. -/
def State.left (s : State) : State := restore { askContext .cancelled s with rsc.imageId := none }

theorem left_spec (s : State) :
    (∀ d, Ends d [] s s.left) ∧ s.left.sif.posted = s.sif.posted ∧
    s.left.sansRequests = ({ s with
      rsc.imageId := none, rsc.fadePending := false, ltu := s.ltu.restored s.rsc.fade, fresh := s.fresh + 15 } : State).sansRequests ∧
    KeepsAsked s s.left ∧
    (s.sif.writers.length = 8 → s.left.asked (.context .cancelled (contextBytes .cancelled s))) := by
  obtain ⟨ends, rest, kept, asked⟩ := askContext_spec .cancelled s
  unfold State.left
  generalize askContext .cancelled s = a at *
  have rsc : a.rsc = s.rsc := (congrArg State.rsc rest :)
  have ltu : a.ltu = s.ltu := (congrArg State.ltu rest :)
  have posted : a.sif.posted = s.sif.posted := (congrArg (fun x : State => x.sif.posted) rest :)
  have restored := sansRequests_of_sansPosts (sansPosts_of_sansStatus (restore_sansStatus { a with rsc.imageId := none }))
  refine ⟨fun d => ?_, (restore_posted _).trans posted, restored.trans ?_, ?_, fun eight => ?_⟩
  · simpa using ((ends d).congr (u := { a with rsc.imageId := none }) (chain := by cases d <;> rfl)).trans ends_restore
  · rw [show ({ a with rsc.imageId := none } : State).ltu = s.ltu from ltu,
      show ({ a with rsc.imageId := none } : State).rsc.fade = s.rsc.fade from (congrArg Rsc.fade rsc :)]
    exact (congrArg (fun x : State => ({ x with
      rsc.imageId := none, rsc.fadePending := false, ltu := s.ltu.restored s.rsc.fade } : State))
      (sansRequests_of_sansPosts (sansPosts_of_sansStatus rest)) :)
  · exact (kept.congr (u := { a with rsc.imageId := none })).trans keepsAsked_restore
  · exact (keepsAsked_restore (s := { a with rsc.imageId := none })).asked _ (asked_congr (asked eight))

/-- What a quiesce that ends without rest leaves, no press waiting and no forced rest following (R186, R191, R192). -/
def State.unrested (s : State) : State :=
  { s with
    rsc := { s.rsc with
      part := .run, record := none, imageId := none, fadePending := false, quiesceTimer := none, restTimer := none }
    meu.tempTimer := some ⟨s.partTime, s.cfg.tempMaxAge * 1000⟩
    dlc := { s.dlc with stop := .none, recv := .hunt 0, markers := (s.cfg.marker0, s.cfg.marker1) }
    ktu.logDirty := false, ltu := s.ltu.restored s.rsc.fade, fresh := s.fresh + 15 }

theorem unrested_sansRequests (h : t.sansRequests = s.sansRequests) : t.unrested.sansRequests = s.unrested.sansRequests :=
  (congrArg State.unrested h :)

theorem leaveQuiesce_calm (cause : WakeCause) (code : Code) (abandoned : Bool) (awake : s.rsc.part.restRow = false)
    (queue : s.ktu.queue = []) (calm : abandoned = true ∨ s.meu.supply ≠ .critical) :
    let t := leaveQuiesce abandoned (finalizeRest cause code s)
    let posted := s.postedBy .control (restEnds cause code.num s).length
    Ends .control (restEnds cause code.num s) s t ∧
    t.sif.posted = (if s.ktu.logDirty = true then posted.modify Cause.turn.num (· + 1) else posted) ∧
    (s.sif.writers.length = 8 → t.asked (.context .cancelled (contextBytes .cancelled { s with rsc.record := none })) ∧
      (s.ktu.logDirty = true → t.asked .turnLog)) ∧
    (∀ c, (t.chain c).walk ≠ .idle) ∧ t.sansRequests = s.unrested.sansRequests ∧ KeepsAsked s t := by
  have ends₁ := ends_finalizeRest cause code s
  have posted₁ := finalizeRest_posted cause code s
  have rest₁ := finalizeRest_sansRequests cause code s
  have kept₁ := keepsAsked_finalizeRest (s := s) cause code
  intro t posted
  have e : t = enterRun abandoned (finalizeRest cause code s).left := rfl
  generalize finalizeRest cause code s = f at *
  obtain ⟨ends₂, posted₂, rest₂, kept₂, asked₂⟩ := left_spec f
  have bytes : contextBytes .cancelled f = contextBytes .cancelled { s with rsc.record := none } :=
    contextBytes_congr _ (rsc_of_sansRequests rest₁) (congrArg State.fresh rest₁ :)
  have ltu₁ : f.ltu = s.ltu := (ltu_of_sansRequests rest₁).trans rfl
  have fade₁ : f.rsc.fade = s.rsc.fade := (congrArg Rsc.fade (rsc_of_sansRequests rest₁) :)
  have fresh₁ : f.fresh = s.fresh := (congrArg State.fresh rest₁ :)
  rw [bytes] at asked₂
  rw [ltu₁, fade₁, fresh₁] at rest₂
  have before : f.left.sansRequests = ({ s with
      rsc.record := none, rsc.imageId := none, rsc.fadePending := false, ltu := s.ltu.restored s.rsc.fade
      fresh := s.fresh + 15 } : State).sansRequests :=
    rest₂.trans (congrArg (fun x : State => ({ x with
      rsc.imageId := none, rsc.fadePending := false, ltu := s.ltu.restored s.rsc.fade, fresh := s.fresh + 15 } : State)) rest₁ :)
  generalize f.left = g at *
  have part : g.rsc.part = s.rsc.part := (congrArg Rsc.part (rsc_of_sansRequests before) :)
  have ktu : g.ktu = s.ktu := (ktu_of_sansRequests before).trans rfl
  have meu : g.meu = s.meu := (meu_of_sansRequests before).trans rfl
  obtain ⟨ends₃, rest₃, kept₃, log₃, posted₃, walks⟩ :=
    enterRun_calm (s := g) abandoned (by rwa [part]) (by rwa [ktu]) (by rwa [meu])
  rw [← e] at ends₃ rest₃ kept₃ log₃ posted₃ walks
  rw [ktu, State.postedOnce, posted₂, posted₁] at posted₃
  rw [ktu] at log₃
  refine ⟨by simpa using (ends₁.trans (ends₂ .control)).trans (ends₃ .control), posted₃, fun eight => ⟨?_, fun dirty => ?_⟩, walks,
    rest₃.trans ?_, (kept₁.trans kept₂).trans kept₃⟩
  · exact kept₃.asked _ (asked₂ (kept₁.eight eight))
  · exact log₃ dirty ((kept₁.trans kept₂).eight eight)
  · exact (congrArg (fun x : State => ({ x.running with ktu.logDirty := false } : State)) before :)

/-! ### Memory and rest turns (R193, R196) -/

/-- A rest turn begun with memory asleep and SLEEP_ACK asserted waits for memory (R194, R196). -/
theorem restTurnBegin_asleep {d : Dir} {p : Page} {l : List Page} (rest : s.rsc.part = .rest) (asleep : s.rsc.handshake = .asleep)
    (ack : s.rsc.sleepAck = true) (staged : s.staged d = p :: l) : restTurnBegin d s = { s with
      rsc.part := .restTurn, rsc.turns := s.rsc.turns + 1, rsc.handshake := .leaving
      rsc.memTimer := some ⟨s.partTime, s.rsc.timeout⟩, meu.tempTimer := none, ktu.turn := .waitMemory
      ktu.turnRec := some { dir := d, page := p, ofRest := true, dropped := none } } := by
  have part : setPart .restTurn { s with rsc.turns := s.rsc.turns + 1 } = { s with
      rsc.turns := s.rsc.turns + 1, rsc.part := .restTurn, meu.tempTimer := none } :=
    setPart_row (s := { s with rsc.turns := s.rsc.turns + 1 }) (p := .restTurn)
      ((congrArg PartState.restRow rest : s.rsc.part.restRow = _))
  have pages : s.pages d = p :: l := by cases d <;> exact staged
  have fills : fillTurn d true { s with rsc.turns := s.rsc.turns + 1, rsc.part := .restTurn, meu.tempTimer := none } = { s with
      rsc.turns := s.rsc.turns + 1, rsc.part := .restTurn, meu.tempTimer := none, ktu.turn := .waitMemory
      ktu.turnRec := some { dir := d, page := p, ofRest := true, dropped := none } } := by
    have same : State.pages { s with rsc.turns := s.rsc.turns + 1, rsc.part := .restTurn, meu.tempTimer := none } d = p :: l := by
      cases d <;> exact pages
    rw [fillTurn, same]
    rfl
  unfold restTurnBegin
  rw [part, fills]
  unfold requestMemory
  dsimp only
  rw [asleep]
  dsimp only
  rw [if_pos ack]
  rfl

/-! ### Presses in QUIESCE and REST (R192, R194) -/

theorem quiescePress_cancels {p : Press} (role : p.role = .forward ∨ p.role = .back ∨ p.role = .wake) :
    quiescePress p s = cancelQuiesce s := by
  rcases role with h | h | h <;> rw [quiescePress, h]

theorem restPress_page {d : Dir} {p : Press} (role : p.role = d.role) : restPress p s = restPage d p s := by
  cases d <;> rw [restPress, role] <;> rfl

end

/-- Settles O59: `leaveQuiesce_calm` for a cancelled rest, `toWaking_asleep` for a wake, and the turn begun in REST. -/
theorem pressesActInRest : Obligations.PressesActInRest := by
  refine ⟨fun i s c quiesce => ?_, fun i s c rest asleep ack => ?_⟩
  · intro n u
    obtain ⟨kept, frame, ends, -⟩ := confirmed_asks s i
    have e (named : Role.ofNum n ≠ .none) : debounceEnd i s = _ := debounceEnd_confirms c named
    rw [handleQueue_one c, quiesce] at e
    refine ⟨debounceEnd i s, rfl, fun one four forced => ?_, fun light free dark => ?_, fun role free calm => ?_⟩
    · have named : Role.ofNum n ≠ .none := by
        interval_cases n <;> decide
      rw [e named]
      exact (congrArg State.sansStatus (if_pos forced)).trans (sansStatus_ask _ _)
    · have is : (s.pressOf i).role = .light := congrArg Role.ofNum light
      rw [e (by rw [light]; decide)]
      dsimp only
      rw [if_neg (by simp [free]), quiescePress, is]
      dsimp only
      rw [if_neg (by rw [ask_rsc]; exact ne_true_of_eq_false dark)]
      exact frame
    · intro ended posted
      have is : (s.pressOf i).role = .forward ∨ (s.pressOf i).role = .back ∨ (s.pressOf i).role = .wake :=
        role.imp (congrArg Role.ofNum) (Or.imp (congrArg Role.ofNum) (congrArg Role.ofNum))
      have named : Role.ofNum n ≠ .none := by
        rcases role with h | h | h <;> rw [h] <;> decide
      have cancels : debounceEnd i s = cancelQuiesce (ask .keyReport (s.confirmed i)) := by
        rw [e named]
        dsimp only
        rw [if_neg (by simp [free]), quiescePress_cancels is]
      generalize ask .keyReport (s.confirmed i) = w at *
      have rsc : w.rsc = s.rsc := (congrArg State.rsc frame :)
      have fresh : w.fresh = s.fresh := (congrArg State.fresh frame :)
      have meu : w.meu = s.meu := (congrArg State.meu frame :)
      have queue : w.ktu.queue = [] := (congrArg (fun x : State => x.ktu.queue) frame :).trans c.2.2.2
      have dirty : w.ktu.logDirty = s.ktu.logDirty := (congrArg (fun x : State => x.ktu.logDirty) frame :)
      have before : w.sif.posted = s.sif.posted := (congrArg (fun x : State => x.sif.posted) frame :)
      obtain ⟨ends', posted', asked, walks, rest, -⟩ := leaveQuiesce_calm (s := w) .key .cancelled false
        (by rw [rsc, quiesce]; rfl) queue (.inr (by rwa [meu]))
      have bytes : contextBytes .cancelled { w with rsc.record := none } = contextBytes .cancelled { s with rsc.record := none } :=
        contextBytes_congr _ (by rw [rsc]) fresh
      have same : restEnds .key 48 w = ended := by
        rw [restEnds, rsc]
        show _ = (match s.rsc.record with
          | none => []
          | some a => [(a, [(0x1C, [1, s.rsc.turns])], 48)])
        cases s.rsc.record <;> rfl
      rw [show Code.cancelled.num = 48 from rfl, same] at ends' posted'
      rw [dirty, postedBy_congr _ _ before (portOpen_congr (by rw [rsc]))] at posted'
      rw [bytes, dirty] at asked
      rw [cancels, show cancelQuiesce w = leaveQuiesce false (finalizeRest .key .cancelled w) from rfl]
      exact ⟨by simpa using ((ends .control).trans ends').endsBy, posted', fun eight => asked (kept.eight eight), walks,
        rest.trans (unrested_sansRequests (sansRequests_of_sansPosts (sansPosts_of_sansStatus frame)))⟩
  · intro n u
    obtain ⟨kept, frame, -, asked⟩ := confirmed_asks s i
    have e (named : Role.ofNum n ≠ .none) : debounceEnd i s = restPress (s.pressOf i) (ask .keyReport (s.confirmed i)) := by
      rw [debounceEnd_confirms c named, handleQueue_one c, rest]
    have reports := reportPress_sansPosts (s.pressOf i) .keyReport (s.confirmed i)
    have postedReport : (reportPress (s.pressOf i) (ask .keyReport (s.confirmed i))).sif.posted = s.postedOnce .key := by
      rw [reportPress, ask_sif_posted, post_sif_posted]
      exact congrArg (fun l : List Half => l.modify _ _) (ask_sif_posted _ _)
    have askedReport (eight : s.sif.writers.length = 8) :=
      (follows_reportPress (s := ask .keyReport (s.confirmed i)) (s.pressOf i)).asked.asked _ (asked eight)
    generalize ask .keyReport (s.confirmed i) = w at *
    have rsc : w.rsc = s.rsc := (congrArg State.rsc frame :)
    have meu : w.meu = s.meu := (congrArg State.meu frame :)
    refine ⟨debounceEnd i s, rfl, ?_⟩
    intro wakes
    have woken (r : Role) (is : Role.ofNum n = r) (h : debounceEnd i s = toWaking .key (reportPress (s.pressOf i) w)) : wakes r := by
      generalize reportPress (s.pressOf i) w = x at *
      have rsc' : x.rsc = s.rsc := (rsc_of_sansRequests (sansRequests_of_sansPosts reports)).trans rfl
      have asleep' := toWaking_asleep (s := x) .key (by rw [rsc', rest]; rfl) (by rwa [rsc']) (by rwa [rsc'])
      show _ ∧ _ ∧ _
      rw [h, asleep']
      refine ⟨postedReport, fun eight => asked_congr (askedReport eight), ?_⟩
      refine (congrArg (fun y : State => ({ y with rsc := y.rsc.woken .key y, meu := y.meu.woken y } : State)) reports :).trans ?_
      rw [← is]
      rfl
    refine ⟨fun light ignored => ?_, fun wake => woken _ (congrArg Role.ofNum wake) ?_, fun d role => ?_⟩
    · have is : (s.pressOf i).role = .light := congrArg Role.ofNum light
      rw [e (by rw [light]; decide), restPress, is]
      dsimp only
      rw [if_neg (by rw [rsc, meu]; rcases ignored with h | h | h <;> simp [h])]
      exact frame
    · have is : (s.pressOf i).role = .wake := congrArg Role.ofNum wake
      rw [e (by rw [wake]; decide), restPress, is]
    · intro turns
      have page : debounceEnd i s = restPage d (s.pressOf i) w :=
        (e (by rw [role]; exact dirRole_ne_none d)).trans (restPress_page role)
      have staged : w.staged d = s.staged d := by
        cases d
        · exact (congrArg (fun x : State => x.ktu.forward) frame :)
        · exact (congrArg (fun x : State => x.ktu.backward) frame :)
      have log : w.ktu.log = s.ktu.log := (congrArg (fun x : State => x.ktu.log) frame :)
      have turn : w.ktu.turn = s.ktu.turn := (congrArg (fun x : State => x.ktu.turn) frame :)
      refine ⟨fun not_ => woken _ role (page.trans (if_neg ?_)), fun p l can idle pages => ?_⟩
      · rw [Bool.and_eq_true, Bool.and_eq_true, turnAllowed_iff, rsc, staged, meu, log]
        rintro ⟨⟨enabled, free⟩, some_, calm, -, room⟩
        exact not_ ⟨enabled, by simpa using free, some_, calm, room⟩
      · obtain ⟨enabled, free, some_, calm, room⟩ := can
        have begins : restPage d (s.pressOf i) w = restTurnBegin d w := by
          refine if_pos ?_
          rw [Bool.and_eq_true, Bool.and_eq_true, turnAllowed_iff, rsc, staged, meu, log, turn]
          exact ⟨⟨enabled, by simp [free]⟩, some_, calm, idle, room⟩
        rw [page, begins, restTurnBegin_asleep (by rwa [rsc]) (by rwa [rsc]) (by rwa [rsc]) (staged.trans pages)]
        exact (congrArg (fun y : State => ({ y with
          rsc.part := .restTurn, rsc.turns := y.rsc.turns + 1, rsc.handshake := .leaving
          rsc.memTimer := some ⟨y.partTime, y.rsc.timeout⟩, meu.tempTimer := none, ktu.turn := .waitMemory
          ktu.turnRec := some { dir := d, page := p, ofRest := true, dropped := none } } : State)) frame :)

end Sys2Proof.Machine
end

section
/-! The memory handshake, the wake and the way back to REST (sections 10.3, 10.5 and 10.6). -/

set_option Elab.async false

namespace Sys2Proof.Machine

section
variable {s t u : State}

theorem satInc8_eq (n : Byte) : satInc8 n = BitVec.ofNat 8 (min 255 (n.toNat + 1)) := by
  unfold satInc8
  by_cases full : n = 255
  · rw [if_pos full, full]
    rfl
  · rw [if_neg full]
    bv_omega

/-! ### The wake into a forced quiesce (R189, R197) -/

theorem enterRun_forced (s : State) : enterRun false s = forcedRest (enterRun true s) := rfl

theorem ChainsStand.walk {c : Chain} (h : ChainsStand c s t) (d : Chain) : (t.chain d).walk = (s.chain d).walk := by
  obtain ⟨own, others⟩ := h
  by_cases same : d = c
  · rw [same, own]
  · rw [others d same]

theorem forcedRest_chains (run : s.rsc.part = .run) (critical : s.meu.supply = .critical) :
    ChainsStand .control s (forcedRest s) := by
  have chains := (dimmed_spec s.unrecorded true).2.2.2.2
  rw [forcedRest_critical run critical]
  generalize s.unrecorded.dimmed true = D at *
  exact ((chainsStand_of_chain fun d => by cases d <;> rfl).trans chains).trans (chainsStand_of_chain fun d => by cases d <;> rfl)

/-- Memory available in WAKING with no press waiting, up to what the supply makes of the entry to RUN (R197). -/
theorem wakeComplete_runs (awake : s.rsc.part.restRow = false) (queue : s.ktu.queue = []) : ∃ v,
    wakeComplete s = forcedRest v ∧ v.sansRequests = ({ s.running with
      ktu.logDirty := false, fresh := s.fresh + 15, rsc.record := none, rsc.fadePending := false
      ltu := s.ltu.restored s.rsc.fade } : State).sansRequests ∧
    Ends .control (restEnds s.rsc.wake 16 s) s v ∧
    v.sif.posted = (s.postedBy .control (restEnds s.rsc.wake 16 s).length).modify Cause.wake.num (· + 1) ∧
    (s.sif.writers.length = 8 → v.asked .turnLog ∧ v.asked .mirror ∧ v.asked (.context .woken (contextBytes .woken s))) ∧
    ∀ d, (v.chain d).walk ≠ .idle := by
  obtain ⟨ends, rest, kept, posted, asked⟩ := waked_spec s
  have e := wakeComplete_eq s
  generalize s.waked = w at *
  have ktu : w.ktu = { s.ktu with logDirty := false } := ktu_of_sansRequests rest
  have part : w.rsc.part = s.rsc.part := (congrArg Rsc.part (rsc_of_sansRequests rest) :)
  obtain ⟨endsRun, restRun, keptRun, -, postedRun, walks⟩ :=
    enterRun_calm (s := w) true (by rw [part]; exact awake) (by rw [ktu]; exact queue) (.inl rfl)
  rw [ktu] at postedRun
  refine ⟨enterRun true w, e.trans (enterRun_forced w), restRun.trans ?_, by simpa using ends.trans (endsRun .control),
    postedRun.trans posted, fun eight => ?_, walks⟩
  · exact (congrArg (fun x : State => ({ x.running with ktu.logDirty := false } : State)) rest :)
  · obtain ⟨log, mirror, context⟩ := asked eight
    exact ⟨keptRun.asked _ log, keptRun.asked _ mirror, keptRun.asked _ context⟩

/-! ### Asking for sleep, and the supply at the entry to REST (R104, R193) -/

theorem askSleep_awake (awake : s.rsc.handshake = .awake) : askSleep s = { s with
    rsc.handshake := if s.rsc.sleepAck = true then .asleep else .entering
    rsc.memTimer := if s.rsc.sleepAck = true then none else some ⟨s.partTime, s.rsc.timeout⟩ } := by
  unfold askSleep
  rw [if_pos awake]
  split <;> rfl

theorem panelQuiet_free (quiet : panelQuiet s = true) : allLanesFree s = true ∧ (s.pss.rail = .off ∨ s.pss.rail = .locked) := by
  simp only [panelQuiet, Bool.and_eq_true, Bool.or_eq_true, beq_iff_eq] at quiet
  obtain ⟨⟨⟨⟨-, free⟩, -⟩, -⟩, rail⟩ := quiet
  exact ⟨free, rail⟩

theorem someArming_free (free : allLanesFree s = true) : someArming s = false := by
  refine Bool.eq_false_iff.mpr fun arming => ?_
  obtain ⟨l, mem, is⟩ := (someArming_iff s).mp arming
  exact nomatch ((allLanesFree_iff s).mp free l mem).symm.trans is

/-- At the entry to REST the panel supply is OFF (R104, R190). -/
theorem unlockAtRest_spec (free : allLanesFree s = true) (rail : s.pss.rail = .off ∨ s.pss.rail = .locked) :
    (unlockAtRest s).sansStatus = ({ s with pss.rail := .off } : State).sansStatus := by
  unfold unlockAtRest
  split
  · rw [enterOff_eq, if_neg (by simp [someArming_free free]), sansStatus_ask]
  · next unlocked =>
    have off := rail.resolve_right unlocked
    rw [← off]

theorem handlePresses_empty (empty : s.ktu.queue = []) : handlePresses s = s := by
  rw [handlePresses, empty]
  rfl

end

/-! ### The parts of the statement -/

section
variable {s : State}

theorem ackDeasserted_leaving (leaving : s.rsc.handshake = .leaving) : ackDeasserted s =
    memoryAvailable { s with rsc.sleepAck := false, rsc.handshake := .awake, rsc.memTimer := none } := if_pos leaving

/-- SLEEP_ACK deasserted in WAKING: the wake goes on (R197). -/
theorem ackDeasserted_wakes (leaving : s.rsc.handshake = .leaving) (waking : s.rsc.part = .waking) (queue : s.ktu.queue = []) :
    let awake : State := { s with rsc.handshake := .awake }
    let ends := restEnds s.rsc.wake 16 s
    let t := ackDeasserted s
    t.rsc.handshake = .awake ∧ t.rsc.memTimer = none ∧ t.rsc.sleepAck = false ∧ t.rsc.restTimer = none ∧
    t.rsc.record = none ∧ t.dlc.recv = .hunt 0 ∧ (∀ c, (t.chain c).walk ≠ .idle) ∧ t.ktu.logDirty = false ∧
    (s.sif.writers.length = 8 → t.asked .turnLog ∧ t.asked .mirror ∧ t.asked (.context .woken (contextBytes .woken s))) ∧
    (s.meu.supply ≠ .critical → t.rsc.part = .run ∧ t.dlc.stop = .none ∧ t.ltu = s.ltu.restored s.rsc.fade ∧
      t.meu.tempTimer = some ⟨s.partTime, s.cfg.tempMaxAge * 1000⟩ ∧
      endsBy .control ends awake t ∧ t.sif.posted = s.postedOnce .wake) ∧
    (s.meu.supply = .critical → t.rsc.part = .quiesce ∧ t.rsc.forced = true ∧ t.rsc.image = none ∧ t.rsc.wakeAfter = 0 ∧
      t.dlc.stop = .stopping ∧ t.ltu.restDark = true ∧ t.meu.tempTimer = none) := by
  let a : State := { s with rsc.sleepAck := false, rsc.handshake := .awake, rsc.memTimer := none }
  have e : ackDeasserted s = wakeComplete a := by
    rw [ackDeasserted_leaving leaving]
    unfold memoryAvailable
    rw [show a.rsc.part = .waking from waking]
  obtain ⟨v, is, rest, ends, posted, asked, walks⟩ := wakeComplete_runs (s := a)
    (by rw [show a.rsc.part = .waking from waking]; rfl) queue
  have bytes : contextBytes .woken a = contextBytes .woken s := rfl
  rw [bytes] at asked
  have rsc := rsc_of_sansRequests rest
  have meu := meu_of_sansRequests rest
  have ltu := ltu_of_sansRequests rest
  have dlc := dlc_of_sansRequests rest
  have ktu := ktu_of_sansRequests rest
  have supply : v.meu.supply = s.meu.supply := (congrArg Meu.supply meu).trans rfl
  have part : v.rsc.part = .run := (congrArg Rsc.part rsc).trans rfl
  intro awake ends' t
  have isT : t = forcedRest v := e.trans is
  by_cases critical : s.meu.supply = .critical
  · obtain ⟨-, -, out, kept⟩ := forcedRest_spec part (supply.trans critical)
    have chains := forcedRest_chains part (supply.trans critical)
    rw [← isT] at out kept chains
    have rscT := rsc_of_sansRequests out
    have dlcT := dlc_of_sansRequests out
    have ltuT := ltu_of_sansRequests out
    have keepsRsc : t.rsc.handshake = v.rsc.handshake ∧ t.rsc.memTimer = v.rsc.memTimer ∧ t.rsc.sleepAck = v.rsc.sleepAck ∧
        t.rsc.restTimer = v.rsc.restTimer ∧ t.rsc.record = none := by rw [rscT]; exact ⟨rfl, rfl, rfl, rfl, rfl⟩
    obtain ⟨shake, mem, ack, timer, record⟩ := keepsRsc
    refine ⟨?_, ?_, ?_, ?_, record, ?_, fun c => ?_, ?_, fun eight => ?_, fun calm => absurd critical calm, fun _ => ?_⟩
    · rw [shake, rsc]
      rfl
    · rw [mem, rsc]
      rfl
    · rw [ack, rsc]
      rfl
    · rw [timer, rsc]
      rfl
    · rw [dlcT]
      rfl
    · rw [chains.walk]
      exact walks c
    · rw [ktu_of_sansRequests out]
      show v.ktu.logDirty = false
      rw [ktu]
    · obtain ⟨log, mirror, context⟩ := asked eight
      exact ⟨kept.asked _ log, kept.asked _ mirror, kept.asked _ context⟩
    · rw [rscT, dlcT, ltuT, meu_of_sansRequests out]
      exact ⟨rfl, rfl, rfl, rfl, rfl, rfl, rfl⟩
  · have still : t = v := isT.trans (forcedRest_calm (by rwa [supply]))
    rw [still, rsc, ktu, dlc]
    refine ⟨rfl, rfl, rfl, rfl, rfl, rfl, walks, rfl, asked, fun _ => ⟨rfl, rfl, ltu, ?_, ?_, ?_⟩, fun h => absurd h critical⟩
    · rw [meu]
      rfl
    · have first : Ends .control [] awake a := Ends.refl.congr
      exact Ends.endsBy (ends := ends') (first.trans ends)
    · rw [posted]
      rfl

/-- SLEEP_ACK deasserted in REST_TURN: the turn that waits for memory appends its update (R124, R196). -/
theorem ackDeasserted_turns (leaving : s.rsc.handshake = .leaving) (turning : s.rsc.part = .restTurn)
    (waits : s.ktu.turn = .waitMemory) :
    ackDeasserted s = turnAppend { s with rsc.sleepAck := false, rsc.handshake := .awake, rsc.memTimer := none } := by
  rw [ackDeasserted_leaving leaving]
  unfold memoryAvailable
  rw [show ({ s with rsc.sleepAck := false, rsc.handshake := .awake, rsc.memTimer := none } : State).rsc.part = .restTurn
    from turning]
  exact if_pos waits

section
variable (timed : s.rsc.memTimer ≠ none)

include timed

theorem memoryExpiry_entering (entering : s.rsc.handshake = .entering) : memoryExpiry s = { s with
    rsc.handshake := .awake, rsc.memTimer := none
    rsc.sleepFailures := BitVec.ofNat 8 (min 255 (s.rsc.sleepFailures.toNat + 1)) } := by
  unfold memoryExpiry
  rw [if_neg timed, entering, ← satInc8_eq]

theorem memoryExpiry_leaving (leaving : s.rsc.handshake = .leaving) : memoryExpiry s =
    if s.rsc.part = .restTurn then restTurnMemory false { s with rsc.handshake := .asleep, rsc.memTimer := none }
    else { s with
      rsc.memTimer := some ⟨s.partTime, s.rsc.timeout⟩
      rsc.leaveRetries := BitVec.ofNat 8 (min 255 (s.rsc.leaveRetries.toNat + 1)) } := by
  unfold memoryExpiry
  rw [if_neg timed, leaving, ← satInc8_eq]
  rfl

end

end

/-- Settles O60. -/
theorem handshakeAndWaking : Obligations.HandshakeAndWaking := by
  refine ⟨fun s => ?_, fun s => ⟨fun other => ?_, fun leaving waking queue => ?_, fun r leaving turning waits turn => ?_⟩,
    fun s => ⟨fun none_ => ?_, fun timed entering => ?_, fun timed leaving waking => ?_, fun timed leaving turning other => ?_,
      fun r timed leaving turning waits turn => ?_⟩,
    fun s timed rest asleep ack works => ?_, fun s timed turning on => ?_, fun s turning over_ quiet idle queue awake => ?_⟩
  · refine congrArg done (?_ : ackAsserted s = _)
    unfold ackAsserted
    by_cases entering : s.rsc.handshake = .entering
    · simp only [if_pos entering]
    · simp only [if_neg entering]
  · exact congrArg done (if_neg other : ackDeasserted s = _)
  · exact ⟨_, rfl, ackDeasserted_wakes leaving waking queue⟩
  · intro u e
    refine ⟨_, congrArg done (ackDeasserted_turns leaving turning waits), ?_⟩
    intro ended
    have turnU : u.ktu.turnRec = some r := turn
    have over_ (c : Code) (none_ : s.rsc.pendingWake = none) (answer : appendTurn u = (some c, u)) : ended c := by
      show turnAppend u = _
      rw [turnAppend_ends answer, turnEnd, turnEndLog_other turnU c (by rw [show u.rsc.part = _ from turning]; nofun)]
      exact restTurnEnded_waits turning none_
    refine ⟨fun noImage none_ => over_ _ none_ (appendTurn_noImage turnU noImage),
      fun image locked none_ => over_ _ none_ (appendTurn_locked turnU image locked), fun image unlocked full => ?_,
      fun image unlocked room => ?_⟩
    · exact turnAppend_goes (appendTurn_full turnU image unlocked full)
    · obtain ⟨v, t, goes, only, joins⟩ := appendTurn_joins turnU image unlocked room
      rw [show turnAppend _ = t from turnAppend_goes goes]
      exact ⟨v, only, joins⟩
  · exact congrArg done (if_pos none_ : memoryExpiry s = _)
  · exact congrArg done (memoryExpiry_entering timed entering)
  · exact congrArg done ((memoryExpiry_leaving timed leaving).trans (if_neg (by rw [waking]; nofun)))
  · exact congrArg done ((memoryExpiry_leaving timed leaving).trans ((if_pos turning).trans (if_neg other)))
  · intro u
    let a : State := { s with rsc.handshake := .asleep, rsc.memTimer := none }
    let v : State := { a with ktu := s.ktu.ended r .memoryUnavailable s.partTime }
    have e : memoryExpiry s = restTurnEnded v := by
      rw [memoryExpiry_leaving timed leaving, if_pos turning, restTurnMemory]
      rw [if_pos (show a.ktu.turn = .waitMemory from waits), if_neg (by nofun), turnEnd,
        turnEndLog_other (s := a) turn _ (by rw [show a.rsc.part = _ from turning]; nofun)]
    refine ⟨fun none_ => congrArg done (e.trans (restTurnEnded_waits turning none_)), fun c pends ack => congrArg done ?_⟩
    exact e.trans ((restTurnEnded_wakes (s := v) turning pends).trans
      (toWaking_asleep (s := v) c (by rw [show v.rsc.part = _ from turning]; rfl) rfl ack))
  · let a : State := { s with rsc.restTimer := none }
    have e : restExpiry s = toWaking .alarm a := (if_neg timed).trans (wakeCause_rest (s := a) .alarm rest)
    refine congrArg done (e.trans ((toWaking_asleep (s := a) .alarm (by rw [show a.rsc.part = _ from rest]; rfl) asleep ack).trans ?_))
    rw [Meu.woken, if_pos (show a.meu.requester = true from works)]
    rfl
  · exact congrArg done ((if_neg timed : restExpiry s = _).trans
      (wakeCause_pends (s := { s with rsc.restTimer := none }) .alarm turning on))
  · refine ⟨restTurnSleep s, rfl, ?_⟩
    have part : setPart .rest { s with rsc.turnOver := false } = { s with
        rsc.turnOver := false, rsc.part := .rest, meu.tempTimer := none } :=
      setPart_row (s := { s with rsc.turnOver := false }) (p := .rest) (congrArg PartState.restRow turning : s.rsc.part.restRow = _)
    obtain ⟨free, rail⟩ := panelQuiet_free quiet
    have e : restTurnSleep s = handlePresses (unlockAtRest (askSleep (setPart .rest { s with rsc.turnOver := false }))) :=
      if_pos ⟨turning, over_, quiet, idle⟩
    rw [part, askSleep_awake (s := { s with rsc.turnOver := false, rsc.part := .rest, meu.tempTimer := none }) awake] at e
    have out := unlockAtRest_spec (s := { s with
        rsc.turnOver := false, rsc.part := .rest, meu.tempTimer := none
        rsc.handshake := if s.rsc.sleepAck = true then .asleep else .entering
        rsc.memTimer := if s.rsc.sleepAck = true then none else some ⟨s.partTime, s.rsc.timeout⟩ }) free rail
    generalize unlockAtRest _ = x at e out
    have queue' : x.ktu.queue = [] := (congrArg (fun y : State => y.ktu.queue) out :).trans queue
    have is : restTurnSleep s = x := e.trans (handlePresses_empty queue')
    have rest := sansRequests_of_sansPosts (sansPosts_of_sansStatus out)
    have shake : x.rsc.handshake = if s.rsc.sleepAck = true then .asleep else .entering :=
      (congrArg Rsc.handshake (rsc_of_sansRequests rest)).trans rfl
    rw [is, sleepReq, portOpen, shake, rsc_of_sansRequests rest, meu_of_sansRequests rest, pss_of_sansRequests rest,
      upe_of_sansRequests rest, ktu_of_sansRequests rest, mem_of_sansRequests rest]
    refine ⟨rfl, rfl, rfl, ?_, ?_, rfl, rfl, rfl, ⟨rfl, rfl⟩, rfl, rfl, rfl⟩
    all_goals cases s.rsc.sleepAck <;> rfl

end Sys2Proof.Machine
end

section
/-! Waiting updates end together (sections 4.2, 4.3 and 4.9). -/

set_option Elab.async false

namespace Sys2Proof.Machine

section
variable {s t u : State}

/-! ### Entries leave the list (R47, R60) -/

theorem idleCheck_off (off : s.pss.rail ≠ .on) : idleCheck s = s := if_neg off

theorem leaveList_pss (id : Nat) (off : s.pss.rail ≠ .on) : (leaveList id s).pss = s.pss := by
  have pss : (ask .panel (clearHolder id none { s with upe.list := s.upe.list.filter fun e => e.id != id })).pss = s.pss := by
    rw [ask_pss]
    obtain ⟨l, -, e⟩ := clearHolder_eq id { s with upe.list := s.upe.list.filter fun e => e.id != id }
    rw [e]
  rw [leaveList, idleCheck_off (by rwa [pss]), pss]

theorem leaveList_keepsAsked (id : Nat) : KeepsAsked s (leaveList id s) := by
  obtain ⟨l, -, e⟩ := clearHolder_eq id { s with upe.list := s.upe.list.filter fun e => e.id != id }
  obtain ⟨x, idle⟩ := idleCheck_eq (ask .panel (clearHolder id none { s with upe.list := s.upe.list.filter fun e => e.id != id }))
  rw [leaveList, idle]
  refine KeepsAsked.congr (t := ask .panel (clearHolder id none { s with upe.list := s.upe.list.filter fun e => e.id != id })) ?_
  rw [e]
  exact (keepsAsked_of_writers (s := s)).trans (keepsAsked_ask .panel)

theorem leaveList_ids (id : Nat) : ∀ e ∈ (leaveList id s).upe.list, e.id ∈ s.upe.list.map Entry.id ∧ e.id ≠ id := by
  obtain ⟨l, x, w, q, request, -, left⟩ := leaveList_eq id s
  rw [left]
  intro e mem
  have ids : l.map Entry.id = (s.upe.list.filter fun e => e.id != id).map Entry.id := by
    simpa [Entry.request, Function.comp_def] using congrArg (List.map Prod.fst) request
  have at_ : e.id ∈ (s.upe.list.filter fun e => e.id != id).map Entry.id := ids ▸ List.mem_map_of_mem mem
  obtain ⟨f, kept, same⟩ := List.mem_map.mp at_
  obtain ⟨old, other⟩ := List.mem_filter.mp kept
  rw [← same]
  exact ⟨List.mem_map_of_mem old, by simpa using other⟩

/-- What is left when entries have left the list one by one. -/
theorem leaveAll_spec : ∀ (l : List Nat) (s : State), ∃ li en x,
    let t := l.foldl (fun t id => leaveList id t) s
    t.sansStatus = ({ s with upe.list := li, wfs.entries := en, pss.idleTimer := x } : State).sansStatus ∧
    (∀ e ∈ li, e.id ∈ s.upe.list.map Entry.id ∧ e.id ∉ l) ∧
    (∀ n, (n ∈ l ∨ ∀ e ∈ s.wfs.entries, e.holder ≠ some n) → ∀ e ∈ en, e.holder ≠ some n) ∧
    (s.pss.rail ≠ .on → x = s.pss.idleTimer) ∧ (∀ c, Ends c [] s t) ∧ KeepsAsked s t
  | [], s => ⟨s.upe.list, s.wfs.entries, s.pss.idleTimer, rfl, fun e mem => ⟨List.mem_map_of_mem mem, by simp⟩,
      fun n h => h.resolve_left (by simp), fun _ => rfl, fun c => .refl, .refl⟩
  | id :: l, s => by
    obtain ⟨li, en, x, frame, ids, holders, timer, ends, kept⟩ := leaveAll_spec l (leaveList id s)
    have first := leaveList_ids (s := s) id
    have pss (off : s.pss.rail ≠ .on) := leaveList_pss id off
    have endsFirst (c : Chain) := ends_leaveList c id s
    have keptFirst := leaveList_keepsAsked (s := s) id
    obtain ⟨k, y, w, q, -, -, left⟩ := leaveList_eq id s
    have rail : (leaveList id s).pss.rail = s.pss.rail := by rw [left]
    refine ⟨li, en, x, frame.trans ?_, fun e mem => ?_, fun n h => holders n ?_, fun off => ?_, fun c => ?_, keptFirst.trans kept⟩
    · rw [left]
      rfl
    · obtain ⟨at_, other⟩ := ids e mem
      obtain ⟨f, mem', same⟩ := List.mem_map.mp at_
      obtain ⟨old, ne⟩ := first f mem'
      exact ⟨same ▸ old, by simpa [← same] using ⟨ne, same ▸ other⟩⟩
    · rw [left]
      by_cases later : n ∈ l
      · exact .inl later
      · refine .inr fun e mem => ?_
        obtain ⟨f, mem', rfl⟩ := List.mem_map.mp mem
        unfold StoreEntry.unheld
        split
        · nofun
        · next held =>
          rcases h with here | none_
          · rw [(List.mem_cons.mp here).resolve_right later]
            exact held
          · exact none_ f mem'
    · rw [timer (by rwa [rail]), pss off]
    · simpa using (endsFirst c).trans (ends c)

/-! ### Their ends (R59, R84, R85) -/

theorem follows_finalize (c : Chain) (r : Nat) (l : List (Nat × List Byte)) (x : Code) : Follows s (finalize c r l x s) :=
  follows_of_sansRequests (keepsAsked_finalize c r l x) (sansRequests_finalize c r l x s)

theorem follows_endUpdate (origin : Origin) (id : Nat) (results : List (Nat × List Byte)) (code : Code) :
    Follows s (endUpdate origin id results code s) := by
  unfold endUpdate
  split
  · exact follows_finalize _ _ _ _
  · exact follows_turnEnd code
  · split
    · exact follows_upd
    · exact .refl

theorem follows_endings (code : Code) : ∀ (l : List Entry) {s : State}, Follows s (l.foldl (endWaiting code) s)
  | [], _ => .refl
  | e :: l, _ => (follows_endUpdate e.origin e.id _ code).trans (follows_endings code l)

theorem waitingEnds_record (code : Nat) {e : Entry} {a : Nat} (is : e.origin = .record a) :
    waitingEnds code [e] = [(a, noLaneResults e.mode.num, code)] := by
  unfold waitingEnds
  simp only [List.filterMap_cons, is, List.filterMap_nil]
  rfl

theorem waitingEnds_silent (code : Nat) {e : Entry} (is : e.origin = .turn ∨ e.origin = .rest) : waitingEnds code [e] = [] := by
  unfold waitingEnds
  rcases is with h | h <;> simp only [List.filterMap_cons, h, List.filterMap_nil]

theorem endWaiting_record (code : Code) {e : Entry} {a : Nat} (is : e.origin = .record a) :
    endWaiting code s e = finalize .page a (noLaneResults e.mode.num) code s := by
  rw [endWaiting, is]
  rfl

theorem endWaiting_turn (code : Code) {e : Entry} (is : e.origin = .turn) : endWaiting code s e = turnEnd code s := by
  rw [endWaiting, is]
  rfl

theorem endWaiting_rest (code : Code) {e : Entry} (is : e.origin = .rest) : endWaiting code s e =
    if s.rsc.imageId = some e.id then { s with rsc.imageState := .ended code, rsc.imageId := none } else s := by
  rw [endWaiting, is]
  rfl

/-- The end of a turn outside RUN and REST_TURN. -/
theorem turnEnd_quiet (code : Code) (other : s.rsc.part ≠ .run) (awake : s.rsc.part ≠ .restTurn) :
    ∃ k, turnEnd code s = { s with ktu := k } := by
  unfold turnEnd
  cases turn : s.ktu.turnRec with
  | none =>
    rw [turnEndLog, turn]
    exact ⟨s.ktu, restTurnEnded_other awake⟩
  | some r =>
    rw [turnEndLog_other turn code other]
    exact ⟨s.ktu.ended r code s.partTime, restTurnEnded_other awake⟩

/-- What the ends of waiting updates leave where no turn's end posts an event or wakes the part. -/
structure Ended (code : Code) (l : List Entry) (s t : State) : Prop where
  ends   : Ends .page (waitingEnds code.num l) s t
  posted : t.sif.posted = s.postedBy .page (waitingEnds code.num l).length
  kept   : KeepsAsked s t
  frame  : ∃ k x id, t.sansRequests = ({ s with ktu := k, rsc.imageState := x, rsc.imageId := id } : State).sansRequests ∧
    ((∀ e ∈ l, e.origin ≠ .turn) → k = s.ktu) ∧ (x = s.rsc.imageState ∨ x = .ended code)

theorem ended_endWaiting (code : Code) (e : Entry) (awake : s.rsc.part ≠ .restTurn)
    (still : s.rsc.part = .run → e.origin ≠ .turn) : Ended code [e] s (endWaiting code s e) := by
  have kept : KeepsAsked s (endWaiting code s e) := (follows_endUpdate _ _ _ _).asked
  cases is : e.origin with
  | record a =>
    rw [endWaiting_record code is] at kept ⊢
    refine ⟨?_, ?_, kept, s.ktu, s.rsc.imageState, s.rsc.imageId, sansRequests_finalize _ _ _ _ _, fun _ => rfl, .inl rfl⟩
    · rw [waitingEnds_record code.num is]
      exact ends_finalize .page a _ code s
    · rw [waitingEnds_record code.num is]
      exact finalize_postedBy .page a _ code s
  | turn =>
    obtain ⟨k, ended⟩ := turnEnd_quiet code (s := s) (fun run => still run is) awake
    rw [endWaiting_turn code is, ended] at kept ⊢
    have silent := waitingEnds_silent code.num (.inl is)
    refine ⟨?_, ?_, kept, k, s.rsc.imageState, s.rsc.imageId, rfl, fun h => absurd is (h e (by simp)), .inl rfl⟩
    · rw [silent]
      exact Ends.refl.congr
    · rw [silent]
      exact (postedBy_zero _ _).symm
  | rest =>
    have silent := waitingEnds_silent code.num (.inr is)
    rw [endWaiting_rest code is] at kept ⊢
    by_cases own : s.rsc.imageId = some e.id
    · rw [if_pos own] at kept ⊢
      refine ⟨?_, ?_, kept, s.ktu, .ended code, none, rfl, fun _ => rfl, .inr rfl⟩
      · rw [silent]
        exact Ends.refl.congr
      · rw [silent]
        exact (postedBy_zero _ _).symm
    · rw [if_neg own] at kept ⊢
      refine ⟨?_, ?_, kept, s.ktu, s.rsc.imageState, s.rsc.imageId, rfl, fun _ => rfl, .inl rfl⟩
      · rw [silent]
        exact Ends.refl
      · rw [silent]
        exact (postedBy_zero _ _).symm

theorem waitingEnds_cons (code : Nat) (e : Entry) (l : List Entry) :
    waitingEnds code (e :: l) = waitingEnds code [e] ++ waitingEnds code l :=
  List.filterMap_append (l := [e]) (l' := l) ..

/-- Waiting updates end one after another. -/
theorem ended_all (code : Code) : ∀ (l : List Entry) {s : State}, s.rsc.part ≠ .restTurn →
    (s.rsc.part = .run → ∀ e ∈ l, e.origin ≠ .turn) → Ended code l s (l.foldl (endWaiting code) s)
  | [], s, _, _ => ⟨.refl, (postedBy_zero _ _).symm, .refl, s.ktu, s.rsc.imageState, s.rsc.imageId, rfl, fun _ => rfl, .inl rfl⟩
  | e :: l, s, awake, still => by
    obtain ⟨ends, posted, kept, k, x, id, frame, turns, image⟩ :=
      ended_endWaiting code e awake fun run => still run e (by simp)
    rw [List.foldl_cons]
    generalize endWaiting code s e = m at *
    have rsc : m.rsc = { s.rsc with imageState := x, imageId := id } := rsc_of_sansRequests frame
    have ktu : m.ktu = k := ktu_of_sansRequests frame
    have part : m.rsc.part = s.rsc.part := by rw [rsc]
    obtain ⟨ends', posted', kept', k', x', id', frame', turns', image'⟩ := ended_all code l (s := m) (by rwa [part])
      fun run f mem => still (part ▸ run) f (by simp [mem])
    rw [rsc] at image'
    refine ⟨by rw [waitingEnds_cons]; exact ends.trans ends', ?_, kept.trans kept', k', x', id', ?_, fun none_ => ?_, ?_⟩
    · rw [posted', waitingEnds_cons, List.length_append]
      exact postedBy_add posted (portOpen_congr (by rw [rsc])) _
    · exact frame'.trans (congrArg (fun y : State => ({ y with ktu := k', rsc.imageState := x', rsc.imageId := id' } : State)) frame :)
    · rw [turns' fun f mem => none_ f (by simp [mem]), ktu, turns fun f mem => none_ f (by simpa using Or.inl (List.mem_singleton.mp mem))]
    · rcases image' with same | over_
      · exact same ▸ image
      · exact .inr over_

/-- All waiting updates leave the list and end, where no turn's end posts an event or wakes the part (R84, R85). -/
theorem endAllWaiting_spec (code : Code) (awake : s.rsc.part ≠ .restTurn)
    (still : s.rsc.part = .run → ∀ e ∈ s.upe.list, e.origin ≠ .turn) : ∃ k x id en tm,
    let t := endAllWaiting code s
    Ends .page (waitingEnds code.num s.upe.list) s t ∧
    t.sif.posted = s.postedBy .page (waitingEnds code.num s.upe.list).length ∧ KeepsAsked s t ∧
    t.sansRequests = ({ s with
      ktu := k, rsc.imageState := x, rsc.imageId := id, upe.list := [], wfs.entries := en, pss.idleTimer := tm } : State).sansRequests ∧
    ((∀ e ∈ s.upe.list, e.origin ≠ .turn) → k = s.ktu) ∧ (x = s.rsc.imageState ∨ x = .ended code) ∧
    (∀ e ∈ s.upe.list, ∀ f ∈ en, f.holder ≠ some e.id) ∧ (s.pss.rail ≠ .on → tm = s.pss.idleTimer) := by
  obtain ⟨li, en, tm, frame, ids, holders, timer, ends, kept⟩ := leaveAll_spec (s.upe.list.map Entry.id) s
  have none_ : li = [] := List.eq_nil_iff_forall_not_mem.mpr fun e mem => (ids e mem).2 (ids e mem).1
  unfold endAllWaiting
  dsimp only at frame ends kept
  generalize (s.upe.list.map Entry.id).foldl (fun t id => leaveList id t) s = v at *
  have rest := sansRequests_of_sansPosts (sansPosts_of_sansStatus frame)
  have rsc : v.rsc = s.rsc := (rsc_of_sansRequests rest).trans rfl
  have ktu : v.ktu = s.ktu := (ktu_of_sansRequests rest).trans rfl
  have before : v.sif.posted = s.sif.posted := (congrArg (fun x : State => x.sif.posted) frame :)
  obtain ⟨ends', posted, kept', k, x, id, out, turns, image⟩ :=
    ended_all code s.upe.list (s := v) (by rwa [rsc]) (by rwa [rsc])
  rw [rsc] at image
  rw [ktu] at turns
  refine ⟨k, x, id, en, tm, by simpa using (ends .page).trans ends', posted.trans (postedBy_congr _ _ before (portOpen_congr (by rw [rsc]))),
    kept.trans kept', out.trans ?_, turns, image, fun e mem => holders e.id (.inl (List.mem_map_of_mem mem)), timer⟩
  subst none_
  exact (congrArg (fun y : State => ({ y with ktu := k, rsc.imageState := x, rsc.imageId := id } : State)) rest :)

end

end Sys2Proof.Machine
end

section
/-! The quiesce limit, the drain and the entry to REST (sections 10.2 to 10.4). -/

set_option Elab.async false

namespace Sys2Proof.Machine

section
variable {s t u : State}

/-! ### With the panel LOCKED (R191) -/

theorem toggle_rsc (s : State) : (toggle s).rsc = s.rsc := by
  have light : (finalizeLight .cancelled s).rsc = s.rsc := (rsc_of_sansRequests (finalizeLight_sansRequests .cancelled s)).trans rfl
  unfold toggle startRamp
  dsimp only
  repeat' first
    | rfl
    | exact (ask_rsc _ _).trans light
    | split

theorem turnEndLog_rsc (code : Code) (s : State) : (turnEndLog code s).rsc = s.rsc := by
  unfold turnEndLog
  split
  · rfl
  · dsimp only
    split
    · rw [post_rsc, writeLog, ask_rsc]
    · rfl

theorem append_rsc (origin : Origin) (mode : Mode) (addr stride : Nat) (tag : Option Word) (s : State) :
    (append origin mode addr stride tag s).2.rsc = s.rsc := by
  by_cases image : s.wfs.active = none
  · rw [append_noImage _ _ _ _ _ image]
  · by_cases locked : s.pss.rail = .locked
    · rw [append_locked _ _ _ _ _ image locked]
    · by_cases full : 16 ≤ s.upe.list.length + s.upe.reservations
      · rw [append_full _ _ _ _ _ image locked full]
      · obtain ⟨v, e, rest, -⟩ := append_joins origin mode addr stride tag image locked (Nat.not_le.mp full)
        rw [e]
        exact (scanOnly_scan v).rsc.trans (congrArg State.rsc rest :)

theorem appendTurn_rsc (s : State) : (appendTurn s).2.rsc = s.rsc := by
  unfold appendTurn
  split
  · rfl
  · next r _ =>
    have appends := append_rsc .turn .gray r.page.addr r.page.stride (some r.page.tag) s
    split <;> next h =>
      rw [h] at appends
      exact appends

theorem beginRunTurn_rsc (d : Dir) (s : State) : (beginRunTurn d s).rsc = s.rsc := by
  have fills : (fillTurn d false s).rsc = s.rsc := by
    unfold fillTurn
    split <;> rfl
  have appends := (appendTurn_rsc (fillTurn d false s)).trans fills
  unfold beginRunTurn
  split
  · next h =>
    rw [h] at appends
    exact (turnEndLog_rsc _ _).trans appends
  · next h =>
    rw [h] at appends
    exact appends

theorem pressRun_rsc (p : Press) (s : State) : (pressRun p s).rsc = s.rsc := by
  have reports : (reportPress p s).rsc = s.rsc := by rw [reportPress, ask_rsc, post_rsc]
  unfold pressRun
  split
  · rfl
  · exact toggle_rsc s
  · exact reports
  all_goals
    split
    · exact beginRunTurn_rsc _ _
    · exact reports

/-- Presses handled in RUN leave the Rest Controller as it is. -/
theorem runQueue_rsc : ∀ (n : Nat) (s : State), (runQueue n s).rsc = s.rsc
  | 0, _ => rfl
  | n + 1, s => by
    unfold runQueue
    split
    · exact (runQueue_rsc n _).trans (pressRun_rsc _ _)
    · rfl

theorem writeLogAtRun_rsc (s : State) : (writeLogAtRun s).rsc = s.rsc :=
  (rsc_of_sansRequests (writeLogAtRun_spec s).2.1).trans rfl

/-- An abandoned quiesce leads to RUN whatever presses wait (R186, R191). -/
theorem leaveQuiesce_abandoned (cause : WakeCause) (code : Code) (awake : s.rsc.part.restRow = false) :
    let t := leaveQuiesce true (finalizeRest cause code s)
    t.rsc = { s.rsc with
      part := .run, record := none, imageId := none, fadePending := false, quiesceTimer := none, restTimer := none } ∧
    Follows s t := by
  have rest₁ := finalizeRest_sansRequests cause code s
  have kept₁ := keepsAsked_finalizeRest (s := s) cause code
  intro t
  have e : t = enterRun true (finalizeRest cause code s).left := rfl
  generalize finalizeRest cause code s = f at *
  obtain ⟨-, -, rest₂, kept₂, -⟩ := left_spec f
  have rsc₁ := rsc_of_sansRequests rest₁
  have rsc₂ := rsc_of_sansRequests rest₂
  have follows₁ : Follows s f := follows_of_sansRequests kept₁ rest₁
  have follows₂ : Follows f f.left := follows_of_sansRequests kept₂ rest₂
  generalize f.left = g at *
  have rsc : g.rsc = { s.rsc with record := none, imageId := none, fadePending := false } := by rw [rsc₂, rsc₁]
  have awake' : g.rsc.part.restRow = false := by rwa [rsc]
  refine ⟨?_, e ▸ (follows₁.trans follows₂).trans (follows_enterRun true awake')⟩
  have entered := rsc_of_sansRequests (entering_spec awake').2.1
  rw [e, enterRun_eq, if_pos rfl, writeLogAtRun_rsc, runQueue_rsc, entered]
  show (g.running).rsc = _
  rw [State.running, rsc]

/-! ### Aborts (R72) -/

theorem someArming_abort (c : AbortCause) (s : State) : someArming (abortLanes c s) = someArming s := by
  unfold someArming abortLanes
  rw [List.any_map]
  refine List.any_congr rfl fun l => ?_
  unfold Lane.abortWith
  simp only [Function.comp]
  split
  · next driving => simp [driving]
  · rfl

/-! ### The abandonment (R191) -/

theorem abandonTest_stands (stands : ¬(s.rsc.part = .quiesce ∧ s.rsc.limit = true ∧ s.pss.rail = .locked ∧ someArming s = true)) :
    abandonTest s = s := if_neg stands

theorem abandonTest_leaves (quiesce : s.rsc.part = .quiesce) (limit : s.rsc.limit = true) (locked : s.pss.rail = .locked)
    (arming : someArming s = true) : abandonTest s = leaveQuiesce true (finalizeRest .none .panelFault s) :=
  if_pos ⟨quiesce, limit, locked, arming⟩

theorem cancelWaitingTurn_other (other : s.ktu.turn ≠ .waitPlace) : cancelWaitingTurn s = s := if_neg other

theorem cancelWaitingImage_other (other : s.rsc.imageState ≠ .waitPlace) : cancelWaitingImage s = s := if_neg other

theorem endAllWaiting_empty (code : Code) (empty : s.upe.list = []) : endAllWaiting code s = s := by
  rw [endAllWaiting, empty]
  rfl

/-! ### The quiesce limit (R191) -/

/-- The limit noted, the quiesce timer gone. -/
def State.limited (s : State) : State := { s with rsc.limit := true, rsc.quiesceTimer := none }

/-- The lanes aborted at the limit, and what waited cancelled, before an abandonment. -/
def State.curtailed (s : State) : State :=
  cancelWaitingImage (cancelWaitingTurn (abortLanes .limit (endAllWaiting .cancelled s.limited)))

section
variable (quiesce : s.rsc.part = .quiesce)

include quiesce

theorem quiesceLimit_eq (timed : s.rsc.quiesceTimer ≠ none) : quiesceLimit s = abandonTest s.curtailed :=
  if_pos ⟨quiesce, timed⟩

/-- A turn in WAIT_PLACE ends CANCELLED with one log entry (R123). -/
theorem cancelWaitingTurn_quiet : ∃ k, cancelWaitingTurn s = { s with ktu := k } ∧
    (∀ r, s.ktu.turn = .waitPlace → s.ktu.turnRec = some r → k = s.ktu.ended r .cancelled s.partTime) := by
  have other : s.rsc.part ≠ .run := by rw [quiesce]; nofun
  have awake : s.rsc.part ≠ .restTurn := by rw [quiesce]; nofun
  by_cases waits : s.ktu.turn = .waitPlace
  · have e : cancelWaitingTurn s = turnEnd .cancelled s := if_pos waits
    cases turn : s.ktu.turnRec with
    | none =>
      obtain ⟨k, ended⟩ := turnEnd_quiet .cancelled other awake
      exact ⟨k, e.trans ended, nofun⟩
    | some r =>
      refine ⟨s.ktu.ended r .cancelled s.partTime, e.trans ?_, fun r' _ is => by rw [Option.some.inj is]⟩
      rw [turnEnd, turnEndLog_other turn .cancelled other]
      exact restTurnEnded_other awake
  · exact ⟨s.ktu, cancelWaitingTurn_other waits, fun _ h => absurd h waits⟩

theorem curtailed_spec : ∃ k x id en tm,
    let t := s.curtailed
    Ends .page (waitingEnds 48 s.upe.list) s t ∧
    t.sif.posted = s.postedBy .page (waitingEnds 48 s.upe.list).length ∧ KeepsAsked s t ∧
    t.sansRequests = (abortLanes .limit { s.limited with
      ktu := k, rsc.imageState := x, rsc.imageId := id, upe.list := [], wfs.entries := en, pss.idleTimer := tm }).sansRequests ∧
    (s.rsc.imageState = .waitPlace → x = .ended .cancelled) ∧
    (∀ e ∈ s.upe.list, ∀ f ∈ en, f.holder ≠ some e.id) ∧
    (∀ r, (∀ e ∈ s.upe.list, e.origin ≠ .turn) → s.ktu.turn = .waitPlace → s.ktu.turnRec = some r →
      k = s.ktu.ended r .cancelled s.partTime) := by
  obtain ⟨k, x, id, en, tm, ends, posted, kept, frame, turns, image, holders, -⟩ := endAllWaiting_spec (s := s.limited) .cancelled
    (by rw [show s.limited.rsc.part = _ from quiesce]; nofun) (by rw [show s.limited.rsc.part = _ from quiesce]; nofun)
  unfold State.curtailed
  generalize endAllWaiting .cancelled s.limited = a at *
  have aborted : (abortLanes .limit a).sansRequests = (abortLanes .limit { s.limited with
      ktu := k, rsc.imageState := x, rsc.imageId := id, upe.list := [], wfs.entries := en, pss.idleTimer := tm }).sansRequests :=
    (congrArg (abortLanes .limit) frame :)
  have part : (abortLanes .limit a).rsc.part = .quiesce := (congrArg Rsc.part (rsc_of_sansRequests frame)).trans quiesce
  have ends₂ : Ends .page (waitingEnds 48 s.upe.list) s (abortLanes .limit a) := by
    have first : Ends .page [] s s.limited := Ends.refl.congr
    have all : Ends .page (waitingEnds 48 s.upe.list) s a := first.trans ends
    exact all.congr
  have posted₂ : (abortLanes .limit a).sif.posted = s.postedBy .page (waitingEnds 48 s.upe.list).length :=
    posted.trans (postedBy_congr _ _ rfl (portOpen_congr rfl))
  have kept₂ : KeepsAsked s (abortLanes .limit a) := ⟨kept.size, kept.asked⟩
  have ktu : (abortLanes .limit a).ktu = k := ktu_of_sansRequests frame
  have time : (abortLanes .limit a).partTime = s.partTime := ends₂.time
  generalize abortLanes .limit a = b at *
  obtain ⟨k', cancels, logged⟩ := cancelWaitingTurn_quiet part
  rw [cancels]
  have image₂ : b.rsc.imageState = x := (congrArg Rsc.imageState (rsc_of_sansRequests aborted) :)
  have cancelled : cancelWaitingImage { b with ktu := k' } =
      { b with ktu := k', rsc.imageState := if x = .waitPlace then .ended .cancelled else x } := by
    unfold cancelWaitingImage
    rw [show ({ b with ktu := k' } : State).rsc.imageState = x from image₂]
    split
    · rfl
    · rw [← image₂]
  rw [cancelled]
  refine ⟨k', if x = .waitPlace then .ended .cancelled else x, id, en, tm, ends₂.congr, posted₂, kept₂.congr, ?_, fun waits => ?_, holders, fun r none_ waits turn => ?_⟩
  · exact (congrArg (fun y : State => ({ y with
      ktu := k', rsc.imageState := if x = .waitPlace then .ended .cancelled else x } : State)) aborted :)
  · rcases image with same | over_
    · rw [if_pos (same.trans waits)]
    · rw [over_]
      rfl
  · have old : k = s.ktu := turns none_
    rw [ktu, old, time] at logged
    exact logged r waits turn

end

end

section
variable {s : State}

/-- What the limit leaves whatever waits, and with the panel not LOCKED (R72, R84, R191). -/
theorem quiesceLimit_spec (quiesce : s.rsc.part = .quiesce) (timed : s.rsc.quiesceTimer ≠ none) :
    let aborted := s.upe.lanes.map fun l => if l.state = .driving then { l with state := .retiring, abort := some .limit } else l
    let retire := s.upe.retireQueue ++ (List.range 32).filter fun i => (s.lane i).state == .driving
    let t := quiesceLimit s
    t.rsc.limit = true ∧ t.rsc.quiesceTimer = none ∧ t.upe.lanes = aborted ∧ t.upe.retireQueue = retire ∧ t.upe.list = [] ∧
    (s.rsc.imageState = .waitPlace → t.rsc.imageState = .ended .cancelled) ∧
    (s.pss.rail ≠ .locked →
      endsBy .page (waitingEnds 48 s.upe.list) s t ∧ t.sif.posted = s.postedBy .page (waitingEnds 48 s.upe.list).length ∧
      (∀ e ∈ s.upe.list, ∀ j, (t.store j).holder ≠ some e.id) ∧ t.rsc.part = .quiesce ∧
      (∀ r, (∀ e ∈ s.upe.list, e.origin ≠ .turn) → s.ktu.turn = .waitPlace → s.ktu.turnRec = some r → t.ktu.turn = .idle ∧
        t.ktu.log = s.ktu.log ++ [⟨r.dir, r.page.tag, s.partTime, .cancelled, r.dropped, r.ofRest⟩])) := by
  obtain ⟨k, x, id, en, tm, ends, posted, -, frame, image, holders, logged⟩ := curtailed_spec quiesce
  have e := quiesceLimit_eq quiesce timed
  intro aborted retire t
  generalize s.curtailed = c at *
  have rsc : c.rsc = { s.limited.rsc with imageState := x, imageId := id } := rsc_of_sansRequests frame
  have upe : c.upe = { s.upe with lanes := aborted, retireQueue := retire, list := [] } := upe_of_sansRequests frame
  have part : c.rsc.part = .quiesce := by rw [rsc]; exact quiesce
  by_cases leaves : c.rsc.part = .quiesce ∧ c.rsc.limit = true ∧ c.pss.rail = .locked ∧ someArming c = true
  · obtain ⟨-, limit, locked, arming⟩ := leaves
    obtain ⟨out, follows⟩ := leaveQuiesce_abandoned (s := c) .none .panelFault (by rw [part]; rfl)
    have is : t = _ := e.trans (abandonTest_leaves part limit locked arming)
    obtain ⟨upeT, -, -⟩ := follows.still locked
    rw [← is] at out upeT
    rw [out, upeT, upe, rsc]
    refine ⟨rfl, rfl, rfl, rfl, rfl, image, fun unlocked => absurd ?_ unlocked⟩
    rw [pss_of_sansRequests frame] at locked
    exact locked
  · have is : t = c := e.trans (abandonTest_stands leaves)
    rw [is, rsc, upe]
    refine ⟨rfl, rfl, rfl, rfl, rfl, image, fun unlocked => ⟨ends.endsBy, posted, fun f mem j => ?_, quiesce,
      fun r none_ waits turn => ?_⟩⟩
    · have entries : c.wfs.entries = en := (congrArg Wfs.entries (wfs_of_sansRequests frame) :)
      rw [State.store, entries]
      by_cases inside : j < en.length
      · rw [List.getD_eq_getElem _ _ inside]
        exact holders f mem _ (List.getElem_mem inside)
      · rw [List.getD_eq_default _ _ (Nat.not_lt.mp inside)]
        nofun
    · have ktu : c.ktu = k := ktu_of_sansRequests frame
      rw [ktu, logged r none_ waits turn]
      exact ⟨rfl, rfl⟩

/-- With nothing waiting the limit aborts the driving lanes. -/
theorem curtailed_empty (list : s.upe.list = []) (turn : s.ktu.turn ≠ .waitPlace) (image : s.rsc.imageState ≠ .waitPlace) :
    s.curtailed = abortLanes .limit s.limited := by
  rw [State.curtailed, endAllWaiting_empty .cancelled (s := s.limited) list,
    cancelWaitingTurn_other (s := abortLanes .limit s.limited) turn, cancelWaitingImage_other (s := abortLanes .limit s.limited) image]

theorem someArming_curtailed (arming : ∃ l ∈ s.upe.lanes, l.state = .arming) : someArming (abortLanes .limit s.limited) = true := by
  rw [someArming_abort]
  exact (someArming_iff s.limited).mpr arming

theorem aborted_unrested {s a : State} (h : a = abortLanes .limit s.limited) : a.unrested.sansRequests = ({ s with
    rsc := { s.rsc with
      part := .run, limit := true, record := none, imageId := none, fadePending := false, quiesceTimer := none
      restTimer := none }
    upe.lanes := s.upe.lanes.map fun l => if l.state = .driving then { l with state := .retiring, abort := some .limit } else l
    upe.retireQueue := s.upe.retireQueue ++ (List.range 32).filter fun i => (s.lane i).state == .driving
    fsc.laneSet := s.fsc.laneSet.filter fun i => (s.lane i).state != .driving
    meu.tempTimer := some ⟨s.partTime, s.cfg.tempMaxAge * 1000⟩
    dlc := { s.dlc with stop := .none, recv := .hunt 0, markers := (s.cfg.marker0, s.cfg.marker1) }
    ktu.logDirty := false, ltu := s.ltu.restored s.rsc.fade, fresh := s.fresh + 15 } : State).sansRequests := by
  rw [h]
  rfl

/-! ### The drain and the entry to REST (R104, R190, R193) -/

theorem writesWait_iff (s : State) : writesWait s = true ↔ ∃ w ∈ s.sif.writers, ∃ a, (w.cur = some a ∨ a ∈ w.queued) ∧
    (a = .mirror ∨ a = .turnLog ∨ ∃ i, a = .progress i) := by
  have before (a : Area) : a.beforeRest = true ↔ a = .mirror ∨ a = .turnLog ∨ ∃ i, a = .progress i := by
    cases a <;> simp [Area.beforeRest]
  simp [writesWait, Writer.areas, before, or_and_right, exists_or]

theorem mayRest_iff (s : State) : mayRest s = true ↔
    s.rsc.part = .quiesce ∧ s.rsc.drain = .written ∧ writesWait s = false ∧ reservationOpen s = false := by
  simp [mayRest, and_assoc]

theorem drained_quiet (ready : drained s = true) : panelQuiet s = true := by
  simp only [drained, Bool.and_eq_true] at ready
  exact ready.1.1.1.1

/-- The part in REST with the supply not yet looked at (R190, R193). -/
def State.resting (s : State) : State :=
  { s with
    rsc := { s.rsc with
      part := .rest, quiesceTimer := none, drain := .waiting, entryTime := s.partTime, entrySupply := s.meu.supply
      entryBattery := batteryNow s
      handshake := if s.rsc.sleepAck = true then .asleep else .entering
      memTimer := if s.rsc.sleepAck = true then none else some ⟨s.partTime, s.rsc.timeout⟩ }
    meu := { s.meu with
      tempTimer := none
      batteryTimer := if s.meu.requester = true then some ⟨s.partTime, s.cfg.restBatteryInterval⟩ else s.meu.batteryTimer } }

theorem beginRest_eq (quiesce : s.rsc.part = .quiesce) (awake : s.rsc.handshake = .awake) : beginRest s =
    let x := unlockAtRest s.resting
    handlePresses (if 0 < x.rsc.wakeAfter ∧ x.rsc.forcedStart = false then
      { x with rsc.restTimer := x.timer (x.rsc.wakeAfter * 1000) } else x) := by
  have e : askSleep (setPart .rest (noteEntry { s with rsc.quiesceTimer := none, rsc.drain := .waiting })) = s.resting := by
    have part := setPart_eq .rest (noteEntry { s with rsc.quiesceTimer := none, rsc.drain := .waiting })
    have rows : ¬(noteEntry { s with rsc.quiesceTimer := none, rsc.drain := .waiting }).rsc.part.restRow = PartState.rest.restRow := by
      rw [show (noteEntry { s with rsc.quiesceTimer := none, rsc.drain := .waiting }).rsc.part = .quiesce from quiesce]
      nofun
    rw [part, askSleep_awake (by exact awake)]
    simp only [rows, false_or]
    cases works : s.meu.requester <;> simp [State.resting, noteEntry, works, batteryNow, periodIn, PartState.restRow, State.timer, State.cfg] <;>
      exact ⟨rfl, rfl⟩
  unfold beginRest
  rw [e]

end

theorem enterRest_eq {s : State} (quiesce : s.rsc.part = .quiesce) (written : s.rsc.drain = .written)
    (idle : s.mpt.inflight = none) (unwritten : writesWait s = false) (unreserved : reservationOpen s = false) :
    enterRest s = if drained s then beginRest s else { s with rsc.drain := .waiting } :=
  if_pos ⟨(mayRest_iff s).mpr ⟨quiesce, written, unwritten, unreserved⟩, idle⟩

/-- The rest timer of the entry to REST (R190, entry 21). -/
def State.alarmed (s : State) : State :=
  { s with rsc.restTimer :=
      if 0 < s.rsc.wakeAfter ∧ s.rsc.forcedStart = false then some ⟨s.partTime, s.rsc.wakeAfter * 1000⟩ else s.rsc.restTimer }

theorem alarmed_eq (s : State) : (if 0 < s.rsc.wakeAfter ∧ s.rsc.forcedStart = false then
    { s with rsc.restTimer := s.timer (s.rsc.wakeAfter * 1000) } else s) = s.alarmed := by
  unfold State.alarmed
  split <;> rfl

/-- The part enters REST with no press waiting. -/
theorem beginRest_spec {s : State} (quiesce : s.rsc.part = .quiesce) (awake : s.rsc.handshake = .awake)
    (quiet : panelQuiet s = true) (queue : s.ktu.queue = []) :
    (beginRest s).sansStatus = ({ s.resting.alarmed with pss.rail := .off } : State).sansStatus := by
  obtain ⟨free, rail⟩ := panelQuiet_free quiet
  have out := unlockAtRest_spec (s := s.resting) free rail
  have e := beginRest_eq quiesce awake
  generalize unlockAtRest s.resting = x at *
  dsimp only at e
  rw [alarmed_eq] at e
  have empty : x.alarmed.ktu.queue = [] := (congrArg (fun y : State => y.ktu.queue) out :).trans queue
  rw [e, handlePresses_empty empty]
  exact (congrArg State.alarmed out :)

/-- Settles O58. -/
theorem quiesceAdvances : Obligations.QuiesceAdvances := by
  refine ⟨fun s quiesce timed list turn image unlocked => ?_, fun s quiesce timed => ?_, fun s a st quiesce waits image => ?_,
    fun s quiesce waiting ready => ?_, fun s quiesce written idle => ?_, writesWait_iff,
    fun s quiesce written idle unwritten unreserved => ⟨fun gone => ?_, fun ready queue awake => ?_⟩⟩
  · refine congrArg done ((quiesceLimit_eq quiesce timed).trans ?_)
    rw [curtailed_empty list turn image]
    exact abandonTest_stands fun h => unlocked h.2.2.1
  · intro aborted retire
    obtain ⟨limit, timer, lanes, queue, list, image, unlocked⟩ := quiesceLimit_spec quiesce timed
    refine ⟨quiesceLimit s, rfl, limit, timer, lanes, queue, list, image, unlocked, fun locked arming _ empty turn other presses => ?_⟩
    have curtailed := curtailed_empty empty turn other
    have e : quiesceLimit s = leaveQuiesce true (finalizeRest .none .panelFault (abortLanes .limit s.limited)) := by
      rw [quiesceLimit_eq quiesce timed, curtailed]
      exact abandonTest_leaves quiesce rfl locked (someArming_curtailed arming)
    have ends₀ : Ends .control [] s (abortLanes .limit s.limited) := Ends.refl.congr
    obtain ⟨ends, posted, asked, walks, rest, -⟩ := leaveQuiesce_calm (s := abortLanes .limit s.limited) .none .panelFault true
      (by rw [show (abortLanes .limit s.limited).rsc.part = _ from quiesce]; rfl) presses (.inl rfl)
    rw [← e] at ends posted asked walks rest
    intro ended due
    have same : restEnds .none 50 (abortLanes .limit s.limited) = ended := by
      show (match s.rsc.record with
        | none => []
        | some r => [(r, [(0x1C, le8 WakeCause.none.num ++ [s.rsc.turns])], 50)]) = match s.rsc.record with
        | none => []
        | some a => [(a, [(0x1C, [0, s.rsc.turns])], 50)]
      cases s.rsc.record <;> rfl
    rw [show Code.panelFault.num = 50 from rfl, same] at ends posted
    refine ⟨Ends.endsBy (ends := ended) (ends₀.trans ends), ?_, fun eight => (asked eight).1, walks, rest.trans (aborted_unrested rfl)⟩
    exact posted
  · intro e
    refine ⟨imageRetry s, rfl, ?_⟩
    have is : imageRetry s = appendImage s := if_pos ⟨quiesce, waits⟩
    rw [is]
    refine ⟨appendImage_noImage image, appendImage_locked image, fun active unlocked full => ?_, fun active unlocked room => ?_⟩
    · rw [appendImage_full image active unlocked full, ← waits]
    · obtain ⟨v, joins, rest, -⟩ := appendImage_joins image active unlocked room
      rw [joins]
      exact ⟨_, (scanOnly_scan v).withRsc _,
        (congrArg (fun x : State => ({ x with
          rsc := { s.rsc with imageState := .listed, imageId := some s.upe.nextId } } : State)) rest :)⟩
  · refine ⟨_, { s with
      rsc.drain := .writing, rsc.entryTime := s.partTime, rsc.entrySupply := s.meu.supply, rsc.entryBattery := batteryNow s },
      congrArg done (if_pos ⟨quiesce, waiting, ready⟩ : drainBegin s = _), rfl, rfl⟩
  · intro busy
    refine congrArg done (if_neg fun h => ?_ : enterRest s = s)
    obtain ⟨-, -, unwritten, unreserved⟩ := (mayRest_iff s).mp h.1
    rw [unwritten, unreserved] at busy
    simp at busy
  · exact congrArg done ((enterRest_eq quiesce written idle unwritten unreserved).trans (if_neg (by simp [gone])))
  · refine ⟨_, congrArg done ((enterRest_eq quiesce written idle unwritten unreserved).trans (if_pos ready)), ?_⟩
    have out := beginRest_spec quiesce awake (drained_quiet ready) queue
    generalize beginRest s = x at *
    have rest := sansRequests_of_sansPosts (sansPosts_of_sansStatus out)
    have shake : x.rsc.handshake = if s.rsc.sleepAck = true then .asleep else .entering :=
      (congrArg Rsc.handshake (rsc_of_sansRequests rest)).trans rfl
    refine ⟨(rsc_of_sansRequests rest).trans rfl, (congrArg Pss.rail (pss_of_sansRequests rest)).trans rfl, ?_, ?_, ?_,
      fun works => ?_, (upe_of_sansRequests rest).trans rfl, (ktu_of_sansRequests rest).trans rfl,
      (dlc_of_sansRequests rest).trans rfl, (ltu_of_sansRequests rest).trans rfl, (mem_of_sansRequests rest).trans rfl⟩
    · rw [portOpen, shake]
      cases s.rsc.sleepAck <;> rfl
    · rw [sleepReq, shake]
      cases s.rsc.sleepAck <;> rfl
    · rw [meu_of_sansRequests rest]
      rfl
    · rw [meu_of_sansRequests rest]
      exact if_pos works

end Sys2Proof.Machine
end

section
/-! Faults and the lockout (sections 4.9, 5.4 and 10.6). -/

set_option Elab.async false

namespace Sys2Proof.Machine

section
variable {s t u : State}

/-! ### The end of a turn by the part state (R123, R124, R196) -/

section
variable {r : TurnRec} (code : Code) (turn : s.ktu.turnRec = some r)

include turn

theorem turnEnd_log (other : s.rsc.part ≠ .restTurn) : (turnEnd code s).ktu.turn = .idle ∧
    (turnEnd code s).ktu.log = s.ktu.log ++ [⟨r.dir, r.page.tag, s.partTime, code, r.dropped, r.ofRest⟩] := by
  rw [turnEnd, restTurnEnded_other (by rwa [turnEndLog_rsc])]
  by_cases run : s.rsc.part = .run
  · have ktu := ktu_of_sansRequests (sansRequests_of_sansPosts (turnEndLog_run turn code run).2.2)
    rw [ktu]
    exact ⟨rfl, rfl⟩
  · rw [turnEndLog_other turn code run]
    exact ⟨rfl, rfl⟩

theorem turnEnd_waits (turning : s.rsc.part = .restTurn) (none_ : s.rsc.pendingWake = none) :
    turnEnd code s = { s with ktu := s.ktu.ended r code s.partTime, rsc.turnOver := true } := by
  rw [turnEnd, turnEndLog_other turn code (by rw [turning]; nofun)]
  exact restTurnEnded_waits turning none_

theorem turnEnd_wakes {cause : WakeCause} (turning : s.rsc.part = .restTurn) (pends : s.rsc.pendingWake = some cause) :
    turnEnd code s = toWaking cause { s with ktu := s.ktu.ended r code s.partTime } := by
  rw [turnEnd, turnEndLog_other turn code (by rw [turning]; nofun)]
  exact restTurnEnded_wakes turning pends

end

/-- A state reached without a finalization, with the units a wake goes by as they were. -/
theorem wakesAlike_of (ends : Ends .page [] s u) (kept : KeepsAsked s u) (rsc : u.rsc = s.rsc) (meu : u.meu = s.meu)
    (ltu : u.ltu = s.ltu) (dlc : u.dlc = s.dlc) (settings : u.settings = s.settings) (fresh : u.fresh = s.fresh) :
    WakesAlike s u :=
  ⟨rsc, meu, ltu, dlc, settings, ends.time, fresh, kept.size, by simpa using ends.writes, by simpa using ends.jobs⟩

theorem wokenAtOnce_part {cause : WakeCause} (woken : wokenAtOnce cause s t) : t.rsc.part = .run := by
  obtain ⟨-, -, -, -, rest⟩ := woken
  exact (congrArg Rsc.part (rsc_of_sansRequests rest)).trans rfl

/-! ### The fault up to the lockout (R100) -/

/-- The state a fault leaves, the lockout left aside. -/
def State.faulted (s : State) : State :=
  post .panel (ask .panel { abortLanes .fault (stopFrame { s with
    pss.rail := .fault, pss.holdTimer := s.timer 100, pss.idleTimer := none, pss.riseTimer := none }) with
    pss.history := addFault s.pss.history s.partTime })

theorem fault_eq (s : State) :
    fault s = if lockoutDue (addFault s.pss.history s.partTime) then lockout s.faulted else s.faulted := rfl

/-- The lanes after an abort of the driving ones, and the retire passes asked for (R72). -/
def Upe.aborted (x : Upe) (c : AbortCause) (s : State) : Upe :=
  { x with
    lanes := s.upe.lanes.map fun l => if l.state = .driving then { l with state := .retiring, abort := some c } else l
    retireQueue := s.upe.retireQueue ++ (List.range 32).filter fun i => (s.lane i).state == .driving }

/-- The Frame Scanner with its frame ended at once (R99, R100). -/
def StoppedFrame (s : State) (f : Fsc) : Prop :=
  f.frame = .still ∧ (s.fsc.frame ≠ .still → f.slots = [] ∧ f.inLine = false ∧ f.held = none ∧ f.drive = none)

theorem stopFrame_stops (s : State) : ∃ m f, StoppedFrame s f ∧ stopFrame s = { s with mpt := m, fsc := f } ∧
    m.stationQueue = s.mpt.stationQueue := by
  unfold stopFrame
  split
  · next still => exact ⟨s.mpt, s.fsc, ⟨still, fun h => absurd still h⟩, rfl, rfl⟩
  · obtain ⟨m, queue, e⟩ := giveUpBurst_eq .scan { s with
      fsc.frame := .still, fsc.line := 0, fsc.inLine := false, fsc.held := none, fsc.laneSet := []
      fsc.slots := [], fsc.drive := none }
    exact ⟨m, _, ⟨rfl, fun _ => ⟨rfl, rfl, rfl, rfl⟩⟩, e, queue⟩

theorem faulted_spec (s : State) : ∃ m f, StoppedFrame s f ∧
    s.faulted.sansPosts = ({ s with
      mpt := m, fsc := f, upe := s.upe.aborted .fault s
      pss := { s.pss with
        rail := .fault, holdTimer := some ⟨s.partTime, 100⟩, idleTimer := none, riseTimer := none
        history := addFault s.pss.history s.partTime } } : State).sansPosts ∧
    s.faulted.sif.posted = s.postedOnce .panel ∧ (∀ c, Ends c [] s s.faulted) ∧ KeepsAsked s s.faulted := by
  obtain ⟨m, f, ⟨still, cleared⟩, e, queue⟩ := stopFrame_stops { s with
    pss.rail := .fault, pss.holdTimer := s.timer 100, pss.idleTimer := none, pss.riseTimer := none }
  unfold State.faulted
  rw [e]
  refine ⟨m, { f with laneSet := f.laneSet.filter fun i => (s.lane i).state != .driving }, ⟨still, cleared⟩, ?_, ?_, fun c => ?_, ?_⟩
  · rw [sansPosts_post, sansPosts_ask]
    rfl
  · rw [post_sif_posted, State.postedOnce, ask_sif_posted]
    rfl
  · refine Ends.post (Ends.ask ?_ .panel) .panel
    exact Ends.refl.congr (queue := queue) (chain := by cases c <;> rfl)
  · exact ((keepsAsked_of_writers (s := s)).trans (keepsAsked_ask .panel)).trans (keepsAsked_post .panel)

/-- The events that take a fault (R98, R100). -/
def TakesFault (c : Instr) (s : State) : Prop :=
  (c = .railGoodDeasserted ∧ s.pss.rail = .on) ∨ (c = .riseTimeout ∧ s.pss.rail = .rising ∧ s.pss.riseTimer ≠ none)

theorem TakesFault.exec {c : Instr} (h : TakesFault c s) : ∃ g,
    exec c s = .next (portGrants (fault { s with pss.railGood := g })) := by
  rcases h with ⟨rfl, on⟩ | ⟨rfl, rising, runs⟩
  · exact ⟨false, congrArg done (if_pos on : goodDeasserted s = _)⟩
  · exact ⟨s.pss.railGood, congrArg done (if_pos ⟨rising, runs⟩ : riseExpiry s = fault s)⟩

/-! ### The lockout (R85, R103) -/

/-- The state of a lockout before the waiting updates end. -/
def State.lockedOut (s : State) : State := ask .panel { s.faulted with pss.rail := .locked, pss.holdTimer := none }

theorem lockout_eq (s : State) : lockout s.faulted = abandonTest (lockoutWake (endAllWaiting .panelFault s.lockedOut)) := rfl

theorem lockedOut_spec (s : State) : ∃ m f, StoppedFrame s f ∧
    s.lockedOut.sansPosts = ({ s with
      mpt := m, fsc := f, upe := s.upe.aborted .fault s
      pss := { s.pss with
        rail := .locked, holdTimer := none, idleTimer := none, riseTimer := none
        history := addFault s.pss.history s.partTime } } : State).sansPosts ∧
    s.lockedOut.sif.posted = s.postedOnce .panel ∧ (∀ c, Ends c [] s s.lockedOut) ∧ KeepsAsked s s.lockedOut := by
  obtain ⟨m, f, stopped, frame, posted, ends, kept⟩ := faulted_spec s
  unfold State.lockedOut
  generalize s.faulted = a at *
  refine ⟨m, f, stopped, ?_, (ask_sif_posted _ _).trans posted, fun c => ?_, ?_⟩
  · rw [sansPosts_ask]
    exact (congrArg (fun x : State => ({ x with pss.rail := .locked, pss.holdTimer := none } : State)) frame :)
  · exact ((ends c).congr (u := { a with pss.rail := .locked, pss.holdTimer := none }) (chain := by cases c <;> rfl)).ask .panel
  · exact (kept.congr (u := { a with pss.rail := .locked, pss.holdTimer := none })).trans (keepsAsked_ask .panel)

/-- With the panel LOCKED the ends of the waiting updates empty the list and leave lanes, supply and scanner. -/
theorem endAllWaiting_locked (code : Code) (locked : s.pss.rail = .locked) :
    let t := endAllWaiting code s
    t.upe = { s.upe with list := [] } ∧ t.pss = s.pss ∧ t.fsc = s.fsc := by
  obtain ⟨li, en, tm, frame, ids, -, timer, -, -⟩ := leaveAll_spec (s.upe.list.map Entry.id) s
  have none_ : li = [] := List.eq_nil_iff_forall_not_mem.mpr fun e mem => (ids e mem).2 (ids e mem).1
  have same : tm = s.pss.idleTimer := timer (by rw [locked]; nofun)
  subst none_ same
  unfold endAllWaiting
  dsimp only at frame
  generalize (s.upe.list.map Entry.id).foldl (fun t id => leaveList id t) s = v at *
  have rest := sansRequests_of_sansPosts (sansPosts_of_sansStatus frame)
  have upe : v.upe = { s.upe with list := [] } := upe_of_sansRequests rest
  have pss : v.pss = s.pss := (pss_of_sansRequests rest).trans rfl
  have fsc : v.fsc = s.fsc := (fsc_of_sansRequests rest).trans rfl
  obtain ⟨upe', pss', fsc'⟩ := (follows_endings code s.upe.list (s := v)).still (by rwa [pss])
  exact ⟨upe'.trans upe, pss'.trans pss, fsc'.trans fsc⟩

theorem follows_lockoutWake : Follows s (lockoutWake s) := by
  unfold lockoutWake
  split
  · next h => exact follows_toWaking _ (by rw [h.1]; rfl)
  · exact .refl

theorem follows_abandonTest : Follows s (abandonTest s) := by
  unfold abandonTest
  split
  · next h => exact (leaveQuiesce_abandoned .none .panelFault (by rw [h.1]; rfl)).2
  · exact .refl

/-- Whatever waits, and whatever part state follows, a lockout leaves this of lanes, supply and scanner. -/
theorem lockout_still (s : State) : ∃ f, StoppedFrame s f ∧
    (lockout s.faulted).upe = { s.upe.aborted .fault s with list := [] } ∧
    (lockout s.faulted).pss = { s.pss with
      rail := .locked, holdTimer := none, idleTimer := none, riseTimer := none
      history := addFault s.pss.history s.partTime } ∧
    (lockout s.faulted).fsc = f := by
  obtain ⟨m, f, stopped, frame, -, -, -⟩ := lockedOut_spec s
  rw [lockout_eq]
  generalize s.lockedOut = y at *
  have rest := sansRequests_of_sansPosts frame
  have pss := pss_of_sansRequests rest
  have locked : y.pss.rail = .locked := by rw [pss]
  obtain ⟨upe', pss', fsc'⟩ := endAllWaiting_locked .panelFault locked
  generalize endAllWaiting .panelFault y = z at *
  obtain ⟨upe'', pss'', fsc''⟩ := (follows_lockoutWake.trans follows_abandonTest : Follows z _).still (by rw [pss', locked])
  refine ⟨f, stopped, ?_, ?_, ?_⟩
  · rw [upe'', upe', upe_of_sansRequests rest]
  · rw [pss'', pss', pss]
  · rw [fsc'', fsc', fsc_of_sansRequests rest]

theorem lockoutWake_stands (stands : s.rsc.part ≠ .restTurn ∨ ¬∃ l ∈ s.upe.lanes, l.state = .arming) : lockoutWake s = s := by
  refine if_neg fun h => ?_
  rcases stands with other | none_
  · exact other h.1
  · exact none_ ((someArming_iff s).mp h.2.2)

theorem lockoutWake_wakes (turning : s.rsc.part = .restTurn) (locked : s.pss.rail = .locked) (arming : ∃ l ∈ s.upe.lanes, l.state = .arming) :
    lockoutWake s = toWaking .panel s := if_pos ⟨turning, locked, (someArming_iff s).mpr arming⟩

theorem endAllWaiting_one (code : Code) {e : Entry} (list : s.upe.list = [e]) :
    endAllWaiting code s = endWaiting code (leaveList e.id s) e := by
  rw [endAllWaiting, list]
  rfl

/-- One entry leaves the list. -/
theorem leaveOne_spec {e : Entry} (locked : s.pss.rail = .locked) : ∃ li en,
    (leaveList e.id s).sansStatus = ({ s with upe.list := li, wfs.entries := en } : State).sansStatus ∧
    (∀ c, Ends c [] s (leaveList e.id s)) ∧ KeepsAsked s (leaveList e.id s) := by
  obtain ⟨li, en, tm, frame, -, -, timer, ends, kept⟩ := leaveAll_spec [e.id] s
  have same : tm = s.pss.idleTimer := timer (by rw [locked]; nofun)
  subst same
  exact ⟨li, en, frame, ends, kept⟩

theorem arming_abort (c : AbortCause) (lanes : List Lane) :
    (∃ l ∈ lanes.map fun l => if l.state = .driving then { l with state := .retiring, abort := some c } else l, l.state = .arming) ↔
      ∃ l ∈ lanes, l.state = .arming := by
  simp only [List.mem_map, exists_exists_and_eq_and]
  refine exists_congr fun l => and_congr_right fun _ => ?_
  split
  · next driving => simp [driving]
  · rfl

theorem waitingEnds_length (code : Nat) : ∀ {l : List Entry}, (∀ e ∈ l, ∃ r, e.origin = .record r) →
    (waitingEnds code l).length = l.length
  | [], _ => rfl
  | e :: l, all => by
    obtain ⟨r, is⟩ := all e (by simp)
    rw [waitingEnds_cons, waitingEnds_record code is, List.length_append, waitingEnds_length code fun f mem => all f (by simp [mem])]
    simp [Nat.add_comm]

/-- No store entry is held by an entry that has left, the store's entries being `en`. -/
theorem unheld_store {en : List StoreEntry} {n : Nat} (entries : s.wfs.entries = en) (free : ∀ f ∈ en, f.holder ≠ some n) (j : Nat) :
    (s.store j).holder ≠ some n := by
  rw [State.store, entries]
  by_cases inside : j < en.length
  · rw [List.getD_eq_getElem _ _ inside]
    exact free _ (List.getElem_mem inside)
  · rw [List.getD_eq_default _ _ (Nat.not_lt.mp inside)]
    nofun

end

/-- Settles O41. -/
theorem faultIsTaken : Obligations.FaultIsTaken := by
  refine ⟨fun c s event => ?_, fun c s a b event history recent => ?_⟩
  · intro h due
    obtain ⟨g, e⟩ := TakesFault.exec event
    obtain ⟨m, f, ⟨still, cleared⟩, frame, posted, -, -⟩ := faulted_spec { s with pss.railGood := g }
    have is : fault { s with pss.railGood := g } = State.faulted { s with pss.railGood := g } :=
      (fault_eq _).trans (if_neg (by rw [show lockoutDue (addFault _ _) = false from due]; nofun))
    rw [is] at e
    refine ⟨_, e, ?_⟩
    generalize State.faulted { s with pss.railGood := g } = t at *
    have rest := sansRequests_of_sansPosts frame
    have upe := upe_of_sansRequests rest
    rw [railEn, pss_of_sansRequests rest, fsc_of_sansRequests rest, upe, posted, mem_of_sansRequests rest,
      ktu_of_sansRequests rest, ltu_of_sansRequests rest, dlc_of_sansRequests rest, rsc_of_sansRequests rest,
      meu_of_sansRequests rest, wfs_of_sansRequests rest]
    exact ⟨rfl, rfl, rfl, rfl, rfl, rfl, still, cleared, rfl, rfl, rfl, rfl, rfl, rfl, rfl, rfl, rfl, rfl, rfl, rfl, rfl⟩
  · intro arming
    obtain ⟨g, e⟩ := TakesFault.exec event
    have added : addFault s.pss.history s.partTime = [a, b, s.partTime] := by
      rcases history with h | ⟨x, h⟩ <;> rw [h] <;> rfl
    have due : lockoutDue (addFault s.pss.history s.partTime) = true := by
      rw [added]
      exact decide_eq_true recent
    have is : fault { s with pss.railGood := g } = lockout (State.faulted { s with pss.railGood := g }) :=
      (fault_eq _).trans (if_pos due)
    rw [is] at e
    refine ⟨_, e, ?_⟩
    obtain ⟨f, ⟨still, -⟩, upe, pss, fsc⟩ := lockout_still { s with pss.railGood := g }
    obtain ⟨m, f', -, frame, posted, ends, kept⟩ := lockedOut_spec { s with pss.railGood := g }
    have out := lockout_eq { s with pss.railGood := g }
    generalize lockout (State.faulted { s with pss.railGood := g }) = t at *
    generalize State.lockedOut { s with pss.railGood := g } = y at *
    have rest := sansRequests_of_sansPosts frame
    have rsc : y.rsc = s.rsc := (rsc_of_sansRequests rest).trans rfl
    have ktu : y.ktu = s.ktu := (ktu_of_sansRequests rest).trans rfl
    have meu : y.meu = s.meu := (meu_of_sansRequests rest).trans rfl
    have list : y.upe.list = s.upe.list := (congrArg Upe.list (upe_of_sansRequests rest)).trans rfl
    have rail : y.pss.rail = .locked := (congrArg Pss.rail (pss_of_sansRequests rest)).trans rfl
    have endsY (k : Chain) : Ends k [] s y := by
      have first : Ends k [] s { s with pss.railGood := g } := Ends.refl.congr (chain := by cases k <;> rfl)
      simpa using first.trans (ends k)
    have time : y.partTime = s.partTime := (endsY .page).time
    have keptY : KeepsAsked s y := ⟨kept.size, kept.asked⟩
    have armingY : (∃ l ∈ y.upe.lanes, l.state = .arming) ↔ arming := by
      rw [upe_of_sansRequests rest]
      exact arming_abort .fault s.upe.lanes
    have settled {z : State} (ended : endAllWaiting .panelFault y = z)
        (stands : z.rsc.part ≠ .restTurn ∨ ¬∃ l ∈ z.upe.lanes, l.state = .arming)
        (kept : ¬(z.rsc.part = .quiesce ∧ z.rsc.limit = true)) : t = z := by
      rw [out, ended, lockoutWake_stands stands]
      exact abandonTest_stands fun h => kept ⟨h.1, h.2.1⟩
    rw [railEn, pss, fsc, upe, added]
    refine ⟨rfl, rfl, rfl, rfl, ⟨rfl, rfl, rfl, still⟩, rfl, rfl, fun run records => ?_, fun e r run one is turn => ?_,
      fun e quiesce within one is image => ?_, fun e r turning none_ one is turn => ⟨fun waits => ?_, fun w pends atOnce => ?_⟩,
      fun turning some_ empty atOnce => ?_, fun r quiesce limit some_ _ empty presses record => ?_⟩
    · obtain ⟨k, x, id, en, tm, endsZ, postedZ, -, frameZ, -, -, holders, -⟩ := endAllWaiting_spec (s := y) .panelFault
        (by rw [rsc, run]; nofun) (by
          intro _ f mem
          obtain ⟨r, is⟩ := records f (list ▸ mem)
          rw [is]
          nofun)
      rw [list] at endsZ postedZ holders
      have part : (endAllWaiting .panelFault y).rsc.part = .run :=
        (congrArg Rsc.part (rsc_of_sansRequests frameZ)).trans ((congrArg Rsc.part rsc).trans run)
      rw [settled rfl (.inl (by rw [part]; nofun)) (by rw [part]; nofun)]
      refine ⟨Ends.endsBy (ends := waitingEnds 50 s.upe.list) ((endsY .page).trans endsZ), ?_, fun f mem j => ?_⟩
      · rw [postedZ, waitingEnds_length _ records]
        exact postedBy_congr _ _ posted (portOpen_congr (by rw [rsc]))
      · exact unheld_store (congrArg Wfs.entries (wfs_of_sansRequests frameZ) :) (holders f mem) j
    · obtain ⟨li, en, frameL, -, -⟩ := leaveOne_spec (e := e) rail
      have one' := endAllWaiting_one .panelFault (list.trans one)
      rw [endWaiting_turn .panelFault is] at one'
      generalize leaveList e.id y = l at *
      have restL := sansRequests_of_sansPosts (sansPosts_of_sansStatus frameL)
      have part : l.rsc.part = .run := (congrArg Rsc.part (rsc_of_sansRequests restL)).trans ((congrArg Rsc.part rsc).trans run)
      have ktuL : l.ktu = s.ktu := (ktu_of_sansRequests restL).trans ktu
      have timeL : l.partTime = s.partTime := ((congrArg State.partTime frameL :) : l.partTime = y.partTime).trans time
      have ended := turnEnd_log .panelFault (s := l) (by rw [ktuL]; exact turn) (by rw [part]; nofun)
      have partT : (turnEnd .panelFault l).rsc.part = .run := by
        rw [turnEnd, restTurnEnded_other (by rw [turnEndLog_rsc, part]; nofun), turnEndLog_rsc, part]
      rw [settled one' (.inl (by rw [partT]; nofun)) (by rw [partT]; nofun)]
      rw [ktuL, timeL] at ended
      exact ended
    · obtain ⟨li, en, frameL, -, -⟩ := leaveOne_spec (e := e) rail
      have one' := endAllWaiting_one .panelFault (list.trans one)
      generalize leaveList e.id y = l at *
      have rscL : l.rsc = s.rsc :=
        (rsc_of_sansRequests (sansRequests_of_sansPosts (sansPosts_of_sansStatus frameL))).trans rsc
      rw [endWaiting_rest .panelFault is, if_pos (by rwa [rscL])] at one'
      rw [settled one' (.inl (by rw [show State.rsc _ = _ from rfl, rscL, show Rsc.part _ = s.rsc.part from rfl, quiesce]; nofun))
        (by rw [show State.rsc _ = _ from rfl, rscL, show Rsc.limit _ = s.rsc.limit from rfl, within]; nofun)]
    · obtain ⟨li, en, frameL, -, -⟩ := leaveOne_spec (e := e) rail
      have one' := endAllWaiting_one .panelFault (list.trans one)
      rw [endWaiting_turn .panelFault is] at one'
      generalize leaveList e.id y = l at *
      have restL := sansRequests_of_sansPosts (sansPosts_of_sansStatus frameL)
      have rscL : l.rsc = s.rsc := (rsc_of_sansRequests restL).trans rsc
      have ktuL : l.ktu = s.ktu := (ktu_of_sansRequests restL).trans ktu
      have timeL : l.partTime = s.partTime := ((congrArg State.partTime frameL :) : l.partTime = y.partTime).trans time
      have lanesL : l.upe.lanes = y.upe.lanes := (congrArg Upe.lanes (upe_of_sansRequests restL) :)
      rw [turnEnd_waits .panelFault (r := r) (by rwa [ktuL]) (by rwa [rscL]) (by rwa [rscL]), ktuL, timeL] at one'
      have part : ({ l with ktu := s.ktu.ended r .panelFault s.partTime, rsc.turnOver := true } : State).rsc.part = .restTurn :=
        (congrArg Rsc.part rscL).trans turning
      rw [settled one' (.inr (by
        show ¬∃ x ∈ l.upe.lanes, x.state = .arming
        rw [lanesL]
        exact armingY.not.mpr none_)) (by rw [part]; nofun)]
      refine ⟨rfl, ?_, ?_⟩
      · show ({ l.rsc with turnOver := true } : Rsc) = _
        rw [rscL]
      · exact ((congrArg (fun x : State => x.sif.posted) frameL :) : l.sif.posted = y.sif.posted).trans posted
    · obtain ⟨li, en, frameL, endsL, keptL⟩ := leaveOne_spec (e := e) rail
      have one' := endAllWaiting_one .panelFault (list.trans one)
      rw [endWaiting_turn .panelFault is] at one'
      generalize leaveList e.id y = l at *
      have restL := sansRequests_of_sansPosts (sansPosts_of_sansStatus frameL)
      have rscL : l.rsc = s.rsc := (rsc_of_sansRequests restL).trans rsc
      have ktuL : l.ktu = s.ktu := (ktu_of_sansRequests restL).trans ktu
      have meuL : l.meu = s.meu := (meu_of_sansRequests restL).trans meu
      have timeL : l.partTime = s.partTime := ((congrArg State.partTime frameL :) : l.partTime = y.partTime).trans time
      have kept' : l.ktu.ended r .panelFault l.partTime = s.ktu.ended r .panelFault s.partTime := by rw [ktuL, timeL]
      rw [turnEnd_wakes .panelFault (r := r) (by rwa [ktuL]) (by rwa [rscL]) (by rwa [rscL]), kept'] at one'
      let u : State := { l with ktu := s.ktu.ended r .panelFault s.partTime }
      have rscU : u.rsc = s.rsc := rscL
      have woken : wokenAtOnce w u (toWaking w u) := by
        obtain ⟨awake, queue, calm⟩ := atOnce
        exact toWaking_atOnce w (by rw [rscU, turning]; rfl)
          ⟨by rw [rscU]; exact awake, queue, by rw [show u.meu = _ from meuL]; exact calm⟩
      have part := wokenAtOnce_part woken
      rw [settled one' (.inl (by rw [part]; nofun)) (by rw [part]; nofun)]
      refine ⟨u, rfl, wakesAlike_of ?_ ?_ rscU meuL ?_ ?_ ?_ ?_, ?_, woken⟩
      · have both : Ends .page [] s l := by simpa using (endsY .page).trans (endsL .page)
        exact both.congr
      · exact ⟨(keptY.trans keptL).size, (keptY.trans keptL).asked⟩
      · exact (ltu_of_sansRequests restL).trans ((ltu_of_sansRequests rest).trans rfl)
      · exact (dlc_of_sansRequests restL).trans ((dlc_of_sansRequests rest).trans rfl)
      · exact (settings_of_sansRequests restL).trans ((settings_of_sansRequests rest).trans rfl)
      · exact (fresh_of_sansRequests restL).trans ((fresh_of_sansRequests rest).trans rfl)
      · exact ((congrArg (fun x : State => x.sif.posted) frameL :) : l.sif.posted = y.sif.posted).trans posted
    · have same := endAllWaiting_empty .panelFault (list.trans empty)
      have woken : wokenAtOnce .panel y (toWaking .panel y) := by
        obtain ⟨awake, queue, calm⟩ := atOnce
        exact toWaking_atOnce .panel (by rw [rsc, turning]; rfl) ⟨by rwa [rsc], by rwa [ktu], by rwa [meu]⟩
      have wakes : t = toWaking .panel y := by
        rw [out, same, lockoutWake_wakes (by rwa [rsc]) rail (armingY.mpr some_)]
        exact abandonTest_stands fun h => by rw [wokenAtOnce_part woken] at h; exact nomatch h.1
      rw [wakes]
      exact ⟨y, ktu, wakesAlike_of (endsY .page) keptY rsc meu ((ltu_of_sansRequests rest).trans rfl)
        ((dlc_of_sansRequests rest).trans rfl) ((settings_of_sansRequests rest).trans rfl) ((fresh_of_sansRequests rest).trans rfl),
        posted, woken⟩
    · have same := endAllWaiting_empty .panelFault (list.trans empty)
      have leaves : t = leaveQuiesce true (finalizeRest .none .panelFault y) := by
        rw [out, same, lockoutWake_stands (.inl (by rw [rsc, quiesce]; nofun))]
        exact abandonTest_leaves (by rwa [rsc]) (by rwa [rsc]) rail ((someArming_iff y).mpr (armingY.mpr some_))
      obtain ⟨endsT, -, -, -, restT, -⟩ := leaveQuiesce_calm (s := y) .none .panelFault true (by rw [rsc, quiesce]; rfl)
        (by rwa [ktu]) (.inl rfl)
      rw [← leaves] at endsT restT
      have ended : restEnds .none Code.panelFault.num y = [(r, [(0x1C, [0, s.rsc.turns])], 50)] := by
        rw [restEnds, rsc, record]
        rfl
      rw [ended] at endsT
      rw [rsc_of_sansRequests restT]
      exact ⟨rfl, rfl, Ends.endsBy (ends := [(r, [(0x1C, [0, s.rsc.turns])], 50)]) ((endsY .control).trans endsT)⟩

end Sys2Proof.Machine
end

section
/-! How an admission scan leaves a store entry in use, and the entry it meets first (sections 3.4 and 4.5). -/

set_option Elab.async false

namespace Sys2Proof.Machine

/-! ### A store entry in use is not loaded (R42) -/

/-- Store entry `j`, in use and not EMPTY, keeps its state and its references. -/
def UseStands (j : Nat) (s t : State) : Prop :=
  (s.store j).refs ≠ 0 → (s.store j).state ≠ .empty → (t.store j).refs = (s.store j).refs ∧ (t.store j).state = (s.store j).state

theorem UseStands.refl {j : Nat} {s : State} : UseStands j s s := fun _ _ => ⟨rfl, rfl⟩

theorem UseStands.trans {j : Nat} {s t u : State} (first : UseStands j s t) (second : UseStands j t u) : UseStands j s u := by
  intro used full
  obtain ⟨refs, state⟩ := first used full
  obtain ⟨refs', state'⟩ := second (refs ▸ used) (state ▸ full)
  exact ⟨refs'.trans refs, state'.trans state⟩

theorem useStands_of_entries {s t : State} (j : Nat) (same : t.wfs.entries = s.wfs.entries) : UseStands j s t := by
  have store : t.store j = s.store j := by rw [State.store, same, State.store]
  rw [UseStands, store]
  exact fun _ _ => ⟨rfl, rfl⟩

/-- Clearing another hold of the asker leaves state and references. -/
theorem dropOtherHold_use (id : Nat) (k : StoreKey) (s : State) (j : Nat) :
    ((dropOtherHold id k s).store j).state = (s.store j).state ∧ ((dropOtherHold id k s).store j).refs = (s.store j).refs := by
  rw [dropOtherHold_store]
  split <;> exact ⟨rfl, rfl⟩

/-- The entry a lookup loads is EMPTY or unused (R42). -/
theorem chooseEntry_unused {s : State} {i : Nat} (chosen : chooseEntry s = some i) :
    (s.store i).state = .empty ∨ (s.store i).refs = 0 := by
  by_cases full : ∀ j, j < 4 → (s.store j).state ≠ .empty
  · have oldest := oldestOf_range s 4
    rw [← chooseEntry_full full, chosen] at oldest
    obtain ⟨-, can, -⟩ := oldest
    obtain ⟨-, -, unused, -⟩ := (candidate_iff _).mp can
    exact .inr unused
  · rw [chooseEntry] at chosen
    split at chosen
    · next k found =>
      obtain ⟨-, empty, -⟩ := findEntry_some.mp found
      obtain rfl := Option.some.inj chosen
      exact .inl (by simpa using empty)
    · next none =>
      exact absurd (fun j hj => by simpa using findEntry_none.mp none j hj) full

theorem useStands_beginLoad {s : State} {im : Image} {i : Nat} {k : StoreKey} {id : Nat}
    (unused : (s.store i).state = .empty ∨ (s.store i).refs = 0) (j : Nat) : UseStands j s (beginLoad im i k id s) := by
  intro used full
  have other : i ≠ j := by
    rintro rfl
    exact unused.elim full used
  have same : (beginLoad im i k id s).store j = s.store j := by
    simp [State.store, beginLoad, joinWave, State.setStore, List.getElem?_set_ne other]
  rw [same]
  exact ⟨rfl, rfl⟩

theorem useStands_lookup (j id : Nat) (mode : Mode) (band : Nat) (s : State) : UseStands j s (lookup id mode band s).2 := by
  cases active : s.wfs.active with
  | none => rw [lookup, active]; exact .refl
  | some im =>
    obtain ⟨state, refs⟩ := dropOtherHold_use id ⟨s.wfs.generation, mode, band⟩ s j
    have dropped : UseStands j s (dropOtherHold id ⟨s.wfs.generation, mode, band⟩ s) := fun _ _ => ⟨refs, state⟩
    rw [lookup_eq active]
    dsimp only
    split
    · exact dropped
    · split
      · exact dropped
      · split
        · next i chosen => exact dropped.trans (useStands_beginLoad (chooseEntry_unused chosen) j)
        · exact dropped

theorem useStands_lookupFor (j id : Nat) (mode : Mode) (band : Nat) (note : Bool) (s : State) :
    UseStands j s (lookupFor id mode band note s).2 :=
  (useStands_lookup j id mode band s).trans (useStands_of_entries j rfl)

theorem demandSample_entries (s : State) : (demandSample s).wfs.entries = s.wfs.entries := by
  obtain ⟨m, e⟩ := demandSample_frame s
  rw [e]

theorem useStands_keyOrSample (j : Nat) (e : Entry) (s : State) : UseStands j s (keyOrSample e s) := by
  unfold keyOrSample
  split
  · unfold chooseKey
    split
    · next im t _ _ =>
      exact (useStands_of_entries j (congrArg Wfs.entries (selectBand_wfs im t.value s) :)).trans
        (useStands_lookupFor j e.id _ _ _ _)
    · exact .refl
  · exact (useStands_of_entries j (demandSample_entries _))

theorem eligible_keyless {e : Entry} (s : State) (none : e.key = none) : eligible e s = (false, s) := by rw [eligible, none]

theorem eligible_shut (e : Entry) {s : State} (shut : mayAdmit s = false) : eligible e s = (false, s) := by
  unfold eligible
  cases e.key <;> simp [shut]

theorem eligible_asks {e : Entry} {s : State} {k : StoreKey} (key : e.key = some k) (may : mayAdmit s = true) :
    (eligible e s).2 = (lookupFor e.id (decideMode e s).1 k.band (decideMode e s).2 s).2 := by
  rw [eligible, key]
  dsimp only
  rw [if_pos may]
  split
  · next h => rw [h]
  · next h => rw [h]

theorem useStands_eligible (j : Nat) (e : Entry) (s : State) : UseStands j s (eligible e s).2 := by
  cases key : e.key with
  | none => rw [eligible_keyless s key]; exact .refl
  | some k =>
    cases may : mayAdmit s with
    | false => rw [eligible_shut e may]; exact .refl
    | true =>
      rw [eligible_asks key may]
      exact useStands_lookupFor j _ _ _ _ s

/-- What the scan's meeting with an entry does: nothing, its choice of a key, its test, or the one and then the other. -/
theorem scanEntry_state {P : State → State → Prop} (refl : ∀ u, P u u) (trans : ∀ {u v w}, P u v → P v w → P u w) (id : Nat) (s : State)
    (keys : ∀ e, findListed id s = some e → P s (keyOrSample e s))
    (tests : ∀ e u, findListed id u = some e → P u (eligible e u).2) : P s (scanEntry id s).2 := by
  cases listed : findListed id s with
  | none => rw [scanEntry, listed]; exact refl s
  | some e =>
    rw [scanEntry_listed listed]
    split
    · exact refl s
    · have met : P s (if e.st = .none then keyOrSample e s else s) := by
        split
        · exact keys e listed
        · exact refl s
      generalize (if e.st = .none then keyOrSample e s else s) = u at met
      split
      · next f left =>
        have tested := trans met (tests f u left)
        cases f.st
        · exact met
        · exact met
        · exact met
        · exact tested
        · exact tested
      · exact met

theorem useStands_scanEntry (j id : Nat) (s : State) : UseStands j s (scanEntry id s).2 :=
  scanEntry_state (fun _ => .refl) .trans id s (fun e _ => useStands_keyOrSample j e s) fun e u _ => useStands_eligible j e u

theorem scanList_cons (id : Nat) (l : List Nat) (s : State) : scanList (id :: l) s =
    if (scanEntry id s).1 = true then (some id, (scanEntry id s).2) else scanList l (scanEntry id s).2 := by
  rw [scanList]
  obtain ⟨b, t⟩ := scanEntry id s
  cases b <;> rfl

theorem useStands_scanList (j : Nat) : ∀ (l : List Nat) (s : State), UseStands j s (scanList l s).2
  | [], _ => .refl
  | id :: l, s => by
    rw [scanList_cons]
    split
    · exact useStands_scanEntry j id s
    · exact (useStands_scanEntry j id s).trans (useStands_scanList j l _)

/-- A scan loads no store entry in use: one that is not EMPTY keeps its references (R42). -/
theorem useStands_scan (j : Nat) (s : State) : UseStands j s (scan s) :=
  (useStands_of_entries (t := { s with upe.rescan := false }) j rfl).trans (useStands_scanList j _ _)

/-! ### The state and the key of an entry that the scan does not meet (R65) -/

/-- The waiting update `a` keeps its store state and its key. -/
def KeyStands (a : Nat) (s t : State) : Prop :=
  (findListed a t).map (fun e => (e.st, e.key)) = (findListed a s).map fun e => (e.st, e.key)

theorem KeyStands.refl {a : Nat} {s : State} : KeyStands a s s := rfl

theorem KeyStands.trans {a : Nat} {s t u : State} (first : KeyStands a s t) (second : KeyStands a t u) : KeyStands a s u :=
  Eq.trans second first

theorem keyStands_of_list {s t : State} (a : Nat) (same : t.upe.list = s.upe.list) : KeyStands a s t := by
  rw [KeyStands, findListed, same, findListed]

theorem keyStands_of_map {s t : State} (a : Nat) {f : Entry → Entry} (named : ∀ x, (f x).id = x.id)
    (keeps : ∀ x, x.id = a → (f x).st = x.st ∧ (f x).key = x.key) (list : t.upe.list = s.upe.list.map f) : KeyStands a s t := by
  rw [KeyStands, findListed_map a named list]
  cases listed : findListed a s with
  | none => rfl
  | some e =>
    obtain ⟨st, key⟩ := keeps e (findListed_id listed)
    simp [st, key]

theorem keyStands_setEntry {a id : Nat} (other : id ≠ a) {f : Entry → Entry} (named : ∀ x, (f x).id = x.id) (s : State) :
    KeyStands a s (setEntry id f s) := by
  refine keyStands_of_map a (f := fun e => if e.id = id then f e else e) (fun x => by split <;> simp [named]) (fun x hx => ?_) rfl
  rw [if_neg (hx ▸ other.symm)]
  exact ⟨rfl, rfl⟩

theorem keyStands_lookup (a id : Nat) (mode : Mode) (band : Nat) (s : State) : KeyStands a s (lookup id mode band s).2 := by
  rcases lookup_list id mode band s with list | list
  · exact keyStands_of_list a list
  · exact keyStands_of_map a (fun x => by split <;> rfl) (fun x _ => by split <;> exact ⟨rfl, rfl⟩) list

theorem keyStands_lookupFor {a id : Nat} (other : id ≠ a) (mode : Mode) (band : Nat) (note : Bool) (s : State) :
    KeyStands a s (lookupFor id mode band note s).2 :=
  (keyStands_lookup a id mode band s).trans (keyStands_setEntry other (f := fun e => { e with
    st := (lookup id mode band s).1.st, key := some ⟨s.wfs.generation, mode, band⟩, note := note, again := false }) (fun _ => rfl) _)

theorem demandSample_list (s : State) : (demandSample s).upe.list = s.upe.list := by
  obtain ⟨m, e⟩ := demandSample_frame s
  rw [e]

theorem keyStands_keyOrSample {a : Nat} {e : Entry} (other : e.id ≠ a) (s : State) : KeyStands a s (keyOrSample e s) := by
  unfold keyOrSample
  split
  · unfold chooseKey
    split
    · next im t _ _ =>
      exact (keyStands_of_list a (congrArg Upe.list (selectBand_upe im t.value s) :)).trans
        (keyStands_lookupFor other _ _ _ _)
    · exact .refl
  · exact (keyStands_setEntry other (f := fun x => { x with st := .sampling }) (fun _ => rfl) s).trans
      (keyStands_of_list a (demandSample_list _))

theorem keyStands_eligible {a : Nat} {e : Entry} (other : e.id ≠ a) (s : State) : KeyStands a s (eligible e s).2 := by
  cases key : e.key with
  | none => rw [eligible_keyless s key]; exact .refl
  | some k =>
    cases may : mayAdmit s with
    | false => rw [eligible_shut e may]; exact .refl
    | true =>
      rw [eligible_asks key may]
      exact keyStands_lookupFor other _ _ _ s

theorem keyStands_scanEntry {a id : Nat} (other : id ≠ a) (s : State) : KeyStands a s (scanEntry id s).2 := by
  have named {e : Entry} {u : State} (listed : findListed id u = some e) : e.id ≠ a := (findListed_id listed).symm ▸ other
  exact scanEntry_state (fun _ => .refl) .trans id s (fun e listed => keyStands_keyOrSample (named listed) s)
    fun e u listed => keyStands_eligible (named listed) u

/-- A scan over other entries leaves the state and the key of this one. -/
theorem keyStands_scanList {a : Nat} : ∀ (l : List Nat), a ∉ l → ∀ s : State, KeyStands a s (scanList l s).2
  | [], _, _ => .refl
  | id :: l, others, s => by
    have other : id ≠ a := fun same => others (same ▸ List.mem_cons_self)
    have rest : a ∉ l := fun mem => others (List.mem_cons_of_mem id mem)
    rw [scanList_cons]
    split
    · exact keyStands_scanEntry other s
    · exact (keyStands_scanEntry other s).trans (keyStands_scanList l rest _)

/-! ### A lookup with an EMPTY entry at hand finds room (R41, R42) -/

theorem lookup_room {s : State} {j : Nat} (inside : j < 4) (empty : (s.store j).state = .empty) (id : Nat) (mode : Mode) (band : Nat) :
    (lookup id mode band s).1.st ≠ .noRoom := by
  cases active : s.wfs.active with
  | none => rw [lookup, active]; nofun
  | some im =>
    rw [lookup_eq active]
    dsimp only
    split
    · nofun
    · split
      · nofun
      · split
        · nofun
        · next none =>
          have left := (dropOtherHold_use id ⟨s.wfs.generation, mode, band⟩ s j).1.trans empty
          rw [chooseEntry] at none
          split at none
          · exact nomatch none
          · next unfound => simpa [left] using findEntry_none.mp unfound j inside

/-- The waiting update is not keyed in NO_ROOM. -/
def Roomed (a : Nat) (s : State) : Prop := ∃ e, findListed a s = some e ∧ (e.st = .noRoom → e.key = none)

theorem Roomed.stands {a : Nat} {s t : State} (roomed : Roomed a s) (stands : KeyStands a s t) : Roomed a t := by
  obtain ⟨e, listed, room⟩ := roomed
  rw [KeyStands, listed, Option.map_some, Option.map_eq_some_iff] at stands
  obtain ⟨f, found, same⟩ := stands
  obtain ⟨st, key⟩ := Prod.mk.inj same
  exact ⟨f, found, by rw [st, key]; exact room⟩

theorem roomed_lookupFor {s : State} {a j : Nat} {e : Entry} (inside : j < 4) (empty : (s.store j).state = .empty)
    (listed : findListed a s = some e) (mode : Mode) (band : Nat) (note : Bool) : Roomed a (lookupFor a mode band note s).2 :=
  ⟨_, findListed_lookupFor listed mode band note, fun full => absurd full (lookup_room inside empty a mode band)⟩

/-- The test of an entry leaves it unkeyed or with room found, while a store entry is EMPTY. -/
theorem roomed_eligible {s : State} {j : Nat} {e : Entry} (inside : j < 4) (empty : (s.store j).state = .empty) (may : mayAdmit s = true)
    (listed : findListed e.id s = some e) : Roomed e.id (eligible e s).2 := by
  cases key : e.key with
  | none => rw [eligible_keyless s key]; exact ⟨e, listed, fun _ => key⟩
  | some k =>
    rw [eligible_asks key may]
    exact roomed_lookupFor inside empty listed _ _ _

/-- The scan's meeting with an unblocked entry, the temperature not fresh, leaves it unkeyed or with room found, while a store entry
is EMPTY. -/
theorem roomed_scanEntry {s : State} {j : Nat} {e : Entry} (inside : j < 4) (empty : (s.store j).state = .empty) (may : mayAdmit s = true)
    (old : tempFresh s = false) (free : isBlocked s.upe.list e = false) (listed : findListed e.id s = some e) :
    Roomed e.id (scanEntry e.id s).2 := by
  cases st : e.st with
  | none =>
    obtain ⟨-, left, -⟩ := scanEntry_samples listed st free old
    exact ⟨_, left, nofun⟩
  | sampling =>
    rw [scanEntry_passed listed (.inl st)]
    exact ⟨e, listed, by rw [st]; nofun⟩
  | loading =>
    rw [scanEntry_passed listed (.inr (.inl st))]
    exact ⟨e, listed, by rw [st]; nofun⟩
  | noRoom =>
    rw [scanEntry_tested listed free (.inr st)]
    exact roomed_eligible inside empty may listed
  | keyed =>
    rw [scanEntry_tested listed free (.inl st)]
    exact roomed_eligible inside empty may listed

theorem isBlocked_head (e : Entry) (l : List Entry) : isBlocked (e :: l) e = false := by simp [isBlocked]

theorem findListed_head {s : State} {e : Entry} {l : List Entry} (list : s.upe.list = e :: l) : findListed e.id s = some e := by
  simp [findListed, list]

/-- With a store entry EMPTY, the oldest update is not left keyed without room by a scan. -/
theorem roomed_scan {s : State} {j : Nat} {e : Entry} {l : List Entry} (list : s.upe.list = e :: l) (others : e.id ∉ l.map Entry.id)
    (inside : j < 4) (empty : (s.store j).state = .empty) (may : mayAdmit s = true) (old : tempFresh s = false) :
    Roomed e.id (scan s) := by
  have head : findListed e.id { s with upe.rescan := false } = some e := findListed_head list
  have met : Roomed e.id (scanEntry e.id { s with upe.rescan := false }).2 :=
    roomed_scanEntry inside empty may old ((congrArg (isBlocked · e) list).trans (isBlocked_head e l)) head
  rw [scan, scanFor, list, List.map_cons, scanList_cons]
  split
  · exact met
  · exact met.stands (keyStands_scanList _ others _)

/-! ### A pass whose end the statement of O37 does not meet

A rest turn's admission pass ends without a pixel marked while an alarm waits, so the part wakes within the same event; the page press
that waits begins a turn, and the scan of its update loads the store entry that the ending lane held. -/

def rivalImage : Image := { addr := 0, bands := [0], upper := 100, dir := [] }

def rivalPage : Page := ⟨0, 0, 4⟩

/-- A waiting update of 8 pixels at column `x`, keyed in `mode`. -/
def rivalUpdate (id x : Nat) (mode : Mode) : Entry :=
  { id := id, origin := .record 0, rect := ⟨x, 0, 8, 1⟩, source := 0, stride := 4, mode := mode, policy := .wait, tag := none
    st := .keyed, key := some ⟨0, mode, 5⟩ }

/-- The store: an EMPTY entry that the turn's lane is bound to, the table of the oldest update, and two tables in use. -/
def rivalStore : List StoreEntry :=
  [{ refs := 3 }, { state := .ready, key := some ⟨0, .gray, 5⟩ }, { state := .ready, refs := 1 }, { state := .ready, refs := 1 }]

def rivalPass : Pass := { kind := .admission 0, geom := ⟨8, 1, 0⟩, row := 0, phase := .writeBack }

def rival : State :=
  { settings := some { width := 8, height := 1, quickTurn := 1 }
    wfs := { active := some rivalImage, entries := rivalStore }
    upe :=
      { list := [rivalUpdate 0 100 .gray, rivalUpdate 1 200 .quick, rivalUpdate 2 300 .clear], nextId := 3
        lanes := [{ state := .arming, rect := ⟨0, 0, 8, 1⟩, origin := .turn, store := 0 }, { state := .driving, rect := ⟨100, 0, 8, 1⟩ }]
        pass := some rivalPass, uncertain := false }
    pss := { rail := .on }
    ktu :=
      { queue := [⟨.forward, 0⟩], forward := [rivalPage], turn := .admitted
        turnRec := some { dir := .forward, page := rivalPage, ofRest := true } }
    rsc := { part := .restTurn, pendingWake := some .alarm } }

def rivalBurst : Burst := { client := .pixel, user := .pixel, write := true, addr := 0, len := 0, data := [] }

def rivalEnd : State := complete rivalBurst .okay [] rival

theorem rivalEnd_list : rivalEnd.upe.list.map (fun e => (e.id, e.st, e.key)) =
    [(0, .noRoom, some ⟨0, .gray, 5⟩), (1, .loading, some ⟨0, .quick, 5⟩), (2, .loading, some ⟨0, .clear, 5⟩), (3, .sampling, none)] := rfl

theorem rivalEnd_refs : (rivalEnd.store 0).refs = 0 := rfl

theorem rivalEnd_admits : mayAdmit rivalEnd = true := rfl

theorem rivalEnd_old : tempFresh rivalEnd = false := rfl

theorem scan_ids (s : State) : (scan s).upe.list.map Entry.id = s.upe.list.map Entry.id := by
  obtain ⟨requests, -⟩ := scanOnly_scan s
  have ids (l : List Entry) : l.map Entry.id = (l.map Entry.request).map Prod.fst := by
    simp [List.map_map, Function.comp_def, Entry.request]
  rw [ids, requests, ids]

theorem scan_mayAdmit (s : State) : mayAdmit (scan s) = mayAdmit s := by
  obtain ⟨-, d, r, a, tp, bp, en, hi, wq, sq, k, i, w, -, e⟩ := scanOnly_scan s
  rw [e]
  rfl

theorem scan_tempFresh (s : State) : tempFresh (scan s) = tempFresh s := by
  obtain ⟨-, d, r, a, tp, bp, en, hi, wq, sq, k, i, w, -, e⟩ := scanOnly_scan s
  rw [e]
  rfl

/-- No scan leads there from a state in which the ended lane's store entry has its two other references. -/
theorem rivalEnd_not_scan (v : State) (scanned : rivalEnd = scan v) : (v.store 0).refs ≠ 2 := by
  intro refs
  have empty : (v.store 0).state = .empty := by
    by_contra full
    obtain ⟨kept, -⟩ := useStands_scan 0 v (by omega) full
    rw [← scanned, rivalEnd_refs, refs] at kept
    exact absurd kept (by decide)
  have ids : v.upe.list.map Entry.id = [0, 1, 2, 3] := by
    rw [← scan_ids, ← scanned]
    rfl
  obtain ⟨e, l, list, named, others⟩ := List.map_eq_cons_iff.mp ids
  have roomed := roomed_scan list (by rw [named, others]; decide) (by decide : 0 < 4) empty
    (by rw [← scan_mayAdmit, ← scanned]; exact rivalEnd_admits) (by rw [← scan_tempFresh, ← scanned]; exact rivalEnd_old)
  rw [← scanned, named] at roomed
  obtain ⟨f, listed, room⟩ := roomed
  have found : (findListed 0 rivalEnd).map (fun e => (e.st, e.key)) = some (.noRoom, some ⟨0, .gray, 5⟩) := rfl
  rw [listed, Option.map_some] at found
  obtain ⟨st, key⟩ := Prod.mk.inj (Option.some.inj found)
  exact nomatch key.symm.trans (room st)

/-- Refutes O37: the end of an admission pass without a pixel marked is to be a scan of a state in which the lane's store entry has
one reference less. In the state `rival` the pass ends a rest turn with an alarm pending; the wake hands out a waiting press, whose
update's scan loads the store entry just released, which is EMPTY in spite of its references, and clears their count. -/
theorem not_passesBeginAndEnd : ¬ Obligations.PassesBeginAndEnd := by
  unfold Obligations.PassesBeginAndEnd
  intro claim
  obtain ⟨-, ends, -⟩ := claim
  obtain ⟨admission, -, -⟩ := ends [] rival rivalBurst rivalPass rfl rfl rfl rfl rfl
  obtain ⟨-, unmarked⟩ := admission 0 rfl (by decide)
  obtain ⟨v, scanned, -, -, -, refs, -⟩ := unmarked rfl .noChange 17 rfl
  exact rivalEnd_not_scan v scanned refs

end Sys2Proof.Machine

end

section
/-! The settings checks, and what the end of a settings load leads to (sections 1.6 and 11.4). -/

set_option Elab.async false

namespace Sys2Proof.Machine

/-! ### Checks in their order

A row's check may leave aside what an earlier row has found wrong; so the two readings of a row are compared with the earlier rows
holding. -/

/-- The rows `fields` state, in order and by offset, what the rows `checks` test, each where the earlier ones hold. -/
def Tests : List (Nat × Prop) → List (Nat × Bool) → Prop
  | [], checks => checks = []
  | q :: fields, checks => ∃ c l, checks = c :: l ∧ q.1 = c.1 ∧ (q.2 ↔ c.2 = true) ∧ (q.2 → Tests fields l)

/-- The rows agree one by one, whatever the earlier ones find. -/
abbrev TestsEach : List (Nat × Prop) → List (Nat × Bool) → Prop := List.Forall₂ fun q c => q.1 = c.1 ∧ (q.2 ↔ c.2 = true)

theorem TestsEach.append {fields more : List (Nat × Prop)} {checks rest : List (Nat × Bool)} (each : TestsEach fields checks)
    (later : (∀ q ∈ fields, q.2) → Tests more rest) : Tests (fields ++ more) (checks ++ rest) := by
  induction each with
  | nil => exact later (by simp)
  | cons same _ ih =>
    obtain ⟨offset, holds⟩ := same
    exact ⟨_, _, rfl, offset, holds, fun first => ih fun all => later (List.forall_mem_cons.mpr ⟨first, all⟩)⟩

theorem TestsEach.tests {fields : List (Nat × Prop)} {checks : List (Nat × Bool)} (each : TestsEach fields checks) :
    Tests fields checks := by
  simpa using each.append (more := []) (rest := []) fun _ => rfl

theorem testsEach_flatMap {α : Type} {f : α → List (Nat × Prop)} {g : α → List (Nat × Bool)} :
    ∀ l : List α, (∀ x ∈ l, TestsEach (f x) (g x)) → TestsEach (l.flatMap f) (l.flatMap g)
  | [], _ => .nil
  | x :: l, each => by
    rw [List.flatMap_cons, List.flatMap_cons]
    exact List.rel_append (each x List.mem_cons_self) (testsEach_flatMap l fun y mem => each y (List.mem_cons_of_mem x mem))

theorem testsEach_map {α : Type} {f : α → Nat × Prop} {g : α → Nat × Bool} (l : List α)
    (each : ∀ x ∈ l, (f x).1 = (g x).1 ∧ ((f x).2 ↔ (g x).2 = true)) : TestsEach (l.map f) (l.map g) := by
  rw [TestsEach, List.forall₂_map_left_iff, List.forall₂_map_right_iff, List.forall₂_same]
  exact each

theorem Tests.passes : ∀ {fields : List (Nat × Prop)} {checks : List (Nat × Bool)}, Tests fields checks → (∀ q ∈ fields, q.2) →
    checks.find? (fun c => !c.2) = none
  | [], _, tests, _ => by rw [tests]; rfl
  | q :: fields, _, tests, all => by
    obtain ⟨c, l, rfl, -, holds, later⟩ := tests
    have first := all q List.mem_cons_self
    rw [List.find?_cons_of_neg (by simp [holds.mp first])]
    exact (later first).passes fun p mem => all p (List.mem_cons_of_mem q mem)

theorem Tests.fails : ∀ {pre post : List (Nat × Prop)} {q : Nat × Prop} {checks : List (Nat × Bool)}, Tests (pre ++ q :: post) checks →
    (∀ p ∈ pre, p.2) → ¬q.2 → (checks.find? fun c => !c.2).map Prod.fst = some q.1
  | [], _, q, _, tests, _, bad => by
    obtain ⟨c, l, rfl, offset, holds, -⟩ := tests
    rw [List.find?_cons_of_pos (by simpa using mt holds.mpr bad), Option.map_some, offset]
  | p :: pre, _, q, _, tests, all, bad => by
    obtain ⟨c, l, rfl, -, holds, later⟩ := tests
    have first := all p List.mem_cons_self
    rw [List.find?_cons_of_neg (by simp [holds.mp first])]
    exact (later first).fails (fun x mem => all x (List.mem_cons_of_mem p mem)) bad

/-! ### The rows of the settings area (section 11.4) -/

theorem inRange_iff (lo n hi : Nat) : inRange lo n hi = true ↔ lo ≤ n ∧ n ≤ hi := by simp [inRange]

/-- What is to hold of the settings area `l` at BASE `base`, by field offset (R16, R25, R54, R89, R105, R107, R129, R171, R174,
R185). -/
def windowsRead (l : List Byte) : List Window :=
  (List.range 4).map fun w => Window.mk (u32 l (0x010 + 8 * w)) (u32 l (0x014 + 8 * w))

/-- What is to hold of window `w` (R16, R25). -/
def windowFields (l : List Byte) (base w : Nat) : List (Nat × Prop) :=
  [(0x010 + 8 * w, u32 l (0x010 + 8 * w) % 64 = 0 ∧
      (w = 0 → (∃ x ∈ windowsRead l, x.base < x.limit) ∧ rangeIn (windowsRead l) base 4096 = true)),
   (0x014 + 8 * w, u32 l (0x014 + 8 * w) % 64 = 0 ∧ u32 l (0x010 + 8 * w) ≤ u32 l (0x014 + 8 * w))]

def windowTests (s : Settings) (base i : Nat) : List (Nat × Bool) :=
  let w := s.windows.getD i ⟨0, 0⟩
  [(0x010 + 8 * i, w.base % 64 == 0 && (i != 0 || (s.windows.any Window.used && rangeIn s.windows base 4096))),
   (0x014 + 8 * i, w.limit % 64 == 0 && decide (w.base ≤ w.limit))]

theorem windowChecks_eq (s : Settings) (base : Nat) : windowChecks s base = (List.range 4).flatMap (windowTests s base) := rfl

theorem parseSettings_windows (l : List Byte) : (parseSettings l).windows = windowsRead l := rfl

theorem parseSettings_window (l : List Byte) {w : Nat} (inside : w < 4) :
    (parseSettings l).windows.getD w ⟨0, 0⟩ = ⟨u32 l (0x010 + 8 * w), u32 l (0x014 + 8 * w)⟩ := by
  simp [parseSettings, inside]

theorem testsEach_window (l : List Byte) (base : Nat) {w : Nat} (inside : w < 4) :
    TestsEach (windowFields l base w) (windowTests (parseSettings l) base w) := by
  rw [windowTests, parseSettings_window l inside, parseSettings_windows]
  refine .cons ⟨rfl, ?_⟩ (.cons ⟨rfl, ?_⟩ .nil)
  · by_cases first : w = 0
    · simp [first, Window.used]
    · simp [first]
  · simp

/-- What is to hold of the settings of key `k` (R107). -/
def keyFields (l : List Byte) (k : Nat) : List (Nat × Prop) :=
  [(0x060 + 4 * k, u8 l (0x060 + 4 * k) ≤ 4), (0x061 + 4 * k, u8 l (0x061 + 4 * k) ≤ 1),
   (0x062 + 4 * k, 5 ≤ u8 l (0x062 + 4 * k) ∧ u8 l (0x062 + 4 * k) ≤ 100)]

theorem parseSettings_key (l : List Byte) {k : Nat} (inside : k < 4) :
    (parseSettings l).keys.getD k {} = ⟨u8 l (0x060 + 4 * k), u8 l (0x061 + 4 * k), u8 l (0x062 + 4 * k)⟩ := by
  simp [parseSettings, inside]

theorem testsEach_keys (l : List Byte) : TestsEach ((List.range 4).flatMap (keyFields l)) (keyChecks (parseSettings l)) := by
  refine testsEach_flatMap _ fun k mem => ?_
  dsimp only
  rw [parseSettings_key l (List.mem_range.mp mem)]
  exact .cons ⟨rfl, by simp⟩ (.cons ⟨rfl, by simp⟩ (.cons ⟨rfl, by simp [inRange]⟩ .nil))

/-- What is to hold of entry `i` of the gamma table (R129). -/
def gammaField (l : List Byte) (i : Nat) : Nat × Prop :=
  (0x088 + 2 * i, u16 l (0x088 + 2 * i) ≤ 4095 ∧
    if i = 0 then u16 l 0x088 = 0 else u16 l (0x088 + 2 * (i - 1)) ≤ u16 l (0x088 + 2 * i))

theorem parseSettings_gamma (l : List Byte) {i : Nat} (inside : i < 33) :
    (parseSettings l).gamma.getD i 0 = u16 l (0x088 + 2 * i) := by
  simp [parseSettings, inside]

theorem testsEach_gamma (l : List Byte) : TestsEach ((List.range 33).map (gammaField l)) (gammaChecks (parseSettings l)) := by
  refine testsEach_map _ fun i mem => ⟨rfl, ?_⟩
  have inside := List.mem_range.mp mem
  dsimp only [gammaField]
  rw [parseSettings_gamma l inside, parseSettings_gamma l (by omega : i - 1 < 33), parseSettings_gamma l (by omega : 0 < 33)]
  by_cases first : i = 0
  · simp [first]
  · simp [first]

/-- What is to hold of the panel's size (R54). -/
def sizeFields (l : List Byte) : List (Nat × Prop) :=
  [(0x030, 256 ≤ u16 l 0x030 ∧ u16 l 0x030 ≤ 2048 ∧ u16 l 0x030 % 8 = 0), (0x032, 256 ≤ u16 l 0x032 ∧ u16 l 0x032 ≤ 1536)]

def sizeChecks (s : Settings) : List (Nat × Bool) :=
  [(0x030, inRange 256 s.width 2048 && s.width % 8 == 0), (0x032, inRange 256 s.height 1536)]

theorem testsEach_size (l : List Byte) : TestsEach (sizeFields l) (sizeChecks (parseSettings l)) :=
  .cons ⟨rfl, by simp [inRange, and_assoc, parseSettings]⟩ (.cons ⟨rfl, by simp [inRange, parseSettings]⟩ .nil)

/-- What is to hold of the buffer and of the fields up to the low threshold (R16, R54, R89, R171, R174). -/
def panelFields (l : List Byte) : List (Nat × Prop) :=
  [(0x034, u32 l 0x034 % 64 = 0 ∧ rangeIn (windowsRead l) (u32 l 0x034) (2 * u16 l 0x030 * u16 l 0x032) = true),
   (0x038, u8 l 0x038 ≤ 30), (0x039, u8 l 0x039 ≤ 64),
   (0x03A, 50 ≤ u16 l 0x03A ∧ u16 l 0x03A ≤ 2000), (0x03C, 10 ≤ u16 l 0x03C ∧ u16 l 0x03C ≤ 1000),
   (0x03E, 10 ≤ u16 l 0x03E ∧ u16 l 0x03E ≤ 5000), (0x040, 1000 ≤ u16 l 0x040 ∧ u16 l 0x040 ≤ 10000),
   (0x042, 16 ≤ u16 l 0x042 ∧ u16 l 0x042 ≤ 1024), (0x044, -400 ≤ s16 l 0x044 ∧ s16 l 0x044 ≤ 400),
   (0x046, 5 ≤ u16 l 0x046 ∧ u16 l 0x046 ≤ 300), (0x048, 100 ≤ u16 l 0x048 ∧ u16 l 0x048 ≤ 60000),
   (0x04A, 100 ≤ u16 l 0x04A ∧ u16 l 0x04A ≤ 60000), (0x04C, 1000 ≤ u16 l 0x04C ∧ u16 l 0x04C ≤ 9000)]

def panelChecks (s : Settings) : List (Nat × Bool) :=
  [(0x034, s.buffer % 64 == 0 && (!sizeOk s || rangeIn s.windows s.buffer (2 * s.width * s.height))),
   (0x038, decide (s.cadence ≤ 30)), (0x039, decide (s.verticalBlank ≤ 64)), (0x03A, inRange 50 s.linePeriod 2000),
   (0x03C, inRange 10 s.stretchLimit 1000), (0x03E, inRange 10 s.idleHold 5000), (0x040, inRange 1000 s.vscale 10000),
   (0x042, inRange 16 s.tslope 1024), (0x044, decide (-400 ≤ s.toffset) && decide (s.toffset ≤ 400)),
   (0x046, inRange 5 s.tempMaxAge 300), (0x048, inRange 100 s.batteryInterval 60000),
   (0x04A, inRange 100 s.restBatteryInterval 60000), (0x04C, inRange 1000 s.lowThreshold 9000)]

theorem testsEach_panel (l : List Byte) (size : ∀ q ∈ sizeFields l, q.2) : TestsEach (panelFields l) (panelChecks (parseSettings l)) := by
  have sized : sizeOk (parseSettings l) = true := by
    have width : 256 ≤ u16 l 0x030 ∧ u16 l 0x030 ≤ 2048 ∧ u16 l 0x030 % 8 = 0 := size (0x030, _) List.mem_cons_self
    have height : 256 ≤ u16 l 0x032 ∧ u16 l 0x032 ≤ 1536 := size (0x032, _) (List.mem_cons_of_mem _ List.mem_cons_self)
    simp [sizeOk, inRange, parseSettings, width, height]
  have buffer : u32 l 0x034 % 64 = 0 ∧ rangeIn (windowsRead l) (u32 l 0x034) (2 * u16 l 0x030 * u16 l 0x032) = true ↔
      ((parseSettings l).buffer % 64 == 0 && (!sizeOk (parseSettings l) || rangeIn (parseSettings l).windows (parseSettings l).buffer
        (2 * (parseSettings l).width * (parseSettings l).height))) = true := by
    rw [sized, parseSettings_windows]
    simp [parseSettings]
  refine .cons ⟨rfl, buffer⟩ ?_
  simp [inRange, parseSettings]

/-- What is to hold of the critical threshold and the hysteresis (R174). -/
def supplyFields (l : List Byte) : List (Nat × Prop) :=
  [(0x04E, 1000 ≤ u16 l 0x04E ∧ u16 l 0x04E ≤ 9000 ∧ u16 l 0x04E < u16 l 0x04C), (0x050, u16 l 0x050 ≤ 1000)]

def supplyChecks (s : Settings) : List (Nat × Bool) :=
  [(0x04E, inRange 1000 s.criticalThreshold 9000 &&
      (!inRange 1000 s.lowThreshold 9000 || decide (s.criticalThreshold < s.lowThreshold))),
   (0x050, decide (s.hysteresis ≤ 1000))]

theorem testsEach_supply (l : List Byte) (panel : ∀ q ∈ panelFields l, q.2) :
    TestsEach (supplyFields l) (supplyChecks (parseSettings l)) := by
  have low : 1000 ≤ u16 l 0x04C ∧ u16 l 0x04C ≤ 9000 := panel (0x04C, _) (by simp [panelFields])
  refine .cons ⟨rfl, ?_⟩ (.cons ⟨rfl, by simp [parseSettings]⟩ .nil)
  simp [inRange, parseSettings, low, and_assoc]

/-- What is to hold of the settings between the keys and the gamma table (R105, R120, R129). -/
def lightFields (l : List Byte) : List (Nat × Prop) :=
  [(0x070, u8 l 0x070 ≤ 1), (0x080, u16 l 0x080 ≤ 1000), (0x082, u16 l 0x082 ≤ 10000), (0x084, u16 l 0x084 ≤ 10000),
   (0x086, 1 ≤ u16 l 0x086 ∧ u16 l 0x086 ≤ 1000)]

def lightChecks (s : Settings) : List (Nat × Bool) :=
  [(0x070, decide (s.quickTurn ≤ 1)), (0x080, decide (s.lowCeiling ≤ 1000)), (0x082, decide (s.ceilingFade ≤ 10000)),
   (0x084, decide (s.keyFade ≤ 10000)), (0x086, inRange 1 s.keyDefaultLevel 1000)]

theorem testsEach_light (l : List Byte) : TestsEach (lightFields l) (lightChecks (parseSettings l)) := by
  simp [lightFields, lightChecks, inRange, parseSettings]

/-- What is to hold of the last settings (R165, R185). -/
def restFields (l : List Byte) : List (Nat × Prop) :=
  [(0x0D2, 1 ≤ u16 l 0x0D2 ∧ u16 l 0x0D2 ≤ 600), (0x0E0, u16 l 0x0E0 ≤ 10000),
   (0x0E2, 1 ≤ u8 l 0x0E2 ∧ u8 l 0x0E2 ≤ 60), (0x0E3, 1 ≤ u8 l 0x0E3 ∧ u8 l 0x0E3 ≤ 100)]

def restChecks (s : Settings) : List (Nat × Bool) :=
  [(0x0D2, inRange 1 s.stallLimit 600), (0x0E0, decide (s.restFade ≤ 10000)), (0x0E2, inRange 1 s.quiesceLimit 60),
   (0x0E3, inRange 1 s.memoryTimeout 100)]

theorem testsEach_rest (l : List Byte) : TestsEach (restFields l) (restChecks (parseSettings l)) := by
  simp [restFields, restChecks, inRange, parseSettings]

/-- What is to hold of the settings area `l` at BASE `base`, in the order of the offsets. -/
def settingsFields (l : List Byte) (base : Nat) : List (Nat × Prop) :=
  (List.range 4).flatMap (windowFields l base) ++ (sizeFields l ++ (panelFields l ++ (supplyFields l ++
    ((List.range 4).flatMap (keyFields l) ++ (lightFields l ++ ((List.range 33).map (gammaField l) ++ restFields l))))))

theorem settingsChecks_eq (s : Settings) (base : Nat) : settingsChecks s base = windowChecks s base ++ (sizeChecks s ++
    (panelChecks s ++ (supplyChecks s ++ (keyChecks s ++ (lightChecks s ++ (gammaChecks s ++ restChecks s)))))) := by
  simp only [settingsChecks, List.append_assoc]
  rfl

theorem tests_settings (l : List Byte) (base : Nat) : Tests (settingsFields l base) (settingsChecks (parseSettings l) base) := by
  have windows : TestsEach ((List.range 4).flatMap (windowFields l base)) (windowChecks (parseSettings l) base) := by
    rw [windowChecks_eq]
    exact testsEach_flatMap _ fun w mem => testsEach_window l base (List.mem_range.mp mem)
  rw [settingsFields, settingsChecks_eq]
  exact windows.append fun _ => (testsEach_size l).append fun size => (testsEach_panel l size).append fun panel =>
    (testsEach_supply l panel).append fun _ => (testsEach_keys l).append fun _ => (testsEach_light l).append fun _ =>
    (testsEach_gamma l).append fun _ => (testsEach_rest l).tests

theorem settings_judged (l : List Byte) (base : Nat) :
    ((∀ q ∈ settingsFields l base, q.2) → settingsFailure (parseSettings l) base = none) ∧
    (∀ pre q post, settingsFields l base = pre ++ q :: post → (∀ p ∈ pre, p.2) → ¬q.2 →
      settingsFailure (parseSettings l) base = some q.1) := by
  refine ⟨fun all => by rw [settingsFailure, (tests_settings l base).passes all, Option.map_none], fun pre q post split all bad => ?_⟩
  have tests := tests_settings l base
  rw [split] at tests
  exact tests.fails all bad

end Sys2Proof.Machine

end

section
/-! The settings applied, block by block (R14, R17, R18, R54, R107, R132, R174, R176). -/

set_option Elab.async false

namespace Sys2Proof.Machine

/-! ### Settings held (R14, R16, R141, R174, R179) -/

/-- The Measurement Unit when the new settings are held: the temperature sample is `x`, and a changed threshold or hysteresis clears
the debounce counts (R174). -/
def State.recounted (n : Settings) (x : Option TempSample) (s : State) : Meu :=
  if s.cfg.lowThreshold = n.lowThreshold ∧ s.cfg.criticalThreshold = n.criticalThreshold ∧ s.cfg.hysteresis = n.hysteresis
  then { s.meu with temperature := x }
  else { s.meu with temperature := x, down := 0, deep := false, up := 0, high := false }

/-- The new settings held by every block. -/
def State.held (n : Settings) (x : Option TempSample) (s : State) : State :=
  { s with
    settings := some n
    sif := { s.sif with
      live := true, mask := BitVec.ofNat 12 n.mask, int := intOf (BitVec.ofNat 12 n.mask) s.sif.posted s.sif.acked }
    ltu.gammaDirty := s.ltu.gammaDirty || n.gamma != s.cfg.gamma
    meu := s.recounted n x }

theorem markAged_eq (s : State) : ∃ x, markAged s = { s with meu.temperature := x } := by
  unfold markAged
  split
  · next t h =>
    split
    · exact ⟨_, rfl⟩
    · exact ⟨_, rfl⟩
  · exact ⟨_, rfl⟩

theorem thresholdsDiffer_iff (a b : Settings) : thresholdsDiffer a b = true ↔
    ¬(a.lowThreshold = b.lowThreshold ∧ a.criticalThreshold = b.criticalThreshold ∧ a.hysteresis = b.hysteresis) := by
  simp only [thresholdsDiffer, Bool.or_eq_true, bne_iff_ne, ne_eq]
  tauto

theorem holdSettings_eq (n : Settings) (s : State) : ∃ x, holdSettings n s = s.held n x := by
  unfold holdSettings
  dsimp only
  by_cases differ : thresholdsDiffer s.cfg n = true
  · rw [if_pos differ]
    obtain ⟨x, e⟩ := markAged_eq (evalInt { s with
      settings := some n, sif.live := true, sif.mask := BitVec.ofNat 12 n.mask
      ltu.gammaDirty := s.ltu.gammaDirty || n.gamma != s.cfg.gamma
      meu.down := 0, meu.deep := false, meu.up := 0, meu.high := false })
    refine ⟨x, e.trans ?_⟩
    rw [State.held, State.recounted, if_neg ((thresholdsDiffer_iff _ _).mp differ)]
    rfl
  · rw [if_neg differ]
    obtain ⟨x, e⟩ := markAged_eq (evalInt { s with
      settings := some n, sif.live := true, sif.mask := BitVec.ofNat 12 n.mask
      ltu.gammaDirty := s.ltu.gammaDirty || n.gamma != s.cfg.gamma })
    refine ⟨x, e.trans ?_⟩
    rw [State.held, State.recounted, if_pos (not_not.mp (mt (thresholdsDiffer_iff _ _).mpr differ))]
    rfl

/-! ### The key lines, one after another (R107, R109) -/

/-- The lines with `g` applied to each of the first `n`. -/
def linesTouched (g : Nat → KeyLine → KeyLine) (n : Nat) (m : List KeyLine) : List KeyLine :=
  (List.range n).foldl (fun m i => m.set i (g i (m.getD i {}))) m

theorem linesTouched_line {g : Nat → KeyLine → KeyLine} {m : List KeyLine} (four : m.length = 4) {i : Nat} (inside : i < 4) :
    (linesTouched g 4 m).getD i {} = g i (m.getD i {}) := by
  match m, four with
  | [a, b, c, d], _ => interval_cases i <;> rfl

/-- A step per line that touches its line alone, in a way that the other lines do not tell, touches every line once. -/
theorem foldl_lines {f : State → Nat → State} {g : Nat → KeyLine → KeyLine} {s : State}
    (each : ∀ m i, f { s with ktu.lines := m } i = { s with ktu.lines := m.set i (g i (m.getD i {})) }) (n : Nat) :
    (List.range n).foldl f s = { s with ktu.lines := linesTouched g n s.ktu.lines } := by
  unfold linesTouched
  exact (List.foldl_hom (fun m : List KeyLine => ({ s with ktu.lines := m } : State)) fun m i => (each m i)).symm ▸ rfl

theorem set_getD_self (m : List KeyLine) (i : Nat) : m.set i (m.getD i {}) = m := by
  by_cases inside : i < m.length
  · simp [inside]
  · exact List.set_eq_of_length_le (Nat.le_of_not_lt inside)

/-- A line in IDLE whose level is active under the key setting `q` bounces from the part time `now` on (R108, R109). -/
def KeyLine.watched (q : KeySetting) (now : Word) (k : KeyLine) : KeyLine :=
  if k.state = .idle ∧ keyActive q.polarity k.level = true then ⟨k.level, .bouncing, some ⟨now, q.debounce⟩⟩ else k

theorem lineBounce_lines (s : State) (m : List KeyLine) (i : Nat) : lineBounce i { s with ktu.lines := m } =
    { s with ktu.lines := m.set i ((m.getD i {}).watched (s.cfg.keys.getD i {}) s.partTime) } := by
  unfold lineBounce KeyLine.watched
  dsimp only
  by_cases bounces : (m.getD i {}).state = .idle ∧ keyActive (s.cfg.keys.getD i {}).polarity (m.getD i {}).level = true
  · rw [if_pos bounces]
    exact if_pos bounces
  · rw [if_neg bounces, set_getD_self]
    exact if_neg bounces

/-- What a changed polarity makes of a line (R107). -/
def KeyLine.repolarized (o q : KeySetting) (now : Word) (k : KeyLine) : KeyLine :=
  if o.polarity = q.polarity then k else ({ k with state := .idle, timer := none } : KeyLine).watched q now

theorem repolarize_lines (o n : Settings) {s : State} (cfg : s.cfg = n) (m : List KeyLine) (i : Nat) :
    repolarize o n { s with ktu.lines := m } i =
      { s with ktu.lines := m.set i ((m.getD i {}).repolarized (o.keys.getD i {}) (n.keys.getD i {}) s.partTime) } := by
  unfold repolarize KeyLine.repolarized
  split
  · rw [set_getD_self]
  · have bounced := lineBounce_lines s (m.set i { m.getD i {} with state := .idle, timer := none }) i
    refine Eq.trans (show linePolarity i { s with ktu.lines := m } = _ from bounced) ?_
    rw [List.set_set, cfg]
    by_cases inside : i < m.length
    · have line : (m.set i ({ m.getD i {} with state := .idle, timer := none } : KeyLine)).getD i {} =
          { m.getD i {} with state := .idle, timer := none } := by simp [inside]
      rw [line]
    · rw [List.set_eq_of_length_le (Nat.le_of_not_lt inside), List.set_eq_of_length_le (Nat.le_of_not_lt inside)]

theorem repolarized_eq (o q : KeySetting) (now : Word) (k : KeyLine) : k.repolarized o q now =
    if o.polarity = q.polarity then k
    else if keyActive q.polarity k.level = true then ⟨k.level, .bouncing, some ⟨now, q.debounce⟩⟩ else ⟨k.level, .idle, none⟩ := by
  simp [KeyLine.repolarized, KeyLine.watched]

/-! ### A new geometry (R17, R54, R119) -/

theorem geometryDiffers_iff (a b : Settings) : geometryDiffers a b = true ↔
    a.width ≠ b.width ∨ a.height ≠ b.height ∨ a.buffer ≠ b.buffer := by
  simp [geometryDiffers, or_assoc]

theorem sizeDiffers_iff (a b : Settings) : sizeDiffers a b = true ↔ a.width ≠ b.width ∨ a.height ≠ b.height := by
  simp [sizeDiffers]

theorem panelBusy_iff (s : State) : panelBusy s = true ↔ (∃ q ∈ s.upe.lanes, q.state ≠ .free) ∨ s.upe.list ≠ [] := by
  simp [panelBusy, allLanesFree, Lane.isFree]

/-- The current page and the page lists forgotten. -/
def State.resized (o n : Settings) (s : State) : State :=
  if sizeDiffers o n = true then { s with upe.current := none, ktu.forward := [], ktu.backward := [] } else s

theorem resize_cases {p : State → Prop} (o n : Settings) (s : State) (set : p (s.resized o n)) (asked : ∀ t, p t → p (ask .panel t)) :
    p (resize o n s) := by
  unfold resize
  unfold State.resized at set
  split
  · next differ =>
    rw [if_pos differ] at set
    dsimp only
    split
    · exact set
    · exact asked _ set
  · next same =>
    rw [if_neg same] at set
    exact set

theorem sansStatus_resized (o n : Settings) (s : State) : (s.resized o n).sansStatus = s.sansStatus.resized o n := by
  unfold State.resized
  split <;> rfl

theorem resize_sansStatus (o n : Settings) (s : State) : (resize o n s).sansStatus = (s.resized o n).sansStatus :=
  resize_cases (p := fun t => t.sansStatus = _) o n s rfl fun t h => (sansStatus_ask .panel t).trans h

theorem sansStatus_requestSweep (s : State) : (requestSweep s).sansStatus = requestSweep s.sansStatus := by
  unfold requestSweep
  by_cases idle : s.upe.pass.isNone = true
  · rw [if_pos idle]
    exact (if_pos idle).symm
  · rw [if_neg idle]
    exact (if_neg idle).symm

/-- A new geometry's effect without its requests for the panel status (R54, R81). -/
def State.regeared (o n : Settings) (s : State) : State :=
  if geometryDiffers o n = true then
    requestSweep (({ s with upe.uncertain := true, upe.lanes := s.unnoted } : State).resized o n)
  else s

theorem regeometry_sansStatus (o n : Settings) (s : State) : (regeometry o n s).sansStatus = (s.regeared o n).sansStatus := by
  unfold regeometry State.regeared
  split
  · rw [sansStatus_requestSweep, resize_sansStatus, sansStatus_resized, setUncertain_sansStatus, ← sansStatus_resized,
      ← sansStatus_requestSweep]
  · rfl

theorem sansStatus_regeared (o n : Settings) (s : State) : (s.regeared o n).sansStatus = s.sansStatus.regeared o n := by
  unfold State.regeared
  split
  · rw [sansStatus_requestSweep, sansStatus_resized]
    rfl
  · rfl

theorem ends_setUncertain {c : Chain} (s : State) : Ends c [] s (setUncertain s) := by
  have set : Ends c [] s { s with
      upe.uncertain := true, upe.lanes := s.upe.lanes.map fun l => if l.isFree then l else { l with note := false } } :=
    Ends.refl.congr (chain := by cases c <;> rfl)
  unfold setUncertain
  split
  · exact set
  · exact set.ask .panel

theorem ends_requestSweep {c : Chain} (s : State) : Ends c [] s (requestSweep s) := by
  unfold requestSweep
  split
  · exact Ends.refl.congr (chain := by cases c <;> rfl)
  · exact Ends.refl.congr (chain := by cases c <;> rfl)

theorem ends_resize {c : Chain} (o n : Settings) (s : State) : Ends c [] s (resize o n s) := by
  have set : Ends c [] s (s.resized o n) := by
    unfold State.resized
    split
    · exact Ends.refl.congr (chain := by cases c <;> rfl)
    · exact .refl
  exact resize_cases (p := Ends c [] s) o n s set fun _ h => h.ask .panel

theorem ends_regeometry {c : Chain} (o n : Settings) (s : State) : Ends c [] s (regeometry o n s) := by
  unfold regeometry
  split
  · exact ((ends_setUncertain s).trans (ends_resize o n _)).trans (ends_requestSweep _)
  · exact .refl

/-- The sweep of a new geometry begins at once, or waits for the pass that runs (R54, entry 24). -/
theorem requestSweep_eq (s : State) :
    (s.upe.pass = none → ∃ p : Pass, p.kind = .sweep true false ∧ p.row = 0 ∧ p.geom = s.geom ∧
      requestSweep s = { s with upe.pass := some p }) ∧
    (s.upe.pass ≠ none → requestSweep s = { s with upe.sweepWaiting := true }) := by
  unfold requestSweep
  refine ⟨fun idle => ⟨_, ?_, ?_, ?_, if_pos (by simp [idle])⟩, fun busy => if_neg (by simpa [Option.isNone_iff_eq_none] using busy)⟩
    <;> rfl

end Sys2Proof.Machine

end

section
/-! How a settings load ends (R16, R17, R18, R104). -/

set_option Elab.async false

namespace Sys2Proof.Machine

/-! ### A new geometry, field by field -/

/-- A new geometry changes the Update Engine and the page lists alone. -/
theorem regeared_frame (o n : Settings) (s : State) : s.regeared o n = { s with
    upe := (s.regeared o n).upe, ktu.forward := (s.regeared o n).ktu.forward, ktu.backward := (s.regeared o n).ktu.backward } := by
  unfold State.regeared
  split
  · have swept (t : State) : requestSweep t = { t with upe := (requestSweep t).upe } := by
      unfold requestSweep
      split <;> rfl
    rw [swept]
    unfold State.resized
    split <;> rfl
  · rfl

theorem regeared_same {o n : Settings} {s : State} (same : ¬geometryDiffers o n = true) : s.regeared o n = s := if_neg same

/-- What a new geometry makes of the Update Engine and of the page lists (R54, R81, R119). -/
theorem regeared_spec {o n : Settings} {s : State} (differs : geometryDiffers o n = true) :
    let t := s.regeared o n
    t.upe.uncertain = true ∧ t.upe.list = s.upe.list ∧ t.upe.cadence = s.upe.cadence ∧ t.upe.lanes = s.unnoted ∧
      t.upe.current = (if sizeDiffers o n = true then none else s.upe.current) ∧
      t.ktu.forward = (if sizeDiffers o n = true then [] else s.ktu.forward) ∧
      t.ktu.backward = (if sizeDiffers o n = true then [] else s.ktu.backward) ∧
      (s.upe.pass = none → ∃ p : Pass, t.upe.pass = some p ∧ p.kind = .sweep true false ∧ p.row = 0 ∧ p.geom = s.geom) ∧
      (s.upe.pass ≠ none → t.upe.pass = s.upe.pass ∧ t.upe.sweepWaiting = true) := by
  intro t
  have fields (u : State) : (requestSweep u).upe.uncertain = u.upe.uncertain ∧ (requestSweep u).upe.list = u.upe.list ∧
      (requestSweep u).upe.cadence = u.upe.cadence ∧ (requestSweep u).upe.lanes = u.upe.lanes ∧
      (requestSweep u).upe.current = u.upe.current ∧ (requestSweep u).ktu = u.ktu := by
    unfold requestSweep
    split <;> exact ⟨rfl, rfl, rfl, rfl, rfl, rfl⟩
  have swept : t = requestSweep (({ s with upe.uncertain := true, upe.lanes := s.unnoted } : State).resized o n) := if_pos differs
  rw [swept]
  obtain ⟨uncertain, list, cadence, lanes, current, ktu⟩ :=
    fields (({ s with upe.uncertain := true, upe.lanes := s.unnoted } : State).resized o n)
  obtain ⟨begins, waits⟩ := requestSweep_eq (({ s with upe.uncertain := true, upe.lanes := s.unnoted } : State).resized o n)
  rw [uncertain, list, cadence, lanes, current, ktu]
  have pass : (({ s with upe.uncertain := true, upe.lanes := s.unnoted } : State).resized o n).upe.pass = s.upe.pass ∧
      (({ s with upe.uncertain := true, upe.lanes := s.unnoted } : State).resized o n).geom = s.geom := by
    unfold State.resized
    split <;> exact ⟨rfl, rfl⟩
  obtain ⟨pass, geom⟩ := pass
  rw [pass, geom] at begins
  rw [pass] at waits
  refine ⟨?_, ?_, ?_, ?_, ?_, ?_, ?_, fun idle => ?_, fun busy => ?_⟩
  iterate 7
    unfold State.resized
    split <;> rfl
  · obtain ⟨p, kind, row, geometry, e⟩ := begins idle
    exact ⟨p, by rw [e], kind, row, geometry⟩
  · rw [waits busy]
    exact ⟨pass, rfl⟩

/-- No lane of a new geometry is ARMING that was not before. -/
theorem regeared_arming {o n : Settings} {s : State} (still : ∀ q ∈ s.upe.lanes, q.state ≠ .arming) :
    ∀ q ∈ (s.regeared o n).upe.lanes, q.state ≠ .arming := by
  by_cases differs : geometryDiffers o n = true
  · obtain ⟨-, -, -, lanes, -⟩ := regeared_spec (s := s) differs
    rw [lanes]
    intro q mem
    obtain ⟨p, listed, rfl⟩ := List.mem_map.mp mem
    split <;> exact still p listed
  · rw [regeared_same differs]
    exact still

/-! ### What the application of settings comes to -/

/-- The settings `n` are held from `s` to `t`: the mask and INT follow, and the debounce counts and the gamma table's mark; main
memory, part time, the burst in flight, the store, the scanner and the Download Channel stand (R14, R16, R141, R174). -/
def SettingsApplied (n : Settings) (s t : State) : Prop :=
  t.settings = some n ∧ t.sif.live = true ∧ t.sif.mask = BitVec.ofNat 12 n.mask ∧
  t.sif.int = intOf t.sif.mask t.sif.posted t.sif.acked ∧
  (if s.cfg.lowThreshold = n.lowThreshold ∧ s.cfg.criticalThreshold = n.criticalThreshold ∧ s.cfg.hysteresis = n.hysteresis
    then t.meu.down = s.meu.down ∧ t.meu.deep = s.meu.deep ∧ t.meu.up = s.meu.up ∧ t.meu.high = s.meu.high
    else t.meu.down = 0 ∧ t.meu.deep = false ∧ t.meu.up = 0 ∧ t.meu.high = false) ∧
  t.ltu.gammaDirty = (s.ltu.gammaDirty || n.gamma != s.cfg.gamma) ∧
  (t.mem = s.mem ∧ t.partTime = s.partTime ∧ t.mpt.inflight = s.mpt.inflight ∧ t.wfs = s.wfs ∧ t.fsc = s.fsc ∧ t.dlc = s.dlc)

theorem recounted_counts (n : Settings) (x : Option TempSample) (s : State) :
    (if s.cfg.lowThreshold = n.lowThreshold ∧ s.cfg.criticalThreshold = n.criticalThreshold ∧ s.cfg.hysteresis = n.hysteresis
    then (s.recounted n x).down = s.meu.down ∧ (s.recounted n x).deep = s.meu.deep ∧ (s.recounted n x).up = s.meu.up ∧
      (s.recounted n x).high = s.meu.high
    else (s.recounted n x).down = 0 ∧ (s.recounted n x).deep = false ∧ (s.recounted n x).up = 0 ∧
      (s.recounted n x).high = false) := by
  unfold State.recounted
  split <;> exact ⟨rfl, rfl, rfl, rfl⟩

/-- Apart from the counts and the sample the Measurement Unit stands. -/
theorem recounted_stands (n : Settings) (x : Option TempSample) (s : State) :
    ({ s.recounted n x with
      temperature := s.meu.temperature, down := s.meu.down, deep := s.meu.deep, up := s.meu.up, high := s.meu.high } : Meu) = s.meu := by
  unfold State.recounted
  split <;> rfl

theorem intLaw_iff (s : State) : s.intLaw = true ↔ s.sif.int = intOf s.sif.mask s.sif.posted s.sif.acked := beq_iff_eq

theorem intLaw_of_sansStatus {s t : State} (same : t.sansStatus = s.sansStatus) : t.intLaw = s.intLaw := by
  have int := (congrArg (fun x : State => x.sif.int) same :)
  have mask := (congrArg (fun x : State => x.sif.mask) same :)
  have posted := (congrArg (fun x : State => x.sif.posted) same :)
  have acked := (congrArg (fun x : State => x.sif.acked) same :)
  exact (congr (congr (congr (congrArg (fun (i : Bool) m p a => i == intOf m p a) int) mask) posted) acked :)

theorem intLaw_finalize {c : Chain} {r : Nat} {l : List (Nat × List Byte)} {x : Code} {s : State} (law : s.intLaw = true) :
    (finalize c r l x s).intLaw = true := by
  rw [intLaw_iff] at law ⊢
  obtain ⟨f, y, w, q, e⟩ := finalize_eq c r l x s
  rw [e]
  cases c <;> (dsimp only [State.setChain]; split <;> first | exact law | rfl)

/-- The application ends in a state that looks like `u` but for the requests and the free values taken. -/
theorem SettingsApplied.congr {n : Settings} {s t u : State} (h : SettingsApplied n s u) (law : t.intLaw = true) {f : Nat}
    (rest : t.sansRequests = ({ u with fresh := f } : State).sansRequests) : SettingsApplied n s t := by
  obtain ⟨settings, live, mask, -, counts, gamma, mem, time, burst, wfs, fsc, dlc⟩ := h
  have meu : t.meu = u.meu := (congrArg State.meu rest :)
  refine ⟨(congrArg State.settings rest :).trans settings, (congrArg (fun x : State => x.sif.live) rest :).trans live,
    (congrArg (fun x : State => x.sif.mask) rest :).trans mask, (intLaw_iff t).mp law, by rw [meu]; exact counts,
    (congrArg (fun x : State => x.ltu.gammaDirty) rest :).trans gamma, (congrArg State.mem rest :).trans mem,
    (congrArg State.partTime rest :).trans time, (congrArg (fun x : State => x.mpt.inflight) rest :).trans burst,
    (congrArg State.wfs rest :).trans wfs, (congrArg State.fsc rest :).trans fsc, (congrArg State.dlc rest :).trans dlc⟩

theorem settingsApplied_held (n : Settings) (x : Option TempSample) (s : State) : SettingsApplied n s (s.held n x) :=
  ⟨rfl, rfl, rfl, rfl, recounted_counts n x s, rfl, rfl, rfl, rfl, rfl, rfl, rfl⟩

/-! ### A SETTINGS request applied (R17, R54, R107, R132) -/

/-- The key lines after the application of `n` by a request: those whose polarity has changed start afresh (R107). -/
def State.relined (n : Settings) (s : State) : List KeyLine :=
  linesTouched (fun i k => k.repolarized (s.cfg.keys.getD i {}) (n.keys.getD i {}) s.partTime) 4 s.ktu.lines

/-- The Light Unit after the application of `n` by a request: the ceiling follows a changed low ceiling (R132, R133). -/
def State.receiled (n : Settings) (s : State) : Ltu :=
  let l : Ltu := { s.ltu with gammaDirty := s.ltu.gammaDirty || n.gamma != s.cfg.gamma }
  if s.cfg.lowCeiling = n.lowCeiling then l else l.ceiled (ceilingOf n s.meu.supply) n.ceilingFade

/-- The settings of a request applied, without the status writes asked for. -/
def State.reapplied (n : Settings) (x : Option TempSample) (s : State) : State :=
  ({ s.held n x with ktu.lines := s.relined n, ltu := s.receiled n } : State).regeared s.cfg n

theorem recounted_supply (n : Settings) (x : Option TempSample) (s : State) : (s.recounted n x).supply = s.meu.supply := by
  unfold State.recounted
  split <;> rfl

theorem ends_held {c : Chain} (n : Settings) (x : Option TempSample) (m : List KeyLine) (s : State) :
    Ends c [] s { s.held n x with ktu.lines := m } := Ends.refl.congr (chain := by cases c <;> rfl)

theorem applyRequest_eq (r : Nat) (n : Settings) (s : State) : ∃ x v, applyRequest r n s = leaveLocked (endSettings r .done v) ∧
    v.sansStatus = (s.reapplied n x).sansStatus ∧ Ends .control [] s v := by
  obtain ⟨x, held⟩ := holdSettings_eq n s
  have lines : (List.range 4).foldl (repolarize s.cfg n) (holdSettings n s) = { s.held n x with ktu.lines := s.relined n } := by
    rw [held]
    exact foldl_lines (s := s.held n x) (fun m i => repolarize_lines s.cfg n rfl m i) 4
  let u : State := { s.held n x with ktu.lines := s.relined n }
  let v : State := if s.cfg.lowCeiling = n.lowCeiling then u else setCeiling u
  have light : v.sansStatus = ({ s.held n x with ktu.lines := s.relined n, ltu := s.receiled n } : State).sansStatus := by
    unfold v State.receiled
    dsimp only
    split
    · rfl
    · rw [setCeiling_sansStatus]
      unfold u State.held
      rw [recounted_supply]
      rfl
  have asked : Ends .control [] u v := by
    unfold v
    split
    · exact .refl
    · exact ends_setCeiling
  have from_s : Ends .control [] s u := ends_held n x _ s
  refine ⟨x, regeometry s.cfg n v, ?_, ?_, (from_s.trans asked).trans (ends_regeometry _ _ _)⟩
  · unfold applyRequest
    dsimp only
    rw [lines]
  · rw [regeometry_sansStatus, sansStatus_regeared, light, ← sansStatus_regeared]
    rfl

theorem settingsApplied_reapplied (n : Settings) (x : Option TempSample) (s : State) : SettingsApplied n s (s.reapplied n x) := by
  have gamma : (s.receiled n).gammaDirty = (s.ltu.gammaDirty || n.gamma != s.cfg.gamma) := by
    unfold State.receiled
    dsimp only
    split
    · rfl
    · unfold Ltu.ceiled
      split
      · rfl
      · split <;> rfl
  rw [State.reapplied, regeared_frame]
  exact ⟨rfl, rfl, rfl, rfl, recounted_counts n x s, gamma, rfl, rfl, rfl, rfl, rfl, rfl⟩

/-- The end of a SETTINGS record takes a free result (entry 12). -/
theorem endSettings_spec {s v : State} {r : Nat} {code : Code} (asked : Ends .control [] s v) :
    (∃ o : BitVec 10, endsBy .control [(r, [(6, le16 o.toNat)], code.num)] s (endSettings r code v)) ∧
    (endSettings r code v).sansRequests = ({ v with fresh := v.fresh + 1 } : State).sansRequests := by
  have taken : Ends .control [] s { v with fresh := v.fresh + 1 } := asked.congr
  exact ⟨⟨Config.freeOffset v.fresh, (taken.finalize r _ code).endsBy⟩, sansRequests_finalize _ _ _ _ _⟩

theorem endSettings_posted {s v : State} {r : Nat} {code : Code} (posted : v.sif.posted = s.sif.posted) (port : portOpen v = portOpen s) :
    (endSettings r code v).sif.posted = s.postedBy .control 1 :=
  (finalize_postedBy _ _ _ _ _).trans (postedBy_congr (t := { v with fresh := v.fresh + 1 }) .control 1 posted port)

theorem nextLoad_idle {s : State} (none : s.sif.loadQueue = []) : nextLoad s = s := by
  unfold nextLoad
  rw [none]
  split
  · next h => exact nomatch h
  · rfl

end Sys2Proof.Machine

end

section
/-! The settings area judged: a failed load, a request refused, busy or applied, and the START application (sections 1.6 and 5.4). -/

set_option Elab.async false

namespace Sys2Proof.Machine

/-! ### A load that fails (R16, R17, R18) -/

theorem loadFailed_start {s : State} (starting : s.rsc.part = .starting) (o : Nat) : loadFailed .start o s = { s with
    sif.err := true, sif.errOffset := BitVec.ofNat 10 o, rsc.part := .stopped, meu.tempTimer := none } := by
  rw [loadFailed, setPart_eq, if_pos (.inl (by rw [show _ = PartState.starting from starting]; rfl)), if_neg (by decide)]

theorem loadFailed_request (r o : Nat) (s : State) : endsBy .control [(r, [(6, le16 o)], 32)] s (loadFailed (.request r) o s) ∧
    (loadFailed (.request r) o s).sif.posted = s.postedBy .control 1 ∧ (loadFailed (.request r) o s).sansRequests = s.sansRequests :=
  ⟨(ends_finalize .control r (settingsResult o) .refusedFormat s).endsBy, finalize_postedBy _ _ _ _ _, sansRequests_finalize _ _ _ _ _⟩

theorem loadQueue_of_sansRequests {s t : State} (h : t.sansRequests = s.sansRequests) : t.sif.loadQueue = s.sif.loadQueue :=
  (congrArg (fun x : State => x.sif.loadQueue) h :)

/-! ### A request applied -/

section
variable {r : Nat} {n : Settings} {s t v : State} {x : Option TempSample}

/-- What a request leaves to its own end: the panel unlocked, or nothing. -/
theorem leaveLocked_unlocked (unlocked : s.pss.rail ≠ .locked) : leaveLocked s = s := if_neg unlocked

theorem relined_line (four : s.ktu.lines.length = 4) {i : Nat} (inside : i < 4) : (s.relined n).getD i {} =
    let k := s.line i
    let q := n.keys.getD i {}
    if (s.cfg.keys.getD i {}).polarity = q.polarity then k
    else if keyActive q.polarity k.level = true then ⟨k.level, .bouncing, some ⟨s.partTime, q.debounce⟩⟩
    else ⟨k.level, .idle, none⟩ := by
  rw [State.relined, linesTouched_line four inside, repolarized_eq]
  rfl

theorem reapplied_line (four : s.ktu.lines.length = 4) {i : Nat} (inside : i < 4) : (s.reapplied n x).line i =
    let k := s.line i
    let q := n.keys.getD i {}
    if (s.cfg.keys.getD i {}).polarity = q.polarity then k
    else if keyActive q.polarity k.level = true then ⟨k.level, .bouncing, some ⟨s.partTime, q.debounce⟩⟩
    else ⟨k.level, .idle, none⟩ := by
  rw [State.reapplied, regeared_frame]
  exact relined_line four inside

theorem reapplied_ltu : (s.reapplied n x).ltu = s.receiled n := by
  rw [State.reapplied, regeared_frame]

theorem reapplied_rsc : (s.reapplied n x).rsc = s.rsc := by
  rw [State.reapplied, regeared_frame]
  rfl

theorem reapplied_pss : (s.reapplied n x).pss = s.pss := by
  rw [State.reapplied, regeared_frame]
  rfl

theorem reapplied_fresh : (s.reapplied n x).fresh = s.fresh := by
  rw [State.reapplied, regeared_frame]
  rfl

theorem reapplied_posted : (s.reapplied n x).sif.posted = s.sif.posted := by
  rw [State.reapplied, regeared_frame]
  rfl

theorem reapplied_loadQueue : (s.reapplied n x).sif.loadQueue = s.sif.loadQueue := by
  rw [State.reapplied, regeared_frame]
  rfl

theorem reapplied_supply : (s.reapplied n x).meu.supply = s.meu.supply := by
  rw [State.reapplied, regeared_frame]
  exact recounted_supply n x s

theorem receiled_stands (still : s.cfg.lowCeiling = n.lowCeiling ∨ ceilingOf n s.meu.supply = s.ltu.ceiling) :
    s.receiled n = { s.ltu with gammaDirty := s.ltu.gammaDirty || n.gamma != s.cfg.gamma } := by
  unfold State.receiled Ltu.ceiled
  dsimp only
  split
  · rfl
  · next moved => rw [if_pos (still.resolve_left moved)]

theorem receiled_moves (low : s.cfg.lowCeiling ≠ n.lowCeiling) (moves : ceilingOf n s.meu.supply ≠ s.ltu.ceiling) :
    (s.receiled n).ceiling = ceilingOf n s.meu.supply ∧ (s.receiled n).light = s.ltu.light ∧
    (s.receiled n).detached = (s.ltu.detached && s.ltu.restDark) ∧
    (s.receiled n).ramp = if s.ltu.restDark = true then s.ltu.ramp
      else some ⟨s.ltu.level, s.ltu.warmth, if s.ltu.keyOff = true then 0 else min s.ltu.lr (ceilingOf n s.meu.supply), s.ltu.mr,
        fadeSteps n.ceilingFade, 0, .ceiling⟩ := by
  unfold State.receiled Ltu.ceiled
  dsimp only
  rw [if_neg low, if_neg moves]
  by_cases dark : s.ltu.restDark = true
  · rw [if_pos dark, if_pos dark]
    exact ⟨rfl, rfl, by simp [dark], rfl⟩
  · rw [if_neg dark, if_neg dark]
    exact ⟨rfl, rfl, by simp [dark], rfl⟩

end

/-- A record ends in a state that looks like `w` but for status writes: what is left is `w` but for the free value taken and what the
finalization and the status writes change. -/
theorem endSettings_leaves {r : Nat} {code : Code} {s v w : State} (same : v.sansStatus = w.sansStatus) (asked : Ends .control [] s v)
    (fresh : w.fresh = s.fresh) (posted : w.sif.posted = s.sif.posted) (law : w.intLaw = true) :
    (∃ o : BitVec 10, Ends .control [(r, [(6, le16 o.toNat)], code.num)] s (endSettings r code v)) ∧
    (endSettings r code v).sif.posted = s.postedBy .control 1 ∧
    (endSettings r code v).sansRequests = ({ w with fresh := s.fresh + 1 } : State).sansRequests ∧
    (endSettings r code v).intLaw = true := by
  have moved : v.fresh = s.fresh := (congrArg State.fresh same :).trans fresh
  have unposted : v.sif.posted = s.sif.posted := (congrArg (fun y : State => y.sif.posted) same :).trans posted
  have taken : Ends .control [] s { v with fresh := v.fresh + 1 } := asked.congr
  refine ⟨⟨Config.freeOffset v.fresh, taken.finalize r _ code⟩, endSettings_posted unposted asked.port, ?_, ?_⟩
  · rw [(endSettings_spec (code := code) (r := r) asked).2, moved]
    exact (congrArg (fun y : State => ({ y with fresh := s.fresh + 1 } : State))
      (sansRequests_of_sansPosts (sansPosts_of_sansStatus same)) :)
  · exact intLaw_finalize (s := { v with fresh := v.fresh + 1 }) ((intLaw_of_sansStatus same).trans law)

/-- A SETTINGS request is applied: what is left is its state, but for what its finalization and status writes change and the panel's
leaving LOCKED (R17). -/
theorem applyRequest_spec (r : Nat) (n : Settings) (s : State) : ∃ x t, applyRequest r n s = leaveLocked t ∧
    (∃ o : BitVec 10, Ends .control [(r, [(6, le16 o.toNat)], 16)] s t) ∧ t.sif.posted = s.postedBy .control 1 ∧
    t.sansRequests = ({ s.reapplied n x with fresh := s.fresh + 1 } : State).sansRequests ∧ t.intLaw = true := by
  obtain ⟨x, v, applied, same, asked⟩ := applyRequest_eq r n s
  obtain ⟨-, -, -, int, -⟩ := settingsApplied_reapplied n x s
  obtain ⟨⟨o, ends⟩, rest⟩ := endSettings_leaves (r := r) (code := .done) same asked reapplied_fresh reapplied_posted
    ((intLaw_iff _).mpr int)
  exact ⟨x, endSettings r .done v, applied, ⟨o, ends⟩, rest⟩

/-! ### The panel leaves LOCKED (R104) -/

theorem ends_railsOn {c : Chain} (s : State) : Ends c [] s (railsOn s) := by
  unfold railsOn
  obtain ⟨x, e⟩ := idleCheck_eq (ask .panel { s with pss.rail := .on, pss.riseTimer := none })
  rw [e]
  have on : Ends c [] s { s with pss.rail := .on, pss.riseTimer := none } := Ends.refl.congr (chain := by cases c <;> rfl)
  exact (on.ask .panel).congr (chain := by cases c <;> rfl)

theorem ends_enterRising {c : Chain} (s : State) : Ends c [] s (enterRising s) := by
  have rising : Ends c [] s { s with pss.rail := .rising, pss.riseTimer := s.timer 20 } := Ends.refl.congr (chain := by cases c <;> rfl)
  unfold enterRising
  dsimp only
  split
  · exact (rising.ask .panel).trans (ends_railsOn _)
  · exact rising.ask .panel

theorem ends_enterOff {c : Chain} (s : State) : Ends c [] s (enterOff s) := by
  have off : Ends c [] s { s with pss.rail := .off } := Ends.refl.congr (chain := by cases c <;> rfl)
  rw [enterOff_eq]
  split
  · exact (off.ask .panel).trans (ends_enterRising _)
  · exact off.ask .panel

theorem supplyOnly_enterOff (s : State) : SupplyOnly s (enterOff s) := by
  have off : SupplyOnly s (ask .panel { s with pss.rail := .off }) := (SupplyOnly.refl _).trans (supplyOnly_ask _)
  rw [enterOff_eq]
  split
  · exact off.trans supplyOnly_enterRising
  · exact off

theorem enterOff_history (s : State) : (enterOff s).pss.history = s.pss.history := by
  rw [enterOff_eq]
  split
  · rw [enterRising_pss]
    split <;> simp
  · rw [ask_pss]

theorem enterOff_still {s : State} (still : ∀ q ∈ s.upe.lanes, q.state ≠ .arming) : (enterOff s).pss.rail = .off := by
  have none : ¬someArming s = true := by simpa [someArming] using still
  rw [enterOff_eq, if_neg none, ask_pss]

end Sys2Proof.Machine

end

section
/-! The START application, and the end of every settings load (sections 1.6, 5.4 and 9.3). -/

set_option Elab.async false

namespace Sys2Proof.Machine

/-! ### The START application (R18, R80, R109, R132, R176) -/

/-- The battery requester begins: its timer runs, and with the ADC IDLE its first conversion begins (R175, R176). -/
theorem startRequester_eq (s : State) : ∃ m : Meu, startRequester s = { s with meu := m } ∧ m.requester = true ∧
    m.batteryTimer = some ⟨s.partTime, batteryPeriod s⟩ ∧ (m.down = s.meu.down ∧ m.deep = s.meu.deep ∧ m.up = s.meu.up ∧
      m.high = s.meu.high) ∧
    (s.meu.adc = none → s.meu.tempPlace = false → s.meu.batteryPlace = false → m.adc = some .battery) := by
  unfold startRequester requestBattery
  split
  · next held =>
    refine ⟨_, rfl, rfl, rfl, ⟨rfl, rfl, rfl, rfl⟩, fun idle _ free => ?_⟩
    simp [idle, free] at held
  · obtain ⟨a, t, b, kicked⟩ := adcKick_eq { s with
      meu.requester := true, meu.batteryTimer := s.timer (batteryPeriod s), meu.batteryPlace := true }
    refine ⟨_, kicked, rfl, rfl, ⟨rfl, rfl, rfl, rfl⟩, fun idle cool _ => ?_⟩
    have adc := congrArg (fun x : State => x.meu.adc) kicked
    unfold adcKick at adc
    simp only [idle, cool, Bool.false_eq_true, if_false, if_true, ne_eq, not_true_eq_false, or_self, Bool.true_eq_false] at adc
    exact adc.symm

/-- The START sweep begins at its first row (R80). -/
theorem startSweep_eq (s : State) : ∃ p : Pass, startSweep s = { s with upe.pass := some p } ∧ p.row = 0 ∧ p.geom = s.geom ∧
    p.kind = .sweep (s.upe.lastSweep != some s.geom) true := by
  unfold startSweep
  cases s.upe.lastSweep != some s.geom <;> exact ⟨_, rfl, rfl, rfl, rfl⟩

theorem startCeiling_sansStatus (s : State) :
    (startCeiling s).sansStatus = ({ s with ltu.ceiling := ceilingOf s.cfg s.meu.supply } : State).sansStatus := by
  unfold startCeiling
  dsimp only
  split
  · next same => rw [same]
  · rw [sansStatus_ask]

theorem ends_startCeiling {c : Chain} (s : State) : Ends c [] s (startCeiling s) := by
  unfold startCeiling
  dsimp only
  split
  · exact .refl
  · exact (Ends.refl.congr (chain := by cases c <;> rfl) : Ends c [] s { s with ltu.ceiling := ceilingOf s.cfg s.meu.supply }).ask .light

/-- The key lines watched under the settings `n` (R109). -/
def State.watched (n : Settings) (s : State) : List KeyLine :=
  linesTouched (fun i k => k.watched (n.keys.getD i {}) s.partTime) 4 s.ktu.lines

/-- The settings of a START load held, with the lines watched and the ceiling set. -/
def State.begun (n : Settings) (x : Option TempSample) (s : State) : State :=
  { s.held n x with
    ktu.lines := s.watched n
    ltu := { s.ltu with gammaDirty := s.ltu.gammaDirty || n.gamma != s.cfg.gamma, ceiling := ceilingOf n s.meu.supply } }

theorem applyStart_eq (n : Settings) (s : State) : ∃ x v, applyStart n s = startSweep (startRequester v) ∧
    v.sansStatus = (s.begun n x).sansStatus ∧ Ends .control [] s v := by
  obtain ⟨x, held⟩ := holdSettings_eq n s
  have lines : (List.range 4).foldl (fun t i => lineBounce i t) (holdSettings n s) = { s.held n x with ktu.lines := s.watched n } := by
    rw [held]
    exact foldl_lines (s := s.held n x) (fun m i => lineBounce_lines (s.held n x) m i) 4
  refine ⟨x, startCeiling { s.held n x with ktu.lines := s.watched n }, ?_, ?_, (ends_held n x _ s).trans (ends_startCeiling _)⟩
  · rw [applyStart, lines]
  · rw [startCeiling_sansStatus]
    unfold State.begun State.held
    rw [recounted_supply]
    rfl

/-- What a START application leaves, but for its status writes (R18, R80, R176). -/
theorem applyStart_spec (n : Settings) (s : State) : ∃ x m p, ∃ t : State, applyStart n s = t ∧ Ends .control [] s t ∧
    t.sansStatus = ({ s.begun n x with meu := m, upe.pass := some p } : State).sansStatus ∧ m.requester = true ∧
    m.batteryTimer = some ⟨s.partTime, if s.rsc.part.restRow then n.restBatteryInterval else n.batteryInterval⟩ ∧
    (m.down = (s.recounted n x).down ∧ m.deep = (s.recounted n x).deep ∧ m.up = (s.recounted n x).up ∧
      m.high = (s.recounted n x).high) ∧
    ((s.recounted n x).adc = none → (s.recounted n x).tempPlace = false → (s.recounted n x).batteryPlace = false →
      m.adc = some .battery) ∧
    p.row = 0 ∧ p.geom = ⟨n.width, n.height, n.buffer⟩ ∧
    p.kind = .sweep (s.upe.lastSweep != some ⟨n.width, n.height, n.buffer⟩) true := by
  obtain ⟨x, v, applied, same, asked⟩ := applyStart_eq n s
  obtain ⟨m, requested, on, timer, counts, kicks⟩ := startRequester_eq v
  obtain ⟨p, swept, row, geom, kind⟩ := startSweep_eq { v with meu := m }
  have meu : v.meu = s.recounted n x := (congrArg State.meu same :)
  have cfg : v.cfg = n := (congrArg State.cfg same :)
  have part : v.rsc.part = s.rsc.part := (congrArg (fun y : State => y.rsc.part) same :)
  have time : v.partTime = s.partTime := (congrArg State.partTime same :)
  have last : v.upe.lastSweep = s.upe.lastSweep := (congrArg (fun y : State => y.upe.lastSweep) same :)
  have geometry : v.geom = ⟨n.width, n.height, n.buffer⟩ := by rw [State.geom, cfg]
  refine ⟨x, m, p, _, applied.trans ((congrArg startSweep requested).trans swept), asked.congr, ?_, on, ?_, ?_, ?_, row, ?_, ?_⟩
  · exact (congrArg (fun y : State => ({ y with meu := m, upe.pass := some p } : State)) same :)
  · rw [timer, batteryPeriod, time, part, cfg]
  · rw [← meu]
    exact counts
  · rw [← meu]
    exact kicks
  · exact geom.trans geometry
  · rw [kind, show ({ v with meu := m } : State).geom = v.geom from rfl, geometry, last]

end Sys2Proof.Machine

end

section
/-! A settings load judged (sections 1.6, 5.4 and 11.4). -/

set_option Elab.async false

namespace Sys2Proof.Machine

/-! ### A settings burst (R16) -/

theorem settingsOkay_next {s : State} {d : SettingsLoad} {c : Nat × Nat} {left : List (Nat × Nat)} (load : s.sif.load = some d)
    (more : d.left = c :: left) (data : List Byte) : settingsOkay data s = { s with
      sif.load := some ⟨d.source, left, d.got ++ data⟩
      mpt.stationQueue := s.mpt.stationQueue ++ [stationBurst .settings false c.1 c.2 []] } := by
  rw [settingsOkay, load]
  dsimp only
  rw [more]
  rfl

theorem settingsOkay_last {s : State} {d : SettingsLoad} (load : s.sif.load = some d) (last : d.left = []) (data : List Byte) :
    settingsOkay data s = nextLoad (judgeSettings d.source (d.got ++ data) { s with sif.load := none }) := by
  rw [settingsOkay, load]
  dsimp only
  rw [last]

theorem settingsFail_eq {s : State} {d : SettingsLoad} (load : s.sif.load = some d) :
    settingsFail s = nextLoad (loadFailed d.source 0x200 { s with sif.load := none }) := by
  rw [settingsFail, load]

theorem judgeSettings_refused {source : LoadBy} {bytes : List Byte} {s : State} {o : Nat}
    (bad : settingsFailure (parseSettings bytes) s.baseAddr = some o) : judgeSettings source bytes s = loadFailed source o s := by
  unfold judgeSettings
  dsimp only
  rw [bad]

theorem judgeSettings_start {bytes : List Byte} {s : State} (good : settingsFailure (parseSettings bytes) s.baseAddr = none) :
    judgeSettings .start bytes s = applyStart (parseSettings bytes) s := by
  unfold judgeSettings
  dsimp only
  rw [good]

theorem judgeSettings_request {r : Nat} {bytes : List Byte} {s : State} (good : settingsFailure (parseSettings bytes) s.baseAddr = none) :
    judgeSettings (.request r) bytes s = if (geometryDiffers s.cfg (parseSettings bytes) && panelBusy s) = true
      then endSettings r .busy s else applyRequest r (parseSettings bytes) s := by
  unfold judgeSettings
  dsimp only
  rw [good]

/-! ### What a load leads to -/

/-- A load of `source` fails with `offset` from `s` to `t` (R16, R17, R18). -/
def LoadFails (source : LoadBy) (offset : Nat) (s t : State) : Prop :=
  (source = .start → s.rsc.part = .starting → t = { s with
    sif.load := none, sif.err := true, sif.errOffset := BitVec.ofNat 10 offset, rsc.part := .stopped, meu.tempTimer := none }) ∧
  (∀ r, source = .request r → endsBy .control [(r, [(6, le16 offset)], 32)] s t ∧ t.sif.posted = s.postedBy .control 1 ∧
    t.sansRequests = ({ s with sif.load := none } : State).sansRequests)

theorem loadFails {s : State} (alone : s.sif.loadQueue = []) (source : LoadBy) (offset : Nat) :
    LoadFails source offset s (nextLoad (loadFailed source offset { s with sif.load := none })) := by
  refine ⟨?_, ?_⟩
  · rintro rfl starting
    rw [loadFailed_start (s := { s with sif.load := none }) starting]
    exact nextLoad_idle alone
  · rintro r rfl
    obtain ⟨ends, posted, rest⟩ := loadFailed_request r offset { s with sif.load := none }
    rw [nextLoad_idle ((loadQueue_of_sansRequests rest).trans alone)]
    exact ⟨ends, posted, rest⟩

/-- What a START load's application leaves (R18, R80, R109, R132, R176). -/
def StartsWith (n : Settings) (ceiling : Nat) (s t : State) : Prop :=
  SettingsApplied n s t ∧
  (∀ i, i < 4 → t.line i =
    if (s.line i).state = .idle ∧ keyActive (n.keys.getD i {}).polarity (s.line i).level = true
    then ⟨(s.line i).level, .bouncing, some ⟨s.partTime, (n.keys.getD i {}).debounce⟩⟩ else s.line i) ∧
  t.ltu.ceiling = ceiling ∧ t.ltu.ramp = s.ltu.ramp ∧
  t.meu.requester = true ∧ t.meu.batteryTimer = some ⟨s.partTime, n.batteryInterval⟩ ∧
  (s.meu.adc = none → s.meu.tempPlace = false → s.meu.batteryPlace = false → t.meu.adc = some .battery) ∧
  (∃ p, t.upe = { s.upe with pass := some p } ∧ p.row = 0 ∧ p.geom = ⟨n.width, n.height, n.buffer⟩ ∧
    p.kind = .sweep (decide (s.upe.lastSweep ≠ some ⟨n.width, n.height, n.buffer⟩)) true) ∧
  t.rsc = s.rsc ∧ t.pss = s.pss ∧ t.sif.posted = s.sif.posted ∧ t.finalWrites = s.finalWrites

theorem startsWith {s : State} (starting : s.rsc.part = .starting) (four : s.ktu.lines.length = 4) (n : Settings) :
    StartsWith n (ceilingOf n s.meu.supply) s (applyStart n s) := by
  obtain ⟨x, m, p, t, applied, ends, same, on, timer, ⟨down, deep, up, high⟩, kicks, row, geom, kind⟩ := applyStart_spec n s
  rw [applied]
  have law : t.intLaw = true := by
    rw [intLaw_of_sansStatus same]
    exact (intLaw_iff _).mpr rfl
  have counts := recounted_counts n x s
  rw [← down, ← deep, ← up, ← high] at counts
  have held : SettingsApplied n s ({ s.begun n x with meu := m, upe.pass := some p } : State) :=
    ⟨rfl, rfl, rfl, rfl, counts, rfl, rfl, rfl, rfl, rfl, rfl, rfl⟩
  have rest := sansRequests_of_sansPosts (sansPosts_of_sansStatus same)
  have stands := recounted_stands n x s
  have adc : (s.recounted n x).adc = s.meu.adc := (congrArg Meu.adc stands :)
  have temp : (s.recounted n x).tempPlace = s.meu.tempPlace := (congrArg Meu.tempPlace stands :)
  have battery : (s.recounted n x).batteryPlace = s.meu.batteryPlace := (congrArg Meu.batteryPlace stands :)
  rw [adc, temp, battery] at kicks
  rw [starting] at timer
  have meu : t.meu = m := (congrArg State.meu same :)
  have writes := ends.writes
  rw [List.flatMap_nil, List.append_nil] at writes
  refine ⟨held.congr law rest, fun i inside => ?_, (congrArg (fun y : State => y.ltu.ceiling) same :),
    (congrArg (fun y : State => y.ltu.ramp) same :), by rw [meu]; exact on, by rw [meu]; exact timer, by rw [meu]; exact kicks,
    ⟨p, (congrArg State.upe same :), row, geom, kind.trans ?_⟩, (congrArg State.rsc same :), (congrArg State.pss same :),
    (congrArg (fun y : State => y.sif.posted) same :), writes⟩
  · have lines : t.ktu.lines = s.watched n := (congrArg (fun y : State => y.ktu.lines) same :)
    rw [State.line, lines, State.watched, linesTouched_line four inside]
    rfl
  · by_cases last : s.upe.lastSweep = some ⟨n.width, n.height, n.buffer⟩ <;> simp [last]

/-- What a request's application leaves with the panel not LOCKED (R17, R54, R107, R119, R132, R133). -/
def RequestLeaves (n : Settings) (ceiling : Nat) (s t : State) : Prop :=
  let differs := s.cfg.width ≠ n.width ∨ s.cfg.height ≠ n.height ∨ s.cfg.buffer ≠ n.buffer
  let resized := s.cfg.width ≠ n.width ∨ s.cfg.height ≠ n.height
  SettingsApplied n s t ∧
  (∀ i, i < 4 →
    let k := s.line i
    let q := n.keys.getD i {}
    t.line i = if (s.cfg.keys.getD i {}).polarity = q.polarity then k
      else if keyActive q.polarity k.level = true then ⟨k.level, .bouncing, some ⟨s.partTime, q.debounce⟩⟩
      else ⟨k.level, .idle, none⟩) ∧
  (s.cfg.lowCeiling = n.lowCeiling ∨ ceiling = s.ltu.ceiling → t.ltu.ceiling = s.ltu.ceiling ∧ t.ltu.ramp = s.ltu.ramp) ∧
  (s.cfg.lowCeiling ≠ n.lowCeiling → ceiling ≠ s.ltu.ceiling → t.ltu.ceiling = ceiling ∧
    t.ltu.light = s.ltu.light ∧ t.ltu.detached = (s.ltu.detached && s.ltu.restDark) ∧
    t.ltu.ramp = if s.ltu.restDark = true then s.ltu.ramp
      else some ⟨s.ltu.level, s.ltu.warmth, if s.ltu.keyOff = true then 0 else min s.ltu.lr ceiling, s.ltu.mr,
        fadeSteps n.ceilingFade, 0, .ceiling⟩) ∧
  (¬differs → t.upe = s.upe ∧ t.ktu.forward = s.ktu.forward ∧ t.ktu.backward = s.ktu.backward) ∧
  (differs → t.upe.uncertain = true ∧ t.upe.list = [] ∧ t.upe.cadence = s.upe.cadence ∧
    t.upe.current = (if resized then none else s.upe.current) ∧
    t.ktu.forward = (if resized then [] else s.ktu.forward) ∧ t.ktu.backward = (if resized then [] else s.ktu.backward) ∧
    (s.upe.pass = none → ∃ p, t.upe.pass = some p ∧ p.kind = .sweep true false ∧ p.row = 0 ∧
      p.geom = ⟨n.width, n.height, n.buffer⟩) ∧
    (s.upe.pass ≠ none → t.upe.pass = s.upe.pass ∧ t.upe.sweepWaiting = true)) ∧
  t.rsc = s.rsc ∧ t.pss = s.pss

theorem requestLeaves {s t : State} {n : Settings} {x : Option TempSample} {f : Nat} (four : s.ktu.lines.length = 4)
    (idle : geometryDiffers s.cfg n = true → s.upe.list = []) (law : t.intLaw = true)
    (rest : t.sansRequests = ({ s.reapplied n x with fresh := f } : State).sansRequests) :
    RequestLeaves n (ceilingOf n s.meu.supply) s t := by
  have ltu : t.ltu = s.receiled n := (congrArg State.ltu rest :).trans reapplied_ltu
  have upe : t.upe = (s.reapplied n x).upe := (congrArg State.upe rest :)
  have ktu : t.ktu = (s.reapplied n x).ktu := (congrArg State.ktu rest :)
  have rsc : t.rsc = s.rsc := (congrArg State.rsc rest :).trans reapplied_rsc
  have pss : t.pss = s.pss := (congrArg State.pss rest :).trans reapplied_pss
  refine ⟨(settingsApplied_reapplied n x s).congr law rest, fun i inside => ?_, fun still => ?_, fun low moves => ?_, fun same => ?_,
    fun differs => ?_, rsc, pss⟩
  · exact (show t.line i = (s.reapplied n x).line i by rw [State.line, ktu, State.line]).trans (reapplied_line four inside)
  · rw [ltu, receiled_stands still]
    exact ⟨rfl, rfl⟩
  · rw [ltu]
    exact receiled_moves low moves
  · rw [upe, ktu, State.reapplied, regeared_same (mt (geometryDiffers_iff _ _).mp same)]
    exact ⟨rfl, rfl, rfl⟩
  · have geared := (geometryDiffers_iff _ _).mpr differs
    obtain ⟨uncertain, list, cadence, -, current, forward, backward, begins, waits⟩ :=
      regeared_spec (s := { s.held n x with ktu.lines := s.relined n, ltu := s.receiled n }) geared
    simp only [sizeDiffers_iff] at current forward backward
    rw [upe, ktu]
    exact ⟨uncertain, list.trans (idle geared), cadence, current, forward, backward, begins, waits⟩

/-- What a request's application leaves of a LOCKED panel (R104). -/
theorem requestUnlocks {s t : State} {n : Settings} {x : Option TempSample} {f : Nat}
    (rest : t.sansRequests = ({ s.reapplied n x with fresh := f } : State).sansRequests) (locked : s.pss.rail = .locked)
    (calm : ¬(s.rsc.part = .run ∧ s.meu.supply = .critical)) :
    Ends .control [] t (leaveLocked t) ∧ (leaveLocked t).sif.loadQueue = s.sif.loadQueue ∧
    (leaveLocked t).sif.posted = t.sif.posted ∧ (leaveLocked t).settings = some n ∧ (leaveLocked t).pss.history = [] ∧
    ((∀ q ∈ s.upe.lanes, q.state ≠ .arming) → (leaveLocked t).pss.rail = .off) ∧ (leaveLocked t).rsc = s.rsc := by
  have rsc : t.rsc = s.rsc := (congrArg State.rsc rest :).trans reapplied_rsc
  have rail : t.pss.rail = .locked := (congrArg (fun y : State => y.pss.rail) rest :).trans
    ((congrArg Pss.rail reapplied_pss).trans locked)
  have supply : t.meu.supply = s.meu.supply := (congrArg (fun y : State => y.meu.supply) rest :).trans reapplied_supply
  obtain ⟨settings, -⟩ := settingsApplied_reapplied n x s
  have held : t.settings = some n := (congrArg State.settings rest :).trans settings
  have queue : t.sif.loadQueue = s.sif.loadQueue := (loadQueue_of_sansRequests rest).trans reapplied_loadQueue
  have lanes : t.upe.lanes = (s.reapplied n x).upe.lanes := (congrArg (fun y : State => y.upe.lanes) rest :)
  have only := supplyOnly_enterOff { t with pss.history := [] } {}
  have out : (enterOff { t with pss.history := [] }).rsc = t.rsc := (congrArg State.rsc only :)
  have charge : (enterOff { t with pss.history := [] }).meu = t.meu := (congrArg State.meu only :)
  have unlocked : leaveLocked t = enterOff { t with pss.history := [] } := by
    rw [leaveLocked, if_pos rail, forcedRest, if_neg (by rw [out, charge, rsc, supply]; exact calm)]
  have cleared : Ends .control [] t { t with pss.history := [] } := Ends.refl.congr
  rw [unlocked]
  refine ⟨cleared.trans (ends_enterOff _), ((congrArg (fun y : State => y.sif.loadQueue) only :)).trans queue,
    (congrArg (fun y : State => y.sif.posted) only :), ((congrArg State.settings only :)).trans held, enterOff_history _, fun still => ?_,
    out.trans rsc⟩
  refine enterOff_still ?_
  show ∀ q ∈ t.upe.lanes, q.state ≠ .arming
  rw [lanes]
  exact regeared_arming (s := { s.held n x with ktu.lines := s.relined n, ltu := s.receiled n }) still

/-! ### The load's end by its source -/

section
variable {s : State} {bytes : List Byte} (alone : s.sif.loadQueue = [])
  (good : settingsFailure (parseSettings bytes) s.baseAddr = none)
include alone good

theorem startLoad_ends (starting : s.rsc.part = .starting) (four : s.ktu.lines.length = 4) :
    StartsWith (parseSettings bytes) (ceilingOf (parseSettings bytes) s.meu.supply) s
      (nextLoad (judgeSettings .start bytes { s with sif.load := none })) := by
  have starts := startsWith (s := { s with sif.load := none }) starting four (parseSettings bytes)
  have judged := judgeSettings_start (s := { s with sif.load := none }) good
  obtain ⟨x, m, p, t, applied, -, same, -⟩ := applyStart_spec (parseSettings bytes) { s with sif.load := none }
  rw [judged, nextLoad_idle (by rw [applied]; exact (congrArg (fun y : State => y.sif.loadQueue) same :).trans alone)]
  exact starts

/-- A request with a new geometry while the panel is in use is BUSY (R17). -/
theorem busyLoad_ends {r : Nat} (differs : geometryDiffers s.cfg (parseSettings bytes) = true) (busy : panelBusy s = true) :
    ∃ o : BitVec 10, let t := nextLoad (judgeSettings (.request r) bytes { s with sif.load := none })
    endsBy .control [(r, [(6, le16 o.toNat)], 36)] s t ∧ t.sif.posted = s.postedBy .control 1 ∧
      t.sansRequests = ({ s with sif.load := none, fresh := s.fresh + 1 } : State).sansRequests := by
  have judged : judgeSettings (.request r) bytes { s with sif.load := none } = endSettings r .busy { s with sif.load := none } :=
    (judgeSettings_request (s := { s with sif.load := none }) good).trans (if_pos (Bool.and_eq_true_iff.mpr ⟨differs, busy⟩))
  have asked : Ends .control [] s { s with sif.load := none } := Ends.refl.congr
  obtain ⟨⟨o, ends⟩, rest⟩ := endSettings_spec (r := r) (code := .busy) asked
  rw [judged, nextLoad_idle ((loadQueue_of_sansRequests rest).trans alone)]
  exact ⟨o, ends, endSettings_posted rfl rfl, rest⟩

omit alone in
/-- A request that is not BUSY is applied (R17). -/
theorem requestLoad_applies {r : Nat} (free : ¬(geometryDiffers s.cfg (parseSettings bytes) = true ∧ panelBusy s = true)) :
    ∃ x, ∃ t : State, judgeSettings (.request r) bytes { s with sif.load := none } = leaveLocked t ∧
      (∃ o : BitVec 10, Ends .control [(r, [(6, le16 o.toNat)], 16)] s t) ∧ t.sif.posted = s.postedBy .control 1 ∧
      t.sansRequests = ({ ({ s with sif.load := none } : State).reapplied (parseSettings bytes) x with
        fresh := s.fresh + 1 } : State).sansRequests ∧ t.intLaw = true := by
  have judged : judgeSettings (.request r) bytes { s with sif.load := none } =
      applyRequest r (parseSettings bytes) { s with sif.load := none } :=
    (judgeSettings_request (s := { s with sif.load := none }) good).trans (if_neg (mt Bool.and_eq_true_iff.mp free))
  obtain ⟨x, t, applied, ⟨o, ends⟩, posted, rest, law⟩ := applyRequest_spec r (parseSettings bytes) { s with sif.load := none }
  have asked : Ends .control [] s { s with sif.load := none } := Ends.refl.congr
  exact ⟨x, t, judged.trans applied, ⟨o, asked.trans ends⟩, posted, rest, law⟩

theorem requestLoad_ends {r : Nat} (free : ¬(geometryDiffers s.cfg (parseSettings bytes) = true ∧ panelBusy s = true))
    (unlocked : s.pss.rail ≠ .locked) (four : s.ktu.lines.length = 4) :
    let t := nextLoad (judgeSettings (.request r) bytes { s with sif.load := none })
    (∃ o : BitVec 10, endsBy .control [(r, [(6, le16 o.toNat)], 16)] s t) ∧ t.sif.posted = s.postedBy .control 1 ∧
      RequestLeaves (parseSettings bytes) (ceilingOf (parseSettings bytes) s.meu.supply) s t := by
  obtain ⟨x, t, judged, ⟨o, ends⟩, posted, rest, law⟩ := requestLoad_applies (r := r) good free
  have rail : t.pss.rail ≠ .locked := by
    rw [show t.pss = s.pss from (congrArg State.pss rest :).trans reapplied_pss]
    exact unlocked
  have queue : t.sif.loadQueue = [] := (loadQueue_of_sansRequests rest).trans (reapplied_loadQueue.trans alone)
  have idle (differs : geometryDiffers s.cfg (parseSettings bytes) = true) : s.upe.list = [] := by
    by_contra listed
    exact free ⟨differs, (panelBusy_iff s).mpr (.inr listed)⟩
  rw [judged, leaveLocked_unlocked rail, nextLoad_idle queue]
  exact ⟨⟨o, ends.endsBy⟩, posted, requestLeaves (s := { s with sif.load := none }) four idle law rest⟩

theorem requestLoad_unlocks {r : Nat} (free : ¬(geometryDiffers s.cfg (parseSettings bytes) = true ∧ panelBusy s = true))
    (locked : s.pss.rail = .locked) (calm : ¬(s.rsc.part = .run ∧ s.meu.supply = .critical)) :
    let t := nextLoad (judgeSettings (.request r) bytes { s with sif.load := none })
    (∃ o : BitVec 10, endsBy .control [(r, [(6, le16 o.toNat)], 16)] s t) ∧ t.settings = some (parseSettings bytes) ∧
      t.pss.history = [] ∧ ((∀ q ∈ s.upe.lanes, q.state ≠ .arming) → t.pss.rail = .off) ∧ t.rsc = s.rsc := by
  obtain ⟨x, t, judged, ⟨o, ends⟩, posted, rest, law⟩ := requestLoad_applies (r := r) good free
  obtain ⟨more, queue, -, settings, history, off, rsc⟩ := requestUnlocks rest locked calm
  rw [judged, nextLoad_idle (queue.trans alone)]
  exact ⟨⟨o, (ends.trans more).endsBy⟩, settings, history, off, rsc⟩

end

/-- Settles O31: the checks row by row; then a load's burst, its failure, and its end by its source. -/
theorem settingsLoadIsJudged : Obligations.SettingsLoadIsJudged := by
  unfold Obligations.SettingsLoadIsJudged
  refine ⟨?_, ?_⟩
  · intro l base ws fields
    have same : fields = settingsFields l base := by
      unfold fields
      simp only [List.append_assoc]
      rfl
    rw [same]
    exact settings_judged l base
  · intro x data s b d user live load alone t l n ended failed
    have okay (yes : x = .okay) : t = settingsOkay data s := by
      unfold t
      rw [yes, complete_okay live, user]
      rfl
    refine ⟨fun bad => ?_, fun c left yes more => ?_, fun o yes last bad => ?_, fun yes last good => ?_⟩
    · have e : t = nextLoad (loadFailed d.source 0x200 { s with sif.load := none }) := by
        unfold t
        rw [complete_fail live bad, user]
        exact settingsFail_eq load
      unfold failed
      rw [e]
      exact loadFails alone d.source 0x200
    · exact (okay yes).trans (settingsOkay_next load more data)
    · have e : t = nextLoad (loadFailed d.source o { s with sif.load := none }) := by
        rw [okay yes, settingsOkay_last load last, judgeSettings_refused (s := { s with sif.load := none }) bad]
      unfold failed
      rw [e]
      exact loadFails alone d.source o
    · intro differs resized busy ceiling applied
      have e : t = nextLoad (judgeSettings d.source l ended) := (okay yes).trans (settingsOkay_last load last data)
      have level : ceiling = ceilingOf n s.meu.supply := (ceilingOf_eq n s.meu.supply).symm
      refine ⟨fun source starting four => ?_, fun r source differ used => ?_, fun r source free unlocked four => ?_,
        fun r source free locked calm => ?_⟩
      all_goals rw [source] at e
      · have starts := startLoad_ends alone good starting four
        rw [← level, ← e] at starts
        exact starts
      · obtain ⟨o, ends, posted, rest⟩ := busyLoad_ends (r := r) alone good ((geometryDiffers_iff _ _).mpr differ)
          ((panelBusy_iff s).mpr used)
        rw [← e] at ends posted rest
        exact ⟨o, ends, posted, rest⟩
      · have leaves := requestLoad_ends (r := r) alone good
          (fun ⟨differ, used⟩ => free ⟨(geometryDiffers_iff _ _).mp differ, (panelBusy_iff s).mp used⟩) unlocked four
        rw [← level, ← e] at leaves
        obtain ⟨ends, posted, held, rest⟩ := leaves
        exact ⟨ends, posted, held, rest⟩
      · have unlocks := requestLoad_unlocks (r := r) alone good
          (fun ⟨differ, used⟩ => free ⟨(geometryDiffers_iff _ _).mp differ, (panelBusy_iff s).mp used⟩) locked calm
        rw [← e] at unlocks
        exact unlocks

end Sys2Proof.Machine

end

section
/-! Fields in byte strings, and access lists over 64-byte blocks (sections 2.1 and 11.1). -/

set_option Elab.async false

namespace Sys2Proof.Machine

/-! ### Reading past what stands in front -/

section
variable (a b : List Byte) (i : Nat)

theorem u8_append : u8 (a ++ b) i = if i < a.length then u8 a i else u8 b (i - a.length) := by
  simp only [u8, List.getD_eq_getElem?_getD, List.getElem?_append]
  split <;> rfl

theorem u8_left {a : List Byte} {i : Nat} (inside : i < a.length) : u8 (a ++ b) i = u8 a i := by rw [u8_append, if_pos inside]

theorem u8_right : u8 (a ++ b) (i + a.length) = u8 b i := by
  rw [u8_append, if_neg (by omega), Nat.add_sub_cancel]

theorem u8_outside {a : List Byte} {i : Nat} (outside : a.length ≤ i) : u8 a i = 0 := by
  simp [u8, List.getElem?_eq_none outside]

theorem u16_right : u16 (a ++ b) (i + a.length) = u16 b i := by
  rw [u16, u8_right, show i + a.length + 1 = i + 1 + a.length by omega, u8_right, u16]

theorem u32_right : u32 (a ++ b) (i + a.length) = u32 b i := by
  rw [u32, u16_right, show i + a.length + 2 = i + 2 + a.length by omega, u16_right, u32]

end

section
variable {a : List Byte} (b : List Byte) {i k : Nat} (len : a.length = k) (past : k ≤ i)
include len past

theorem u8_past : u8 (a ++ b) i = u8 b (i - k) := by
  subst len
  simpa [Nat.sub_add_cancel past] using u8_right a b (i - a.length)

theorem u16_past : u16 (a ++ b) i = u16 b (i - k) := by
  subst len
  simpa [Nat.sub_add_cancel past] using u16_right a b (i - a.length)

theorem u32_past : u32 (a ++ b) i = u32 b (i - k) := by
  subst len
  simpa [Nat.sub_add_cancel past] using u32_right a b (i - a.length)

end

/-! ### Fields one after another -/

section
variable (n i : Nat) (b : List Byte)

@[simp] theorem length_le8 : (le8 n).length = 1 := rfl
@[simp] theorem length_le16 : (le16 n).length = 2 := rfl
@[simp] theorem length_le32 : (le32 n).length = 4 := rfl
@[simp] theorem length_les16 (z : Int) : (les16 z).length = 2 := rfl
@[simp] theorem length_zeros : (zeros n).length = n := List.length_replicate

@[simp] theorem u8_past_le8 : u8 (le8 n ++ b) (i + 1) = u8 b i := u8_right (le8 n) b i
@[simp] theorem u8_past_le16 : u8 (le16 n ++ b) (i + 2) = u8 b i := u8_right (le16 n) b i
@[simp] theorem u8_past_le32 : u8 (le32 n ++ b) (i + 4) = u8 b i := u8_right (le32 n) b i
@[simp] theorem u8_past_les16 (z : Int) : u8 (les16 z ++ b) (i + 2) = u8 b i := u8_right (les16 z) b i
@[simp] theorem u8_past_byte (x : Byte) : u8 (x :: b) (i + 1) = u8 b i := u8_right [x] b i
@[simp] theorem u8_past_zeros (past : n ≤ i) : u8 (zeros n ++ b) i = u8 b (i - n) := u8_past b (length_zeros n) past

@[simp] theorem u16_past_le8 : u16 (le8 n ++ b) (i + 1) = u16 b i := u16_right (le8 n) b i
@[simp] theorem u16_past_le16 : u16 (le16 n ++ b) (i + 2) = u16 b i := u16_right (le16 n) b i
@[simp] theorem u16_past_le32 : u16 (le32 n ++ b) (i + 4) = u16 b i := u16_right (le32 n) b i
@[simp] theorem u16_past_les16 (z : Int) : u16 (les16 z ++ b) (i + 2) = u16 b i := u16_right (les16 z) b i
@[simp] theorem u16_past_byte (x : Byte) : u16 (x :: b) (i + 1) = u16 b i := u16_right [x] b i
@[simp] theorem u16_past_zeros (past : n ≤ i) : u16 (zeros n ++ b) i = u16 b (i - n) := u16_past b (length_zeros n) past

@[simp] theorem u32_past_le8 : u32 (le8 n ++ b) (i + 1) = u32 b i := u32_right (le8 n) b i
@[simp] theorem u32_past_le16 : u32 (le16 n ++ b) (i + 2) = u32 b i := u32_right (le16 n) b i
@[simp] theorem u32_past_le32 : u32 (le32 n ++ b) (i + 4) = u32 b i := u32_right (le32 n) b i
@[simp] theorem u32_past_les16 (z : Int) : u32 (les16 z ++ b) (i + 2) = u32 b i := u32_right (les16 z) b i
@[simp] theorem u32_past_byte (x : Byte) : u32 (x :: b) (i + 1) = u32 b i := u32_right [x] b i
@[simp] theorem u32_past_zeros (past : n ≤ i) : u32 (zeros n ++ b) i = u32 b (i - n) := u32_past b (length_zeros n) past

@[simp] theorem u8_at_le8 : u8 (le8 n ++ b) 0 = n % 256 := by simp [u8, le8]
@[simp] theorem u8_at_byte (x : Byte) : u8 (x :: b) 0 = x.toNat := by simp [u8]

@[simp] theorem u16_at_le16 : u16 (le16 n ++ b) 0 = n % 65536 := by
  simp only [u16, u8, le16, List.cons_append, List.getD_cons_zero, List.getD_cons_succ, Nat.zero_add, BitVec.toNat_ofNat]
  omega

@[simp] theorem u32_at_le32 : u32 (le32 n ++ b) 0 = n % 4294967296 := by
  simp only [u32, u16, u8, le32, le16, List.cons_append, List.nil_append, List.getD_cons_zero, List.getD_cons_succ, Nat.zero_add,
    Nat.reduceAdd, BitVec.toNat_ofNat]
  omega

@[simp] theorem bit_true : bit true = 1 := rfl
@[simp] theorem bit_false : bit false = 0 := rfl
@[simp] theorem half_mod (x : Half) : x.toNat % 65536 = x.toNat := Nat.mod_eq_of_lt x.isLt
@[simp] theorem word_mod (x : Word) : x.toNat % 4294967296 = x.toNat := Nat.mod_eq_of_lt x.isLt

@[simp] theorem u16_of_le16 : u16 (le16 n) 0 = n % 65536 := by simpa using u16_at_le16 n []
@[simp] theorem u32_of_le32 : u32 (le32 n) 0 = n % 4294967296 := by simpa using u32_at_le32 n []

@[simp] theorem s16_past_le16 : s16 (le16 n ++ b) (i + 2) = s16 b i := by rw [s16, u16_past_le16, s16]

/-- A signed field reads back in its range. -/
theorem s16_at_les16 {z : Int} (low : -32768 ≤ z) (high : z < 32768) : s16 (les16 z ++ b) 0 = z := by
  rw [s16, les16, u16_at_le16]
  split <;> omega

@[simp] theorem u8_zeros : u8 (zeros n) i = 0 := by
  by_cases inside : i < n
  · simp [u8, zeros, inside]
  · exact u8_outside (by simpa using inside)

@[simp] theorem u16_zeros : u16 (zeros n) i = 0 := by simp [u16]
@[simp] theorem u32_zeros : u32 (zeros n) i = 0 := by simp [u32, u16]

@[simp] theorem u8_at_zeros (inside : i < n) : u8 (zeros n ++ b) i = 0 := by rw [u8_left _ (by simpa using inside), u8_zeros]
@[simp] theorem u16_at_zeros (inside : i + 1 < n) : u16 (zeros n ++ b) i = 0 := by rw [u16, u8_at_zeros _ _ _ (by omega), u8_at_zeros _ _ _ inside]

@[simp] theorem u32_at_zeros (inside : i + 3 < n) : u32 (zeros n ++ b) i = 0 := by
  rw [u32, u16_at_zeros _ _ _ (by omega), u16_at_zeros _ _ _ inside]

end

/-! ### Rows of equal length one after another -/

section
variable {α : Type} {f : α → List Byte} {k : Nat} (even : ∀ x, (f x).length = k)
include even

theorem length_rows (l : List α) : (l.flatMap f).length = k * l.length := by
  induction l with
  | nil => rfl
  | cons x l ih => rw [List.flatMap_cons, List.length_append, even, ih, List.length_cons]; ring

theorem u8_row (b : List Byte) {i : Nat} (inside : i < k) :
    ∀ {l : List α} {j : Nat} {x : α}, l[j]? = some x → u8 (l.flatMap f ++ b) (k * j + i) = u8 (f x) i
  | y :: l, 0, x, at_ => by
    obtain rfl := Option.some.inj at_
    rw [List.flatMap_cons, List.append_assoc, Nat.mul_zero, Nat.zero_add, u8_left _ (by rw [even]; exact inside)]
  | y :: l, j + 1, x, at_ => by
    rw [List.flatMap_cons, List.append_assoc, show k * (j + 1) + i = k * j + i + (f y).length by rw [even]; ring, u8_right]
    exact u8_row b inside (l := l) at_

theorem u16_row (b : List Byte) {i : Nat} (inside : i + 1 < k) {l : List α} {j : Nat} {x : α} (at_ : l[j]? = some x) :
    u16 (l.flatMap f ++ b) (k * j + i) = u16 (f x) i := by
  rw [u16, u8_row even b (by omega) at_, Nat.add_assoc, u8_row even b inside at_, u16]

theorem u32_row (b : List Byte) {i : Nat} (inside : i + 3 < k) {l : List α} {j : Nat} {x : α} (at_ : l[j]? = some x) :
    u32 (l.flatMap f ++ b) (k * j + i) = u32 (f x) i := by
  rw [u32, u16_row even b (by omega) at_, Nat.add_assoc, u16_row even b (by omega) at_, u32]

end

/-! ### Accesses over 64-byte blocks (section 2.1) -/

theorem writeBlocks_nil (a : Nat) : writeBlocks a [] = [] := rfl

/-- The addresses of an access's bursts are at or above its first. -/
theorem blocks_above : ∀ (n a : Nat), ∀ p ∈ blocks a n, a ≤ p.1
  | 0, a, p, mem => by simp [blocks_eq] at mem
  | n + 1, a, p, mem => by
    have := Nat.mod_lt a (show 64 > 0 by decide)
    rw [blocks_pos a (Nat.succ_ne_zero n)] at mem
    rcases List.mem_cons.mp mem with rfl | mem
    · exact le_rfl
    · have := blocks_above (n + 1 - min (64 - a % 64) (n + 1)) _ p mem
      omega
  termination_by n => n
  decreasing_by omega

theorem writeBlocks_cons (a : Nat) {l : List Byte} (some : l ≠ []) :
    let m := min (64 - a % 64) l.length
    writeBlocks a l = (a, l.take m) :: writeBlocks (a + m) (l.drop m) := by
  intro m
  have positive : l.length ≠ 0 := by simpa using some
  rw [writeBlocks, blocks_pos a positive, List.map_cons, Nat.sub_self, List.drop_zero, writeBlocks, List.length_drop]
  refine congrArg _ (List.map_congr_left fun p mem => ?_)
  have above := blocks_above _ _ p mem
  rw [List.drop_drop, show p.1 - a = m + (p.1 - (a + m)) by omega]

/-- The bursts of a write hold its bytes in order, each within one 64-byte block. -/
theorem writeBlocks_spec : ∀ (n a : Nat) (l : List Byte), l.length = n → (writeBlocks a l).flatMap Prod.snd = l ∧
    ∀ k p, (writeBlocks a l)[k]? = some p → p.1 = a + (((writeBlocks a l).take k).flatMap Prod.snd).length ∧ p.2 ≠ [] ∧
      p.1 / 64 = (p.1 + p.2.length - 1) / 64
  | 0, a, l, len => by
    obtain rfl := List.length_eq_zero_iff.mp len
    simp [writeBlocks_nil]
  | n + 1, a, l, len => by
    have some : l ≠ [] := by rintro rfl; simp at len
    have low := Nat.mod_lt a (show 64 > 0 by decide)
    have first := writeBlocks_cons a some
    dsimp only at first
    generalize hm : min (64 - a % 64) l.length = m at first
    obtain ⟨bytes, bursts⟩ := writeBlocks_spec (n + 1 - m) (a + m) (l.drop m) (by rw [List.length_drop, len])
    rw [first, List.flatMap_cons, bytes, List.take_append_drop]
    refine ⟨rfl, fun k p at_ => ?_⟩
    cases k with
    | zero =>
      obtain rfl := Option.some.inj at_
      have taken : (l.take m).length = m := by rw [List.length_take]; omega
      refine ⟨by simp, ?_, ?_⟩
      · rw [← List.length_pos_iff, taken]
        omega
      · dsimp only
        rw [taken]
        omega
    | succ k =>
      obtain ⟨addr, nonempty, inside⟩ := bursts k p at_
      refine ⟨?_, nonempty, inside⟩
      rw [addr, List.take_succ_cons, List.flatMap_cons, List.length_append, List.length_take]
      omega
  termination_by n => n
  decreasing_by omega

/-- A write within one 64-byte block is one burst. -/
theorem writeBlocks_one {a : Nat} {l : List Byte} (some : l ≠ []) (fits : a % 64 + l.length ≤ 64) : writeBlocks a l = [(a, l)] := by
  have := Nat.mod_lt a (show 64 > 0 by decide)
  have first := writeBlocks_cons a some
  dsimp only at first
  rw [first, show min (64 - a % 64) l.length = l.length by omega, List.take_length, List.drop_length, writeBlocks_nil]

end Sys2Proof.Machine

end

section
/-! The bytes of the status areas (sections 11.3 and 11.7). -/

set_option Elab.async false

namespace Sys2Proof.Machine

theorem captureBytes_spec (s : State) : (captureBytes s).length = 16 ∧ (u32 (captureBytes s) 0 = s.mpt.capture.addr % 4294967296 ∧
    u32 (captureBytes s) 4 = s.mpt.capture.stamp.toNat ∧ u16 (captureBytes s) 8 = s.mpt.capture.further.toNat ∧
    u8 (captureBytes s) 10 = s.mpt.capture.len % 256 ∧
    u8 (captureBytes s) 11 = s.mpt.capture.client.num + 8 * bit s.mpt.capture.write + 128 * bit s.mpt.capture.full ∧
    u32 (captureBytes s) 12 = 0) := by
  have flags : (s.mpt.capture.client.num + 8 * bit s.mpt.capture.write + 128 * bit s.mpt.capture.full) % 256 =
      s.mpt.capture.client.num + 8 * bit s.mpt.capture.write + 128 * bit s.mpt.capture.full := by
    cases s.mpt.capture.client <;> cases s.mpt.capture.write <;> cases s.mpt.capture.full <;> rfl
  simp [captureBytes, flags]

theorem supply_num_le (x : Supply) : x.num ≤ 2 := by cases x <;> decide

theorem measureBytes_spec (s : State) (range : ∀ t, s.meu.temperature = some t → -32768 ≤ t.value ∧ t.value < 32768) :
    let x := (measureBytes s).1
    let y := (measureBytes s).2
    x.length = 16 ∧ y.length = 16 ∧
    (match s.meu.battery with
      | some b => u16 x 0 = b.mv % 65536 ∧ u32 x 8 = b.stamp.toNat ∧ u8 x 4 % 2 = 1
      | none => u16 x 0 = 0 ∧ u32 x 8 = 0 ∧ u8 x 4 % 2 = 0) ∧
    (match s.meu.temperature with
      | some t => s16 x 2 = t.value ∧ u32 x 12 = t.stamp.toNat ∧ u8 x 4 / 2 = 1 + 2 * bit t.aged
      | none => s16 x 2 = 0 ∧ u32 x 12 = 0 ∧ u8 x 4 / 2 = 0) ∧
    u8 x 5 = s.meu.supply.num ∧ u16 x 6 = 0 ∧
    u32 y 0 = s.meu.supplyStamp.toNat ∧ u32 y 4 = s.meu.askTime.toNat ∧ u32 y 8 = 0 ∧ u32 y 12 = 0 := by
  have supply : s.meu.supply.num % 256 = s.meu.supply.num := Nat.mod_eq_of_lt (by have := supply_num_le s.meu.supply; omega)
  cases battery : s.meu.battery <;> cases temperature : s.meu.temperature
  case none.none => simp [measureBytes, battery, temperature, supply, s16_at_les16]
  case some.none b => simp [measureBytes, battery, temperature, supply, s16_at_les16]
  case none.some t =>
    obtain ⟨low, high⟩ := range t temperature
    cases aged : t.aged <;> simp [measureBytes, battery, temperature, supply, s16_at_les16, low, high, aged]
  case some.some b t =>
    obtain ⟨low, high⟩ := range t temperature
    cases aged : t.aged <;> simp [measureBytes, battery, temperature, supply, s16_at_les16, low, high, aged]

theorem rail_num_lt (x : Rail) : x.num < 8 := by cases x <;> decide

theorem bit_le (b : Bool) : bit b ≤ 1 := by cases b <;> decide

theorem panelBytes_spec (s : State) :
    let x := (panelBytes s).1
    let y := (panelBytes s).2
    x.length = 16 ∧ y.length = 16 ∧
      u8 x 0 = bit s.upe.uncertain + 2 * s.pss.rail.num + 16 * bit s.upe.current.isSome ∧
      u8 x 1 = s.upe.cadence % 256 ∧ u8 x 2 = s.upe.list.length % 256 ∧
      u8 x 3 = (s.upe.lanes.filter fun l => l.state != .free).length % 256 ∧
      u32 x 4 = (match s.upe.current with
        | some p => p.tag.toNat
        | none => 0) ∧
      u16 x 8 = s.fsc.stretched.toNat ∧ u16 x 10 = s.fsc.scanErrors.toNat ∧ u8 x 12 = s.pss.history.length % 256 ∧
      u8 x 13 = 0 ∧ u16 x 14 = 0 ∧
      (∀ i, i < 3 → u32 y (4 * i) = (s.pss.history.getD i 0).toNat) ∧ u32 y 12 = 0 := by
  have flags : u8 (panelBytes s).1 0 = bit s.upe.uncertain + 2 * s.pss.rail.num + 16 * bit s.upe.current.isSome := by
    have := rail_num_lt s.pss.rail
    have := bit_le s.upe.uncertain
    have := bit_le s.upe.current.isSome
    simp [panelBytes]
    omega
  have tag : u32 (panelBytes s).1 4 = match s.upe.current with
      | some p => p.tag.toNat
      | none => 0 := by cases current : s.upe.current <;> simp [panelBytes, current]
  have used : (s.upe.lanes.filter fun l => !l.isFree) = s.upe.lanes.filter fun l => l.state != .free := rfl
  have faults : ∀ i, i < 3 → u32 (panelBytes s).2 (4 * i) = (s.pss.history.getD i 0).toNat := by
    intro i three
    interval_cases i <;> simp [panelBytes, List.range_succ]
  refine ⟨?_, ?_, flags, ?_, ?_, ?_, tag, ?_, ?_, ?_, ?_, ?_, faults, ?_⟩ <;> simp [panelBytes, used, List.range_succ]

theorem cause_num_le (x : RampCause) : x.num ≤ 4 := by cases x <;> decide

theorem lightBytes_spec (s : State) :
    let x := (lightBytes s).1
    let y := (lightBytes s).2
    x.length = 16 ∧ y.length = 16 ∧
      u16 x 0 = s.ltu.lr % 65536 ∧ u8 x 2 = s.ltu.mr % 256 ∧ u8 x 3 = s.ltu.warmth % 256 ∧ u16 x 4 = s.ltu.level % 65536 ∧
      u16 x 6 = s.ltu.ceiling % 65536 ∧ u16 x 8 = s.ltu.remembered % 65536 ∧
      u8 x 10 % 8 = bit s.ltu.keyOff + 2 * bit s.ltu.restDark + 4 * bit s.ltu.ramp.isSome ∧ u8 x 10 / 8 ≤ 4 ∧
      (∀ r, s.ltu.ramp = some r →
        u8 x 10 / 8 = r.cause.num ∧ u8 x 11 = r.tm % 256 ∧ u16 x 12 = r.t % 65536 ∧ u16 x 14 = r.n % 65536) ∧
      u16 y 0 = s.ltu.warm.duty % 65536 ∧ u16 y 2 = s.ltu.cool.duty % 65536 ∧ u32 y 4 = s.ltu.light.getD 0 % 4294967296 ∧
      u32 y 8 = 0 ∧ u32 y 12 = 0 := by
  have cause : (rampFields s).1 ≤ 4 := by
    unfold rampFields
    cases s.ltu.ramp with
    | some r => exact cause_num_le r.cause
    | none => exact Nat.le_of_lt_succ (Nat.mod_lt _ (by decide))
  have rest : (rampFields s).2.length = 5 := by
    unfold rampFields
    cases s.ltu.ramp <;> simp [freeBytes]
  have flags : u8 (lightBytes s).1 10 = bit s.ltu.keyOff + 2 * bit s.ltu.restDark + 4 * bit s.ltu.ramp.isSome + 8 * (rampFields s).1 := by
    have := bit_le s.ltu.keyOff
    have := bit_le s.ltu.restDark
    have := bit_le s.ltu.ramp.isSome
    simp [lightBytes]
    omega
  have low := bit_le s.ltu.keyOff
  have mid := bit_le s.ltu.restDark
  have high := bit_le s.ltu.ramp.isSome
  refine ⟨?_, ?_, ?_, ?_, ?_, ?_, ?_, ?_, ?_, ?_, fun r ramp => ⟨?_, ?_, ?_, ?_⟩, ?_, ?_, ?_, ?_, ?_⟩
  case refine_9 => omega
  case refine_10 => omega
  case refine_11 =>
    have fields : (rampFields s).1 = r.cause.num := by rw [rampFields, ramp]
    omega
  case refine_12 | refine_13 | refine_14 => simp [lightBytes, rampFields, ramp]
  all_goals simp [lightBytes, rest]

/-! ### Lists of counts and the rows of the logs -/

/-- A list of 16-bit counts in front of other bytes. -/
theorem u16_halves (l : List Half) (b : List Byte) {i : Nat} (inside : i < l.length) :
    u16 (l.flatMap (fun n => le16 n.toNat) ++ b) (2 * i) = (l.getD i 0).toNat := by
  have at_ : l[i]? = some l[i] := List.getElem?_eq_getElem inside
  have row := u16_row (f := fun n : Half => le16 n.toNat) (k := 2) (fun _ => rfl) b (i := 0) (by decide) at_
  rw [Nat.add_zero] at row
  rw [row, List.getD_eq_getElem?_getD, at_]
  simp

theorem length_halves (l : List Half) : (l.flatMap fun n => le16 n.toNat).length = 2 * l.length :=
  length_rows (f := fun n : Half => le16 n.toNat) (k := 2) (fun _ => rfl) l

theorem mirrorBytes_spec (l : List Half) (twelve : l.length = 12) : (l.flatMap fun n => le16 n.toNat).length = 24 ∧
    ∀ n, n < 12 → u16 (l.flatMap fun n => le16 n.toNat) (2 * n) = (l.getD n 0).toNat := by
  refine ⟨by rw [length_halves, twelve], fun n inside => ?_⟩
  simpa using u16_halves l [] (twelve.symm ▸ inside)

theorem linkBytes_spec (l : List Half) (seven : l.length = 7) :
    let x := l.flatMap (fun n => le16 n.toNat) ++ zeros 2
    x.length = 16 ∧ (∀ i, i < 7 → u16 x (2 * i) = (l.getD i 0).toNat) ∧ u16 x 14 = 0 := by
  have length : (l.flatMap fun n => le16 n.toNat).length = 14 := by rw [length_halves, seven]
  refine ⟨by simp [length], fun i inside => u16_halves l _ (seven.symm ▸ inside), ?_⟩
  rw [u16_past _ length (by decide)]
  simp

theorem role_num_le (x : Role) : x.num ≤ 4 := by cases x <;> decide

theorem keyBytes_spec (s : State) (four : s.ktu.counts.length = 4) :
    let y := keyBytes s
    y.length = 20 ∧ (∀ i, i < 4 → u16 y (2 * i) = (s.ktu.counts.getD i 0).toNat) ∧ u16 y 8 = s.ktu.dropped.toNat ∧
      u16 y 10 = s.ktu.reported.toNat ∧ u8 y 12 = s.ktu.lastRole.num ∧ u8 y 13 = 0 ∧ u16 y 14 = 0 ∧
      u32 y 16 = s.ktu.lastStamp.toNat := by
  have length : (s.ktu.counts.flatMap fun n => le16 n.toNat).length = 8 := by rw [length_halves, four]
  have role : s.ktu.lastRole.num % 256 = s.ktu.lastRole.num := Nat.mod_eq_of_lt (by have := role_num_le s.ktu.lastRole; omega)
  have counts : ∀ i, i < 4 → u16 (keyBytes s) (2 * i) = (s.ktu.counts.getD i 0).toNat := fun i inside => by
    rw [keyBytes]
    simp only [List.append_assoc]
    exact u16_halves _ _ (four.symm ▸ inside)
  refine ⟨?_, counts, ?_, ?_, ?_, ?_, ?_, ?_⟩ <;>
    simp [keyBytes, length, role, u8_past _ length, u16_past _ length, u32_past _ length]

theorem length_logEntryBytes (e : LogEntry) : (logEntryBytes e).length = 16 := by simp [logEntryBytes]

theorem dir_num_le (x : Dir) : x.num ≤ 1 := by cases x <;> decide

theorem code_num_lt (x : Code) : x.num < 256 := by cases x <;> decide

theorem logEntryBytes_spec (e : LogEntry) :
    u8 (logEntryBytes e) 0 = e.dir.num ∧ u8 (logEntryBytes e) 1 = e.result.num ∧
    u8 (logEntryBytes e) 2 = bit e.dropped.isSome + 2 * bit e.ofRest ∧ u8 (logEntryBytes e) 3 = 0 ∧
    u32 (logEntryBytes e) 4 = e.tag.toNat ∧ u32 (logEntryBytes e) 8 = e.stamp.toNat ∧
    u32 (logEntryBytes e) 12 = (match e.dropped with
      | some t => t.toNat
      | none => 0) := by
  have dir : e.dir.num % 256 = e.dir.num := Nat.mod_eq_of_lt (by have := dir_num_le e.dir; omega)
  have result : e.result.num % 256 = e.result.num := Nat.mod_eq_of_lt (code_num_lt e.result)
  have flags : u8 (logEntryBytes e) 2 = bit e.dropped.isSome + 2 * bit e.ofRest := by
    have := bit_le e.dropped.isSome
    have := bit_le e.ofRest
    simp [logEntryBytes]
    omega
  have dropped : u32 (logEntryBytes e) 12 = match e.dropped with
      | some t => t.toNat
      | none => 0 := by cases drop : e.dropped <;> simp [logEntryBytes, drop]
  refine ⟨?_, ?_, flags, ?_, ?_, ?_, dropped⟩ <;> simp [logEntryBytes, dir, result]

theorem logBytes_spec (s : State) (room : s.ktu.log.length ≤ 16) :
    let x := logBytes s
    x.length = 272 ∧ u8 x 0 = s.ktu.log.length ∧
      (∀ i, 1 ≤ i → i < 16 → u8 x i = 0) ∧
      (∀ j e, s.ktu.log[j]? = some e →
        let o := 16 + 16 * j
        u8 x o = e.dir.num ∧ u8 x (o + 1) = e.result.num ∧ u8 x (o + 2) = bit e.dropped.isSome + 2 * bit e.ofRest ∧
        u8 x (o + 3) = 0 ∧ u32 x (o + 4) = e.tag.toNat ∧ u32 x (o + 8) = e.stamp.toNat ∧
        u32 x (o + 12) = (match e.dropped with
          | some t => t.toNat
          | none => 0)) ∧
      (∀ i, 16 + 16 * s.ktu.log.length ≤ i → u8 x i = 0) := by
  have length := length_rows length_logEntryBytes s.ktu.log
  have head : (le8 s.ktu.log.length ++ zeros 15).length = 16 := by simp
  have split : logBytes s = (le8 s.ktu.log.length ++ zeros 15) ++ (s.ktu.log.flatMap logEntryBytes ++
      zeros (16 * (16 - s.ktu.log.length))) := by simp only [logBytes, List.append_assoc]
  intro x
  refine ⟨?_, ?_, fun i first inside => ?_, fun j e at_ => ?_, fun i past => ?_⟩
  · simp [x, logBytes, length]
    omega
  · simp only [x, logBytes, List.append_assoc, u8_at_le8]
    omega
  · rw [show x = _ from split, u8_left _ (by rw [head]; exact inside), u8_past _ (length_le8 _) first, u8_zeros]
  · obtain ⟨dir, result, flags, none, tag, stamp, dropped⟩ := logEntryBytes_spec e
    have byte {k : Nat} (inside : k < 16) : u8 x (16 + 16 * j + k) = u8 (logEntryBytes e) k := by
      rw [show x = _ from split, u8_past _ head (by omega), show 16 + 16 * j + k - 16 = 16 * j + k by omega,
        u8_row length_logEntryBytes _ inside at_]
    have word {k : Nat} (inside : k + 3 < 16) : u32 x (16 + 16 * j + k) = u32 (logEntryBytes e) k := by
      rw [show x = _ from split, u32_past _ head (by omega), show 16 + 16 * j + k - 16 = 16 * j + k by omega,
        u32_row length_logEntryBytes _ inside at_]
    exact ⟨(byte (k := 0) (by decide)).trans dir, (byte (by decide)).trans result, (byte (by decide)).trans flags,
      (byte (by decide)).trans none, (word (by decide)).trans tag, (word (by decide)).trans stamp, (word (by decide)).trans dropped⟩
  · rw [show x = _ from split, u8_past _ head (by omega), u8_past _ length (by omega), u8_zeros]

end Sys2Proof.Machine

end

section
/-! The rest context and the progress records, and the areas' addresses (sections 11.3 and 11.7). -/

set_option Elab.async false

namespace Sys2Proof.Machine

theorem length_freeBytes (s : State) (i n : Nat) : (freeBytes s i n).length = n := by simp [freeBytes]

/-! ### The rest context (section 11.7, entries 22 and 63) -/

theorem length_contextCode (s : State) : (contextCode s).length = 1 := by
  unfold contextCode
  cases s.rsc.imageState <;> rfl

theorem length_contextImage (s : State) : (contextImage s).length = 8 := by
  unfold contextImage
  cases s.rsc.image with
  | none => exact length_freeBytes s 0 8
  | some im => rfl

theorem length_contextTimes (p : Phase) (s : State) : (contextTimes p s).length = 8 := by cases p <;> rfl

theorem length_contextSupply (p : Phase) (s : State) : (contextSupply p s).1.length = 2 ∧ (contextSupply p s).2.length = 4 := by
  cases p <;> simp [contextSupply, length_freeBytes]

theorem contextCode_spec (s : State) (b : List Byte) : match s.rsc.imageState with
    | .ended c => u8 (contextCode s ++ b) 0 = c.num
    | _ => u8 (contextCode s ++ b) 0 ∈ [0, 1, 16, 17, 18, 32, 33, 34, 35, 36, 37, 48, 49, 50, 51, 52, 53] := by
  have coded (k : Nat) (inside : k < 17) : statusCodes.getD k 0 % 256 ∈
      [0, 1, 16, 17, 18, 32, 33, 34, 35, 36, 37, 48, 49, 50, 51, 52, 53] := by interval_cases k <;> decide
  have free : freeCode s 14 17 < 17 := Nat.mod_lt _ (by decide)
  cases state : s.rsc.imageState with
  | ended c =>
    simp only [contextCode, state, u8_at_le8]
    exact Nat.mod_eq_of_lt (code_num_lt c)
  | none | waitPlace | listed =>
    simp only [contextCode, state, u8_at_le8]
    exact coded _ free

theorem contextTimes_spec (p : Phase) (s : State) (b : List Byte) :
    u32 (contextTimes p s ++ b) 0 = (if p = .cancelled then 0 else s.rsc.entryTime.toNat) ∧
    u32 (contextTimes p s ++ b) 4 = (if p = .woken then s.rsc.wakeTime.toNat else 0) := by
  cases p <;> simp [contextTimes]

theorem contextSupply_spec (p : Phase) (s : State) (b : List Byte) :
    u8 ((contextSupply p s).1 ++ b) 0 ≤ 2 ∧ u8 ((contextSupply p s).1 ++ b) 1 ≤ 2 ∧
    (p ≠ .cancelled → u8 ((contextSupply p s).1 ++ b) 0 = s.rsc.entrySupply.num ∧
      u16 ((contextSupply p s).2 ++ b) 0 = s.rsc.entryBattery % 65536) ∧
    (p = .woken → u8 ((contextSupply p s).1 ++ b) 1 = s.rsc.wakeSupply.num ∧
      u16 ((contextSupply p s).2 ++ b) 2 = s.rsc.wakeBattery % 65536) := by
  have entry := supply_num_le s.rsc.entrySupply
  have wake := supply_num_le s.rsc.wakeSupply
  have free (i : Nat) : freeCode s i 3 < 3 := Nat.mod_lt _ (by decide)
  have free8 := free 8
  have free9 := free 9
  cases p <;> simp [contextSupply] <;> omega

theorem wakeCause_num_le (x : WakeCause) : x.num ≤ 4 := by cases x <;> decide

theorem imageState_num_le (x : ImageState) : x.num ≤ 3 := by cases x <;> simp [ImageState.num]

theorem phase_code (p : Phase) : p.num % 256 = match p with
    | .entered => 1
    | .woken => 2
    | .cancelled => 3 := by cases p <;> rfl

theorem contextBytes_spec (p : Phase) (s : State) :
    let x := contextBytes p s
    let r := s.rsc
    x.length = 64 ∧
    u8 x 0 = (match p with
      | .entered => 1
      | .woken => 2
      | .cancelled => 3) ∧
    u8 x 1 = bit r.forced + 2 * bit r.limit + 4 * bit r.keepLight + 8 * bit r.turnsEnabled + 16 * bit r.image.isSome ∧
    u8 x 2 = r.imageState.num ∧
    (match r.imageState with
      | .ended c => u8 x 3 = c.num
      | _ => u8 x 3 ∈ [0, 1, 16, 17, 18, 32, 33, 34, 35, 36, 37, 48, 49, 50, 51, 52, 53]) ∧
    u32 x 4 = r.record.getD 0 % 4294967296 ∧
    (∀ a st, r.image = some (a, st) → u32 x 8 = a % 4294967296 ∧ u32 x 12 = st % 4294967296) ∧
    u32 x 16 = r.wakeAfter % 4294967296 ∧
    u32 x 20 = (if p = .cancelled then 0 else r.entryTime.toNat) ∧ u32 x 24 = (if p = .woken then r.wakeTime.toNat else 0) ∧
    u8 x 28 = r.wake.num ∧ u8 x 29 = r.turns.toNat ∧ u8 x 30 = r.sleepFailures.toNat ∧ u8 x 31 = r.leaveRetries.toNat ∧
    u8 x 32 ≤ 2 ∧ u8 x 33 ≤ 2 ∧ (p ≠ .cancelled → u8 x 32 = r.entrySupply.num ∧ u16 x 36 = r.entryBattery % 65536) ∧
    (p = .woken → u8 x 33 = r.wakeSupply.num ∧ u16 x 38 = r.wakeBattery % 65536) ∧
    u16 x 34 = 0 ∧ (∀ i, 40 ≤ i → u8 x i = 0) := by
  intro x r
  obtain ⟨state, battery⟩ := length_contextSupply p s
  have code := length_contextCode s
  have image := length_contextImage s
  have times := length_contextTimes p s
  have flat : x = le8 p.num ++ (le8 (bit r.forced + 2 * bit r.limit + 4 * bit r.keepLight + 8 * bit r.turnsEnabled +
      16 * bit r.image.isSome) ++ (le8 r.imageState.num ++ (contextCode s ++ (le32 (r.record.getD 0) ++ (contextImage s ++
      (le32 r.wakeAfter ++ (contextTimes p s ++ (le8 r.wake.num ++ (r.turns :: r.sleepFailures :: r.leaveRetries ::
      ((contextSupply p s).1 ++ (zeros 2 ++ ((contextSupply p s).2 ++ zeros 24)))))))))))) := by
    simp [x, r, contextBytes]
  have flags : (bit r.forced + 2 * bit r.limit + 4 * bit r.keepLight + 8 * bit r.turnsEnabled + 16 * bit r.image.isSome) % 256 =
      bit r.forced + 2 * bit r.limit + 4 * bit r.keepLight + 8 * bit r.turnsEnabled + 16 * bit r.image.isSome := by
    have := bit_le r.forced
    have := bit_le r.limit
    have := bit_le r.keepLight
    have := bit_le r.turnsEnabled
    have := bit_le r.image.isSome
    omega
  have imageState : r.imageState.num % 256 = r.imageState.num := by have := imageState_num_le r.imageState; omega
  have wake : r.wake.num % 256 = r.wake.num := by have := wakeCause_num_le r.wake; omega
  have coded := contextCode_spec s
  have timed := contextTimes_spec p s
  have supplied := contextSupply_spec p s
  refine ⟨?_, ?_, ?_, ?_, ?_, ?_, fun a st picture => ?_, ?_, ?_, ?_, ?_, ?_, ?_, ?_, ?_, ?_, ?_, ?_, ?_, fun i past => ?_⟩
  case refine_1 => simp [flat, code, image, times, state, battery]
  case refine_2 => exact (by simp [flat] : u8 x 0 = p.num % 256).trans (phase_code p)
  case refine_3 =>
    simp only [flat, u8_past_le8, u8_at_le8]
    exact flags
  case refine_4 =>
    simp only [flat, u8_past_le8, u8_at_le8]
    exact imageState
  case refine_5 =>
    simp only [flat, u8_past_le8]
    exact coded _
  case refine_6 => simp [flat, u32_past _ code]
  case refine_7 =>
    have fields : contextImage s = le32 a ++ le32 st := by rw [contextImage, show s.rsc.image = some (a, st) from picture]
    simp [flat, fields, u32_past _ code]
  case refine_8 => simp [flat, u32_past _ code, u32_past _ image]
  case refine_9 =>
    simp only [flat, u32_past_le8, u32_past _ code, u32_past_le32, u32_past _ image, Nat.reduceLeDiff, Nat.reduceSub]
    exact (timed _).1
  case refine_10 =>
    simp only [flat, u32_past_le8, u32_past _ code, u32_past_le32, u32_past _ image, Nat.reduceLeDiff, Nat.reduceSub]
    exact (timed _).2
  case refine_11 => simp [flat, u8_past _ code, u8_past _ image, u8_past _ times, wake]
  case refine_12 | refine_13 | refine_14 => simp [flat, u8_past _ code, u8_past _ image, u8_past _ times]
  case refine_15 =>
    simp [flat, u8_past _ code, u8_past _ image, u8_past _ times, supplied]
  case refine_16 =>
    simp [flat, u8_past _ code, u8_past _ image, u8_past _ times, supplied]
  case refine_17 =>
    intro entered
    simp [flat, u8_past _ code, u8_past _ image, u8_past _ times, u16_past _ code, u16_past _ image, u16_past _ times, u16_past _ state,
      supplied, entered, r]
  case refine_18 =>
    intro woken
    have woke (b : List Byte) : u8 ((contextSupply p s).1 ++ b) 1 = s.rsc.wakeSupply.num ∧
        u16 ((contextSupply p s).2 ++ b) 2 = s.rsc.wakeBattery % 65536 := by
      obtain ⟨-, -, -, woke⟩ := supplied b
      exact woke woken
    simp [flat, u8_past _ code, u8_past _ image, u8_past _ times, u16_past _ code, u16_past _ image, u16_past _ times, u16_past _ state,
      woke, r]
  case refine_19 => simp [flat, u16_past _ code, u16_past _ image, u16_past _ times, u16_past _ state]
  case refine_20 =>
    obtain ⟨front, split⟩ : ∃ front, x = front ++ zeros 24 := ⟨_, rfl⟩
    have length : front.length = 40 := by
      have all : x.length = 64 := by simp [flat, code, image, times, state, battery]
      rw [split, List.length_append, length_zeros] at all
      omega
    rw [split, u8_past _ length past, u8_zeros]

/-! ### The progress records (section 11.7) -/

theorem slotState_num_le (x : SlotState) : x.num ≤ 5 := by cases x <;> decide

theorem progressBytes_spec (f : FileSlot) (few : f.extents.length ≤ 16) :
    let x := progressBytes f
    x.length = 160 ∧
      u8 x 0 = (if f.state = .free ∧ f.interrupted = true then 6 else f.state.num) ∧ u8 x 1 = f.extents.length ∧
      u16 x 2 = f.file.toNat ∧ u32 x 4 = f.len % 4294967296 ∧ u32 x 8 = f.crc.toNat ∧ u32 x 12 = f.computed.toNat ∧
      u32 x 16 = f.received % 4294967296 ∧ u32 x 20 = f.stamp.toNat ∧ u32 x 24 = 0 ∧ u32 x 28 = 0 ∧
      (∀ j e, f.extents[j]? = some e →
        u32 x (32 + 8 * j) = e.1 % 4294967296 ∧ u32 x (36 + 8 * j) = e.2 % 4294967296) ∧
      (∀ j, 32 + 8 * f.extents.length ≤ j → u8 x j = 0) := by
  intro x
  have even (e : Nat × Nat) : (le32 e.1 ++ le32 e.2).length = 8 := rfl
  have length := length_rows even f.extents
  have code : progressState f % 256 = if f.state = .free ∧ f.interrupted = true then 6 else f.state.num := by
    have := slotState_num_le f.state
    unfold progressState
    split <;> omega
  have some : f.extents.length % 256 = f.extents.length := Nat.mod_eq_of_lt (by omega)
  obtain ⟨head, split, front⟩ : ∃ head, x = head ++ (f.extents.flatMap (fun e => le32 e.1 ++ le32 e.2) ++
      zeros (8 * (16 - f.extents.length))) ∧ head.length = 32 := ⟨_, List.append_assoc _ _ _, by simp⟩
  refine ⟨?_, ?_, ?_, ?_, ?_, ?_, ?_, ?_, ?_, ?_, ?_, fun j e at_ => ⟨?_, ?_⟩, fun j past => ?_⟩
  case refine_1 =>
    rw [split, List.length_append, front, List.length_append, length, length_zeros]
    omega
  case refine_2 =>
    simp only [x, progressBytes, List.append_assoc, u8_at_le8]
    exact code
  case refine_3 =>
    simp only [x, progressBytes, List.append_assoc, u8_past_le8, u8_at_le8]
    exact some
  case refine_12 =>
    have row := u32_row even (zeros (8 * (16 - f.extents.length))) (i := 0) (by decide) at_
    rw [split, u32_past _ front (by omega), show 32 + 8 * j - 32 = 8 * j + 0 by omega, row, u32_at_le32]
  case refine_13 =>
    have row := u32_row even (zeros (8 * (16 - f.extents.length))) (i := 4) (by decide) at_
    rw [split, u32_past _ front (by omega), show 36 + 8 * j - 32 = 8 * j + 4 by omega, row]
    simp
  case refine_14 => rw [split, u8_past _ front (by omega), u8_past _ length (by omega), u8_zeros]
  all_goals simp [x, progressBytes]

/-! ### The areas' addresses (section 11.3) -/

theorem baseAligned_iff (s : State) : s.baseAligned = true ↔ s.baseAddr % 4096 = 0 := beq_iff_eq

/-- An area that lies within a 64-byte block of the aligned station block is written in one burst. -/
theorem writeBlocks_aligned {s : State} (aligned : s.baseAligned = true) {o : Nat} {l : List Byte} (some : l ≠ [])
    (fits : o % 64 + l.length ≤ 64) : writeBlocks (s.baseAddr + o) l = [(s.baseAddr + o, l)] :=
  writeBlocks_one some (by have := (baseAligned_iff s).mp aligned; omega)

end Sys2Proof.Machine

end

section
/-! The status writers' bursts: the grant, the completion, and what the areas hold (sections 1.2, 2.2 and 11.3). -/

set_option Elab.async false

namespace Sys2Proof.Machine

/-! ### The grant of a status burst (R22, R83, R201) -/

theorem areaWrites_sansBursts (a : Area) (s : State) : areaWrites a s.sansBursts = areaWrites a s := by cases a <;> rfl

theorem areaWrites_pump (a : Area) (s : State) : areaWrites a (pump s) = areaWrites a s := by
  rw [← areaWrites_sansBursts a (pump s), (pump_sansBursts s).1, areaWrites_sansBursts]

theorem areaWrites_taken (a : Area) (s : State) : areaWrites a (takeWaiting .station s) = areaWrites a s := by cases a <;> rfl

theorem statusUser_num_lt (u : StatusUser) : u.num < 8 := by cases u <;> decide

theorem statusUser_num_inj {u w : StatusUser} (same : u.num = w.num) : u = w := by
  cases u <;> cases w <;> first | rfl | exact absurd same (by decide)

theorem writer_setWriter {s : State} (eight : s.sif.writers.length = 8) (u : StatusUser) (w : Writer) :
    (s.setWriter u w).writer u = w := by
  have inside : u.num < s.sif.writers.length := eight.symm ▸ statusUser_num_lt u
  simp [State.writer, State.setWriter, inside]

theorem writer_setWriter_other {s : State} {u z : StatusUser} (other : z ≠ u) (w : Writer) : (s.setWriter u w).writer z = s.writer z := by
  have place : u.num ≠ z.num := fun same => other (statusUser_num_inj same).symm
  simp [State.writer, State.setWriter, List.getElem?_set_ne place]

theorem fillStatus_fills {b : Burst} {s : State} {u : StatusUser} {a : Area} {y : Nat × List Byte} {left : List (Nat × List Byte)}
    (user : b.user = .status u) (cur : (s.writer u).cur = some a) (asked : (s.writer u).granted = false)
    (writes : areaWrites a s = y :: left) : fillStatus b s =
      ({ b with addr := y.1, len := y.2.length, data := y.2 },
       { s.setWriter u { s.writer u with granted := true, left := left } with fresh := s.fresh + areaFresh a s }) := by
  unfold fillStatus
  rw [user]
  dsimp only
  rw [asked, cur]
  dsimp only
  rw [writes]

/-- A status burst takes its bytes at its grant and goes in flight. -/
theorem statusBurst_granted {s : State} {u : StatusUser} {b : Burst} {q : List Burst} {a : Area} {y : Nat × List Byte}
    {left : List (Nat × List Byte)} (opened : portOpen s = true) (idle : s.mpt.inflight = none) (live : s.sif.live = true)
    (calm : awaitsIdle s = false) (picked : pick (pump s) = some .station) (queue : s.mpt.stationQueue = b :: q)
    (user : b.user = .status u) (eight : s.sif.writers.length = 8) (cur : (s.writer u).cur = some a)
    (asked : (s.writer u).granted = false) (writes : areaWrites a s = y :: left) (inside : s.rangeOk y.1 y.2.length = true) :
    (portGrants s).mpt.inflight = some { b with addr := y.1, len := y.2.length, data := y.2 } ∧
    (portGrants s).mpt.stationQueue = q ∧ (portGrants s).writer u = { s.writer u with granted := true, left := left } ∧
    (∀ w, w ≠ u → (portGrants s).writer w = s.writer w) := by
  have rest := (pump_sansBursts s).1
  have station : (pump s).mpt.stationQueue = b :: q := (congrArg (fun x : State => x.mpt.stationQueue) rest :).trans queue
  have waits : waiting .station (pump s) = some b := (congrArg List.head? station :)
  have granted : portGrants s = _ := grants_picked (n := 65535) opened idle picked live calm waits
  let t := takeWaiting .station (pump s)
  have sif : t.sif = s.sif := (congrArg State.sif rest :)
  have settings : t.settings = s.settings := (congrArg State.settings rest :)
  have writer (w : StatusUser) : t.writer w = s.writer w := by rw [State.writer, sif, State.writer]
  have left_ : t.mpt.stationQueue = q := (congrArg List.tail station :)
  have filled : fillStatus b t = _ := fillStatus_fills user ((congrArg Writer.cur (writer u)).trans cur)
    ((congrArg Writer.granted (writer u)).trans asked) ((areaWrites_taken a _).trans ((areaWrites_pump a s).trans writes))
  have passes (f : Nat) (w : Writer) : windowPasses { b with addr := y.1, len := y.2.length, data := y.2 }
      ({ t.setWriter u w with fresh := f } : State) = true := by
    have range : ({ t.setWriter u w with fresh := f } : State).rangeOk y.1 y.2.length = s.rangeOk y.1 y.2.length := by
      simp only [State.rangeOk, State.windows, State.cfg, State.setWriter, settings, sif]
    rw [windowPasses, range, inside, Bool.or_true]
  dsimp only at granted
  rw [show fillStatus b (takeWaiting .station (pump s)) = _ from filled, passes, if_pos rfl] at granted
  rw [granted]
  have eight' : t.sif.writers.length = 8 := (congrArg (fun x : Sif => x.writers.length) sif).trans eight
  refine ⟨rfl, left_, ?_, fun w other => ?_⟩
  · exact (writer_setWriter eight' u _).trans (by rw [writer])
  · exact (writer_setWriter_other other _).trans (writer w)

/-! ### A status burst's completion (R190, R201, entry 44) -/

theorem wakeWritesOn_calm {s : State} (calm : s.sif.wakeOrder = .none) : wakeWritesOn s = s := by
  simp [wakeWritesOn, calm]

/-- The writer `u` is `w` and the bursts `l` have joined the STATION queue; of the port and the writers nothing else has changed. -/
def WriterGoes (u : StatusUser) (w : Writer) (l : List Burst) (s t : State) : Prop :=
  t.writer u = w ∧ t.mpt.stationQueue = s.mpt.stationQueue ++ l ∧ ∀ z, z ≠ u → t.writer z = s.writer z

theorem writerGoes_set {s t : State} (eight : s.sif.writers.length = 8) {u : StatusUser} {w : Writer} {l : List Burst}
    (e : t = { s.setWriter u w with mpt.stationQueue := s.mpt.stationQueue ++ l }) : WriterGoes u w l s t := by
  subst e
  exact ⟨writer_setWriter eight u w, rfl, fun z other => writer_setWriter_other other w⟩

theorem setWriter_setWriter (s : State) (u : StatusUser) (v w : Writer) : (s.setWriter u v).setWriter u w = s.setWriter u w := by
  simp [State.setWriter, List.set_set]

section
variable {s : State} {u : StatusUser} (calm : s.sif.wakeOrder = .none) (eight : s.sif.writers.length = 8)
include calm

theorem writerNext_continues {y : Nat × List Byte} {l : List (Nat × List Byte)} (left : (s.writer u).left = y :: l) :
    writerNext u true s = { s.setWriter u { s.writer u with left := l } with
      mpt.stationQueue := s.mpt.stationQueue ++ [stationBurst (.status u) true y.1 y.2.length y.2] } := by
  unfold writerNext
  dsimp only
  rw [left]
  exact wakeWritesOn_calm calm

omit calm in
theorem writerNext_ends {ok : Bool} (final : ok = false ∨ (s.writer u).left = []) : writerNext u ok s =
    wakeWritesOn (writerBegin u (s.setWriter u { s.writer u with cur := none, granted := false, left := [] })) := by
  unfold writerNext
  dsimp only
  rcases final with bad | last
  · rw [bad]
  · rw [last]
    cases ok <;> rfl

include eight

theorem writerNext_rests {ok : Bool} (final : ok = false ∨ (s.writer u).left = []) (empty : (s.writer u).queued = []) :
    writerNext u ok s = s.setWriter u ⟨none, false, [], []⟩ := by
  have set := writer_setWriter eight u { s.writer u with cur := none, granted := false, left := [] }
  have begun : writerBegin u (s.setWriter u { s.writer u with cur := none, granted := false, left := [] }) =
      s.setWriter u { s.writer u with cur := none, granted := false, left := [] } := by
    unfold writerBegin
    rw [set]
    dsimp only
    rw [empty]
  rw [writerNext_ends final, begun]
  refine (wakeWritesOn_calm (s := s.setWriter u { s.writer u with cur := none, granted := false, left := [] }) calm).trans ?_
  exact congrArg (fun q => s.setWriter u ⟨none, false, [], q⟩) empty

theorem writerNext_begins {ok : Bool} (final : ok = false ∨ (s.writer u).left = []) {a : Area} {l : List Area}
    (queued : (s.writer u).queued = a :: l) (own : a.user = u) : writerNext u ok s =
      { s.setWriter u ⟨some a, false, [], l⟩ with
        mpt.stationQueue := s.mpt.stationQueue ++ [stationBurst (.status u) true (s.baseAddr + a.offset) 0 []] } := by
  have set := writer_setWriter eight u { s.writer u with cur := none, granted := false, left := [] }
  have free : writerHeld u (s.setWriter u { s.writer u with cur := none, granted := false, left := [] }) = false := by
    unfold writerHeld
    rw [show (s.setWriter u _).sif.wakeOrder = WakeOrder.none from calm]
  have begun : writerBegin u (s.setWriter u { s.writer u with cur := none, granted := false, left := [] }) =
      beginArea a { s.writer u with cur := none, granted := false, left := [], queued := l }
        (s.setWriter u { s.writer u with cur := none, granted := false, left := [] }) := by
    unfold writerBegin
    rw [set]
    dsimp only
    rw [queued]
    exact if_pos ⟨rfl, free⟩
  rw [writerNext_ends final, begun, beginArea, own, setWriter_setWriter]
  exact wakeWritesOn_calm calm

end

theorem writer_withRsc (s : State) (r : Rsc) (u : StatusUser) : ({ s with rsc := r } : State).writer u = s.writer u := rfl

/-- The Rest Controller's share of a completed status burst (R190). -/
def State.contextWritten (w : Writer) (s : State) : Rsc :=
  match w.cur with
  | some (.context p _) => (contextDone p s).rsc
  | _ => s.rsc

theorem statusDone_eq (u : StatusUser) (ok : Bool) (s : State) :
    statusDone u ok s = writerNext u ok { s with rsc := s.contextWritten (s.writer u) } := by
  have context (p : Phase) : contextDone p s = { s with rsc := (contextDone p s).rsc } := by
    unfold contextDone
    split <;> rfl
  unfold statusDone State.contextWritten
  cases cur : (s.writer u).cur with
  | none => rfl
  | some a =>
    cases a with
    | context p b => exact congrArg (writerNext u ok) (context p)
    | _ => rfl

theorem contextWritten_spec (w : Writer) (s : State) :
    let entered := (∃ bytes, w.cur = some (.context .entered bytes)) ∧ s.rsc.drain = .writing ∧ (s.writer .rest).queued = []
    (entered → s.contextWritten w = { s.rsc with drain := .written }) ∧ (¬entered → s.contextWritten w = s.rsc) := by
  refine ⟨fun ⟨⟨bytes, cur⟩, writing, last⟩ => ?_, fun other => ?_⟩
  · rw [State.contextWritten, cur]
    dsimp only
    rw [contextDone, if_pos ⟨rfl, writing, last⟩]
  · unfold State.contextWritten
    split
    · next p bytes cur =>
      rw [contextDone, if_neg]
      rintro ⟨rfl, writing, last⟩
      exact other ⟨⟨bytes, cur⟩, writing, last⟩
    · rfl

end Sys2Proof.Machine

end

section
/-! What the status areas hold, and how their writes go on (sections 1.2, 2.2 and 11.3). -/

set_option Elab.async false

namespace Sys2Proof.Machine

/-- A status burst completes: its writer goes on, and a completed ENTERED context is noted (R190, R201, entry 44). -/
theorem statusBurst_completes {x : Answer} {data : List Byte} {s : State} {b : Burst} {u : StatusUser} (user : b.user = .status u)
    (live : b.fate = .live) (calm : s.sif.wakeOrder = .none) (eight : s.sif.writers.length = 8) :
    let t := complete b x data s
    let w := s.writer u
    (∀ y l, x = .okay → w.left = y :: l →
      WriterGoes u { w with left := l } [stationBurst (.status u) true y.1 y.2.length y.2] s t) ∧
    (x ≠ .okay ∨ w.left = [] →
      (w.queued = [] → WriterGoes u ⟨none, false, [], []⟩ [] s t) ∧
      (∀ a l, w.queued = a :: l → a.user = u →
        WriterGoes u ⟨some a, false, [], l⟩ [stationBurst (.status u) true (s.baseAddr + a.offset) 0 []] s t)) := by
  intro t w
  let v : State := { s with rsc := s.contextWritten w }
  have okay (yes : x = .okay) : t = writerNext u true v := by
    unfold t
    rw [yes, complete_okay live, user]
    exact statusDone_eq u true s
  have failed (bad : x ≠ .okay) : t = writerNext u false v := by
    unfold t
    rw [complete_fail live bad, user]
    exact statusDone_eq u false s
  have ends (final : x ≠ .okay ∨ w.left = []) : ∃ ok, t = writerNext u ok v ∧ (ok = false ∨ (v.writer u).left = []) := by
    by_cases yes : x = .okay
    · exact ⟨true, okay yes, .inr (final.resolve_left (not_not.mpr yes))⟩
    · exact ⟨false, failed yes, .inl rfl⟩
  refine ⟨fun y l yes left => ?_, fun final => ⟨fun empty => ?_, fun a l queued own => ?_⟩⟩
  · rw [okay yes, writerNext_continues (s := v) calm left]
    exact ⟨writer_setWriter (s := v) eight u _, rfl, fun z other => writer_setWriter_other (s := v) other _⟩
  · obtain ⟨ok, e, last⟩ := ends final
    rw [e, writerNext_rests (s := v) calm eight last empty]
    exact ⟨writer_setWriter (s := v) eight u _, (List.append_nil _).symm, fun z other => writer_setWriter_other (s := v) other _⟩
  · obtain ⟨ok, e, last⟩ := ends final
    rw [e, writerNext_begins (s := v) calm eight last queued own]
    exact ⟨writer_setWriter (s := v) eight u _, rfl, fun z other => writer_setWriter_other (s := v) other _⟩

/-- From `s` to `t` only the status writers and the STATION queue may differ. -/
def WritersOnly (s t : State) : Prop := t.sansStatus = s.sansStatus ∧ t.rsc = s.rsc ∧ t.sif.wakeOrder = s.sif.wakeOrder

theorem writersOnly_begin (u : StatusUser) (s : State) : WritersOnly s (writerBegin u s) := by
  unfold writerBegin
  dsimp only
  split
  · split <;> exact ⟨rfl, rfl, rfl⟩
  · exact ⟨rfl, rfl, rfl⟩

theorem writersOnly_next {s : State} (calm : s.sif.wakeOrder = .none) (u : StatusUser) (ok : Bool) : WritersOnly s (writerNext u ok s) := by
  have ends : WritersOnly s (writerBegin u (s.setWriter u { s.writer u with cur := none, granted := false, left := [] })) := by
    obtain ⟨sans, rsc, order⟩ := writersOnly_begin u (s.setWriter u { s.writer u with cur := none, granted := false, left := [] })
    exact ⟨sans, rsc, order⟩
  by_cases final : ok = false ∨ (s.writer u).left = []
  · obtain ⟨sans, rsc, order⟩ := ends
    rw [writerNext_ends final, wakeWritesOn_calm (order.trans calm)]
    exact ⟨sans, rsc, order⟩
  · obtain ⟨good, more⟩ := not_or.mp final
    obtain ⟨y, l, left⟩ := List.exists_cons_of_ne_nil more
    rw [Bool.not_eq_false] at good
    rw [good, writerNext_continues calm left]
    exact ⟨rfl, rfl, rfl⟩

theorem statusBurst_frame {x : Answer} {data : List Byte} {s : State} {b : Burst} {u : StatusUser} (user : b.user = .status u)
    (live : b.fate = .live) (calm : s.sif.wakeOrder = .none) : (complete b x data s).rsc = s.contextWritten (s.writer u) ∧
    ({ complete b x data s with rsc := s.rsc } : State).sansStatus = s.sansStatus := by
  have completed : ∃ ok, complete b x data s = writerNext u ok { s with rsc := s.contextWritten (s.writer u) } := by
    by_cases yes : x = .okay
    · exact ⟨true, by rw [yes, complete_okay live, user]; exact statusDone_eq u true s⟩
    · exact ⟨false, by rw [complete_fail live yes, user]; exact statusDone_eq u false s⟩
  obtain ⟨ok, e⟩ := completed
  obtain ⟨sans, rsc, -⟩ := writersOnly_next (s := { s with rsc := s.contextWritten (s.writer u) }) calm u ok
  rw [e]
  exact ⟨rsc, (congrArg (fun y : State => ({ y with rsc := s.rsc } : State)) sans :)⟩

theorem retiredBytes_spec (a b c : Word) :
    let r := le32 a.toNat ++ le32 b.toNat ++ le32 c.toNat
    r.length = 12 ∧ (u32 r 0 = a.toNat ∧ u32 r 4 = b.toNat ∧ u32 r 8 = c.toNat) := by simp

/-- Settles O19: the bytes area by area, the grant of a status burst, and its completion. -/
theorem statusAreasHoldTheValues : Obligations.StatusAreasHoldTheValues := by
  unfold Obligations.StatusAreasHoldTheValues
  refine ⟨fun a l => writeBlocks_spec l.length a l rfl, fun s aligned twelve => ?_, fun s range => ?_, fun s => ?_, fun s => ?_,
    fun s seven four => ?_, fun s room => ?_, fun p s => ?_, fun i s few => ?_, ?_, ?_⟩
  · obtain ⟨mirror, halves⟩ := mirrorBytes_spec s.sif.posted twelve
    obtain ⟨capture, fields⟩ := captureBytes_spec s
    obtain ⟨retired, counts⟩ := retiredBytes_spec s.sif.page.retired s.sif.control.retired s.sif.fetch.retired
    refine ⟨_, _, _, writeBlocks_aligned aligned ?_ ?_, mirror, halves, writeBlocks_aligned aligned ?_ ?_, retired, counts,
      writeBlocks_aligned aligned ?_ ?_, capture, fields⟩
    · rw [← List.length_pos_iff, mirror]; decide
    · rw [mirror]; decide
    · rw [← List.length_pos_iff, retired]; decide
    · rw [retired]; decide
    · rw [← List.length_pos_iff, capture]; decide
    · rw [capture]; decide
  · exact ⟨(measureBytes s).1, (measureBytes s).2, rfl, measureBytes_spec s range⟩
  · exact ⟨(panelBytes s).1, (panelBytes s).2, rfl, panelBytes_spec s⟩
  · exact ⟨(lightBytes s).1, (lightBytes s).2, rfl, lightBytes_spec s⟩
  · obtain ⟨length, halves, zero⟩ := linkBytes_spec s.dlc.counters seven
    exact ⟨_, keyBytes s, rfl, length, halves, zero, rfl, keyBytes_spec s four⟩
  · exact ⟨logBytes s, rfl, logBytes_spec s room⟩
  · exact ⟨fun b => rfl, contextBytes_spec p s⟩
  · exact ⟨progressBytes (s.slot i), congrArg (writeBlocks · _) (Nat.add_assoc _ _ _).symm, progressBytes_spec (s.slot i) few⟩
  · intro s u b q a y left opened idle live calm picked queue user eight cur asked writes inside
    exact statusBurst_granted opened idle live calm picked queue user eight cur asked writes inside
  · intro x data s b u user live calm eight t w began
    obtain ⟨continues, ends⟩ := statusBurst_completes (x := x) (data := data) user live calm eight
    obtain ⟨rsc, frame⟩ := statusBurst_frame (x := x) (data := data) (s := s) user live calm
    obtain ⟨entered, other⟩ := contextWritten_spec w s
    exact ⟨continues, ends, ⟨fun h => rsc.trans (entered h), fun h => rsc.trans (other h)⟩, frame⟩

end Sys2Proof.Machine

end
